-- ==== Sys2Proof/Word.lean ====
section
/-! DEFINITION. The two word types of the machine (spec/00_scope.md R8): bytes and 16-bit words.
Everything computed from them (byte order, sign extension, bit fields) stands in Machine/Bits.lean. -/

namespace Sys2Proof

/-- R8: "a byte is 8 bits". -/
abbrev Byte := BitVec 8

/-- R8: addresses and the registers D, X, Y, U, S and PC are 16 bits. -/
abbrev Word := BitVec 16

end Sys2Proof
end

