-- ==== Sys2Proof/Machine/Bits.lean ====
section
/-! DEFINITION. Byte order, sign extension and the like (spec/00_scope.md R11, R13; 20_memory.md R80). -/

namespace Sys2Proof

/-- R11 `a:b`, R80: the word whose high byte is h and whose low byte is l. -/
def wordOf (h l : Byte) : Word := h ++ l

/-- R13: v[15:8], the byte stored at the lower address. -/
def hiByte (w : Word) : Byte := w.extractLsb' 8 8

/-- R13: v[7:0], the byte stored at the higher address. -/
def loByte (w : Word) : Byte := w.extractLsb' 0 8

/-- R11 `sext16` of a byte. -/
def sext8 (b : Byte) : Word := b.signExtend 16

/-- R11 `sext16` of a 5-bit field. -/
def sext5 (n : BitVec 5) : Word := n.signExtend 16

/-- R11 `zext16`. -/
def zext8 (b : Byte) : Word := b.setWidth 16


end Sys2Proof
end

