-- ==== Sys2Proof/Syntax.lean ====
section
/-! DEFINITION. The instructions: one constructor for each of the 132 mnemonics of spec/opcode_table.json. The table's
268 rows are these constructors with the addressing mode as operand: a row LDA/IMM8 is `.lda (.imm _)`, LDA/DIR is
`.lda (.mem (.dir _))`, LDA/IDX is `.lda (.mem (.idx _))`, LDA/EXT is `.lda (.mem (.ext _))` (30_encoding.md R111,
R121 to R124), and an operand type holds exactly the modes the table gives its instructions (log entry 1). -/

namespace Sys2Proof

/-- The base register of an indexed form, R118: RR = 00 X, 01 Y, 10 U, 11 S. -/
inductive IndexReg where
  | x | y | u | s
  deriving DecidableEq, Repr

/-- The indexed forms that have an indirect twin (R118, column "I = 1 allowed"). The PC-relative forms ignore RR. -/
inductive IndexMode where
  | inc2 (r : IndexReg)
  | dec2 (r : IndexReg)
  | zero (r : IndexReg)
  | accB (r : IndexReg)
  | accA (r : IndexReg)
  | accD (r : IndexReg)
  | off8 (r : IndexReg) (n : Byte)
  | off16 (r : IndexReg) (n : Word)
  | pcr8 (n : Byte)
  | pcr16 (n : Word)
  deriving DecidableEq, Repr

/-- An indexed operand (R118): the three forms without an indirect twin, the others with their indirect bit, and
extended indirect, which is always indirect. The postbytes of R129 have no value here. -/
inductive Indexed where
  | off5 (r : IndexReg) (n : BitVec 5)
  | inc1 (r : IndexReg)
  | dec1 (r : IndexReg)
  | mode (m : IndexMode) (indirect : Bool)
  | absIndirect (n : Word)
  deriving DecidableEq, Repr

/-- A memory operand: the formats DIR, EXT and IDX of R111. -/
inductive Mem where
  | dir (dd : Byte)
  | ext (hhll : Word)
  | idx (x : Indexed)
  deriving DecidableEq, Repr

/-- An 8-bit source operand: IMM8 or a memory operand (R142, R159). -/
inductive Src8 where
  | imm (ii : Byte)
  | mem (m : Mem)
  deriving DecidableEq, Repr

/-- A 16-bit source operand: IMM16 or a memory operand (R142, R159). -/
inductive Src16 where
  | imm (iiii : Word)
  | mem (m : Mem)
  deriving DecidableEq, Repr

/-- The registers a nibble of the TFR/EXG postbyte can name (R119). -/
inductive RegCode where
  | d | x | y | u | s | pc | a | b | cc | dp
  deriving DecidableEq, Repr

/-- An instruction with its operand fields. The register list of PSHS, PULS, PSHU and PULU is the postbyte of R120
as it stands: eight register bits, every value legal. -/
inductive Instr where
  -- spec/41_load_store.md
  /-- R170 `LDA` (IMM8, DIR, IDX, EXT). -/
  | lda (src : Src8)
  /-- R171 `LDB` (IMM8, DIR, IDX, EXT). -/
  | ldb (src : Src8)
  /-- R172 `LDD` (IMM16, DIR, IDX, EXT). -/
  | ldd (src : Src16)
  /-- R173 `LDX` (IMM16, DIR, IDX, EXT). -/
  | ldx (src : Src16)
  /-- R174 `LDY` (IMM16, DIR, IDX, EXT). -/
  | ldy (src : Src16)
  /-- R175 `LDU` (IMM16, DIR, IDX, EXT). -/
  | ldu (src : Src16)
  /-- R176 `LDS` (IMM16, DIR, IDX, EXT). -/
  | lds (src : Src16)
  /-- R177 `STA` (DIR, IDX, EXT). -/
  | sta (m : Mem)
  /-- R178 `STB` (DIR, IDX, EXT). -/
  | stb (m : Mem)
  /-- R179 `STD` (DIR, IDX, EXT). -/
  | std (m : Mem)
  /-- R180 `STX` (DIR, IDX, EXT). -/
  | stx (m : Mem)
  /-- R181 `STY` (DIR, IDX, EXT). -/
  | sty (m : Mem)
  /-- R182 `STU` (DIR, IDX, EXT). -/
  | stu (m : Mem)
  /-- R183 `STS` (DIR, IDX, EXT). -/
  | sts (m : Mem)
  /-- R184 `LEAX` (IDX). -/
  | leax (x : Indexed)
  /-- R185 `LEAY` (IDX). -/
  | leay (x : Indexed)
  /-- R186 `LEAU` (IDX). -/
  | leau (x : Indexed)
  /-- R187 `LEAS` (IDX). -/
  | leas (x : Indexed)
  -- spec/42_alu8.md
  /-- R203 `ADDA` (IMM8, DIR, IDX, EXT). -/
  | adda (src : Src8)
  /-- R204 `ADDB` (IMM8, DIR, IDX, EXT). -/
  | addb (src : Src8)
  /-- R205 `ADCA` (IMM8, DIR, IDX, EXT). -/
  | adca (src : Src8)
  /-- R206 `ADCB` (IMM8, DIR, IDX, EXT). -/
  | adcb (src : Src8)
  /-- R207 `SUBA` (IMM8, DIR, IDX, EXT). -/
  | suba (src : Src8)
  /-- R208 `SUBB` (IMM8, DIR, IDX, EXT). -/
  | subb (src : Src8)
  /-- R209 `SBCA` (IMM8, DIR, IDX, EXT). -/
  | sbca (src : Src8)
  /-- R210 `SBCB` (IMM8, DIR, IDX, EXT). -/
  | sbcb (src : Src8)
  /-- R211 `CMPA` (IMM8, DIR, IDX, EXT). -/
  | cmpa (src : Src8)
  /-- R212 `CMPB` (IMM8, DIR, IDX, EXT). -/
  | cmpb (src : Src8)
  /-- R213 `ANDA` (IMM8, DIR, IDX, EXT). -/
  | anda (src : Src8)
  /-- R214 `ANDB` (IMM8, DIR, IDX, EXT). -/
  | andb (src : Src8)
  /-- R215 `BITA` (IMM8, DIR, IDX, EXT). -/
  | bita (src : Src8)
  /-- R216 `BITB` (IMM8, DIR, IDX, EXT). -/
  | bitb (src : Src8)
  /-- R217 `ORA` (IMM8, DIR, IDX, EXT). -/
  | ora (src : Src8)
  /-- R218 `ORB` (IMM8, DIR, IDX, EXT). -/
  | orb (src : Src8)
  /-- R219 `EORA` (IMM8, DIR, IDX, EXT). -/
  | eora (src : Src8)
  /-- R220 `EORB` (IMM8, DIR, IDX, EXT). -/
  | eorb (src : Src8)
  /-- R221 `DAA` (INH). -/
  | daa
  /-- R222 `MUL` (INH). -/
  | mul
  /-- R223 `SEX` (INH). -/
  | sex
  -- spec/43_alu16.md
  /-- R242 `ADDD` (IMM16, DIR, IDX, EXT). -/
  | addd (src : Src16)
  /-- R243 `SUBD` (IMM16, DIR, IDX, EXT). -/
  | subd (src : Src16)
  /-- R244 `CMPD` (IMM16, DIR, IDX, EXT). -/
  | cmpd (src : Src16)
  /-- R245 `CMPX` (IMM16, DIR, IDX, EXT). -/
  | cmpx (src : Src16)
  /-- R246 `CMPY` (IMM16, DIR, IDX, EXT). -/
  | cmpy (src : Src16)
  /-- R247 `CMPU` (IMM16, DIR, IDX, EXT). -/
  | cmpu (src : Src16)
  /-- R248 `CMPS` (IMM16, DIR, IDX, EXT). -/
  | cmps (src : Src16)
  /-- R249 `ABX` (INH). -/
  | abx
  -- spec/44_unary.md
  /-- R261 `NEG` (DIR, IDX, EXT). -/
  | neg (m : Mem)
  /-- R262 `NEGA` (INH). -/
  | nega
  /-- R263 `NEGB` (INH). -/
  | negb
  /-- R264 `COM` (DIR, IDX, EXT). -/
  | com (m : Mem)
  /-- R265 `COMA` (INH). -/
  | coma
  /-- R266 `COMB` (INH). -/
  | comb
  /-- R267 `LSR` (DIR, IDX, EXT). -/
  | lsr (m : Mem)
  /-- R268 `LSRA` (INH). -/
  | lsra
  /-- R269 `LSRB` (INH). -/
  | lsrb
  /-- R270 `ROR` (DIR, IDX, EXT). -/
  | ror (m : Mem)
  /-- R271 `RORA` (INH). -/
  | rora
  /-- R272 `RORB` (INH). -/
  | rorb
  /-- R273 `ASR` (DIR, IDX, EXT). -/
  | asr (m : Mem)
  /-- R274 `ASRA` (INH). -/
  | asra
  /-- R275 `ASRB` (INH). -/
  | asrb
  /-- R276 `ASL` (DIR, IDX, EXT). -/
  | asl (m : Mem)
  /-- R277 `ASLA` (INH). -/
  | asla
  /-- R278 `ASLB` (INH). -/
  | aslb
  /-- R279 `ROL` (DIR, IDX, EXT). -/
  | rol (m : Mem)
  /-- R280 `ROLA` (INH). -/
  | rola
  /-- R281 `ROLB` (INH). -/
  | rolb
  /-- R282 `DEC` (DIR, IDX, EXT). -/
  | dec (m : Mem)
  /-- R283 `DECA` (INH). -/
  | deca
  /-- R284 `DECB` (INH). -/
  | decb
  /-- R285 `INC` (DIR, IDX, EXT). -/
  | inc (m : Mem)
  /-- R286 `INCA` (INH). -/
  | inca
  /-- R287 `INCB` (INH). -/
  | incb
  /-- R288 `TST` (DIR, IDX, EXT). -/
  | tst (m : Mem)
  /-- R289 `TSTA` (INH). -/
  | tsta
  /-- R290 `TSTB` (INH). -/
  | tstb
  /-- R291 `CLR` (DIR, IDX, EXT). -/
  | clr (m : Mem)
  /-- R292 `CLRA` (INH). -/
  | clra
  /-- R293 `CLRB` (INH). -/
  | clrb
  -- spec/45_control.md
  /-- R311 `BRA` (REL8). -/
  | bra (rr : Byte)
  /-- R312 `BRN` (REL8). -/
  | brn (rr : Byte)
  /-- R313 `BHI` (REL8). -/
  | bhi (rr : Byte)
  /-- R314 `BLS` (REL8). -/
  | bls (rr : Byte)
  /-- R315 `BHS` (REL8). -/
  | bhs (rr : Byte)
  /-- R316 `BLO` (REL8). -/
  | blo (rr : Byte)
  /-- R317 `BNE` (REL8). -/
  | bne (rr : Byte)
  /-- R318 `BEQ` (REL8). -/
  | beq (rr : Byte)
  /-- R319 `BVC` (REL8). -/
  | bvc (rr : Byte)
  /-- R320 `BVS` (REL8). -/
  | bvs (rr : Byte)
  /-- R321 `BPL` (REL8). -/
  | bpl (rr : Byte)
  /-- R322 `BMI` (REL8). -/
  | bmi (rr : Byte)
  /-- R323 `BGE` (REL8). -/
  | bge (rr : Byte)
  /-- R324 `BLT` (REL8). -/
  | blt (rr : Byte)
  /-- R325 `BGT` (REL8). -/
  | bgt (rr : Byte)
  /-- R326 `BLE` (REL8). -/
  | ble (rr : Byte)
  /-- R327 `LBRA` (REL16). -/
  | lbra (rrrr : Word)
  /-- R328 `LBRN` (REL16). -/
  | lbrn (rrrr : Word)
  /-- R329 `LBHI` (REL16). -/
  | lbhi (rrrr : Word)
  /-- R330 `LBLS` (REL16). -/
  | lbls (rrrr : Word)
  /-- R331 `LBHS` (REL16). -/
  | lbhs (rrrr : Word)
  /-- R332 `LBLO` (REL16). -/
  | lblo (rrrr : Word)
  /-- R333 `LBNE` (REL16). -/
  | lbne (rrrr : Word)
  /-- R334 `LBEQ` (REL16). -/
  | lbeq (rrrr : Word)
  /-- R335 `LBVC` (REL16). -/
  | lbvc (rrrr : Word)
  /-- R336 `LBVS` (REL16). -/
  | lbvs (rrrr : Word)
  /-- R337 `LBPL` (REL16). -/
  | lbpl (rrrr : Word)
  /-- R338 `LBMI` (REL16). -/
  | lbmi (rrrr : Word)
  /-- R339 `LBGE` (REL16). -/
  | lbge (rrrr : Word)
  /-- R340 `LBLT` (REL16). -/
  | lblt (rrrr : Word)
  /-- R341 `LBGT` (REL16). -/
  | lbgt (rrrr : Word)
  /-- R342 `LBLE` (REL16). -/
  | lble (rrrr : Word)
  /-- R343 `BSR` (REL8). -/
  | bsr (rr : Byte)
  /-- R344 `LBSR` (REL16). -/
  | lbsr (rrrr : Word)
  /-- R345 `JMP` (DIR, IDX, EXT). -/
  | jmp (m : Mem)
  /-- R346 `JSR` (DIR, IDX, EXT). -/
  | jsr (m : Mem)
  /-- R347 `RTS` (INH). -/
  | rts
  -- spec/46_register_stack.md
  /-- R360 `TFR` (PBR). -/
  | tfr (r1 r2 : RegCode)
  /-- R361 `EXG` (PBR). -/
  | exg (r1 r2 : RegCode)
  /-- R362 `PSHS` (PBS). -/
  | pshs (pb : Byte)
  /-- R363 `PULS` (PBS). -/
  | puls (pb : Byte)
  /-- R364 `PSHU` (PBS). -/
  | pshu (pb : Byte)
  /-- R365 `PULU` (PBS). -/
  | pulu (pb : Byte)
  /-- R366 `ANDCC` (IMM8). -/
  | andcc (ii : Byte)
  /-- R367 `ORCC` (IMM8). -/
  | orcc (ii : Byte)
  /-- R368 `NOP` (INH). -/
  | nop
  -- spec/47_system.md
  /-- R380 `SWI` (INH). -/
  | swi
  /-- R381 `SWI2` (INH). -/
  | swi2
  /-- R382 `SWI3` (INH). -/
  | swi3
  /-- R383 `RTI` (INH). -/
  | rti
  /-- R384 `CWAI` (IMM8). -/
  | cwai (ii : Byte)
  /-- R385 `SYNC` (INH). -/
  | sync
  deriving DecidableEq, Repr

end Sys2Proof
end

