-- ==== Sys2Proof/WellFormed.lean ====
section
/-! DEFINITION. The one condition an instruction's operands can break: the two registers of TFR and EXG must have the
same width (spec/30_encoding.md R119, R130). Every other operand type holds exactly the values an encoding has. -/

namespace Sys2Proof

/-- R119: codes 0 to 5 name 16-bit registers, codes 8 to B 8-bit ones. -/
def RegCode.wide : RegCode → Bool
  | .d | .x | .y | .u | .s | .pc => true
  | .a | .b | .cc | .dp => false

/-- R130: a TFR or EXG whose registers differ in width is an invalid instruction; every other instruction term is
well formed. -/
def Instr.wellFormed : Instr → Bool
  | .tfr r1 r2 => r1.wide == r2.wide
  | .exg r1 r2 => r1.wide == r2.wide
  | .lda _ | .ldb _ | .ldd _ | .ldx _ | .ldy _ | .ldu _ | .lds _ | .sta _ | .stb _ | .std _ | .stx _ | .sty _
  | .stu _ | .sts _ | .leax _ | .leay _ | .leau _ | .leas _ | .adda _ | .addb _ | .adca _ | .adcb _ | .suba _
  | .subb _ | .sbca _ | .sbcb _ | .cmpa _ | .cmpb _ | .anda _ | .andb _ | .bita _ | .bitb _ | .ora _ | .orb _
  | .eora _ | .eorb _ | .daa | .mul | .sex | .addd _ | .subd _ | .cmpd _ | .cmpx _ | .cmpy _ | .cmpu _ | .cmps _
  | .abx | .neg _ | .nega | .negb | .com _ | .coma | .comb | .lsr _ | .lsra | .lsrb | .ror _ | .rora | .rorb
  | .asr _ | .asra | .asrb | .asl _ | .asla | .aslb | .rol _ | .rola | .rolb | .dec _ | .deca | .decb | .inc _
  | .inca | .incb | .tst _ | .tsta | .tstb | .clr _ | .clra | .clrb | .bra _ | .brn _ | .bhi _ | .bls _ | .bhs _
  | .blo _ | .bne _ | .beq _ | .bvc _ | .bvs _ | .bpl _ | .bmi _ | .bge _ | .blt _ | .bgt _ | .ble _ | .lbra _
  | .lbrn _ | .lbhi _ | .lbls _ | .lbhs _ | .lblo _ | .lbne _ | .lbeq _ | .lbvc _ | .lbvs _ | .lbpl _ | .lbmi _
  | .lbge _ | .lblt _ | .lbgt _ | .lble _ | .bsr _ | .lbsr _ | .jmp _ | .jsr _ | .rts | .pshs _ | .puls _
  | .pshu _ | .pulu _ | .andcc _ | .orcc _ | .nop | .swi | .swi2 | .swi3 | .rti | .cwai _ | .sync => true

end Sys2Proof
end

