-- ==== Sys2Proof/Decode.lean ====
section
/-! DEFINITION. The decoder (spec/30_encoding.md R110 to R130, R135), total on any list of bytes and rejecting by name,
and after it the encoder, the length and the opcode number of an instruction. -/

namespace Sys2Proof

/-! ### What the decoder answers -/

/-- Why a byte list is not an instruction. `truncated` is no invalid instruction: it asks for one more byte (R125). -/
inductive DecodeError where
  | truncated
  | noSuchOpcode (page : Nat) (op : Byte)
  | badIndexedPostbyte (pb : Byte)
  | badRegisterPair (pb : Byte)
  deriving DecidableEq, Repr

/-- A value read from the front of a byte list, with the bytes left over, or the reason there is none. -/
inductive Read (α : Type) where
  | ok (a : α) (rest : List Byte)
  | error (e : DecodeError)
  deriving DecidableEq, Repr

/-- Apply f to the value read. -/
def Read.map {α β : Type} (f : α → β) : Read α → Read β
  | .ok a rest => .ok (f a) rest
  | .error e => .error e

/-! ### Operand fields -/

/-- R118: RR = pb[6:5]. -/
def IndexReg.ofBits (b : BitVec 2) : IndexReg :=
  match b.toNat with
  | 0 => .x
  | 1 => .y
  | 2 => .u
  | _ => .s

/-- An 8-bit offset after the postbyte (R118). -/
def readOffset8 (f : Byte → Indexed) : List Byte → Read Indexed
  | n :: bs => .ok (f n) bs
  | [] => .error .truncated

/-- A 16-bit offset or address after the postbyte, high byte first (R118, R80). -/
def readOffset16 (f : Word → Indexed) : List Byte → Read Indexed
  | h :: l :: bs => .ok (f (wordOf h l)) bs
  | _ => .error .truncated

/-- The forms whose postbyte has bit 7 set (R118), by pb[3:0] and the indirect bit pb[4]; the patterns of R129 are
refused. -/
def readIndexedForm (pb : Byte) (r : IndexReg) (ind : Bool) (bs : List Byte) : Read Indexed :=
  match (pb.extractLsb' 0 4).toNat with
  | 0x0 => if ind then .error (.badIndexedPostbyte pb) else .ok (.inc1 r) bs
  | 0x1 => .ok (.mode (.inc2 r) ind) bs
  | 0x2 => if ind then .error (.badIndexedPostbyte pb) else .ok (.dec1 r) bs
  | 0x3 => .ok (.mode (.dec2 r) ind) bs
  | 0x4 => .ok (.mode (.zero r) ind) bs
  | 0x5 => .ok (.mode (.accB r) ind) bs
  | 0x6 => .ok (.mode (.accA r) ind) bs
  | 0x8 => readOffset8 (fun n => .mode (.off8 r n) ind) bs
  | 0x9 => readOffset16 (fun n => .mode (.off16 r n) ind) bs
  | 0xB => .ok (.mode (.accD r) ind) bs
  | 0xC => readOffset8 (fun n => .mode (.pcr8 n) ind) bs
  | 0xD => readOffset16 (fun n => .mode (.pcr16 n) ind) bs
  | 0xF => if pb = 0x9F#8 then readOffset16 .absIndirect bs else .error (.badIndexedPostbyte pb)
  | _ => .error (.badIndexedPostbyte pb)

/-- An indexed operand: the postbyte and the bytes it asks for (R118, R147). -/
def readIndexed : List Byte → Read Indexed
  | [] => .error .truncated
  | pb :: bs =>
    let r := IndexReg.ofBits (pb.extractLsb' 5 2)
    if pb.getLsbD 7 then readIndexedForm pb r (pb.getLsbD 4) bs
    else .ok (.off5 r (pb.extractLsb' 0 5)) bs

/-- R119: the register a nibble names; codes 6, 7 and C to F name none. -/
def RegCode.ofNibble (n : BitVec 4) : Option RegCode :=
  match n.toNat with
  | 0x0 => some .d
  | 0x1 => some .x
  | 0x2 => some .y
  | 0x3 => some .u
  | 0x4 => some .s
  | 0x5 => some .pc
  | 0x8 => some .a
  | 0x9 => some .b
  | 0xA => some .cc
  | 0xB => some .dp
  | _ => none

/-- The two registers of a TFR/EXG postbyte, source in pb[7:4] (R119), refused where R130 says so. -/
def readPair (f : RegCode → RegCode → Instr) : List Byte → Read Instr
  | [] => .error .truncated
  | pb :: bs =>
    match RegCode.ofNibble (pb.extractLsb' 4 4), RegCode.ofNibble (pb.extractLsb' 0 4) with
    | some r1, some r2 => if r1.wide == r2.wide then .ok (f r1 r2) bs else .error (.badRegisterPair pb)
    | _, _ => .error (.badRegisterPair pb)

/-! ### Formats (R111) -/

/-- What follows an opcode: nothing, one byte, two bytes, an indexed operand, or a register pair. -/
inductive Form where
  | inherent (i : Instr)
  | byte (f : Byte → Instr)
  | word (f : Word → Instr)
  | indexed (f : Indexed → Instr)
  | pair (f : RegCode → RegCode → Instr)

/-- Read the operand bytes of a format (R111, R125). -/
def Form.read : Form → List Byte → Read Instr
  | .inherent i, bs => .ok i bs
  | .byte f, b :: bs => .ok (f b) bs
  | .byte _, [] => .error .truncated
  | .word f, h :: l :: bs => .ok (f (wordOf h l)) bs
  | .word _, _ => .error .truncated
  | .indexed f, bs => (readIndexed bs).map f
  | .pair f, bs => readPair f bs

/-- A column of rows 8 to F of the page-0 map: an instruction with an 8-bit source, with a 16-bit source, or with a
memory operand only. -/
inductive Column where
  | src8 (f : Src8 → Instr)
  | src16 (f : Src16 → Instr)
  | mem (f : Mem → Instr)

/-- The column's instruction with a memory operand. -/
def Column.onMem : Column → Mem → Instr
  | .src8 f, m => f (.mem m)
  | .src16 f, m => f (.mem m)
  | .mem f, m => f m

/-- The immediate row (8, C): a store or JSR has no immediate form (R142), so $87 and $C7 are no instruction (R126) and
$A7 and $E7, in rows A and E, are STA and STB indexed (R121). DEDUCED (log entry 22): the corner cases of R177 and R178
call $A7 and $E7 invalid, against R121, R126 and their own encoding lines. -/
def Column.imm : Column → Option Form
  | .src8 f => some (.byte fun ii => f (.imm ii))
  | .src16 f => some (.word fun iiii => f (.imm iiii))
  | .mem _ => none

/-- The direct row of a memory instruction (0, 9, D). -/
def dirForm (f : Mem → Instr) : Form := .byte fun dd => f (.dir dd)

/-- The indexed row of a memory instruction (6, A, E). -/
def idxForm (f : Mem → Instr) : Form := .indexed fun x => f (.idx x)

/-- The extended row of a memory instruction (7, B, F). -/
def extForm (f : Mem → Instr) : Form := .word fun a => f (.ext a)

/-! ### The opcode map of page 0 (R121), by high and low nibble -/

/-- Rows 0, 6 and 7: the read-modify-write operations, TST, JMP and CLR. -/
def unaryMemory (lo : Nat) : Option (Mem → Instr) :=
  match lo with
  | 0x0 => some .neg
  | 0x3 => some .com
  | 0x4 => some .lsr
  | 0x6 => some .ror
  | 0x7 => some .asr
  | 0x8 => some .asl
  | 0x9 => some .rol
  | 0xA => some .dec
  | 0xC => some .inc
  | 0xD => some .tst
  | 0xE => some .jmp
  | 0xF => some .clr
  | _ => none

/-- Row 4: the same operations on A. -/
def unaryA (lo : Nat) : Option Instr :=
  match lo with
  | 0x0 => some .nega
  | 0x3 => some .coma
  | 0x4 => some .lsra
  | 0x6 => some .rora
  | 0x7 => some .asra
  | 0x8 => some .asla
  | 0x9 => some .rola
  | 0xA => some .deca
  | 0xC => some .inca
  | 0xD => some .tsta
  | 0xF => some .clra
  | _ => none

/-- Row 5: the same operations on B. -/
def unaryB (lo : Nat) : Option Instr :=
  match lo with
  | 0x0 => some .negb
  | 0x3 => some .comb
  | 0x4 => some .lsrb
  | 0x6 => some .rorb
  | 0x7 => some .asrb
  | 0x8 => some .aslb
  | 0x9 => some .rolb
  | 0xA => some .decb
  | 0xC => some .incb
  | 0xD => some .tstb
  | 0xF => some .clrb
  | _ => none

/-- Row 1, less the two page bytes $10 and $11 (R112). -/
def row1 (lo : Nat) : Option Form :=
  match lo with
  | 0x2 => some (.inherent .nop)
  | 0x3 => some (.inherent .sync)
  | 0x6 => some (.word .lbra)
  | 0x7 => some (.word .lbsr)
  | 0x9 => some (.inherent .daa)
  | 0xA => some (.byte .orcc)
  | 0xC => some (.byte .andcc)
  | 0xD => some (.inherent .sex)
  | 0xE => some (.pair .exg)
  | 0xF => some (.pair .tfr)
  | _ => none

/-- Row 2: the short branches. -/
def row2 (lo : Nat) : Option Form :=
  match lo with
  | 0x0 => some (.byte .bra)
  | 0x1 => some (.byte .brn)
  | 0x2 => some (.byte .bhi)
  | 0x3 => some (.byte .bls)
  | 0x4 => some (.byte .bhs)
  | 0x5 => some (.byte .blo)
  | 0x6 => some (.byte .bne)
  | 0x7 => some (.byte .beq)
  | 0x8 => some (.byte .bvc)
  | 0x9 => some (.byte .bvs)
  | 0xA => some (.byte .bpl)
  | 0xB => some (.byte .bmi)
  | 0xC => some (.byte .bge)
  | 0xD => some (.byte .blt)
  | 0xE => some (.byte .bgt)
  | 0xF => some (.byte .ble)
  | _ => none

/-- Row 3. -/
def row3 (lo : Nat) : Option Form :=
  match lo with
  | 0x0 => some (.indexed .leax)
  | 0x1 => some (.indexed .leay)
  | 0x2 => some (.indexed .leas)
  | 0x3 => some (.indexed .leau)
  | 0x4 => some (.byte .pshs)
  | 0x5 => some (.byte .puls)
  | 0x6 => some (.byte .pshu)
  | 0x7 => some (.byte .pulu)
  | 0x9 => some (.inherent .rts)
  | 0xA => some (.inherent .abx)
  | 0xB => some (.inherent .rti)
  | 0xC => some (.byte .cwai)
  | 0xD => some (.inherent .mul)
  | 0xF => some (.inherent .swi)
  | _ => none

/-- Rows 8 to B: the A side and the 16-bit X operations. -/
def sideA (lo : Nat) : Option Column :=
  match lo with
  | 0x0 => some (.src8 .suba)
  | 0x1 => some (.src8 .cmpa)
  | 0x2 => some (.src8 .sbca)
  | 0x3 => some (.src16 .subd)
  | 0x4 => some (.src8 .anda)
  | 0x5 => some (.src8 .bita)
  | 0x6 => some (.src8 .lda)
  | 0x7 => some (.mem .sta)
  | 0x8 => some (.src8 .eora)
  | 0x9 => some (.src8 .adca)
  | 0xA => some (.src8 .ora)
  | 0xB => some (.src8 .adda)
  | 0xC => some (.src16 .cmpx)
  | 0xD => some (.mem .jsr)
  | 0xE => some (.src16 .ldx)
  | 0xF => some (.mem .stx)
  | _ => none

/-- Rows C to F: the B side, D and U. -/
def sideB (lo : Nat) : Option Column :=
  match lo with
  | 0x0 => some (.src8 .subb)
  | 0x1 => some (.src8 .cmpb)
  | 0x2 => some (.src8 .sbcb)
  | 0x3 => some (.src16 .addd)
  | 0x4 => some (.src8 .andb)
  | 0x5 => some (.src8 .bitb)
  | 0x6 => some (.src8 .ldb)
  | 0x7 => some (.mem .stb)
  | 0x8 => some (.src8 .eorb)
  | 0x9 => some (.src8 .adcb)
  | 0xA => some (.src8 .orb)
  | 0xB => some (.src8 .addb)
  | 0xC => some (.src16 .ldd)
  | 0xD => some (.mem .std)
  | 0xE => some (.src16 .ldu)
  | 0xF => some (.mem .stu)
  | _ => none

/-- Row 8 is the immediate row of the A side, with BSR in the place JSR has no immediate form for. -/
def row8 (lo : Nat) : Option Form :=
  if lo = 0xD then some (.byte .bsr) else (sideA lo).bind Column.imm

/-- The instruction formats of page 0 (R121); none where R126 says there is no instruction. -/
def page0 (op : Byte) : Option Form :=
  let lo := (op.extractLsb' 0 4).toNat
  match (op.extractLsb' 4 4).toNat with
  | 0x0 => (unaryMemory lo).map dirForm
  | 0x1 => row1 lo
  | 0x2 => row2 lo
  | 0x3 => row3 lo
  | 0x4 => (unaryA lo).map .inherent
  | 0x5 => (unaryB lo).map .inherent
  | 0x6 => (unaryMemory lo).map idxForm
  | 0x7 => (unaryMemory lo).map extForm
  | 0x8 => row8 lo
  | 0x9 => (sideA lo).map fun k => dirForm k.onMem
  | 0xA => (sideA lo).map fun k => idxForm k.onMem
  | 0xB => (sideA lo).map fun k => extForm k.onMem
  | 0xC => (sideB lo).bind Column.imm
  | 0xD => (sideB lo).map fun k => dirForm k.onMem
  | 0xE => (sideB lo).map fun k => idxForm k.onMem
  | 0xF => (sideB lo).map fun k => extForm k.onMem
  | _ => none

/-! ### Pages 2 and 3 (R122, R123) -/

/-- The long branches of page 2, $21 to $2F. -/
def longBranch (lo : Nat) : Option Form :=
  match lo with
  | 0x1 => some (.word .lbrn)
  | 0x2 => some (.word .lbhi)
  | 0x3 => some (.word .lbls)
  | 0x4 => some (.word .lbhs)
  | 0x5 => some (.word .lblo)
  | 0x6 => some (.word .lbne)
  | 0x7 => some (.word .lbeq)
  | 0x8 => some (.word .lbvc)
  | 0x9 => some (.word .lbvs)
  | 0xA => some (.word .lbpl)
  | 0xB => some (.word .lbmi)
  | 0xC => some (.word .lbge)
  | 0xD => some (.word .lblt)
  | 0xE => some (.word .lbgt)
  | 0xF => some (.word .lble)
  | _ => none

/-- Rows 8 to B of page 2. -/
def side2A (lo : Nat) : Option Column :=
  match lo with
  | 0x3 => some (.src16 .cmpd)
  | 0xC => some (.src16 .cmpy)
  | 0xE => some (.src16 .ldy)
  | 0xF => some (.mem .sty)
  | _ => none

/-- Rows C to F of page 2. -/
def side2B (lo : Nat) : Option Column :=
  match lo with
  | 0xE => some (.src16 .lds)
  | 0xF => some (.mem .sts)
  | _ => none

/-- Rows 8 to B of page 3. -/
def side3A (lo : Nat) : Option Column :=
  match lo with
  | 0x3 => some (.src16 .cmpu)
  | 0xC => some (.src16 .cmps)
  | _ => none

/-- The instruction formats of page 2 (R122). -/
def page2 (op : Byte) : Option Form :=
  let lo := (op.extractLsb' 0 4).toNat
  match (op.extractLsb' 4 4).toNat with
  | 0x2 => longBranch lo
  | 0x3 => if lo = 0xF then some (.inherent .swi2) else none
  | 0x8 => (side2A lo).bind Column.imm
  | 0x9 => (side2A lo).map fun k => dirForm k.onMem
  | 0xA => (side2A lo).map fun k => idxForm k.onMem
  | 0xB => (side2A lo).map fun k => extForm k.onMem
  | 0xC => (side2B lo).bind Column.imm
  | 0xD => (side2B lo).map fun k => dirForm k.onMem
  | 0xE => (side2B lo).map fun k => idxForm k.onMem
  | 0xF => (side2B lo).map fun k => extForm k.onMem
  | _ => none

/-- The instruction formats of page 3 (R123). -/
def page3 (op : Byte) : Option Form :=
  let lo := (op.extractLsb' 0 4).toNat
  match (op.extractLsb' 4 4).toNat with
  | 0x3 => if lo = 0xF then some (.inherent .swi3) else none
  | 0x8 => (side3A lo).bind Column.imm
  | 0x9 => (side3A lo).map fun k => dirForm k.onMem
  | 0xA => (side3A lo).map fun k => idxForm k.onMem
  | 0xB => (side3A lo).map fun k => extForm k.onMem
  | _ => none

/-! ### Decoding (R112, R125, R135) -/

/-- Look the opcode byte up in its page's table and read its operands. -/
def decodeOn (page : Nat) (table : Byte → Option Form) : List Byte → Read Instr
  | [] => .error .truncated
  | op :: bs =>
    match table op with
    | some f => f.read bs
    | none => .error (.noSuchOpcode page op)

/-- R112, R135: $10 and $11 select page 2 and page 3 for exactly the one byte that follows; every other first byte
is an opcode of page 0. -/
def decode : List Byte → Read Instr
  | [] => .error .truncated
  | b :: bs =>
    if b = 0x10#8 then decodeOn 2 page2 bs
    else if b = 0x11#8 then decodeOn 3 page3 bs
    else decodeOn 0 page0 (b :: bs)

/-- The bytes of an instruction given as a number, as the host numbers them (log entry 2): the first byte is w[7:0]
and each later byte counts on from it, except that a 16-bit number whose high byte is a page byte is read as the
table's `match` column writes it ($10AE: first byte $10). Five bytes, the longest instruction; those above nbits
are 0. -/
def tableBytes (nbits w : Nat) : List Byte :=
  let w := w % 2 ^ nbits
  let b0 := BitVec.ofNat 8 w
  let b1 := BitVec.ofNat 8 (w / 256)
  if nbits = 16 ∧ (b1 = 0x10#8 ∨ b1 = 0x11#8) ∧ ¬ (b0 = 0x10#8 ∨ b0 = 0x11#8) then [b1, b0, 0, 0, 0]
  else [b0, b1, BitVec.ofNat 8 (w / 65536), BitVec.ofNat 8 (w / 16777216), BitVec.ofNat 8 (w / 4294967296)]

/-- The instruction the decoder reads from a number of opcode_table.json (the host's question). -/
def decodeTableWord (nbits w : Nat) : Option Instr :=
  match decode (tableBytes nbits w) with
  | .ok i _ => some i
  | .error _ => none

/-! ### The encoder -/

/-- R118: the two bits of RR. -/
def IndexReg.bits : IndexReg → BitVec 2
  | .x => 0b00#2
  | .y => 0b01#2
  | .u => 0b10#2
  | .s => 0b11#2

/-- R118: the postbyte `1RRI mmmm`. -/
def postbyte (rr : BitVec 2) (ind : Bool) (m : BitVec 4) : Byte := 1#1 ++ rr ++ BitVec.ofBool ind ++ m

/-- A form with its indirect bit: postbyte and offset bytes (R118). The PC-relative forms are written with RR = 00,
which the decoder ignores. -/
def encodeMode (m : IndexMode) (ind : Bool) : List Byte :=
  match m with
  | .inc2 r => [postbyte r.bits ind 0x1#4]
  | .dec2 r => [postbyte r.bits ind 0x3#4]
  | .zero r => [postbyte r.bits ind 0x4#4]
  | .accB r => [postbyte r.bits ind 0x5#4]
  | .accA r => [postbyte r.bits ind 0x6#4]
  | .off8 r n => [postbyte r.bits ind 0x8#4, n]
  | .off16 r n => [postbyte r.bits ind 0x9#4, hiByte n, loByte n]
  | .accD r => [postbyte r.bits ind 0xB#4]
  | .pcr8 n => [postbyte 0b00#2 ind 0xC#4, n]
  | .pcr16 n => [postbyte 0b00#2 ind 0xD#4, hiByte n, loByte n]

/-- The postbyte and offset bytes of an indexed operand (R118). -/
def encodeIndexed : Indexed → List Byte
  | .off5 r n => [0#1 ++ r.bits ++ n]
  | .inc1 r => [postbyte r.bits false 0x0#4]
  | .dec1 r => [postbyte r.bits false 0x2#4]
  | .mode m ind => encodeMode m ind
  | .absIndirect n => [0x9F#8, hiByte n, loByte n]

/-- A memory operand under the opcodes of its direct, indexed and extended rows. -/
def encodeMem (dir idx ext : Byte) : Mem → List Byte
  | .dir dd => [dir, dd]
  | .idx x => idx :: encodeIndexed x
  | .ext a => [ext, hiByte a, loByte a]

/-- An 8-bit source under the opcodes of its four rows. -/
def encodeSrc8 (imm dir idx ext : Byte) : Src8 → List Byte
  | .imm ii => [imm, ii]
  | .mem m => encodeMem dir idx ext m

/-- A 16-bit source under the opcodes of its four rows. -/
def encodeSrc16 (imm dir idx ext : Byte) : Src16 → List Byte
  | .imm iiii => [imm, hiByte iiii, loByte iiii]
  | .mem m => encodeMem dir idx ext m

/-- R119: the code of a register in the TFR/EXG postbyte. -/
def RegCode.nibble : RegCode → BitVec 4
  | .d => 0x0#4
  | .x => 0x1#4
  | .y => 0x2#4
  | .u => 0x3#4
  | .s => 0x4#4
  | .pc => 0x5#4
  | .a => 0x8#4
  | .b => 0x9#4
  | .cc => 0xA#4
  | .dp => 0xB#4

/-- The bytes of an instruction, from the Encoding line of its rule. -/
def encode : Instr → List Byte
  | .lda src => encodeSrc8 0x86#8 0x96#8 0xA6#8 0xB6#8 src
  | .ldb src => encodeSrc8 0xC6#8 0xD6#8 0xE6#8 0xF6#8 src
  | .ldd src => encodeSrc16 0xCC#8 0xDC#8 0xEC#8 0xFC#8 src
  | .ldx src => encodeSrc16 0x8E#8 0x9E#8 0xAE#8 0xBE#8 src
  | .ldy src => 0x10#8 :: encodeSrc16 0x8E#8 0x9E#8 0xAE#8 0xBE#8 src
  | .ldu src => encodeSrc16 0xCE#8 0xDE#8 0xEE#8 0xFE#8 src
  | .lds src => 0x10#8 :: encodeSrc16 0xCE#8 0xDE#8 0xEE#8 0xFE#8 src
  | .sta m => encodeMem 0x97#8 0xA7#8 0xB7#8 m
  | .stb m => encodeMem 0xD7#8 0xE7#8 0xF7#8 m
  | .std m => encodeMem 0xDD#8 0xED#8 0xFD#8 m
  | .stx m => encodeMem 0x9F#8 0xAF#8 0xBF#8 m
  | .sty m => 0x10#8 :: encodeMem 0x9F#8 0xAF#8 0xBF#8 m
  | .stu m => encodeMem 0xDF#8 0xEF#8 0xFF#8 m
  | .sts m => 0x10#8 :: encodeMem 0xDF#8 0xEF#8 0xFF#8 m
  | .leax x => 0x30#8 :: encodeIndexed x
  | .leay x => 0x31#8 :: encodeIndexed x
  | .leau x => 0x33#8 :: encodeIndexed x
  | .leas x => 0x32#8 :: encodeIndexed x
  | .adda src => encodeSrc8 0x8B#8 0x9B#8 0xAB#8 0xBB#8 src
  | .addb src => encodeSrc8 0xCB#8 0xDB#8 0xEB#8 0xFB#8 src
  | .adca src => encodeSrc8 0x89#8 0x99#8 0xA9#8 0xB9#8 src
  | .adcb src => encodeSrc8 0xC9#8 0xD9#8 0xE9#8 0xF9#8 src
  | .suba src => encodeSrc8 0x80#8 0x90#8 0xA0#8 0xB0#8 src
  | .subb src => encodeSrc8 0xC0#8 0xD0#8 0xE0#8 0xF0#8 src
  | .sbca src => encodeSrc8 0x82#8 0x92#8 0xA2#8 0xB2#8 src
  | .sbcb src => encodeSrc8 0xC2#8 0xD2#8 0xE2#8 0xF2#8 src
  | .cmpa src => encodeSrc8 0x81#8 0x91#8 0xA1#8 0xB1#8 src
  | .cmpb src => encodeSrc8 0xC1#8 0xD1#8 0xE1#8 0xF1#8 src
  | .anda src => encodeSrc8 0x84#8 0x94#8 0xA4#8 0xB4#8 src
  | .andb src => encodeSrc8 0xC4#8 0xD4#8 0xE4#8 0xF4#8 src
  | .bita src => encodeSrc8 0x85#8 0x95#8 0xA5#8 0xB5#8 src
  | .bitb src => encodeSrc8 0xC5#8 0xD5#8 0xE5#8 0xF5#8 src
  | .ora src => encodeSrc8 0x8A#8 0x9A#8 0xAA#8 0xBA#8 src
  | .orb src => encodeSrc8 0xCA#8 0xDA#8 0xEA#8 0xFA#8 src
  | .eora src => encodeSrc8 0x88#8 0x98#8 0xA8#8 0xB8#8 src
  | .eorb src => encodeSrc8 0xC8#8 0xD8#8 0xE8#8 0xF8#8 src
  | .daa => [0x19#8]
  | .mul => [0x3D#8]
  | .sex => [0x1D#8]
  | .addd src => encodeSrc16 0xC3#8 0xD3#8 0xE3#8 0xF3#8 src
  | .subd src => encodeSrc16 0x83#8 0x93#8 0xA3#8 0xB3#8 src
  | .cmpd src => 0x10#8 :: encodeSrc16 0x83#8 0x93#8 0xA3#8 0xB3#8 src
  | .cmpx src => encodeSrc16 0x8C#8 0x9C#8 0xAC#8 0xBC#8 src
  | .cmpy src => 0x10#8 :: encodeSrc16 0x8C#8 0x9C#8 0xAC#8 0xBC#8 src
  | .cmpu src => 0x11#8 :: encodeSrc16 0x83#8 0x93#8 0xA3#8 0xB3#8 src
  | .cmps src => 0x11#8 :: encodeSrc16 0x8C#8 0x9C#8 0xAC#8 0xBC#8 src
  | .abx => [0x3A#8]
  | .neg m => encodeMem 0x00#8 0x60#8 0x70#8 m
  | .nega => [0x40#8]
  | .negb => [0x50#8]
  | .com m => encodeMem 0x03#8 0x63#8 0x73#8 m
  | .coma => [0x43#8]
  | .comb => [0x53#8]
  | .lsr m => encodeMem 0x04#8 0x64#8 0x74#8 m
  | .lsra => [0x44#8]
  | .lsrb => [0x54#8]
  | .ror m => encodeMem 0x06#8 0x66#8 0x76#8 m
  | .rora => [0x46#8]
  | .rorb => [0x56#8]
  | .asr m => encodeMem 0x07#8 0x67#8 0x77#8 m
  | .asra => [0x47#8]
  | .asrb => [0x57#8]
  | .asl m => encodeMem 0x08#8 0x68#8 0x78#8 m
  | .asla => [0x48#8]
  | .aslb => [0x58#8]
  | .rol m => encodeMem 0x09#8 0x69#8 0x79#8 m
  | .rola => [0x49#8]
  | .rolb => [0x59#8]
  | .dec m => encodeMem 0x0A#8 0x6A#8 0x7A#8 m
  | .deca => [0x4A#8]
  | .decb => [0x5A#8]
  | .inc m => encodeMem 0x0C#8 0x6C#8 0x7C#8 m
  | .inca => [0x4C#8]
  | .incb => [0x5C#8]
  | .tst m => encodeMem 0x0D#8 0x6D#8 0x7D#8 m
  | .tsta => [0x4D#8]
  | .tstb => [0x5D#8]
  | .clr m => encodeMem 0x0F#8 0x6F#8 0x7F#8 m
  | .clra => [0x4F#8]
  | .clrb => [0x5F#8]
  | .bra rr => [0x20#8, rr]
  | .brn rr => [0x21#8, rr]
  | .bhi rr => [0x22#8, rr]
  | .bls rr => [0x23#8, rr]
  | .bhs rr => [0x24#8, rr]
  | .blo rr => [0x25#8, rr]
  | .bne rr => [0x26#8, rr]
  | .beq rr => [0x27#8, rr]
  | .bvc rr => [0x28#8, rr]
  | .bvs rr => [0x29#8, rr]
  | .bpl rr => [0x2A#8, rr]
  | .bmi rr => [0x2B#8, rr]
  | .bge rr => [0x2C#8, rr]
  | .blt rr => [0x2D#8, rr]
  | .bgt rr => [0x2E#8, rr]
  | .ble rr => [0x2F#8, rr]
  | .lbra rrrr => [0x16#8, hiByte rrrr, loByte rrrr]
  | .lbrn rrrr => [0x10#8, 0x21#8, hiByte rrrr, loByte rrrr]
  | .lbhi rrrr => [0x10#8, 0x22#8, hiByte rrrr, loByte rrrr]
  | .lbls rrrr => [0x10#8, 0x23#8, hiByte rrrr, loByte rrrr]
  | .lbhs rrrr => [0x10#8, 0x24#8, hiByte rrrr, loByte rrrr]
  | .lblo rrrr => [0x10#8, 0x25#8, hiByte rrrr, loByte rrrr]
  | .lbne rrrr => [0x10#8, 0x26#8, hiByte rrrr, loByte rrrr]
  | .lbeq rrrr => [0x10#8, 0x27#8, hiByte rrrr, loByte rrrr]
  | .lbvc rrrr => [0x10#8, 0x28#8, hiByte rrrr, loByte rrrr]
  | .lbvs rrrr => [0x10#8, 0x29#8, hiByte rrrr, loByte rrrr]
  | .lbpl rrrr => [0x10#8, 0x2A#8, hiByte rrrr, loByte rrrr]
  | .lbmi rrrr => [0x10#8, 0x2B#8, hiByte rrrr, loByte rrrr]
  | .lbge rrrr => [0x10#8, 0x2C#8, hiByte rrrr, loByte rrrr]
  | .lblt rrrr => [0x10#8, 0x2D#8, hiByte rrrr, loByte rrrr]
  | .lbgt rrrr => [0x10#8, 0x2E#8, hiByte rrrr, loByte rrrr]
  | .lble rrrr => [0x10#8, 0x2F#8, hiByte rrrr, loByte rrrr]
  | .bsr rr => [0x8D#8, rr]
  | .lbsr rrrr => [0x17#8, hiByte rrrr, loByte rrrr]
  | .jmp m => encodeMem 0x0E#8 0x6E#8 0x7E#8 m
  | .jsr m => encodeMem 0x9D#8 0xAD#8 0xBD#8 m
  | .rts => [0x39#8]
  | .tfr r1 r2 => [0x1F#8, r1.nibble ++ r2.nibble]
  | .exg r1 r2 => [0x1E#8, r1.nibble ++ r2.nibble]
  | .pshs pb => [0x34#8, pb]
  | .puls pb => [0x35#8, pb]
  | .pshu pb => [0x36#8, pb]
  | .pulu pb => [0x37#8, pb]
  | .andcc ii => [0x1C#8, ii]
  | .orcc ii => [0x1A#8, ii]
  | .nop => [0x12#8]
  | .swi => [0x3F#8]
  | .swi2 => [0x10#8, 0x3F#8]
  | .swi3 => [0x11#8, 0x3F#8]
  | .rti => [0x3B#8]
  | .cwai ii => [0x3C#8, ii]
  | .sync => [0x13#8]

/-- The length of an instruction in bytes (R110, R125): what PC advances by before the operation (R47). -/
def Instr.size (i : Instr) : Nat := (encode i).length

/-- The opcode of an instruction with its page byte in bits 15..8 (R112): the first argument of `UNDEF_FLAG` (R15). -/
def Instr.opcode (i : Instr) : BitVec 16 :=
  match encode i with
  | b :: op :: _ => if b = 0x10#8 ∨ b = 0x11#8 then wordOf b op else zext8 b
  | [b] => zext8 b
  | [] => 0#16

end Sys2Proof
end

