-- ==== Sys2Proof/Config.lean ====
section
/-! DEFINITION. The parameters of a run (spec/00_scope.md R9) as plain data, the host's input of one iteration
(R10), and what the spec leaves OPEN, as constants with no body (log entries 3, 4 and 6).
The parameters that are plain data are carried by the state (Machine/State.lean, field `cfg`), so that a claim about
every state is a claim about every parameter value; the reference values stand in Machine/Platform.lean. -/

namespace Sys2Proof

/-- The eight flags of CC, in the document's order, which is bit 0 to bit 7 (R36; the positions are `Flag.bit`). -/
inductive Flag where
  | c | v | z | n | i | h | f | e
  deriving DecidableEq, Repr

/-- A device of the configuration (R53): a memory device by its number, the serial peripheral, or a pure interrupt
source by its number. -/
inductive DeviceId where
  | memory (k : Nat)
  | serial
  | source (k : Nat)
  deriving DecidableEq, Repr

/-- The two kinds of memory device (R82, R83). -/
inductive MemoryKind where
  | ram
  | rom
  deriving DecidableEq, Repr

/-- A memory device of the configuration: its kind and its size in bytes (R82, R83, R85). -/
structure MemoryDevice where
  kind : MemoryKind
  size : Nat
  deriving DecidableEq, Repr

/-- An entry (device, base, mask) of the registry (R71). -/
structure MapEntry where
  device : DeviceId
  base   : Word
  mask   : Word
  deriving DecidableEq, Repr

/-- `ROM_WRITE_POLICY` (R9, R82). -/
inductive RomWritePolicy where
  | ignore
  | fault
  deriving DecidableEq, Repr

/-- `LINE_BINDING` (R9, R456): each line is bound to no device or to one device's query. -/
structure LineBinding where
  nmi  : Option DeviceId
  firq : Option DeviceId
  irq  : Option DeviceId
  deriving DecidableEq, Repr

/-- What the host supplies in one loop iteration (R10). -/
structure HostInput where
  stop  : Bool
  abort : Bool
  rx    : Option Byte
  deriving DecidableEq, Repr, Inhabited

/-- An iteration in which the host asks for nothing and offers nothing. -/
def HostInput.quiet : HostInput := { stop := false, abort := false, rx := none }

/-- The parameters of R9 that are plain data, and whether profiling is enabled (R412, R415). `INITIAL_MEMORY` and
`RESET_VALUES` are arguments of the boot procedure (Machine/Loader.lean); `UNDEF_FLAG` is `Config.undefFlag`. -/
structure Config where
  memoryDevices  : List MemoryDevice
  deviceMap      : List MapEntry
  pureSources    : List DeviceId
  lines          : LineBinding
  unmappedRead   : Byte
  romWritePolicy : RomWritePolicy
  entryPc        : Option Word
  trapAddr       : Option Word
  nmiArmRequired : Bool
  serialSubRead  : Byte
  profiling      : Bool
  deriving DecidableEq, Repr

/-- `UNDEF_FLAG(opcode, operand values, flag name)` (R9, R15, R56): OPEN, a total function, the same bit whenever the
opcode and the operand values are the same. No body: nothing can be proved of its value (log entry 3). -/
opaque Config.undefFlag : BitVec 16 → List Byte → Flag → Bool

/-- The poll of pure interrupt source number k (R455): its new private state from its old one and the host's input.
OPEN: `PURE_SOURCES` is a parameter (log entry 4). -/
opaque Config.sourcePoll : Nat → Nat → HostInput → Nat

/-- The host's draws (R10): the inputs of iteration after iteration, "and the model admits every sequence of them". No body:
any sequence, one that never becomes quiet included (log entry 6). -/
opaque Config.hostInput : Nat → HostInput

/-- The query "currently asserted" of pure interrupt source number k in its private state (R455). OPEN (log entry 4). -/
opaque Config.sourceAsserted : Nat → Nat → Bool

end Sys2Proof
end

