-- ==== Sys2Proof/Machine/Platform.lean ====
section
/-! DEFINITION. The reference configuration (spec/20_memory.md R84; 00_scope.md R9; 60_exceptions.md R453, R455). -/

namespace Sys2Proof

/-- R84: RAM $0000–$7FFF, ROM $E000–$FFFF, the serial peripheral at $C000–$C001, in that order; the other parameters at
the defaults of R9 (`UNMAPPED_READ_VALUE` $FF, `ROM_WRITE_POLICY` ignore, `NMI_ARM_REQUIRED` true, the serial device on
IRQ); no `ENTRY_PC`, no `TRAP_ADDR`, no pure source, no profiling. -/
def Config.reference : Config where
  memoryDevices := [{ kind := .ram, size := 32768 }, { kind := .rom, size := 8192 }]
  deviceMap :=
    [{ device := .memory 0, base := 0x0000, mask := 0x8000 },
     { device := .memory 1, base := 0xE000, mask := 0xE000 },
     { device := .serial, base := 0xC000, mask := 0xFFFE }]
  pureSources := []
  lines := { nmi := none, firq := none, irq := some .serial }
  unmappedRead := 0xFF
  romWritePolicy := .ignore
  entryPc := none
  trapAddr := none
  nmiArmRequired := true
  serialSubRead := 0xFF
  profiling := false

end Sys2Proof
end

