-- ==== Sys2Proof/Machine/State.lean ====
section
/-! DEFINITION. The state of the machine as plain data, its faults and refusals, and the state after reset
(spec/10_state.md). INVENTORY.md, heading State, lists every field with its rule and its reset value. -/

namespace Sys2Proof.Machine

/-- The register file (R30), nothing hardwired. D is A:B (R32), a view and no field. -/
structure Regs where
  a  : Byte
  b  : Byte
  dp : Byte
  cc : Byte
  x  : Word
  y  : Word
  u  : Word
  s  : Word
  pc : Word
  deriving DecidableEq, Repr

/-- Why a run was halted (R45). -/
inductive HaltReason where
  | trap
  | stopRequest
  deriving DecidableEq, Repr

/-- Why a run faulted (R45), with what the spec says the status carries (R420, R421). -/
inductive FaultReason where
  | invalidInstruction (addr : Word) (bytes : List Byte)
  | romWrite (addr : Word)
  | abort
  deriving DecidableEq, Repr

/-- `status` (R45). The two terminal values are states of the machine: they keep the registers and memory that are
the result of the run (R458). -/
inductive Status where
  | running
  | halted (r : HaltReason)
  | faulted (f : FaultReason)
  deriving DecidableEq, Repr

/-- `wait` (R46). -/
inductive Wait where
  | none
  | cwai
  | sync
  deriving DecidableEq, Repr

/-- The serial peripheral (R445). -/
structure Serial where
  cr        : Byte
  rdr       : Byte
  tdr       : Byte
  rdrf      : Bool
  tdre      : Bool
  txPending : Bool
  output    : List Byte
  deriving DecidableEq, Repr

/-- A pure interrupt source's private state (R455): `waveform` is a source whose answers to the coming polls are
written out (the level now, then one level a poll, the last one held); `general` is a source with any poll and any
query, the OPEN functions of Config applied to its state (log entry 4). -/
inductive PureSource where
  | waveform (now : Bool) (later : List Bool)
  | general (sigma : Nat)
  deriving DecidableEq, Repr

/-- The host's inputs of the coming iterations (R10): those already given, first one next, and after them the draws
`Config.hostInput`, of which `drawn` have been taken. So every sequence is admitted: a claim about every state holds of any
first inputs and of any draws after them. The MODEL's own (log entry 6). -/
structure Inbox where
  given : List HostInput
  drawn : Nat
  deriving DecidableEq, Repr

/-- The storage of every memory device (R53): (key, byte) pairs, where key = device number × 65536 + device-local
offset (`cellKey`), in the canonical form `Memory.wf`. -/
abbrev Memory := List Host.Cell

/-- What a storage byte that is not listed holds. DESIGN CHOICE (log entry 5): `INITIAL_MEMORY` is OPEN (R9, R54). -/
def Memory.unlisted : Byte := 0x00#8

/-- The canonical form: keys strictly rising, no listed byte equal to what an unlisted one holds. -/
abbrev Memory.wf (m : Memory) : Prop :=
  m.Pairwise (fun c d => c.1 < d.1) ∧ ∀ c ∈ m, c.2 ≠ Memory.unlisted

/-- The machine. -/
structure State where
  /-- The parameters of the run (R9), constant during it. -/
  cfg : Config
  regs : Regs
  status : Status
  wait : Wait
  /-- The NMI line at the previous sample (R48). -/
  nmiPrev : Bool
  /-- Whether NMI can be accepted at all (R48). -/
  nmiArmed : Bool
  /-- R51. -/
  unmappedReads : Nat
  /-- R51. -/
  unmappedWrites : Nat
  /-- R52, R414. -/
  cycles : Nat
  /-- R52: (address, count) pairs, addresses strictly rising, no count of 0. -/
  execCount : List (Nat × Nat)
  mem : Memory
  serial : Serial
  /-- The private states of the pure sources, by number (R455). -/
  sources : List PureSource
  /-- The MODEL's own field: the host's inputs of the coming iterations (R10; log entry 6). -/
  inbox : Inbox
  deriving DecidableEq, Repr

/-- Why a step gives no next state. Both are raised by `step` alone, when it is asked of a state whose run is over
(R45, R401: "No iteration applies to them"). Safe: the run's result is the state that was reached, and nothing
follows it. No instruction's meaning raises one. -/
inductive Fault where
  /-- `step` was asked of a state that is HALTED(r). Safe. -/
  | runHalted (r : HaltReason)
  /-- `step` was asked of a state that is FAULTED(f). Safe. -/
  | runFaulted (f : FaultReason)
  deriving DecidableEq, Repr

/-- Why the model does not run a state or an instruction. -/
inductive Refusal where
  /-- An instruction whose arm in `exec` has no meaning yet; raised by no arm of this model. Safe. -/
  | notModelled (mnemonic : String)
  /-- `step` was asked of a state whose configuration the spec refuses: "A configuration entry with (base & ~mask) != 0
  is refused (the model does not run it)" (R73), a memory device smaller than its window (R85), or an entry, source or
  line that names no device that can stand there (log entry 7). Raised by `step`. Safe. -/
  | configurationRefused
  deriving DecidableEq, Repr

/-- The answer of an instruction and of a step. -/
abbrev Result := Host.Outcome State Fault Refusal

/-- R454. -/
def Serial.reset : Serial :=
  { cr := 0x00, rdr := 0x00, tdr := 0x00, rdrf := false, tdre := true, txPending := false, output := [] }

/-- The state after reset (R54, R470) on the reference configuration with no image loaded. DP = $00, I = F = 1 and
the rest of the control state are the spec's. A, B, X, Y, U, S and CC bits E, H, N, Z, V, C are `RESET_VALUES`, which
the spec leaves OPEN: DESIGN CHOICE 0 (log entry 8). PC is the word at $FFFE; no image is loaded and unlisted storage
holds $00, so that word is $0000 (Laws/Loader.lean, `reset_eq_powerOn`). -/
def State.reset : State where
  cfg := Config.reference
  regs := { a := 0x00, b := 0x00, dp := 0x00, cc := 0x50, x := 0x0000, y := 0x0000, u := 0x0000, s := 0x0000, pc := 0x0000 }
  status := .running
  wait := .none
  nmiPrev := false
  nmiArmed := false
  unmappedReads := 0
  unmappedWrites := 0
  cycles := 0
  execCount := []
  mem := []
  serial := Serial.reset
  sources := []
  inbox := { given := [], drawn := 0 }

end Sys2Proof.Machine
end

