-- ==== Sys2Proof/Machine/Devices.lean ====
section
/-! DEFINITION. The serial peripheral (spec/60_exceptions.md R445 to R454) and the pure interrupt sources (R455). -/

namespace Sys2Proof.Machine

/-- R450: CR[1:0] = %11 holds the device in reset. -/
def Serial.held (d : Serial) : Bool := d.cr.extractLsb' 0 2 == 0b11#2

/-- R450: receive interrupt enable, CR bit 7. -/
def Serial.rie (d : Serial) : Bool := d.cr.getLsbD 7

/-- R450: transmit interrupt enable, CR[6:5] = %01. -/
def Serial.tie (d : Serial) : Bool := d.cr.extractLsb' 5 2 == 0b01#2

/-- R452: the interrupt predicate. -/
def Serial.irqOut (d : Serial) : Bool := !d.held && ((d.rie && d.rdrf) || (d.tie && d.tdre))

/-- R448: the status register, bits 2 to 6 zero. -/
def Serial.status (d : Serial) : Byte :=
  BitVec.ofBool d.irqOut ++ 0b00000#5 ++ BitVec.ofBool d.tdre ++ BitVec.ofBool d.rdrf

/-- R447, R449: a bus read at a device-local offset, and the device after it. -/
def Serial.read (d : Serial) (subRead : Byte) (off : Word) : Byte × Serial :=
  if off = 0x0000#16 then (d.status, d)
  else if off = 0x0001#16 then (d.rdr, { d with rdrf := false })
  else (subRead, d)

/-- R450: a write of CR; %11 in its low bits is a master reset. -/
def Serial.writeControl (d : Serial) (v : Byte) : Serial :=
  let d := { d with cr := v }
  if d.held then { d with rdrf := false, tdre := true, txPending := false } else d

/-- R447, R450: a bus write at a device-local offset. -/
def Serial.write (d : Serial) (off : Word) (v : Byte) : Serial :=
  if off = 0x0000#16 then d.writeControl v
  else if off = 0x0001#16 then { d with tdr := v, tdre := false, txPending := true }
  else d

/-- R451: the transmitting half of the poll. -/
def Serial.pollTx (d : Serial) : Serial :=
  if d.txPending then { d with output := d.output ++ [d.tdr], tdre := true, txPending := false } else d

/-- R446, R451: the receiving half of the poll; an offer made while RDRF = 1 is refused. -/
def Serial.pollRx (d : Serial) (rx : Option Byte) : Serial :=
  match rx with
  | some b => if d.rdrf then d else { d with rdr := b, rdrf := true }
  | none => d

/-- R451 `SerialPoll(h)`. -/
def Serial.poll (d : Serial) (h : HostInput) : Serial :=
  if d.held then d else d.pollTx.pollRx h.rx

/-- R455: the poll of pure source number k. -/
def PureSource.poll (k : Nat) (h : HostInput) : PureSource → PureSource
  | .waveform _ (b :: later) => .waveform b later
  | .waveform now [] => .waveform now []
  | .general sigma => .general (Config.sourcePoll k sigma h)

/-- R455: the query of pure source number k. -/
def PureSource.asserted (k : Nat) : PureSource → Bool
  | .waveform now _ => now
  | .general sigma => Config.sourceAsserted k sigma

end Sys2Proof.Machine
end

