-- ==== Sys2Proof/Machine/Memory.lean ====
section
/-! DEFINITION. Reading and writing the storage of the memory devices (spec/10_state.md R53; 20_memory.md R82, R83),
keeping the canonical form `Memory.wf`. -/

namespace Sys2Proof.Machine

/-- The key of a storage byte: device number and device-local offset (R53, R73). -/
def cellKey (device : Nat) (off : Word) : Nat := device * 65536 + off.toNat

/-- The byte stored under a key. -/
def Memory.read : Memory → Nat → Byte
  | [], _ => Memory.unlisted
  | (k', v) :: m, k => if k = k' then v else Memory.read m k

/-- A cell put in front of a memory, unless it holds what an unlisted one holds. -/
def Memory.cons (k : Nat) (v : Byte) (m : Memory) : Memory :=
  if v = Memory.unlisted then m else (k, v) :: m

/-- Store a byte under a key. -/
def Memory.write : Memory → Nat → Byte → Memory
  | [], k, v => Memory.cons k v []
  | (k', v') :: m, k, v =>
    if k < k' then Memory.cons k v ((k', v') :: m)
    else if k = k' then Memory.cons k v m
    else (k', v') :: Memory.write m k v

/-- `exec_count[a] <- exec_count[a] + 1` (R52, R412) on the sorted list of counts. -/
def bumpCount : List (Nat × Nat) → Nat → List (Nat × Nat)
  | [], a => [(a, 1)]
  | (a', n) :: l, a =>
    if a < a' then (a, 1) :: (a', n) :: l
    else if a = a' then (a', n + 1) :: l
    else (a', n) :: bumpCount l a

/-- `exec_count[a]` of a list of counts (R52): what its pairs for a add up to, of which the canonical form has one at
most. -/
def countAt (l : List (Nat × Nat)) (a : Nat) : Nat := ((l.filter fun c => c.1 == a).map Prod.snd).sum

end Sys2Proof.Machine
end

