-- ==== Sys2Proof/Machine/Bus.lean ====
section
/-! DEFINITION. The address decoder and device-bus arbiter (spec/20_memory.md R70 to R86), and which configurations
the model runs (R73, R85). -/

namespace Sys2Proof.Machine

/-! ### The address decoder -/

/-- Where a bus address leads: a storage byte of a memory device, a register of the serial peripheral, or nowhere. -/
inductive Place where
  | cell (kind : MemoryKind) (key : Nat)
  | serial (off : Word)
  | unmapped
  deriving DecidableEq, Repr

/-- R72. -/
def entryHits (e : MapEntry) (a : Word) : Bool := a &&& e.mask == e.base &&& e.mask

/-- R73: the matched device at the offset a & ~mask. An entry that names no memory device, or a pure source, is one
the configuration check refuses; it leads nowhere. -/
def entryPlace (e : MapEntry) (devices : List MemoryDevice) (a : Word) : Place :=
  match e.device with
  | .memory k =>
    match devices[k]? with
    | some d => .cell d.kind (cellKey k (a &&& ~~~e.mask))
    | none => .unmapped
  | .serial => .serial (a &&& ~~~e.mask)
  | .source _ => .unmapped

/-- R74, R76: the first entry in registration order that matches answers, and no other sees the access. -/
def placeIn (devices : List MemoryDevice) : List MapEntry → Word → Place
  | [], _ => .unmapped
  | e :: es, a => if entryHits e a then entryPlace e devices a else placeIn devices es a

/-- Where a bus address leads in a configuration. -/
def place (c : Config) (a : Word) : Place := placeIn c.memoryDevices c.deviceMap a

/-! ### One-byte accesses -/

/-- R76 `BusRead8(a)`, `MemRead(a, 1)`: the byte and the state after the read. -/
def State.read8 (s : State) (a : Word) : Byte × State :=
  match place s.cfg a with
  | .cell _ key => (s.mem.read key, s)
  | .serial off =>
    let r := s.serial.read s.cfg.serialSubRead off
    (r.1, { s with serial := r.2 })
  | .unmapped => (s.cfg.unmappedRead, { s with unmappedReads := s.unmappedReads + 1 })

/-- What a sequence of bus writes comes to: the state after it, or the ROM-write fault that ended it, with the bus
address and the state at the fault (R16, R82, R421). -/
inductive Access where
  | ok (s : State)
  | romFault (a : Word) (s : State)
  deriving DecidableEq, Repr

/-- R421: after a ROM-write fault "the instruction makes no further access". -/
def Access.andThen (x : Access) (f : State → Access) : Access :=
  match x with
  | .ok s => f s
  | .romFault a s => .romFault a s

/-- R77, R78, R82, R83: the effect of a write that faults nothing. -/
def State.store8 (s : State) (a : Word) (v : Byte) : State :=
  match place s.cfg a with
  | .cell .ram key => { s with mem := s.mem.write key v }
  | .cell .rom _ => s
  | .serial off => { s with serial := s.serial.write off v }
  | .unmapped => { s with unmappedWrites := s.unmappedWrites + 1 }

/-- R82: whether a write to a bus address raises `RomWriteFault`. -/
def State.romFaults (s : State) (a : Word) : Bool :=
  match place s.cfg a with
  | .cell .rom _ => s.cfg.romWritePolicy == .fault
  | _ => false

/-- R77 `BusWrite8(a, v)`, `MemWrite(a, 1, v)`, with the fault of R82. -/
def State.write8 (s : State) (a : Word) (v : Byte) : Access :=
  if s.romFaults a then .romFault a s else .ok (s.store8 a v)

/-! ### Two-byte accesses (R13, R80, R86): high byte first, at the lower address -/

/-- `MemRead(a, 2)`. -/
def State.read16 (s : State) (a : Word) : Word × State :=
  let h := s.read8 a
  let l := h.2.read8 (a + 1)
  (wordOf h.1 l.1, l.2)

/-- `MemWrite(a, 2, v)`. -/
def State.write16 (s : State) (a : Word) (v : Word) : Access :=
  (s.write8 a (hiByte v)).andThen fun s => s.write8 (a + 1) (loByte v)

/-! ### Which configurations are run -/

/-- Whether a device can be an interrupt source or be bound to a line: it has a query (R75, R455, R456). A memory device
has none (log entry 7). -/
def hasQuery (sources : List PureSource) : DeviceId → Bool
  | .memory _ => false
  | .serial => true
  | .source k => decide (k < sources.length)

/-- R73 (base & ~mask = 0), R85 (size > ~mask), and the entry names a device that can answer addresses. -/
def entryAccepted (devices : List MemoryDevice) (e : MapEntry) : Bool :=
  (e.base &&& ~~~e.mask == 0) &&
  match e.device with
  | .memory k =>
    match devices[k]? with
    | some d => decide ((~~~e.mask).toNat < d.size)
    | none => false
  | .serial => true
  | .source _ => false

/-- A line bound to nothing, or to a device with a query (R456). DESIGN CHOICE (log entry 7): that device need not stand
in `DEVICE_MAP` or `PURE_SOURCES`, of which the spec says nothing; one that stands in neither is sampled and, by R404,
never polled. -/
def lineAccepted (sources : List PureSource) : Option DeviceId → Bool
  | none => true
  | some d => hasQuery sources d

/-- The configurations the model runs. -/
def State.configAccepted (s : State) : Bool :=
  s.cfg.deviceMap.all (entryAccepted s.cfg.memoryDevices) &&
  s.cfg.pureSources.all (hasQuery s.sources) &&
  lineAccepted s.sources s.cfg.lines.nmi &&
  lineAccepted s.sources s.cfg.lines.firq &&
  lineAccepted s.sources s.cfg.lines.irq

end Sys2Proof.Machine
end

