-- ==== Sys2Proof/Machine/Flags.lean ====
section
/-! DEFINITION. The condition codes as bits of CC (spec/10_state.md R36) and every flag computation of the spec
(00_scope.md R15; 42_alu8.md R200, R201, R221 to R223; 43_alu16.md R240, R241; 44_unary.md R261 to R293;
45_control.md R310). Every function takes CC and gives the new CC; a flag it does not name keeps its value (R15). -/

namespace Sys2Proof.Machine

/-- R36: the flags are bit 0 to bit 7 of CC in the document's order. -/
def flagBit : Flag → Nat
  | .c => 0
  | .v => 1
  | .z => 2
  | .n => 3
  | .i => 4
  | .h => 5
  | .f => 6
  | .e => 7

/-- R12: `CC.k` read. -/
def ccGet (cc : Byte) (k : Flag) : Bool := cc.getLsbD (flagBit k)

/-- R12: `CC.k <- b`; the other seven bits stay. -/
def ccSet (cc : Byte) (k : Flag) (b : Bool) : Byte :=
  if b then cc ||| (1#8 <<< flagBit k) else cc &&& ~~~(1#8 <<< flagBit k)

/-- R15 `setNZ8`. -/
def setNZ8 (r cc : Byte) : Byte := ccSet (ccSet cc .n (r.getLsbD 7)) .z (r == 0)

/-- R15 `setNZ16`. -/
def setNZ16 (r : Word) (cc : Byte) : Byte := ccSet (ccSet cc .n (r.getLsbD 15)) .z (r == 0)

/-- `setNZ8(r); V <- 0`: 8-bit loads, stores and logic (R170 to R178, R213 to R220), TST (R288). -/
def logicFlags8 (r cc : Byte) : Byte := ccSet (setNZ8 r cc) .v false

/-- `setNZ16(r); V <- 0`: 16-bit loads and stores (R172 to R176, R179 to R183). -/
def logicFlags16 (r : Word) (cc : Byte) : Byte := ccSet (setNZ16 r cc) .v false

/-- R15 `UNDEF(k)`: the OPEN function of the opcode and the operand values (log entry 3). -/
def setUndef (opcode : BitVec 16) (operands : List Byte) (k : Flag) (cc : Byte) : Byte :=
  ccSet cc k (Config.undefFlag opcode operands k)

/-- A flag as an operand value of `UNDEF_FLAG`: $00 or $01. -/
def flagByte (b : Bool) : Byte := if b then 0x01#8 else 0x00#8

/-! ### 8-bit addition and subtraction -/

/-- R200 `ADD8(x, y, cin)`: the result and the new CC. -/
def add8 (x y : Byte) (cin : Bool) (cc : Byte) : Byte × Byte :=
  let full := x.toNat + y.toNat + cin.toNat
  let r := BitVec.ofNat 8 full
  let cc := ccSet cc .h ((x ^^^ y ^^^ r).getLsbD 4)
  let cc := setNZ8 r cc
  let cc := ccSet cc .v (((x ^^^ r) &&& (y ^^^ r)).getLsbD 7)
  (r, ccSet cc .c (decide (256 ≤ full)))

/-- R201 `SUB8(x, y, bin)`: the result and the new CC; H is `UNDEF(H)` of the opcode and the operands x, y, bin. -/
def sub8 (opcode : BitVec 16) (x y : Byte) (bin : Bool) (cc : Byte) : Byte × Byte :=
  let r := BitVec.ofInt 8 ((x.toNat : Int) - y.toNat - bin.toNat)
  let cc := setNZ8 r cc
  let cc := ccSet cc .v (((x ^^^ y) &&& (x ^^^ r)).getLsbD 7)
  let cc := ccSet cc .c (decide (x.toNat < y.toNat + bin.toNat))
  (r, setUndef opcode [x, y, flagByte bin] .h cc)

/-! ### 16-bit addition and subtraction -/

/-- R240 `ADD16(x, y)`; H is not written. -/
def add16 (x y : Word) (cc : Byte) : Word × Byte :=
  let full := x.toNat + y.toNat
  let r := BitVec.ofNat 16 full
  let cc := setNZ16 r cc
  let cc := ccSet cc .v (((x ^^^ r) &&& (y ^^^ r)).getLsbD 15)
  (r, ccSet cc .c (decide (65536 ≤ full)))

/-- R241 `SUB16(x, y)`; H is not written. -/
def sub16 (x y : Word) (cc : Byte) : Word × Byte :=
  let r := BitVec.ofInt 16 ((x.toNat : Int) - y.toNat)
  let cc := setNZ16 r cc
  let cc := ccSet cc .v (((x ^^^ y) &&& (x ^^^ r)).getLsbD 15)
  (r, ccSet cc .c (decide (x.toNat < y.toNat)))

/-! ### DAA, MUL, SEX -/

/-- R221: the correction byte cf. -/
def daaCorrection (a cc : Byte) : Nat :=
  let lsn := (a.extractLsb' 0 4).toNat
  let msn := (a.extractLsb' 4 4).toNat
  let low := if ccGet cc .h || decide (lsn > 9) then 0x06 else 0
  let high := if ccGet cc .c || decide (msn > 9) || (decide (msn > 8) && decide (lsn > 9)) then 0x60 else 0
  low + high

/-- R221: the new A and the new CC; V is `UNDEF(V)` of the opcode and the operands A, H and C. -/
def daa8 (opcode : BitVec 16) (a cc : Byte) : Byte × Byte :=
  let t := a.toNat + daaCorrection a cc
  let r := BitVec.ofNat 8 t
  let ops := [a, flagByte (ccGet cc .h), flagByte (ccGet cc .c)]
  let c := ccGet cc .c || decide (256 ≤ t)
  (r, setUndef opcode ops .v (ccSet (setNZ8 r cc) .c c))

/-- R222: the product and the new CC (Z from the 16-bit product, C its bit 7). -/
def mul8 (a b cc : Byte) : Word × Byte :=
  let d := BitVec.ofNat 16 (a.toNat * b.toNat)
  (d, ccSet (ccSet cc .z (d == 0)) .c (d.getLsbD 7))

/-! ### Unary, shift and rotate: the result and the new CC from the operand and CC -/

/-- R261: NEG. -/
def neg8 (opcode : BitVec 16) (m cc : Byte) : Byte × Byte :=
  let r := 0#8 - m
  let cc := ccSet (setNZ8 r cc) .v (m == 0x80#8)
  (r, setUndef opcode [m] .h (ccSet cc .c (m != 0x00#8)))

/-- R264: COM. -/
def com8 (m cc : Byte) : Byte × Byte :=
  let r := m ^^^ 0xFF#8
  (r, ccSet (ccSet (setNZ8 r cc) .v false) .c true)

/-- R267: LSR. -/
def lsr8 (m cc : Byte) : Byte × Byte :=
  let r := m >>> 1
  (r, ccSet (ccSet (ccSet cc .c (m.getLsbD 0)) .n false) .z (r == 0))

/-- R270: ROR, with the old C. -/
def ror8 (m cc : Byte) : Byte × Byte :=
  let r := (if ccGet cc .c then 0x80#8 else 0x00#8) ||| (m >>> 1)
  (r, setNZ8 r (ccSet cc .c (m.getLsbD 0)))

/-- R273: ASR. -/
def asr8 (opcode : BitVec 16) (m cc : Byte) : Byte × Byte :=
  let r := (m &&& 0x80#8) ||| (m >>> 1)
  (r, setUndef opcode [m] .h (setNZ8 r (ccSet cc .c (m.getLsbD 0))))

/-- R276: ASL. -/
def asl8 (opcode : BitVec 16) (m cc : Byte) : Byte × Byte :=
  let r := m <<< 1
  let cc := ccSet (ccSet cc .c (m.getLsbD 7)) .v (m.getLsbD 7 != m.getLsbD 6)
  (r, setUndef opcode [m] .h (setNZ8 r cc))

/-- R279: ROL, with the old C. -/
def rol8 (m cc : Byte) : Byte × Byte :=
  let r := (m <<< 1) ||| flagByte (ccGet cc .c)
  (r, setNZ8 r (ccSet (ccSet cc .c (m.getLsbD 7)) .v (m.getLsbD 7 != m.getLsbD 6)))

/-- R282: DEC; C is not written. -/
def dec8 (m cc : Byte) : Byte × Byte :=
  let r := m - 1
  (r, ccSet (setNZ8 r cc) .v (m == 0x80#8))

/-- R285: INC; C is not written. -/
def inc8 (m cc : Byte) : Byte × Byte :=
  let r := m + 1
  (r, ccSet (setNZ8 r cc) .v (m == 0x7F#8))

/-- R291: CLR. -/
def clrFlags (cc : Byte) : Byte :=
  ccSet (ccSet (ccSet (ccSet cc .n false) .z true) .v false) .c false

/-! ### Branch conditions (R310) -/

/-- The sixteen conditions, by cc = 0 to F. -/
inductive Cond where
  | ra | rn | hi | ls | hs | lo | ne | eq | vc | vs | pl | mi | ge | lt | gt | le
  deriving DecidableEq, Repr

/-- R310, column "taken when". -/
def condHolds (k : Cond) (cc : Byte) : Bool :=
  let c := ccGet cc .c
  let z := ccGet cc .z
  let v := ccGet cc .v
  let n := ccGet cc .n
  match k with
  | .ra => true
  | .rn => false
  | .hi => !c && !z
  | .ls => c || z
  | .hs => !c
  | .lo => c
  | .ne => !z
  | .eq => z
  | .vc => !v
  | .vs => v
  | .pl => !n
  | .mi => n
  | .ge => n == v
  | .lt => n != v
  | .gt => !z && n == v
  | .le => z || n != v

end Sys2Proof.Machine
end

