-- ==== Sys2Proof/Machine/Ops.lean ====
section
/-! DEFINITION. The named operations over registers, CC and stacks (spec/00_scope.md R12, R14; 10_state.md R30 to R48),
how an instruction runs and ends (60_exceptions.md R412, R420, R421), and taking and returning from an interrupt or
software interrupt as one shared operation each (R423, R430 to R435; 47_system.md R380 to R383). -/

namespace Sys2Proof.Machine

/-! ### Registers (R12, R30, R32) -/

/-- `A <- v`. -/
def State.setA (s : State) (v : Byte) : State := { s with regs := { s.regs with a := v } }
/-- `B <- v`. -/
def State.setB (s : State) (v : Byte) : State := { s with regs := { s.regs with b := v } }
/-- `DP <- v`. -/
def State.setDp (s : State) (v : Byte) : State := { s with regs := { s.regs with dp := v } }
/-- `CC <- v`: all eight bits. -/
def State.setCc (s : State) (v : Byte) : State := { s with regs := { s.regs with cc := v } }
/-- `X <- v`. -/
def State.setX (s : State) (v : Word) : State := { s with regs := { s.regs with x := v } }
/-- `Y <- v`. -/
def State.setY (s : State) (v : Word) : State := { s with regs := { s.regs with y := v } }
/-- `U <- v`. -/
def State.setU (s : State) (v : Word) : State := { s with regs := { s.regs with u := v } }
/-- `S <- v` by a push, a pull, an addressing mode or an interrupt entry: NMI is not armed by these (R48). -/
def State.setS (s : State) (v : Word) : State := { s with regs := { s.regs with s := v } }
/-- `PC <- v`. -/
def State.setPc (s : State) (v : Word) : State := { s with regs := { s.regs with pc := v } }

/-- R32: D = A:B. -/
def Regs.d (r : Regs) : Word := wordOf r.a r.b

/-- R32: `D <- v` is `A <- v[15:8]; B <- v[7:0]` in one step. -/
def State.setD (s : State) (v : Word) : State :=
  { s with regs := { s.regs with a := hiByte v, b := loByte v } }

/-- R48: `nmi_armed` becomes true when `NMI_ARM_REQUIRED` is true. -/
def State.armNmi (s : State) : State := { s with nmiArmed := s.nmiArmed || s.cfg.nmiArmRequired }

/-- `S <- v` by LDS, LEAS, TFR or EXG to S, or PULU with S in its list: the writes of S that arm NMI (R48). -/
def State.loadS (s : State) (v : Word) : State := (s.setS v).armNmi

/-- R47: PC advanced past n bytes, modulo 2^16. -/
def State.advance (s : State) (n : Nat) : State := s.setPc (s.regs.pc + BitVec.ofNat 16 n)

/-- `CC.k <- b`. -/
def State.setFlag (s : State) (k : Flag) (b : Bool) : State := s.setCc (ccSet s.regs.cc k b)

/-- The two accumulators as an operand (R31). -/
inductive Acc where
  | a | b
  deriving DecidableEq, Repr

/-- The accumulator's value. -/
def Acc.get (k : Acc) (r : Regs) : Byte :=
  match k with
  | .a => r.a
  | .b => r.b

/-- The accumulator written. -/
def Acc.set (k : Acc) (s : State) (v : Byte) : State :=
  match k with
  | .a => s.setA v
  | .b => s.setB v

/-- The 16-bit registers of loads, stores, compares and LEA. -/
inductive Reg16 where
  | d | x | y | u | s
  deriving DecidableEq, Repr

/-- The register's value. -/
def Reg16.get (k : Reg16) (r : Regs) : Word :=
  match k with
  | .d => r.d
  | .x => r.x
  | .y => r.y
  | .u => r.u
  | .s => r.s

/-- The register loaded by an instruction; loading S arms NMI (R48, R176, R187). -/
def Reg16.load (k : Reg16) (s : State) (v : Word) : State :=
  match k with
  | .d => s.setD v
  | .x => s.setX v
  | .y => s.setY v
  | .u => s.setU v
  | .s => s.loadS v

/-! ### Stacks (R14, R34): `sp` is S or U -/

/-- The stack an instruction uses. -/
inductive Stack where
  | s | u
  deriving DecidableEq, Repr

/-- The stack pointer's value. -/
def Stack.get (k : Stack) (r : Regs) : Word :=
  match k with
  | .s => r.s
  | .u => r.u

/-- The stack pointer moved by a push or a pull. -/
def Stack.set (k : Stack) (s : State) (v : Word) : State :=
  match k with
  | .s => s.setS v
  | .u => s.setU v

/-- R14 `Push8(sp, v)`. -/
def push8 (k : Stack) (v : Byte) (s : State) : Access :=
  let sp := k.get s.regs - 1
  (k.set s sp).write8 sp v

/-- R14 `Push16(sp, v)`. -/
def push16 (k : Stack) (v : Word) (s : State) : Access :=
  let sp := k.get s.regs - 2
  (k.set s sp).write16 sp v

/-- R14 `Pull8(sp)`. -/
def pull8 (k : Stack) (s : State) : Byte × State :=
  let r := s.read8 (k.get s.regs)
  (r.1, k.set r.2 (k.get r.2.regs + 1))

/-- R14 `Pull16(sp)`. -/
def pull16 (k : Stack) (s : State) : Word × State :=
  let r := s.read16 (k.get s.regs)
  (r.1, k.set r.2 (k.get r.2.regs + 2))

/-- One place of a push's register list: pushed when its bit is set. -/
def pushIf (b : Bool) (f : State → Access) (s : State) : Access := if b then f s else .ok s

/-- One place of a pull's register list: pulled when its bit is set. -/
def pullIf (b : Bool) (f : State → State) (s : State) : State := if b then f s else s

/-- The other stack pointer: U for PSHS and PULS, S for PSHU and PULU (R120). -/
def Stack.other : Stack → Stack
  | .s => .u
  | .u => .s

/-- R362, R364: the pushes of a register list, bit 7 first. The current registers are pushed. -/
def pushList (k : Stack) (pb : Byte) (s : State) : Access :=
  ((((((((pushIf (pb.getLsbD 7) (fun s => push16 k s.regs.pc s) s)
    ).andThen (pushIf (pb.getLsbD 6) fun s => push16 k (k.other.get s.regs) s)
    ).andThen (pushIf (pb.getLsbD 5) fun s => push16 k s.regs.y s)
    ).andThen (pushIf (pb.getLsbD 4) fun s => push16 k s.regs.x s)
    ).andThen (pushIf (pb.getLsbD 3) fun s => push8 k s.regs.dp s)
    ).andThen (pushIf (pb.getLsbD 2) fun s => push8 k s.regs.b s)
    ).andThen (pushIf (pb.getLsbD 1) fun s => push8 k s.regs.a s)
    ).andThen (pushIf (pb.getLsbD 0) fun s => push8 k s.regs.cc s)

/-- Pull a byte into a register. -/
def pullInto8 (k : Stack) (f : State → Byte → State) (s : State) : State :=
  let r := pull8 k s
  f r.2 r.1

/-- Pull a word into a register. -/
def pullInto16 (k : Stack) (f : State → Word → State) (s : State) : State :=
  let r := pull16 k s
  f r.2 r.1

/-- The other stack pointer loaded by a pull: PULU with S arms NMI (R48, R365). -/
def Stack.loadOther (k : Stack) (s : State) (v : Word) : State :=
  match k with
  | .s => s.setU v
  | .u => s.loadS v

/-- R363, R365: the pulls of a register list, bit 0 first. -/
def pullList (k : Stack) (pb : Byte) (s : State) : State :=
  let s := pullIf (pb.getLsbD 0) (pullInto8 k State.setCc) s
  let s := pullIf (pb.getLsbD 1) (pullInto8 k State.setA) s
  let s := pullIf (pb.getLsbD 2) (pullInto8 k State.setB) s
  let s := pullIf (pb.getLsbD 3) (pullInto8 k State.setDp) s
  let s := pullIf (pb.getLsbD 4) (pullInto16 k State.setX) s
  let s := pullIf (pb.getLsbD 5) (pullInto16 k State.setY) s
  let s := pullIf (pb.getLsbD 6) (pullInto16 k k.loadOther) s
  pullIf (pb.getLsbD 7) (pullInto16 k State.setPc) s

/-! ### How an instruction or an interrupt entry ends -/

/-- R421: a ROM-write fault restores PC, CC and every register to their values in s0 and ends the run; bytes written
before it stay written, device side effects stay done. -/
def finish (s0 : State) : Access → Result
  | .ok t => .next t
  | .romFault a t => .next { t with regs := s0.regs, status := .faulted (.romWrite a) }

/-- An instruction run at a state whose PC is the address of its first byte: PC moves past its bytes (R47), then the
operation runs (R17), and a ROM-write fault takes the registers back to s (R412, R421). -/
def runInstr (i : Instr) (s : State) (body : State → Access) : Result := finish s (body (s.advance i.size))

/-- An instruction that writes nothing to the bus. -/
def runPure (i : Instr) (s : State) (f : State → State) : Result := runInstr i s fun t => .ok (f t)

/-- R420: `InvalidInstruction` at the instruction whose first byte is at PC; registers and PC stay as at its start. -/
def raiseInvalid (bytes : List Byte) (s : State) : State :=
  { s with status := .faulted (.invalidInstruction s.regs.pc bytes) }

/-! ### Taking an interrupt or a software interrupt, and returning (R423, R430 to R435) -/

/-- The vectored events of R423, less RESET. -/
inductive Event where
  | nmi | swi | irq | firq | swi2 | swi3
  deriving DecidableEq, Repr

/-- R423: the vector address. -/
def Event.vector : Event → Word
  | .nmi => 0xFFFC#16
  | .swi => 0xFFFA#16
  | .irq => 0xFFF8#16
  | .firq => 0xFFF6#16
  | .swi2 => 0xFFF4#16
  | .swi3 => 0xFFF2#16

/-- R423, R44: whether the frame is the entire state (E = 1) or PC and CC (E = 0). -/
def Event.entire : Event → Bool
  | .firq => false
  | _ => true

/-- R423: whether the entry sets I. -/
def Event.masksI : Event → Bool
  | .nmi | .swi | .irq | .firq => true
  | .swi2 | .swi3 => false

/-- R423: whether the entry sets F. -/
def Event.masksF : Event → Bool
  | .nmi | .swi | .firq => true
  | .irq | .swi2 | .swi3 => false

/-- 47_system.md `PushEntire()`: PSHS with postbyte $FF. -/
def pushEntire (s : State) : Access := pushList .s 0xFF#8 s

/-- R432: the short frame, PC then CC. -/
def pushShort (s : State) : Access := (push16 .s s.regs.pc s).andThen fun s => push8 .s s.regs.cc s

/-- A mask flag set by an entry, or left as it is. -/
def State.maskIf (s : State) (b : Bool) (k : Flag) : State := if b then s.setFlag k true else s

/-- R430, R434: the masks of the event, then PC from its vector, read through the bus. -/
def vectorTo (e : Event) (s : State) : State :=
  let s := (s.maskIf e.masksI .i).maskIf e.masksF .f
  let v := s.read16 e.vector
  v.2.setPc v.1

/-- The entry of every vectored event: E says which frame, the frame goes on S with the current PC (R435), then the
masks and the vector (R380 to R382, R431 to R433). -/
def takeException (e : Event) (s : State) : Access :=
  let s := s.setFlag .e e.entire
  (if e.entire then pushEntire s else pushShort s).andThen fun s => .ok (vectorTo e s)

/-- R383: RTI pulls CC, then the rest of the entire frame when the E just pulled is 1, then PC. -/
def returnFromException (s : State) : State :=
  let s := pullInto8 .s State.setCc s
  let s := if ccGet s.regs.cc .e then pullList .s 0x7E#8 s else s
  pullInto16 .s State.setPc s

end Sys2Proof.Machine
end

