-- ==== Sys2Proof/Machine/Loader.lean ====
section
/-! DEFINITION. Loading images into device storage before a run, and the reset procedure for any parameters
(spec/70_reset_and_hazards.md R470 to R474; 10_state.md R54). -/

namespace Sys2Proof.Machine

/-! ### Loading (R472) -/

/-- One byte put straight into a memory device's storage, ROM included; refused where no memory device answers. -/
def loadByte (s : State) (a : Word) (v : Byte) : Option State :=
  match place s.cfg a with
  | .cell _ key => some { s with mem := s.mem.write key v }
  | .serial _ => none
  | .unmapped => none

/-- R472 `Load(image, base)`: the bytes in file order at base +16 address; one byte that no memory device takes refuses
the whole load. -/
def loadImage (base : Word) : List (Word × Byte) → State → Option State
  | [], s => some s
  | (a, v) :: rest, s =>
    match loadByte s (base + a) v with
    | some t => loadImage base rest t
    | none => none

/-- R472: the images in command-line order, each with its base. -/
def loadImages : List (Word × List (Word × Byte)) → State → Option State
  | [], s => some s
  | (base, image) :: rest, s =>
    match loadImage base image s with
    | some t => loadImages rest t
    | none => none

/-- R474: a raw image, byte i at address i; one of more than 65 536 bytes is refused. -/
def rawImage (bytes : List Byte) : Option (List (Word × Byte)) :=
  if bytes.length ≤ 65536 then some (bytes.zipIdx.map fun p => (BitVec.ofNat 16 p.2, p.1)) else none

/-! ### Hex records (R473, informative) -/

/-- The value of an ASCII hex digit. -/
def hexDigit (c : Char) : Option Nat :=
  let n := c.toNat
  if 48 ≤ n ∧ n ≤ 57 then some (n - 48)
  else if 65 ≤ n ∧ n ≤ 70 then some (n - 55)
  else if 97 ≤ n ∧ n ≤ 102 then some (n - 87)
  else none

/-- Pairs of hex digits as bytes; R473's "optional CRLF" at the end is dropped. DESIGN CHOICE (log entry 17): so is a
carriage return or a line feed that stands there alone. -/
def hexBytes : List Char → Option (List Byte)
  | [] => some []
  | [c] => if c.toNat = 13 ∨ c.toNat = 10 then some [] else none
  | c :: d :: rest =>
    if c.toNat = 13 ∧ d.toNat = 10 ∧ rest = [] then some []
    else
      match hexDigit c, hexDigit d, hexBytes rest with
      | some h, some l, some bs => some (BitVec.ofNat 8 (16 * h + l) :: bs)
      | _, _, _ => none

/-- The data bytes of a record at consecutive addresses, wrapping modulo 2^16. -/
def placeBytes (a : Word) : List Byte → List (Word × Byte)
  | [] => []
  | b :: bs => (a, b) :: placeBytes (a + 1) bs

/-- A record: its type and its bytes with their addresses. The checksum byte is there and is not checked. -/
def hexRecord : List Byte → Option (Byte × List (Word × Byte))
  | len :: ah :: al :: kind :: rest =>
    if rest.length = len.toNat + 1 then some (kind, placeBytes (wordOf ah al) (rest.take len.toNat)) else none
  | _ => none

/-- A line: the start character, then the record's digits. -/
def hexLine : List Char → Option (Byte × List (Word × Byte))
  | c :: cs =>
    if c.toNat = 58 then
      match hexBytes cs with
      | some bs => hexRecord bs
      | none => none
    else none
  | [] => none

/-- R473: a type-01 record ends the image and the lines after it are ignored; a type other than 00 and 01 refuses the
load. DESIGN CHOICE (log entry 17): lines that end without a type-01 record are a whole image. -/
def hexImage : List (List Char) → Option (List (Word × Byte))
  | [] => some []
  | line :: lines =>
    match hexLine line with
    | some (kind, cells) =>
      if kind = 0x00#8 then (hexImage lines).map (cells ++ ·)
      else if kind = 0x01#8 then some []
      else none
    | none => none

/-! ### Reset (R470, R54) -/

/-- The parameters of a run that reset uses beside the configuration (R9): `RESET_VALUES`, `INITIAL_MEMORY` and the
pure sources' σ0. -/
structure ResetValues where
  a : Byte
  b : Byte
  x : Word
  y : Word
  u : Word
  s : Word
  e : Bool
  h : Bool
  n : Bool
  z : Bool
  v : Bool
  c : Bool
  deriving DecidableEq, Repr

/-- R54: CC after reset: I = F = 1, the other bits from `RESET_VALUES`. -/
def ResetValues.cc (r : ResetValues) : Byte :=
  BitVec.ofBool r.e ++ 1#1 ++ BitVec.ofBool r.h ++ 1#1 ++ BitVec.ofBool r.n ++ BitVec.ofBool r.z ++ BitVec.ofBool r.v ++
    BitVec.ofBool r.c

/-- R470 steps (1) and (3): the state before PC is set, with the devices at their initial contents. -/
def beforeLoad (cfg : Config) (r : ResetValues) (initial : Memory) (sources : List PureSource) (inbox : Inbox) :
    State where
  cfg := cfg
  regs := { a := r.a, b := r.b, dp := 0x00, cc := r.cc, x := r.x, y := r.y, u := r.u, s := r.s, pc := 0x0000 }
  status := .running
  wait := .none
  nmiPrev := false
  nmiArmed := !cfg.nmiArmRequired
  unmappedReads := 0
  unmappedWrites := 0
  cycles := 0
  execCount := []
  mem := initial
  serial := Serial.reset
  sources := sources
  inbox := inbox

/-- R470 step (4): PC from `ENTRY_PC`, or the word at $FFFE read through the bus (an unmapped read is counted). -/
def setEntry (s : State) : State :=
  match s.cfg.entryPc with
  | some a => s.setPc a
  | none =>
    let v := s.read16 0xFFFE#16
    v.2.setPc v.1

/-- R470: the whole reset; none where a load is refused, in which case "No run starts" (R472). -/
def boot (cfg : Config) (r : ResetValues) (initial : Memory) (sources : List PureSource) (inbox : Inbox)
    (images : List (Word × List (Word × Byte))) : Option State :=
  (loadImages images (beforeLoad cfg r initial sources inbox)).map setEntry

/-- The `RESET_VALUES` of `State.reset`: all zero (log entry 8). -/
def ResetValues.zero : ResetValues :=
  { a := 0, b := 0, x := 0, y := 0, u := 0, s := 0, e := false, h := false, n := false, z := false, v := false, c := false }

/-- Bytes put into storage from an address on, by the loader's rule; a byte no memory device takes is left out. -/
def placeProgram (a : Word) : List Byte → State → State
  | [], s => s
  | b :: bs, s => placeProgram (a + 1) bs ((loadByte s a b).getD s)

end Sys2Proof.Machine
end

