-- ==== Sys2Proof/Machine/Operands.lean ====
section
/-! DEFINITION. The addressing modes (spec/40_addressing.md R140 to R160): effective addresses with their register
updates and pointer reads, and the operands M8 and M16. PC is the address of the next instruction throughout (R17). -/

namespace Sys2Proof.Machine

/-- R147 `reg(rr)`. -/
def indexGet (r : IndexReg) (g : Regs) : Word :=
  match r with
  | .x => g.x
  | .y => g.y
  | .u => g.u
  | .s => g.s

/-- R147 `reg(rr) <- v`. A write of S by an addressing mode does not arm NMI (R48 lists the writes that do). -/
def indexSet (r : IndexReg) (s : State) (v : Word) : State :=
  match r with
  | .x => s.setX v
  | .y => s.setY v
  | .u => s.setU v
  | .s => s.setS v

/-- The address a form computes before indirection, and the state after its register update (R147, R149 to R155). -/
def modeAddress (m : IndexMode) (s : State) : Word × State :=
  match m with
  | .inc2 r => (indexGet r s.regs, indexSet r s (indexGet r s.regs + 2))
  | .dec2 r => (indexGet r s.regs - 2, indexSet r s (indexGet r s.regs - 2))
  | .zero r => (indexGet r s.regs, s)
  | .accB r => (indexGet r s.regs + sext8 s.regs.b, s)
  | .accA r => (indexGet r s.regs + sext8 s.regs.a, s)
  | .accD r => (indexGet r s.regs + s.regs.d, s)
  | .off8 r n => (indexGet r s.regs + sext8 n, s)
  | .off16 r n => (indexGet r s.regs + n, s)
  | .pcr8 n => (s.regs.pc + sext8 n, s)
  | .pcr16 n => (s.regs.pc + n, s)

/-- R147, R148, R153, R154, R156, R157: the effective address of an indexed operand. -/
def indexedAddress (x : Indexed) (s : State) : Word × State :=
  match x with
  | .off5 r n => (indexGet r s.regs + sext5 n, s)
  | .inc1 r => (indexGet r s.regs, indexSet r s (indexGet r s.regs + 1))
  | .dec1 r => (indexGet r s.regs - 1, indexSet r s (indexGet r s.regs - 1))
  | .mode m false => modeAddress m s
  | .mode m true => (modeAddress m s).2.read16 (modeAddress m s).1
  | .absIndirect n => s.read16 n

/-- The effective address of a memory operand (R143, R144, R147). -/
def effectiveAddress (m : Mem) (s : State) : Word × State :=
  match m with
  | .dir dd => (wordOf s.regs.dp dd, s)
  | .ext a => (a, s)
  | .idx x => indexedAddress x s

/-- M8 (R142, R159): the operand and the state after it is read. -/
def operand8 (src : Src8) (s : State) : Byte × State :=
  match src with
  | .imm v => (v, s)
  | .mem m =>
    let ea := effectiveAddress m s
    ea.2.read8 ea.1

/-- M16 (R142, R159). -/
def operand16 (src : Src16) (s : State) : Word × State :=
  match src with
  | .imm v => (v, s)
  | .mem m =>
    let ea := effectiveAddress m s
    ea.2.read16 ea.1

/-- R119: a register of TFR and EXG read; an 8-bit one in the low byte. -/
def codeGet (k : RegCode) (r : Regs) : Word :=
  match k with
  | .d => r.d
  | .x => r.x
  | .y => r.y
  | .u => r.u
  | .s => r.s
  | .pc => r.pc
  | .a => zext8 r.a
  | .b => zext8 r.b
  | .cc => zext8 r.cc
  | .dp => zext8 r.dp

/-- R119, R12: a register of TFR and EXG written; S as destination arms NMI (R48, R360, R361). -/
def codeSet (k : RegCode) (s : State) (v : Word) : State :=
  match k with
  | .d => s.setD v
  | .x => s.setX v
  | .y => s.setY v
  | .u => s.setU v
  | .s => s.loadS v
  | .pc => s.setPc v
  | .a => s.setA (loByte v)
  | .b => s.setB (loByte v)
  | .cc => s.setCc (loByte v)
  | .dp => s.setDp (loByte v)

end Sys2Proof.Machine
end

