-- ==== Sys2Proof/Machine/Alu16.lean ====
section
/-! DEFINITION. 16-bit arithmetic (spec/43_alu16.md R240 to R249). -/

namespace Sys2Proof.Machine

/-- R242, R243: D and M16 through a 16-bit operation whose result goes to D. -/
def aluD (op : Word → Word → Byte → Word × Byte) (src : Src16) (s : State) : State :=
  let m := operand16 src s
  let r := op m.2.regs.d m.1 m.2.regs.cc
  (m.2.setD r.1).setCc r.2

/-- R244 to R248: a register compared with M16; the difference is discarded. -/
def compare16 (k : Reg16) (src : Src16) (s : State) : State :=
  let m := operand16 src s
  m.2.setCc (sub16 (k.get m.2.regs) m.1 m.2.regs.cc).2

/-- R249: X <- X +16 zext16(B); CC is unchanged. -/
def addBToX (s : State) : State := s.setX (s.regs.x + zext8 s.regs.b)

/-- R242 `ADDD`. -/
def execAddd (src : Src16) (s : State) : Result :=
  runPure (.addd src) s (aluD add16 src)

/-- R243 `SUBD`. -/
def execSubd (src : Src16) (s : State) : Result :=
  runPure (.subd src) s (aluD sub16 src)

/-- R244 `CMPD`. -/
def execCmpd (src : Src16) (s : State) : Result :=
  runPure (.cmpd src) s (compare16 .d src)

/-- R245 `CMPX`. -/
def execCmpx (src : Src16) (s : State) : Result :=
  runPure (.cmpx src) s (compare16 .x src)

/-- R246 `CMPY`. -/
def execCmpy (src : Src16) (s : State) : Result :=
  runPure (.cmpy src) s (compare16 .y src)

/-- R247 `CMPU`. -/
def execCmpu (src : Src16) (s : State) : Result :=
  runPure (.cmpu src) s (compare16 .u src)

/-- R248 `CMPS`. -/
def execCmps (src : Src16) (s : State) : Result :=
  runPure (.cmps src) s (compare16 .s src)

/-- R249 `ABX`. -/
def execAbx (s : State) : Result :=
  runPure .abx s addBToX

end Sys2Proof.Machine
end

