-- ==== Sys2Proof/Machine/Alu8.lean ====
section
/-! DEFINITION. 8-bit arithmetic and logic, DAA, MUL and SEX (spec/42_alu8.md R200 to R223). -/

namespace Sys2Proof.Machine

/-- An accumulator and M8 put through an 8-bit operation on (accumulator, M8, CC) whose result is kept. -/
def alu8 (k : Acc) (op : Byte → Byte → Byte → Byte × Byte) (src : Src8) (s : State) : State :=
  let m := operand8 src s
  let r := op (k.get m.2.regs) m.1 m.2.regs.cc
  (k.set m.2 r.1).setCc r.2

/-- The same with the result discarded: the compares and bit tests (R211, R212, R215, R216). -/
def test8 (k : Acc) (op : Byte → Byte → Byte → Byte × Byte) (src : Src8) (s : State) : State :=
  let m := operand8 src s
  m.2.setCc (op (k.get m.2.regs) m.1 m.2.regs.cc).2

/-- R203, R204. -/
def addOp (x y cc : Byte) : Byte × Byte := add8 x y false cc

/-- R205, R206: the carry-in is CC.C. -/
def adcOp (x y cc : Byte) : Byte × Byte := add8 x y (ccGet cc .c) cc

/-- R207, R208, R211, R212. -/
def subOp (opcode : BitVec 16) (x y cc : Byte) : Byte × Byte := sub8 opcode x y false cc

/-- R209, R210: the borrow-in is CC.C. -/
def sbcOp (opcode : BitVec 16) (x y cc : Byte) : Byte × Byte := sub8 opcode x y (ccGet cc .c) cc

/-- R213 to R216. -/
def andOp (x y cc : Byte) : Byte × Byte := (x &&& y, logicFlags8 (x &&& y) cc)

/-- R217, R218. -/
def orOp (x y cc : Byte) : Byte × Byte := (x ||| y, logicFlags8 (x ||| y) cc)

/-- R219, R220. -/
def eorOp (x y cc : Byte) : Byte × Byte := (x ^^^ y, logicFlags8 (x ^^^ y) cc)

/-- R221. -/
def decimalAdjust (opcode : BitVec 16) (s : State) : State :=
  let r := daa8 opcode s.regs.a s.regs.cc
  (s.setA r.1).setCc r.2

/-- R222. -/
def multiply (s : State) : State :=
  let r := mul8 s.regs.a s.regs.b s.regs.cc
  (s.setD r.1).setCc r.2

/-- R223: V is not changed. -/
def signExtendB (s : State) : State :=
  let t := s.setA (if s.regs.b.getLsbD 7 then 0xFF#8 else 0x00#8)
  t.setCc (setNZ16 t.regs.d t.regs.cc)

/-- R203 `ADDA`. -/
def execAdda (src : Src8) (s : State) : Result :=
  runPure (.adda src) s (alu8 .a addOp src)

/-- R204 `ADDB`. -/
def execAddb (src : Src8) (s : State) : Result :=
  runPure (.addb src) s (alu8 .b addOp src)

/-- R205 `ADCA`. -/
def execAdca (src : Src8) (s : State) : Result :=
  runPure (.adca src) s (alu8 .a adcOp src)

/-- R206 `ADCB`. -/
def execAdcb (src : Src8) (s : State) : Result :=
  runPure (.adcb src) s (alu8 .b adcOp src)

/-- R207 `SUBA`. -/
def execSuba (src : Src8) (s : State) : Result :=
  runPure (.suba src) s (alu8 .a (subOp (Instr.suba src).opcode) src)

/-- R208 `SUBB`. -/
def execSubb (src : Src8) (s : State) : Result :=
  runPure (.subb src) s (alu8 .b (subOp (Instr.subb src).opcode) src)

/-- R209 `SBCA`. -/
def execSbca (src : Src8) (s : State) : Result :=
  runPure (.sbca src) s (alu8 .a (sbcOp (Instr.sbca src).opcode) src)

/-- R210 `SBCB`. -/
def execSbcb (src : Src8) (s : State) : Result :=
  runPure (.sbcb src) s (alu8 .b (sbcOp (Instr.sbcb src).opcode) src)

/-- R211 `CMPA`. -/
def execCmpa (src : Src8) (s : State) : Result :=
  runPure (.cmpa src) s (test8 .a (subOp (Instr.cmpa src).opcode) src)

/-- R212 `CMPB`. -/
def execCmpb (src : Src8) (s : State) : Result :=
  runPure (.cmpb src) s (test8 .b (subOp (Instr.cmpb src).opcode) src)

/-- R213 `ANDA`. -/
def execAnda (src : Src8) (s : State) : Result :=
  runPure (.anda src) s (alu8 .a andOp src)

/-- R214 `ANDB`. -/
def execAndb (src : Src8) (s : State) : Result :=
  runPure (.andb src) s (alu8 .b andOp src)

/-- R215 `BITA`. -/
def execBita (src : Src8) (s : State) : Result :=
  runPure (.bita src) s (test8 .a andOp src)

/-- R216 `BITB`. -/
def execBitb (src : Src8) (s : State) : Result :=
  runPure (.bitb src) s (test8 .b andOp src)

/-- R217 `ORA`. -/
def execOra (src : Src8) (s : State) : Result :=
  runPure (.ora src) s (alu8 .a orOp src)

/-- R218 `ORB`. -/
def execOrb (src : Src8) (s : State) : Result :=
  runPure (.orb src) s (alu8 .b orOp src)

/-- R219 `EORA`. -/
def execEora (src : Src8) (s : State) : Result :=
  runPure (.eora src) s (alu8 .a eorOp src)

/-- R220 `EORB`. -/
def execEorb (src : Src8) (s : State) : Result :=
  runPure (.eorb src) s (alu8 .b eorOp src)

/-- R221 `DAA`. -/
def execDaa (s : State) : Result :=
  runPure .daa s (decimalAdjust Instr.daa.opcode)

/-- R222 `MUL`. -/
def execMul (s : State) : Result :=
  runPure .mul s multiply

/-- R223 `SEX`. -/
def execSex (s : State) : Result :=
  runPure .sex s signExtendB

end Sys2Proof.Machine
end

