-- ==== Sys2Proof/Machine/Control.lean ====
section
/-! DEFINITION. Branches, jumps and subroutines (spec/45_control.md R310 to R347). -/

namespace Sys2Proof.Machine

/-- R145, R310: a short branch; PC is the address of the next instruction. -/
def branch8 (k : Cond) (rr : Byte) (s : State) : State :=
  if condHolds k s.regs.cc then s.setPc (s.regs.pc + sext8 rr) else s

/-- R146, R310: a long branch. -/
def branch16 (k : Cond) (rrrr : Word) (s : State) : State :=
  if condHolds k s.regs.cc then s.setPc (s.regs.pc + rrrr) else s

/-- R343, R344, R346: the return address pushed on S, then PC <- target. -/
def callTo (target : Word) (s : State) : Access :=
  (push16 .s s.regs.pc s).andThen fun s => .ok (s.setPc target)

/-- R345: PC <- EA. -/
def jumpTo (m : Mem) (s : State) : State :=
  let ea := effectiveAddress m s
  ea.2.setPc ea.1

/-- R346: EA is computed before the push (R158). -/
def callMem (m : Mem) (s : State) : Access :=
  let ea := effectiveAddress m s
  callTo ea.1 ea.2

/-- R311 `BRA`. -/
def execBra (rr : Byte) (s : State) : Result :=
  runPure (.bra rr) s (branch8 .ra rr)

/-- R312 `BRN`. -/
def execBrn (rr : Byte) (s : State) : Result :=
  runPure (.brn rr) s (branch8 .rn rr)

/-- R313 `BHI`. -/
def execBhi (rr : Byte) (s : State) : Result :=
  runPure (.bhi rr) s (branch8 .hi rr)

/-- R314 `BLS`. -/
def execBls (rr : Byte) (s : State) : Result :=
  runPure (.bls rr) s (branch8 .ls rr)

/-- R315 `BHS`. -/
def execBhs (rr : Byte) (s : State) : Result :=
  runPure (.bhs rr) s (branch8 .hs rr)

/-- R316 `BLO`. -/
def execBlo (rr : Byte) (s : State) : Result :=
  runPure (.blo rr) s (branch8 .lo rr)

/-- R317 `BNE`. -/
def execBne (rr : Byte) (s : State) : Result :=
  runPure (.bne rr) s (branch8 .ne rr)

/-- R318 `BEQ`. -/
def execBeq (rr : Byte) (s : State) : Result :=
  runPure (.beq rr) s (branch8 .eq rr)

/-- R319 `BVC`. -/
def execBvc (rr : Byte) (s : State) : Result :=
  runPure (.bvc rr) s (branch8 .vc rr)

/-- R320 `BVS`. -/
def execBvs (rr : Byte) (s : State) : Result :=
  runPure (.bvs rr) s (branch8 .vs rr)

/-- R321 `BPL`. -/
def execBpl (rr : Byte) (s : State) : Result :=
  runPure (.bpl rr) s (branch8 .pl rr)

/-- R322 `BMI`. -/
def execBmi (rr : Byte) (s : State) : Result :=
  runPure (.bmi rr) s (branch8 .mi rr)

/-- R323 `BGE`. -/
def execBge (rr : Byte) (s : State) : Result :=
  runPure (.bge rr) s (branch8 .ge rr)

/-- R324 `BLT`. -/
def execBlt (rr : Byte) (s : State) : Result :=
  runPure (.blt rr) s (branch8 .lt rr)

/-- R325 `BGT`. -/
def execBgt (rr : Byte) (s : State) : Result :=
  runPure (.bgt rr) s (branch8 .gt rr)

/-- R326 `BLE`. -/
def execBle (rr : Byte) (s : State) : Result :=
  runPure (.ble rr) s (branch8 .le rr)

/-- R327 `LBRA`. -/
def execLbra (rrrr : Word) (s : State) : Result :=
  runPure (.lbra rrrr) s (branch16 .ra rrrr)

/-- R328 `LBRN`. -/
def execLbrn (rrrr : Word) (s : State) : Result :=
  runPure (.lbrn rrrr) s (branch16 .rn rrrr)

/-- R329 `LBHI`. -/
def execLbhi (rrrr : Word) (s : State) : Result :=
  runPure (.lbhi rrrr) s (branch16 .hi rrrr)

/-- R330 `LBLS`. -/
def execLbls (rrrr : Word) (s : State) : Result :=
  runPure (.lbls rrrr) s (branch16 .ls rrrr)

/-- R331 `LBHS`. -/
def execLbhs (rrrr : Word) (s : State) : Result :=
  runPure (.lbhs rrrr) s (branch16 .hs rrrr)

/-- R332 `LBLO`. -/
def execLblo (rrrr : Word) (s : State) : Result :=
  runPure (.lblo rrrr) s (branch16 .lo rrrr)

/-- R333 `LBNE`. -/
def execLbne (rrrr : Word) (s : State) : Result :=
  runPure (.lbne rrrr) s (branch16 .ne rrrr)

/-- R334 `LBEQ`. -/
def execLbeq (rrrr : Word) (s : State) : Result :=
  runPure (.lbeq rrrr) s (branch16 .eq rrrr)

/-- R335 `LBVC`. -/
def execLbvc (rrrr : Word) (s : State) : Result :=
  runPure (.lbvc rrrr) s (branch16 .vc rrrr)

/-- R336 `LBVS`. -/
def execLbvs (rrrr : Word) (s : State) : Result :=
  runPure (.lbvs rrrr) s (branch16 .vs rrrr)

/-- R337 `LBPL`. -/
def execLbpl (rrrr : Word) (s : State) : Result :=
  runPure (.lbpl rrrr) s (branch16 .pl rrrr)

/-- R338 `LBMI`. -/
def execLbmi (rrrr : Word) (s : State) : Result :=
  runPure (.lbmi rrrr) s (branch16 .mi rrrr)

/-- R339 `LBGE`. -/
def execLbge (rrrr : Word) (s : State) : Result :=
  runPure (.lbge rrrr) s (branch16 .ge rrrr)

/-- R340 `LBLT`. -/
def execLblt (rrrr : Word) (s : State) : Result :=
  runPure (.lblt rrrr) s (branch16 .lt rrrr)

/-- R341 `LBGT`. -/
def execLbgt (rrrr : Word) (s : State) : Result :=
  runPure (.lbgt rrrr) s (branch16 .gt rrrr)

/-- R342 `LBLE`. -/
def execLble (rrrr : Word) (s : State) : Result :=
  runPure (.lble rrrr) s (branch16 .le rrrr)

/-- R343 `BSR`. -/
def execBsr (rr : Byte) (s : State) : Result :=
  runInstr (.bsr rr) s fun t => callTo (t.regs.pc + sext8 rr) t

/-- R344 `LBSR`. -/
def execLbsr (rrrr : Word) (s : State) : Result :=
  runInstr (.lbsr rrrr) s fun t => callTo (t.regs.pc + rrrr) t

/-- R345 `JMP`. -/
def execJmp (m : Mem) (s : State) : Result :=
  runPure (.jmp m) s (jumpTo m)

/-- R346 `JSR`. -/
def execJsr (m : Mem) (s : State) : Result :=
  runInstr (.jsr m) s (callMem m)

/-- R347 `RTS`. -/
def execRts (s : State) : Result :=
  runPure .rts s (pullInto16 .s State.setPc)

end Sys2Proof.Machine
end

