-- ==== Sys2Proof/Machine/LoadStore.lean ====
section
/-! DEFINITION. Loads, stores and effective-address loads (spec/41_load_store.md R170 to R187). -/

namespace Sys2Proof.Machine

/-- R170, R171: an accumulator loaded from M8. -/
def load8 (k : Acc) (src : Src8) (s : State) : State :=
  let m := operand8 src s
  (k.set m.2 m.1).setCc (logicFlags8 m.1 m.2.regs.cc)

/-- R172 to R176: a 16-bit register loaded from M16. -/
def load16 (k : Reg16) (src : Src16) (s : State) : State :=
  let m := operand16 src s
  (k.load m.2 m.1).setCc (logicFlags16 m.1 m.2.regs.cc)

/-- R177, R178: an accumulator stored at EA, which is not read first. -/
def store8At (k : Acc) (m : Mem) (s : State) : Access :=
  let ea := effectiveAddress m s
  let v := k.get ea.2.regs
  (ea.2.setCc (logicFlags8 v ea.2.regs.cc)).write8 ea.1 v

/-- R179 to R183: a 16-bit register stored at EA, high byte first. -/
def store16At (k : Reg16) (m : Mem) (s : State) : Access :=
  let ea := effectiveAddress m s
  let v := k.get ea.2.regs
  (ea.2.setCc (logicFlags16 v ea.2.regs.cc)).write16 ea.1 v

/-- R184 to R187: a register loaded with EA; no data access at EA. -/
def loadAddress (k : Reg16) (x : Indexed) (s : State) : State :=
  let ea := indexedAddress x s
  k.load ea.2 ea.1

/-- R184, R185: LEAX and LEAY set Z alone. -/
def loadAddressZ (k : Reg16) (x : Indexed) (s : State) : State :=
  let t := loadAddress k x s
  t.setFlag .z (k.get t.regs == 0)

/-- R170 `LDA`. -/
def execLda (src : Src8) (s : State) : Result :=
  runPure (.lda src) s (load8 .a src)

/-- R171 `LDB`. -/
def execLdb (src : Src8) (s : State) : Result :=
  runPure (.ldb src) s (load8 .b src)

/-- R172 `LDD`. -/
def execLdd (src : Src16) (s : State) : Result :=
  runPure (.ldd src) s (load16 .d src)

/-- R173 `LDX`. -/
def execLdx (src : Src16) (s : State) : Result :=
  runPure (.ldx src) s (load16 .x src)

/-- R174 `LDY`. -/
def execLdy (src : Src16) (s : State) : Result :=
  runPure (.ldy src) s (load16 .y src)

/-- R175 `LDU`. -/
def execLdu (src : Src16) (s : State) : Result :=
  runPure (.ldu src) s (load16 .u src)

/-- R176 `LDS`. -/
def execLds (src : Src16) (s : State) : Result :=
  runPure (.lds src) s (load16 .s src)

/-- R177 `STA`. -/
def execSta (m : Mem) (s : State) : Result :=
  runInstr (.sta m) s (store8At .a m)

/-- R178 `STB`. -/
def execStb (m : Mem) (s : State) : Result :=
  runInstr (.stb m) s (store8At .b m)

/-- R179 `STD`. -/
def execStd (m : Mem) (s : State) : Result :=
  runInstr (.std m) s (store16At .d m)

/-- R180 `STX`. -/
def execStx (m : Mem) (s : State) : Result :=
  runInstr (.stx m) s (store16At .x m)

/-- R181 `STY`. -/
def execSty (m : Mem) (s : State) : Result :=
  runInstr (.sty m) s (store16At .y m)

/-- R182 `STU`. -/
def execStu (m : Mem) (s : State) : Result :=
  runInstr (.stu m) s (store16At .u m)

/-- R183 `STS`. -/
def execSts (m : Mem) (s : State) : Result :=
  runInstr (.sts m) s (store16At .s m)

/-- R184 `LEAX`. -/
def execLeax (x : Indexed) (s : State) : Result :=
  runPure (.leax x) s (loadAddressZ .x x)

/-- R185 `LEAY`. -/
def execLeay (x : Indexed) (s : State) : Result :=
  runPure (.leay x) s (loadAddressZ .y x)

/-- R186 `LEAU`. -/
def execLeau (x : Indexed) (s : State) : Result :=
  runPure (.leau x) s (loadAddress .u x)

/-- R187 `LEAS`. -/
def execLeas (x : Indexed) (s : State) : Result :=
  runPure (.leas x) s (loadAddress .s x)

end Sys2Proof.Machine
end

