-- ==== Sys2Proof/Machine/System.lean ====
section
/-! DEFINITION. Software interrupts, return from interrupt and the two waits (spec/47_system.md R380 to R385). -/

namespace Sys2Proof.Machine

/-- R384: CC <- CC AND ii, E <- 1, the entire frame on S, then wait = cwai. -/
def clearAndWait (ii : Byte) (s : State) : Access :=
  let t := (s.setCc (s.regs.cc &&& ii)).setFlag .e true
  (pushEntire t).andThen fun t => .ok { t with wait := .cwai }

/-- R385: wait = sync; CC is unchanged and nothing is pushed. -/
def waitForLine (s : State) : State := { s with wait := .sync }

/-- R380 `SWI`. -/
def execSwi (s : State) : Result :=
  runInstr .swi s (takeException .swi)

/-- R381 `SWI2`. -/
def execSwi2 (s : State) : Result :=
  runInstr .swi2 s (takeException .swi2)

/-- R382 `SWI3`. -/
def execSwi3 (s : State) : Result :=
  runInstr .swi3 s (takeException .swi3)

/-- R383 `RTI`. -/
def execRti (s : State) : Result :=
  runPure .rti s returnFromException

/-- R384 `CWAI`. -/
def execCwai (ii : Byte) (s : State) : Result :=
  runInstr (.cwai ii) s (clearAndWait ii)

/-- R385 `SYNC`. -/
def execSync (s : State) : Result :=
  runPure .sync s waitForLine

end Sys2Proof.Machine
end

