-- ==== Sys2Proof/Machine/Transfer.lean ====
section
/-! DEFINITION. Register transfer, register-list stack instructions, ANDCC, ORCC and NOP (spec/46_register_stack.md R360 to R368). -/

namespace Sys2Proof.Machine

/-- R360: r2 <- r1; the source is unchanged. -/
def transfer (r1 r2 : RegCode) (s : State) : State := codeSet r2 s (codeGet r1 s.regs)

/-- R361: both values are read before either is written. -/
def exchange (r1 r2 : RegCode) (s : State) : State :=
  codeSet r2 (codeSet r1 s (codeGet r2 s.regs)) (codeGet r1 s.regs)

/-- R360, R361: a postbyte that R130 calls invalid raises InvalidInstruction; its bytes are the two of the
instruction. -/
def runPair (i : Instr) (s : State) (f : State → State) : Result :=
  if i.wellFormed then runPure i s f else .next (raiseInvalid (encode i) s)

/-- R360 `TFR`. -/
def execTfr (r1 r2 : RegCode) (s : State) : Result :=
  runPair (.tfr r1 r2) s (transfer r1 r2)

/-- R361 `EXG`. -/
def execExg (r1 r2 : RegCode) (s : State) : Result :=
  runPair (.exg r1 r2) s (exchange r1 r2)

/-- R362 `PSHS`. -/
def execPshs (pb : Byte) (s : State) : Result :=
  runInstr (.pshs pb) s (pushList .s pb)

/-- R363 `PULS`. -/
def execPuls (pb : Byte) (s : State) : Result :=
  runPure (.puls pb) s (pullList .s pb)

/-- R364 `PSHU`. -/
def execPshu (pb : Byte) (s : State) : Result :=
  runInstr (.pshu pb) s (pushList .u pb)

/-- R365 `PULU`. -/
def execPulu (pb : Byte) (s : State) : Result :=
  runPure (.pulu pb) s (pullList .u pb)

/-- R366 `ANDCC`. -/
def execAndcc (ii : Byte) (s : State) : Result :=
  runPure (.andcc ii) s fun t => t.setCc (t.regs.cc &&& ii)

/-- R367 `ORCC`. -/
def execOrcc (ii : Byte) (s : State) : Result :=
  runPure (.orcc ii) s fun t => t.setCc (t.regs.cc ||| ii)

/-- R368 `NOP`. -/
def execNop (s : State) : Result :=
  runPure .nop s id

end Sys2Proof.Machine
end

