-- ==== Sys2Proof/Machine/Unary.lean ====
section
/-! DEFINITION. Unary, shift and rotate (spec/44_unary.md R260 to R293). -/

namespace Sys2Proof.Machine

/-- R260, memory form: one read, CC, one write to the same EA. -/
def modifyMem (op : Byte → Byte → Byte × Byte) (m : Mem) (s : State) : Access :=
  let ea := effectiveAddress m s
  let v := ea.2.read8 ea.1
  let r := op v.1 v.2.regs.cc
  (v.2.setCc r.2).write8 ea.1 r.1

/-- R260, accumulator form. -/
def modifyAcc (op : Byte → Byte → Byte × Byte) (k : Acc) (s : State) : State :=
  let r := op (k.get s.regs) s.regs.cc
  k.set (s.setCc r.2) r.1

/-- R288, memory form of TST: one read, no write. -/
def testMem (m : Mem) (s : State) : State :=
  let ea := effectiveAddress m s
  let v := ea.2.read8 ea.1
  v.2.setCc (logicFlags8 v.1 v.2.regs.cc)

/-- R289, R290. -/
def testAcc (k : Acc) (s : State) : State := s.setCc (logicFlags8 (k.get s.regs) s.regs.cc)

/-- R291, memory form of CLR: no read, one write of $00. -/
def clearMem (m : Mem) (s : State) : Access :=
  let ea := effectiveAddress m s
  (ea.2.setCc (clrFlags ea.2.regs.cc)).write8 ea.1 0x00#8

/-- R292, R293. -/
def clearAcc (k : Acc) (s : State) : State := k.set (s.setCc (clrFlags s.regs.cc)) 0x00#8

/-- R261 `NEG`. -/
def execNeg (m : Mem) (s : State) : Result :=
  runInstr (.neg m) s (modifyMem (neg8 (Instr.neg m).opcode) m)

/-- R262 `NEGA`. -/
def execNega (s : State) : Result :=
  runPure .nega s (modifyAcc (neg8 Instr.nega.opcode) .a)

/-- R263 `NEGB`. -/
def execNegb (s : State) : Result :=
  runPure .negb s (modifyAcc (neg8 Instr.negb.opcode) .b)

/-- R264 `COM`. -/
def execCom (m : Mem) (s : State) : Result :=
  runInstr (.com m) s (modifyMem com8 m)

/-- R265 `COMA`. -/
def execComa (s : State) : Result :=
  runPure .coma s (modifyAcc com8 .a)

/-- R266 `COMB`. -/
def execComb (s : State) : Result :=
  runPure .comb s (modifyAcc com8 .b)

/-- R267 `LSR`. -/
def execLsr (m : Mem) (s : State) : Result :=
  runInstr (.lsr m) s (modifyMem lsr8 m)

/-- R268 `LSRA`. -/
def execLsra (s : State) : Result :=
  runPure .lsra s (modifyAcc lsr8 .a)

/-- R269 `LSRB`. -/
def execLsrb (s : State) : Result :=
  runPure .lsrb s (modifyAcc lsr8 .b)

/-- R270 `ROR`. -/
def execRor (m : Mem) (s : State) : Result :=
  runInstr (.ror m) s (modifyMem ror8 m)

/-- R271 `RORA`. -/
def execRora (s : State) : Result :=
  runPure .rora s (modifyAcc ror8 .a)

/-- R272 `RORB`. -/
def execRorb (s : State) : Result :=
  runPure .rorb s (modifyAcc ror8 .b)

/-- R273 `ASR`. -/
def execAsr (m : Mem) (s : State) : Result :=
  runInstr (.asr m) s (modifyMem (asr8 (Instr.asr m).opcode) m)

/-- R274 `ASRA`. -/
def execAsra (s : State) : Result :=
  runPure .asra s (modifyAcc (asr8 Instr.asra.opcode) .a)

/-- R275 `ASRB`. -/
def execAsrb (s : State) : Result :=
  runPure .asrb s (modifyAcc (asr8 Instr.asrb.opcode) .b)

/-- R276 `ASL`. -/
def execAsl (m : Mem) (s : State) : Result :=
  runInstr (.asl m) s (modifyMem (asl8 (Instr.asl m).opcode) m)

/-- R277 `ASLA`. -/
def execAsla (s : State) : Result :=
  runPure .asla s (modifyAcc (asl8 Instr.asla.opcode) .a)

/-- R278 `ASLB`. -/
def execAslb (s : State) : Result :=
  runPure .aslb s (modifyAcc (asl8 Instr.aslb.opcode) .b)

/-- R279 `ROL`. -/
def execRol (m : Mem) (s : State) : Result :=
  runInstr (.rol m) s (modifyMem rol8 m)

/-- R280 `ROLA`. -/
def execRola (s : State) : Result :=
  runPure .rola s (modifyAcc rol8 .a)

/-- R281 `ROLB`. -/
def execRolb (s : State) : Result :=
  runPure .rolb s (modifyAcc rol8 .b)

/-- R282 `DEC`. -/
def execDec (m : Mem) (s : State) : Result :=
  runInstr (.dec m) s (modifyMem dec8 m)

/-- R283 `DECA`. -/
def execDeca (s : State) : Result :=
  runPure .deca s (modifyAcc dec8 .a)

/-- R284 `DECB`. -/
def execDecb (s : State) : Result :=
  runPure .decb s (modifyAcc dec8 .b)

/-- R285 `INC`. -/
def execInc (m : Mem) (s : State) : Result :=
  runInstr (.inc m) s (modifyMem inc8 m)

/-- R286 `INCA`. -/
def execInca (s : State) : Result :=
  runPure .inca s (modifyAcc inc8 .a)

/-- R287 `INCB`. -/
def execIncb (s : State) : Result :=
  runPure .incb s (modifyAcc inc8 .b)

/-- R288 `TST`. -/
def execTst (m : Mem) (s : State) : Result :=
  runPure (.tst m) s (testMem m)

/-- R289 `TSTA`. -/
def execTsta (s : State) : Result :=
  runPure .tsta s (testAcc .a)

/-- R290 `TSTB`. -/
def execTstb (s : State) : Result :=
  runPure .tstb s (testAcc .b)

/-- R291 `CLR`. -/
def execClr (m : Mem) (s : State) : Result :=
  runInstr (.clr m) s (clearMem m)

/-- R292 `CLRA`. -/
def execClra (s : State) : Result :=
  runPure .clra s (clearAcc .a)

/-- R293 `CLRB`. -/
def execClrb (s : State) : Result :=
  runPure .clrb s (clearAcc .b)

end Sys2Proof.Machine
end

