-- ==== Sys2Proof/Machine/Dispatch.lean ====
section
/-! DEFINITION. The meaning of every instruction, one arm a constructor. -/

namespace Sys2Proof.Machine

def exec (i : Instr) (s : State) : Host.Outcome State Fault Refusal :=
  match i with
  -- spec/41_load_store.md
  | .lda src => Sys2Proof.Machine.execLda src s
  | .ldb src => Sys2Proof.Machine.execLdb src s
  | .ldd src => Sys2Proof.Machine.execLdd src s
  | .ldx src => Sys2Proof.Machine.execLdx src s
  | .ldy src => Sys2Proof.Machine.execLdy src s
  | .ldu src => Sys2Proof.Machine.execLdu src s
  | .lds src => Sys2Proof.Machine.execLds src s
  | .sta m => Sys2Proof.Machine.execSta m s
  | .stb m => Sys2Proof.Machine.execStb m s
  | .std m => Sys2Proof.Machine.execStd m s
  | .stx m => Sys2Proof.Machine.execStx m s
  | .sty m => Sys2Proof.Machine.execSty m s
  | .stu m => Sys2Proof.Machine.execStu m s
  | .sts m => Sys2Proof.Machine.execSts m s
  | .leax x => Sys2Proof.Machine.execLeax x s
  | .leay x => Sys2Proof.Machine.execLeay x s
  | .leau x => Sys2Proof.Machine.execLeau x s
  | .leas x => Sys2Proof.Machine.execLeas x s
  -- spec/42_alu8.md
  | .adda src => Sys2Proof.Machine.execAdda src s
  | .addb src => Sys2Proof.Machine.execAddb src s
  | .adca src => Sys2Proof.Machine.execAdca src s
  | .adcb src => Sys2Proof.Machine.execAdcb src s
  | .suba src => Sys2Proof.Machine.execSuba src s
  | .subb src => Sys2Proof.Machine.execSubb src s
  | .sbca src => Sys2Proof.Machine.execSbca src s
  | .sbcb src => Sys2Proof.Machine.execSbcb src s
  | .cmpa src => Sys2Proof.Machine.execCmpa src s
  | .cmpb src => Sys2Proof.Machine.execCmpb src s
  | .anda src => Sys2Proof.Machine.execAnda src s
  | .andb src => Sys2Proof.Machine.execAndb src s
  | .bita src => Sys2Proof.Machine.execBita src s
  | .bitb src => Sys2Proof.Machine.execBitb src s
  | .ora src => Sys2Proof.Machine.execOra src s
  | .orb src => Sys2Proof.Machine.execOrb src s
  | .eora src => Sys2Proof.Machine.execEora src s
  | .eorb src => Sys2Proof.Machine.execEorb src s
  | .daa => Sys2Proof.Machine.execDaa s
  | .mul => Sys2Proof.Machine.execMul s
  | .sex => Sys2Proof.Machine.execSex s
  -- spec/43_alu16.md
  | .addd src => Sys2Proof.Machine.execAddd src s
  | .subd src => Sys2Proof.Machine.execSubd src s
  | .cmpd src => Sys2Proof.Machine.execCmpd src s
  | .cmpx src => Sys2Proof.Machine.execCmpx src s
  | .cmpy src => Sys2Proof.Machine.execCmpy src s
  | .cmpu src => Sys2Proof.Machine.execCmpu src s
  | .cmps src => Sys2Proof.Machine.execCmps src s
  | .abx => Sys2Proof.Machine.execAbx s
  -- spec/44_unary.md
  | .neg m => Sys2Proof.Machine.execNeg m s
  | .nega => Sys2Proof.Machine.execNega s
  | .negb => Sys2Proof.Machine.execNegb s
  | .com m => Sys2Proof.Machine.execCom m s
  | .coma => Sys2Proof.Machine.execComa s
  | .comb => Sys2Proof.Machine.execComb s
  | .lsr m => Sys2Proof.Machine.execLsr m s
  | .lsra => Sys2Proof.Machine.execLsra s
  | .lsrb => Sys2Proof.Machine.execLsrb s
  | .ror m => Sys2Proof.Machine.execRor m s
  | .rora => Sys2Proof.Machine.execRora s
  | .rorb => Sys2Proof.Machine.execRorb s
  | .asr m => Sys2Proof.Machine.execAsr m s
  | .asra => Sys2Proof.Machine.execAsra s
  | .asrb => Sys2Proof.Machine.execAsrb s
  | .asl m => Sys2Proof.Machine.execAsl m s
  | .asla => Sys2Proof.Machine.execAsla s
  | .aslb => Sys2Proof.Machine.execAslb s
  | .rol m => Sys2Proof.Machine.execRol m s
  | .rola => Sys2Proof.Machine.execRola s
  | .rolb => Sys2Proof.Machine.execRolb s
  | .dec m => Sys2Proof.Machine.execDec m s
  | .deca => Sys2Proof.Machine.execDeca s
  | .decb => Sys2Proof.Machine.execDecb s
  | .inc m => Sys2Proof.Machine.execInc m s
  | .inca => Sys2Proof.Machine.execInca s
  | .incb => Sys2Proof.Machine.execIncb s
  | .tst m => Sys2Proof.Machine.execTst m s
  | .tsta => Sys2Proof.Machine.execTsta s
  | .tstb => Sys2Proof.Machine.execTstb s
  | .clr m => Sys2Proof.Machine.execClr m s
  | .clra => Sys2Proof.Machine.execClra s
  | .clrb => Sys2Proof.Machine.execClrb s
  -- spec/45_control.md
  | .bra rr => Sys2Proof.Machine.execBra rr s
  | .brn rr => Sys2Proof.Machine.execBrn rr s
  | .bhi rr => Sys2Proof.Machine.execBhi rr s
  | .bls rr => Sys2Proof.Machine.execBls rr s
  | .bhs rr => Sys2Proof.Machine.execBhs rr s
  | .blo rr => Sys2Proof.Machine.execBlo rr s
  | .bne rr => Sys2Proof.Machine.execBne rr s
  | .beq rr => Sys2Proof.Machine.execBeq rr s
  | .bvc rr => Sys2Proof.Machine.execBvc rr s
  | .bvs rr => Sys2Proof.Machine.execBvs rr s
  | .bpl rr => Sys2Proof.Machine.execBpl rr s
  | .bmi rr => Sys2Proof.Machine.execBmi rr s
  | .bge rr => Sys2Proof.Machine.execBge rr s
  | .blt rr => Sys2Proof.Machine.execBlt rr s
  | .bgt rr => Sys2Proof.Machine.execBgt rr s
  | .ble rr => Sys2Proof.Machine.execBle rr s
  | .lbra rrrr => Sys2Proof.Machine.execLbra rrrr s
  | .lbrn rrrr => Sys2Proof.Machine.execLbrn rrrr s
  | .lbhi rrrr => Sys2Proof.Machine.execLbhi rrrr s
  | .lbls rrrr => Sys2Proof.Machine.execLbls rrrr s
  | .lbhs rrrr => Sys2Proof.Machine.execLbhs rrrr s
  | .lblo rrrr => Sys2Proof.Machine.execLblo rrrr s
  | .lbne rrrr => Sys2Proof.Machine.execLbne rrrr s
  | .lbeq rrrr => Sys2Proof.Machine.execLbeq rrrr s
  | .lbvc rrrr => Sys2Proof.Machine.execLbvc rrrr s
  | .lbvs rrrr => Sys2Proof.Machine.execLbvs rrrr s
  | .lbpl rrrr => Sys2Proof.Machine.execLbpl rrrr s
  | .lbmi rrrr => Sys2Proof.Machine.execLbmi rrrr s
  | .lbge rrrr => Sys2Proof.Machine.execLbge rrrr s
  | .lblt rrrr => Sys2Proof.Machine.execLblt rrrr s
  | .lbgt rrrr => Sys2Proof.Machine.execLbgt rrrr s
  | .lble rrrr => Sys2Proof.Machine.execLble rrrr s
  | .bsr rr => Sys2Proof.Machine.execBsr rr s
  | .lbsr rrrr => Sys2Proof.Machine.execLbsr rrrr s
  | .jmp m => Sys2Proof.Machine.execJmp m s
  | .jsr m => Sys2Proof.Machine.execJsr m s
  | .rts => Sys2Proof.Machine.execRts s
  -- spec/46_register_stack.md
  | .tfr r1 r2 => Sys2Proof.Machine.execTfr r1 r2 s
  | .exg r1 r2 => Sys2Proof.Machine.execExg r1 r2 s
  | .pshs pb => Sys2Proof.Machine.execPshs pb s
  | .puls pb => Sys2Proof.Machine.execPuls pb s
  | .pshu pb => Sys2Proof.Machine.execPshu pb s
  | .pulu pb => Sys2Proof.Machine.execPulu pb s
  | .andcc ii => Sys2Proof.Machine.execAndcc ii s
  | .orcc ii => Sys2Proof.Machine.execOrcc ii s
  | .nop => Sys2Proof.Machine.execNop s
  -- spec/47_system.md
  | .swi => Sys2Proof.Machine.execSwi s
  | .swi2 => Sys2Proof.Machine.execSwi2 s
  | .swi3 => Sys2Proof.Machine.execSwi3 s
  | .rti => Sys2Proof.Machine.execRti s
  | .cwai ii => Sys2Proof.Machine.execCwai ii s
  | .sync => Sys2Proof.Machine.execSync s

end Sys2Proof.Machine
end

