-- ==== Sys2Proof/Machine/Cycles.lean ====
section
/-! DEFINITION. The cycle cost of an instruction (spec/60_exceptions.md R414; 70_reset_and_hazards.md R482, R483; the
`cycles` column of opcode_table.json) and of an interrupt entry (R431 to R434). No rule reads the counter. -/

namespace Sys2Proof.Machine

/-- R483: the extra cycles of the forms with an indirect twin; indirection adds 3. -/
def modeCycles (m : IndexMode) (ind : Bool) : Nat :=
  (match m with
  | .inc2 _ => 3
  | .dec2 _ => 3
  | .zero _ => 0
  | .accB _ => 1
  | .accA _ => 1
  | .accD _ => 4
  | .off8 _ _ => 1
  | .off16 _ _ => 4
  | .pcr8 _ => 1
  | .pcr16 _ => 5) + (if ind then 3 else 0)

/-- R483: the extra cycles of an indexed operand. -/
def indexedCycles : Indexed → Nat
  | .off5 _ _ => 1
  | .inc1 _ => 2
  | .dec1 _ => 2
  | .mode m ind => modeCycles m ind
  | .absIndirect _ => 5

/-- The cycles of a memory instruction by the costs of its DIR, IDX and EXT rows. -/
def memCycles (dir idx ext : Nat) : Mem → Nat
  | .dir _ => dir
  | .idx x => idx + indexedCycles x
  | .ext _ => ext

/-- The cycles of an instruction with an 8-bit source, by the costs of its four rows. -/
def src8Cycles (imm dir idx ext : Nat) : Src8 → Nat
  | .imm _ => imm
  | .mem m => memCycles dir idx ext m

/-- The cycles of an instruction with a 16-bit source, by the costs of its four rows. -/
def src16Cycles (imm dir idx ext : Nat) : Src16 → Nat
  | .imm _ => imm
  | .mem m => memCycles dir idx ext m

/-- R482 `5 (6 if taken)`. -/
def longBranchCycles (k : Cond) (s : State) : Nat := if condHolds k s.regs.cc then 6 else 5

/-- R482 `5+1/byte`: the bytes a register list moves. -/
def listBytes (pb : Byte) : Nat :=
  2 * ((pb.getLsbD 7).toNat + (pb.getLsbD 6).toNat + (pb.getLsbD 5).toNat + (pb.getLsbD 4).toNat) +
  ((pb.getLsbD 3).toNat + (pb.getLsbD 2).toNat + (pb.getLsbD 1).toNat + (pb.getLsbD 0).toNat)

/-- R482 `6 (E=0) / 15 (E=1)`: RTI by the E of the CC it pulls, the byte S points at. -/
def rtiCycles (s : State) : Nat := if ccGet (s.read8 s.regs.s).1 .e then 15 else 6

/-- R414: the cost of an instruction run at the state s. -/
def cost (i : Instr) (s : State) : Nat :=
  match i with
  | .lda src => src8Cycles 2 4 4 5 src
  | .ldb src => src8Cycles 2 4 4 5 src
  | .ldd src => src16Cycles 3 5 5 6 src
  | .ldx src => src16Cycles 3 5 5 6 src
  | .ldy src => src16Cycles 4 6 6 7 src
  | .ldu src => src16Cycles 3 5 5 6 src
  | .lds src => src16Cycles 4 6 6 7 src
  | .sta m => memCycles 4 4 5 m
  | .stb m => memCycles 4 4 5 m
  | .std m => memCycles 5 5 6 m
  | .stx m => memCycles 5 5 6 m
  | .sty m => memCycles 6 6 7 m
  | .stu m => memCycles 5 5 6 m
  | .sts m => memCycles 6 6 7 m
  | .leax x => 4 + indexedCycles x
  | .leay x => 4 + indexedCycles x
  | .leau x => 4 + indexedCycles x
  | .leas x => 4 + indexedCycles x
  | .adda src => src8Cycles 2 4 4 5 src
  | .addb src => src8Cycles 2 4 4 5 src
  | .adca src => src8Cycles 2 4 4 5 src
  | .adcb src => src8Cycles 2 4 4 5 src
  | .suba src => src8Cycles 2 4 4 5 src
  | .subb src => src8Cycles 2 4 4 5 src
  | .sbca src => src8Cycles 2 4 4 5 src
  | .sbcb src => src8Cycles 2 4 4 5 src
  | .cmpa src => src8Cycles 2 4 4 5 src
  | .cmpb src => src8Cycles 2 4 4 5 src
  | .anda src => src8Cycles 2 4 4 5 src
  | .andb src => src8Cycles 2 4 4 5 src
  | .bita src => src8Cycles 2 4 4 5 src
  | .bitb src => src8Cycles 2 4 4 5 src
  | .ora src => src8Cycles 2 4 4 5 src
  | .orb src => src8Cycles 2 4 4 5 src
  | .eora src => src8Cycles 2 4 4 5 src
  | .eorb src => src8Cycles 2 4 4 5 src
  | .daa => 2
  | .mul => 11
  | .sex => 2
  | .addd src => src16Cycles 4 6 6 7 src
  | .subd src => src16Cycles 4 6 6 7 src
  | .cmpd src => src16Cycles 5 7 7 8 src
  | .cmpx src => src16Cycles 4 6 6 7 src
  | .cmpy src => src16Cycles 5 7 7 8 src
  | .cmpu src => src16Cycles 5 7 7 8 src
  | .cmps src => src16Cycles 5 7 7 8 src
  | .abx => 3
  | .neg m => memCycles 6 6 7 m
  | .nega => 2
  | .negb => 2
  | .com m => memCycles 6 6 7 m
  | .coma => 2
  | .comb => 2
  | .lsr m => memCycles 6 6 7 m
  | .lsra => 2
  | .lsrb => 2
  | .ror m => memCycles 6 6 7 m
  | .rora => 2
  | .rorb => 2
  | .asr m => memCycles 6 6 7 m
  | .asra => 2
  | .asrb => 2
  | .asl m => memCycles 6 6 7 m
  | .asla => 2
  | .aslb => 2
  | .rol m => memCycles 6 6 7 m
  | .rola => 2
  | .rolb => 2
  | .dec m => memCycles 6 6 7 m
  | .deca => 2
  | .decb => 2
  | .inc m => memCycles 6 6 7 m
  | .inca => 2
  | .incb => 2
  | .tst m => memCycles 6 6 7 m
  | .tsta => 2
  | .tstb => 2
  | .clr m => memCycles 6 6 7 m
  | .clra => 2
  | .clrb => 2
  | .bra _ => 3
  | .brn _ => 3
  | .bhi _ => 3
  | .bls _ => 3
  | .bhs _ => 3
  | .blo _ => 3
  | .bne _ => 3
  | .beq _ => 3
  | .bvc _ => 3
  | .bvs _ => 3
  | .bpl _ => 3
  | .bmi _ => 3
  | .bge _ => 3
  | .blt _ => 3
  | .bgt _ => 3
  | .ble _ => 3
  | .lbra _ => 5
  | .lbrn _ => 5
  | .lbhi _ => longBranchCycles .hi s
  | .lbls _ => longBranchCycles .ls s
  | .lbhs _ => longBranchCycles .hs s
  | .lblo _ => longBranchCycles .lo s
  | .lbne _ => longBranchCycles .ne s
  | .lbeq _ => longBranchCycles .eq s
  | .lbvc _ => longBranchCycles .vc s
  | .lbvs _ => longBranchCycles .vs s
  | .lbpl _ => longBranchCycles .pl s
  | .lbmi _ => longBranchCycles .mi s
  | .lbge _ => longBranchCycles .ge s
  | .lblt _ => longBranchCycles .lt s
  | .lbgt _ => longBranchCycles .gt s
  | .lble _ => longBranchCycles .le s
  | .bsr _ => 7
  | .lbsr _ => 9
  | .jmp m => memCycles 3 3 4 m
  | .jsr m => memCycles 7 7 8 m
  | .rts => 5
  | .tfr _ _ => 6
  | .exg _ _ => 8
  | .pshs pb => 5 + listBytes pb
  | .puls pb => 5 + listBytes pb
  | .pshu pb => 5 + listBytes pb
  | .pulu pb => 5 + listBytes pb
  | .andcc _ => 3
  | .orcc _ => 3
  | .nop => 2
  | .swi => 19
  | .swi2 => 20
  | .swi3 => 20
  | .rti => rtiCycles s
  | .cwai _ => 20
  | .sync => 4

/-- R431 to R433, R482: the cost of an interrupt entry from a running program; an entry from a CWAI wait costs 0 (R434). -/
def entryCycles : Event → Nat
  | .nmi => 19
  | .irq => 19
  | .firq => 10
  | .swi => 0
  | .swi2 => 0
  | .swi3 => 0

end Sys2Proof.Machine
end

