-- ==== Sys2Proof/Machine/Interrupts.lean ====
section
/-! DEFINITION. Polls, line sampling, NMI edge detection, acceptance and the interrupt entries
(spec/60_exceptions.md R404 to R410, R430 to R435, R455, R456). -/

namespace Sys2Proof.Machine

/-- R404, R451, R455: the poll of one device; it changes only that device's state. -/
def pollOne (h : HostInput) (d : DeviceId) (s : State) : State :=
  match d with
  | .memory _ => s
  | .serial => { s with serial := s.serial.poll h }
  | .source k => { s with sources := s.sources.modify k (PureSource.poll k h) }

/-- R404: each device of a list polled once, at its first place in the list. -/
def pollList (h : HostInput) : List DeviceId → List DeviceId → State → State
  | _, [], s => s
  | seen, d :: ds, s => if d ∈ seen then pollList h seen ds s else pollList h (d :: seen) ds (pollOne h d s)

/-- R404 `PollAll(h)`: the devices of `DEVICE_MAP` in order, then `PURE_SOURCES` in order. -/
def pollAll (h : HostInput) (s : State) : State :=
  pollList h [] (s.cfg.deviceMap.map MapEntry.device ++ s.cfg.pureSources) s

/-- R456: the level of a line by what is bound to it; an unbound line reads false. -/
def lineLevel (s : State) : Option DeviceId → Bool
  | none => false
  | some .serial => s.serial.irqOut
  | some (.source k) =>
    match s.sources[k]? with
    | some p => p.asserted k
    | none => false
  | some (.memory _) => false

/-- The values of the three lines at a sample (R405). -/
structure Lines where
  nmi  : Bool
  firq : Bool
  irq  : Bool
  deriving DecidableEq, Repr

/-- R405: the three predicates, each evaluated once on the state the polls left. -/
def sampleLines (s : State) : Lines :=
  { nmi := lineLevel s s.cfg.lines.nmi
    firq := lineLevel s s.cfg.lines.firq
    irq := lineLevel s s.cfg.lines.irq }

/-- R406: a false-to-true change of the NMI line since the last sample, while NMI is armed. -/
def nmiRequested (l : Lines) (s : State) : Bool := l.nmi && !s.nmiPrev && s.nmiArmed

/-- R407 `Accept`, with the priority of R408. -/
def accept (nmiReq : Bool) (l : Lines) (s : State) : Option Event :=
  if nmiReq then some .nmi
  else if l.firq && !ccGet s.regs.cc .f then some .firq
  else if l.irq && !ccGet s.regs.cc .i then some .irq
  else none

/-- R414: cycles added after an instruction or entry that completed; a run that ended in a fault adds nothing. -/
def addCycles (n : Nat) (t : State) : State :=
  match t.status with
  | .running => { t with cycles := t.cycles + n }
  | _ => t

/-- Cycles added to the next state of an answer. -/
def chargeCycles (n : Nat) (r : Result) : Result :=
  match r with
  | .next t => .next (addCycles n t)
  | .fault e => .fault e
  | .refused e => .refused e

/-- R431 to R433 `Enter(k)`; a push into ROM under policy fault ends the run with the registers as before the entry
(R421). -/
def enter (e : Event) (s : State) : Result := chargeCycles (entryCycles e) (finish s (takeException e s))

/-- R434 `EnterFromCwai(k)`: the frame is already on S, so masks and vector only, and the wait ends. -/
def enterFromCwai (e : Event) (s : State) : State := { vectorTo e s with wait := .none }

end Sys2Proof.Machine
end

