-- ==== Sys2Proof/Machine/RunLoop.lean ====
section
/-! DEFINITION. One loop iteration (spec/60_exceptions.md R400 to R413): host requests, polls, sampling, waits, interrupt
entry, trap check, fetch and execute. -/

namespace Sys2Proof.Machine

/-! ### Fetch (R135, R412) -/

/-- What a fetch gives: the bytes read, what they decode to, and the state after the reads. -/
structure Fetched where
  bytes  : List Byte
  answer : Read Instr
  state  : State
  deriving DecidableEq, Repr

/-- Fetch bytes at increasing addresses, one bus read each, until they are an instruction or an invalid one (R91, R93,
R125, R129: "detected when the postbyte is fetched"). No instruction is longer than five bytes (R110). -/
def fetchFrom : Nat → List Byte → Word → State → Fetched
  | 0, got, _, s => { bytes := got, answer := .error .truncated, state := s }
  | n + 1, got, a, s =>
    let r := s.read8 a
    let got' := got ++ [r.1]
    match decode got' with
    | .error .truncated => fetchFrom n got' (a + 1) r.2
    | answer => { bytes := got', answer := answer, state := r.2 }

/-- The fetch of the instruction at PC. -/
def fetch (s : State) : Fetched := fetchFrom 5 [] s.regs.pc s

/-- R412: `exec_count[start]` counts the fetch when profiling is enabled. -/
def countFetch (s : State) : State :=
  if s.cfg.profiling then { s with execCount := bumpCount s.execCount s.regs.pc.toNat } else s

/-- R412 `ExecuteOne()`: count, fetch and decode, execute, add the cycles; an invalid instruction ends the run with the
bytes fetched, registers and PC as at its start (R420). -/
def executeOne (s : State) : Result :=
  let f := fetch (countFetch s)
  match f.answer with
  | .ok i _ => chargeCycles (cost i f.state) (exec i f.state)
  | .error _ => .next (raiseInvalid f.bytes f.state)

/-! ### The iteration (R400) -/

/-- The host's input of this iteration (R10): the first one given, else the next draw. -/
def nextInput (s : State) : HostInput :=
  match s.inbox.given with
  | h :: _ => h
  | [] => Config.hostInput s.inbox.drawn

/-- The inputs that remain when one is taken. -/
def Inbox.rest (b : Inbox) : Inbox :=
  match b.given with
  | _ :: hs => { b with given := hs }
  | [] => { b with drawn := b.drawn + 1 }

/-- The state with this iteration's input taken. -/
def dropInput (s : State) : State := { s with inbox := s.inbox.rest }

/-- R411: PC = `TRAP_ADDR`, when one is configured. -/
def atTrap (s : State) : Bool := s.cfg.trapAddr == some s.regs.pc

/-- R400, the last stages: one interrupt entry, or the trap halt, or one instruction. -/
def dispatchIteration (nmiReq : Bool) (l : Lines) (s : State) : Result :=
  match accept nmiReq l s with
  | some e => enter e s
  | none => if atTrap s then .next { s with status := .halted .trap } else executeOne s

/-- R400 after the sample: the waits of R409 and R410, then the last stages. -/
def afterSample (nmiReq : Bool) (l : Lines) (s : State) : Result :=
  match s.wait with
  | .sync =>
    if l.nmi || l.firq || l.irq then dispatchIteration nmiReq l { s with wait := .none } else .next s
  | .cwai =>
    match accept nmiReq l s with
    | some e => .next (enterFromCwai e s)
    | none => .next s
  | .none => dispatchIteration nmiReq l s

/-- R400: polls, then the sample, which also records the NMI line (R406). -/
def pollAndSample (h : HostInput) (s : State) : Result :=
  let p := pollAll h s
  let l := sampleLines p
  afterSample (nmiRequested l p) l { p with nmiPrev := l.nmi }

/-- R400 `Iterate(h)` with the host's input h: a stop request is seen before an abort request (R402, R403). -/
def iterateWith (h : HostInput) (s : State) : Result :=
  if h.stop then .next { s with status := .halted .stopRequest }
  else if h.abort then .next { s with status := .faulted .abort }
  else pollAndSample h s

/-- R400, R401: a terminal state has no further step; a configuration the spec refuses is not run (R73, R85). -/
def iterate (s : State) : Result :=
  match s.status with
  | .halted r => .fault (.runHalted r)
  | .faulted f => .fault (.runFaulted f)
  | .running =>
    if s.configAccepted then iterateWith (nextInput s) (dropInput s) else .refused .configurationRefused

end Sys2Proof.Machine
end

