-- ==== Sys2Proof/Machine/Step.lean ====
section
/-! DEFINITION. The step of the machine: one loop iteration of spec/60_exceptions.md R400 (Machine/RunLoop.lean). -/

namespace Sys2Proof.Machine

/-- One step is one loop iteration (R400). -/
def step (s : State) : Host.Outcome State Fault Refusal := iterate s

/-- The instruction of an opcode-table number stored where the next iteration fetches, at PC, by the loader's rule
(R472); five bytes, those above nbits zero (log entry 2). The host asks for nothing in that iteration: a stop request
would end the run before the fetch (R402). -/
def State.withFetchWord (s : State) (nbits w : Nat) : State :=
  let t := placeProgram s.regs.pc (tableBytes nbits w) s
  { t with inbox := { t.inbox with given := HostInput.quiet :: t.inbox.given } }

end Sys2Proof.Machine
end

