-- ==== Sys2Proof/Safety.lean ====
section
/-! DEFINITION. The terms in which claims about runs are written: what software can read of storage, which bytes a
sequence of stores touches, what reading an operand may change, the frames an interrupt or a push puts on a stack, and
the machine invariant. -/

namespace Sys2Proof.Machine

/-! ### Reading storage (spec/20_memory.md R76, R82, R83, R88) -/

/-- The byte a bus read of a RAM or ROM address returns; none where no memory device answers. -/
def State.peek (s : State) (a : Word) : Option Byte :=
  match place s.cfg a with
  | .cell _ key => some (s.mem.read key)
  | .serial _ => none
  | .unmapped => none

/-- The bus addresses a and b do not lead to the same byte or device register. -/
abbrev Separate (c : Config) (a b : Word) : Prop := place c a ≠ place c b

/-- A sequence of one-byte writes carried out in order, none of which faults (R77, R88). -/
def State.storeAll (s : State) : List (Word × Byte) → State
  | [] => s
  | w :: ws => (s.store8 w.1 w.2).storeAll ws

/-- No write of the sequence raises `RomWriteFault` (R82). -/
abbrev State.Writable (s : State) (ws : List (Word × Byte)) : Prop := ∀ w ∈ ws, s.romFaults w.1 = false

/-- Every byte of storage reads as before, but for those the writes go to. -/
abbrev KeepsStorage (s t : State) (ws : List (Word × Byte)) : Prop :=
  ∀ b : Word, (∀ w ∈ ws, Separate s.cfg w.1 b) → t.peek b = s.peek b

/-- A sequence of one-byte bus reads at consecutive addresses: the bytes and the state after it (R76, R79). -/
def State.readBytes (s : State) (a : Word) : Nat → List Byte × State
  | 0 => ([], s)
  | n + 1 =>
    let r := s.read8 a
    let rest := r.2.readBytes (a + 1) n
    (r.1 :: rest.1, rest.2)

/-- What bus reads may change, and nothing else: the serial device's RDRF falls (R449), unmapped reads are counted
(R78). -/
def OnlyReads (s t : State) : Prop :=
  t = { s with serial := { s.serial with rdrf := t.serial.rdrf }, unmappedReads := t.unmappedReads } ∧
  (t.serial.rdrf = true → s.serial.rdrf = true) ∧ s.unmappedReads ≤ t.unmappedReads

/-! ### Operands (spec/40_addressing.md R153, R154, R158) -/

/-- The register an indexed operand updates, and by how much. -/
def indexedBump : Indexed → Option (IndexReg × Word)
  | .inc1 r => some (r, 1)
  | .dec1 r => some (r, -1)
  | .mode (.inc2 r) _ => some (r, 2)
  | .mode (.dec2 r) _ => some (r, -2)
  | _ => none

/-- The register a memory operand updates. -/
def memBump : Mem → Option (IndexReg × Word)
  | .idx x => indexedBump x
  | _ => none

/-- The register an 8-bit source updates. -/
def src8Bump : Src8 → Option (IndexReg × Word)
  | .mem m => memBump m
  | .imm _ => none

/-- The register a 16-bit source updates. -/
def src16Bump : Src16 → Option (IndexReg × Word)
  | .mem m => memBump m
  | .imm _ => none

/-- The registers after an operand's register update. -/
def Regs.bumped (g : Regs) : Option (IndexReg × Word) → Regs
  | none => g
  | some (.x, n) => { g with x := g.x + n }
  | some (.y, n) => { g with y := g.y + n }
  | some (.u, n) => { g with u := g.u + n }
  | some (.s, n) => { g with s := g.s + n }

/-- The registers when an operation starts: PC past the instruction's n bytes, the operand's register update done. -/
def Regs.atOperation (g : Regs) (n : Nat) (b : Option (IndexReg × Word)) : Regs :=
  ({ g with pc := g.pc + BitVec.ofNat 16 n }).bumped b

/-- p is s when its operand has been read: only PC, the operand's own register update and the side effects of the
bus reads are new. -/
def AfterOperand (n : Nat) (b : Option (IndexReg × Word)) (s p : State) : Prop :=
  OnlyReads { s with regs := s.regs.atOperation n b } p

/-! ### Flags (spec/00_scope.md R15) -/

/-- A flag that is not in ks keeps its value. -/
abbrev OnlyFlags (ks : List Flag) (cc cc' : Byte) : Prop := ∀ k, k ∉ ks → ccGet cc' k = ccGet cc k

/-! ### Stack frames (spec/00_scope.md R14; 46_register_stack.md R362; 60_exceptions.md R431, R432) -/

/-- What a push puts on a stack. -/
inductive StackItem where
  | byte (v : Byte)
  | word (w : Word)
  deriving DecidableEq, Repr

/-- The bytes an item takes. -/
def StackItem.size : StackItem → Nat
  | .byte _ => 1
  | .word _ => 2

/-- The writes of an item pushed when the stack pointer is sp: a word high byte first, at the lower address. -/
def StackItem.writes (sp : Word) : StackItem → List (Word × Byte)
  | .byte v => [(sp - 1, v)]
  | .word w => [(sp - 2, w.extractLsb' 8 8), (sp - 1, w.extractLsb' 0 8)]

/-- The writes of a list of items pushed in order. -/
def pushWrites (sp : Word) : List StackItem → List (Word × Byte)
  | [] => []
  | i :: is => i.writes sp ++ pushWrites (sp - BitVec.ofNat 16 i.size) is

/-- The bytes a list of items takes. -/
def itemBytes (is : List StackItem) : Nat := (is.map StackItem.size).sum

/-- The items of a register list, in push order; `other` is the stack pointer bit 6 names (R120, R362, R364). -/
def listItems (pb : Byte) (other : Word) (g : Regs) : List StackItem :=
  (if pb.getLsbD 7 then [.word g.pc] else []) ++ (if pb.getLsbD 6 then [.word other] else []) ++
  (if pb.getLsbD 5 then [.word g.y] else []) ++ (if pb.getLsbD 4 then [.word g.x] else []) ++
  (if pb.getLsbD 3 then [.byte g.dp] else []) ++ (if pb.getLsbD 2 then [.byte g.b] else []) ++
  (if pb.getLsbD 1 then [.byte g.a] else []) ++ (if pb.getLsbD 0 then [.byte g.cc] else [])

/-- The entire frame, in push order: PC, U, Y, X, DP, B, A, CC (R431, `PushEntire`). -/
def entireFrame (g : Regs) : List StackItem :=
  [.word g.pc, .word g.u, .word g.y, .word g.x, .byte g.dp, .byte g.b, .byte g.a, .byte g.cc]

/-- The short frame: PC, then CC (R432). -/
def shortFrame (g : Regs) : List StackItem := [.word g.pc, .byte g.cc]

/-- CC with E set or cleared. -/
def withE (b : Bool) (cc : Byte) : Byte := if b then cc ||| 0x80#8 else cc &&& 0x7F#8

/-! ### Pulled registers (spec/46_register_stack.md R363, R365) -/

/-- The word of two pulled bytes, high byte first. -/
def pulledWord (bs : List Byte) (k : Nat) : Word := (bs.getD k 0) ++ (bs.getD (k + 1) 0)

/-- The bytes that the registers of a list's bits below k take: CC, A, B and DP (bits 0 to 3) one each, X, Y, U or S
and PC (bits 4 to 7) two (R482). So it is also where the register of bit k begins among the pulled bytes. -/
def pulledAt (pb : Byte) : Nat → Nat
  | 0 => 0
  | k + 1 => pulledAt pb k + if pb.getLsbD k then (if k < 4 then 1 else 2) else 0

/-! ### The machine invariant -/

/-- Every listed storage byte belongs to a memory device of the configuration, within its size (R53, R85). -/
abbrev CellsInRange (s : State) : Prop :=
  ∀ c ∈ s.mem, ∃ d, s.cfg.memoryDevices[c.1 / 65536]? = some d ∧ c.1 % 65536 < d.size

/-- The execution counts are in canonical form: addresses rising, below 65536, no count of 0 (R52). -/
abbrev CountsWf (l : List (Nat × Nat)) : Prop :=
  l.Pairwise (fun c d => c.1 < d.1) ∧ ∀ c ∈ l, c.1 < 65536 ∧ c.2 ≠ 0

/-- What holds of every state a run can reach. -/
structure State.Inv (s : State) : Prop where
  /-- The storage is in canonical form. -/
  storage : s.mem.wf
  /-- Storage exists only in memory devices (R53, R85). -/
  cells : CellsInRange s
  /-- R52. -/
  counts : CountsWf s.execCount
  /-- R48: "It is true from reset when `NMI_ARM_REQUIRED` is false." -/
  armed : s.cfg.nmiArmRequired = false → s.nmiArmed = true
  /-- R451: the transmitter is idle (TDRE = 1, tx_pending = false) or busy (tx_pending = true, TDRE = 0). -/
  transmitter : s.serial.txPending = !s.serial.tdre
  /-- R434: while the CWAI wait lasts, E = 1, as in the frame on S. -/
  entire : s.wait = .cwai → ccGet s.regs.cc .e = true

end Sys2Proof.Machine
end

