-- ==== Sys2Proof/Certificates/Slice0/Obligations.lean ====
section
/-! DEFINITION. The statements for the provers, each a `def Obligations.<Name> : Prop`, and the tables they quantify
over. Where a statement speaks of "the state p in which the operand has been read", `AfterOperand` (Safety.lean) says
all that p may differ in: PC past the instruction's bytes, the one index register the addressing mode updates, the
serial RDRF that a read of its data register clears, the count of unmapped reads. -/

namespace Sys2Proof.Claims

open Sys2Proof.Machine

/-! ### Registers as rows of a table: how an accumulator or a 16-bit register is read and written -/

/-- A with how it is read and written. -/
structure Reg8Row where
  get : Regs → Byte
  put : Regs → Byte → Regs

/-- A 16-bit register with how it is read and written. -/
structure Reg16Row where
  get : Regs → Word
  put : Regs → Word → Regs

/-- Accumulator A. -/
def rowA : Reg8Row := { get := fun r => r.a, put := fun r v => { r with a := v } }
/-- Accumulator B. -/
def rowB : Reg8Row := { get := fun r => r.b, put := fun r v => { r with b := v } }
/-- D is A:B, A the high half (R32). -/
def rowD : Reg16Row :=
  { get := fun r => r.a ++ r.b, put := fun r v => { r with a := v.extractLsb' 8 8, b := v.extractLsb' 0 8 } }
/-- X. -/
def rowX : Reg16Row := { get := fun r => r.x, put := fun r v => { r with x := v } }
/-- Y. -/
def rowY : Reg16Row := { get := fun r => r.y, put := fun r v => { r with y := v } }
/-- U. -/
def rowU : Reg16Row := { get := fun r => r.u, put := fun r v => { r with u := v } }
/-- S. -/
def rowS : Reg16Row := { get := fun r => r.s, put := fun r v => { r with s := v } }

/-! ### Flag meanings -/

/-- N and Z of an 8-bit result, V cleared, every other flag kept: loads, stores, logic and tests. -/
def LogicFlags8 (r : Byte) (cc cc' : Byte) : Prop :=
  ccGet cc' .n = decide (r.toInt < 0) ∧ ccGet cc' .z = decide (r = 0) ∧ ccGet cc' .v = false ∧
  OnlyFlags [.n, .z, .v] cc cc'

/-- The same of a 16-bit result. -/
def LogicFlags16 (r : Word) (cc cc' : Byte) : Prop :=
  ccGet cc' .n = decide (r.toInt < 0) ∧ ccGet cc' .z = decide (r = 0) ∧ ccGet cc' .v = false ∧
  OnlyFlags [.n, .z, .v] cc cc'

/-- The flags of x + y + c (R37 to R40, R42): C the carry out of bit 7, V the signed overflow, H the carry out of
bit 3; I, F and E kept. -/
def AddFlags8 (x y : Byte) (c : Bool) (r : Byte) (cc cc' : Byte) : Prop :=
  ccGet cc' .c = decide (256 ≤ x.toNat + y.toNat + c.toNat) ∧
  ccGet cc' .v = decide (x.toInt + y.toInt + c.toNat < -128 ∨ 127 < x.toInt + y.toInt + c.toNat) ∧
  ccGet cc' .h = decide (16 ≤ x.toNat % 16 + y.toNat % 16 + c.toNat) ∧
  ccGet cc' .n = decide (r.toInt < 0) ∧ ccGet cc' .z = decide (r = 0) ∧
  OnlyFlags [.c, .v, .h, .n, .z] cc cc'

/-- The flags of x - y - b (R37 to R40, R201): C the borrow, V the signed overflow; H is free, I, F and E kept. -/
def SubFlags8 (x y : Byte) (b : Bool) (r : Byte) (cc cc' : Byte) : Prop :=
  ccGet cc' .c = decide (x.toNat < y.toNat + b.toNat) ∧
  ccGet cc' .v = decide (x.toInt - y.toInt - b.toNat < -128 ∨ 127 < x.toInt - y.toInt - b.toNat) ∧
  ccGet cc' .n = decide (r.toInt < 0) ∧ ccGet cc' .z = decide (r = 0) ∧
  OnlyFlags [.c, .v, .h, .n, .z] cc cc'

/-- The flags of the 16-bit sum x + y (R240): H, I, F and E kept. -/
def AddFlags16 (x y r : Word) (cc cc' : Byte) : Prop :=
  ccGet cc' .c = decide (65536 ≤ x.toNat + y.toNat) ∧
  ccGet cc' .v = decide (x.toInt + y.toInt < -32768 ∨ 32767 < x.toInt + y.toInt) ∧
  ccGet cc' .n = decide (r.toInt < 0) ∧ ccGet cc' .z = decide (r = 0) ∧ OnlyFlags [.c, .v, .n, .z] cc cc'

/-- The flags of the 16-bit difference x - y (R241): H, I, F and E kept. -/
def SubFlags16 (x y r : Word) (cc cc' : Byte) : Prop :=
  ccGet cc' .c = decide (x.toNat < y.toNat) ∧
  ccGet cc' .v = decide (x.toInt - y.toInt < -32768 ∨ 32767 < x.toInt - y.toInt) ∧
  ccGet cc' .n = decide (r.toInt < 0) ∧ ccGet cc' .z = decide (r = 0) ∧ OnlyFlags [.c, .v, .n, .z] cc cc'

/-! ### The unary operations (spec/44_unary.md R261 to R287), as arithmetic on the operand m and the old carry c -/

/-- A unary operation: its three instructions, its result, the flags whose new value is given (V and C as functions of
m), and the flags it may change. -/
structure UnaryRow where
  mem : Mem → Instr
  onA : Instr
  onB : Instr
  /-- The result as a number, from m and the old C. -/
  result : Byte → Bool → Nat
  /-- V when the operation writes it. -/
  v : Option (Byte → Bool)
  /-- C when the operation writes it. -/
  c : Option (Byte → Bool)
  /-- Whether H is left undefined. -/
  undefH : Bool

/-- What a row says of the flags: N and Z of the result, V and C as given or kept, H kept unless undefined; I, F and E
kept. -/
def UnaryRow.Flags (row : UnaryRow) (m r : Byte) (cc cc' : Byte) : Prop :=
  ccGet cc' .n = decide (r.toInt < 0) ∧ ccGet cc' .z = decide (r = 0) ∧
  (ccGet cc' .v = match row.v with
    | some f => f m
    | none => ccGet cc .v) ∧
  (ccGet cc' .c = match row.c with
    | some f => f m
    | none => ccGet cc .c) ∧
  (row.undefH = false → ccGet cc' .h = ccGet cc .h) ∧ OnlyFlags [.n, .z, .v, .c, .h] cc cc'

/-- V and C of a left shift: m[7] XOR m[6], and m[7]. -/
def leftShiftV (m : Byte) : Bool := decide (64 ≤ m.toNat ∧ m.toNat < 192)

/-- NEG, COM, LSR, ROR, ASR, ASL, ROL, DEC, INC. -/
def unaryRows : List UnaryRow :=
  [ { mem := .neg, onA := .nega, onB := .negb, result := fun m _ => (256 - m.toNat) % 256,
      v := some fun m => decide (m.toNat = 128), c := some fun m => decide (m.toNat ≠ 0), undefH := true },
    { mem := .com, onA := .coma, onB := .comb, result := fun m _ => 255 - m.toNat,
      v := some fun _ => false, c := some fun _ => true, undefH := false },
    { mem := .lsr, onA := .lsra, onB := .lsrb, result := fun m _ => m.toNat / 2,
      v := none, c := some fun m => decide (m.toNat % 2 = 1), undefH := false },
    { mem := .ror, onA := .rora, onB := .rorb, result := fun m c => m.toNat / 2 + 128 * c.toNat,
      v := none, c := some fun m => decide (m.toNat % 2 = 1), undefH := false },
    { mem := .asr, onA := .asra, onB := .asrb, result := fun m _ => m.toNat / 2 + (if 128 ≤ m.toNat then 128 else 0),
      v := none, c := some fun m => decide (m.toNat % 2 = 1), undefH := true },
    { mem := .asl, onA := .asla, onB := .aslb, result := fun m _ => 2 * m.toNat % 256,
      v := some leftShiftV, c := some fun m => decide (128 ≤ m.toNat), undefH := true },
    { mem := .rol, onA := .rola, onB := .rolb, result := fun m c => (2 * m.toNat + c.toNat) % 256,
      v := some leftShiftV, c := some fun m => decide (128 ≤ m.toNat), undefH := false },
    { mem := .dec, onA := .deca, onB := .decb, result := fun m _ => (m.toNat + 255) % 256,
      v := some fun m => decide (m.toNat = 128), c := none, undefH := false },
    { mem := .inc, onA := .inca, onB := .incb, result := fun m _ => (m.toNat + 1) % 256,
      v := some fun m => decide (m.toNat = 127), c := none, undefH := false } ]

/-! ### The branch conditions (spec/45_control.md R310), as functions of C, Z, V and N -/

/-- A row of the table of R310. -/
structure BranchRow where
  short : Byte → Instr
  long : Word → Instr
  taken : Bool → Bool → Bool → Bool → Prop

/-- The sixteen rows, cc = 0 to F. -/
def branchRows : List BranchRow :=
  [ { short := .bra, long := .lbra, taken := fun _ _ _ _ => True },
    { short := .brn, long := .lbrn, taken := fun _ _ _ _ => False },
    { short := .bhi, long := .lbhi, taken := fun c z _ _ => c = false ∧ z = false },
    { short := .bls, long := .lbls, taken := fun c z _ _ => c = true ∨ z = true },
    { short := .bhs, long := .lbhs, taken := fun c _ _ _ => c = false },
    { short := .blo, long := .lblo, taken := fun c _ _ _ => c = true },
    { short := .bne, long := .lbne, taken := fun _ z _ _ => z = false },
    { short := .beq, long := .lbeq, taken := fun _ z _ _ => z = true },
    { short := .bvc, long := .lbvc, taken := fun _ _ v _ => v = false },
    { short := .bvs, long := .lbvs, taken := fun _ _ v _ => v = true },
    { short := .bpl, long := .lbpl, taken := fun _ _ _ n => n = false },
    { short := .bmi, long := .lbmi, taken := fun _ _ _ n => n = true },
    { short := .bge, long := .lbge, taken := fun _ _ v n => n = v },
    { short := .blt, long := .lblt, taken := fun _ _ v n => n ≠ v },
    { short := .bgt, long := .lbgt, taken := fun _ z v n => z = false ∧ n = v },
    { short := .ble, long := .lble, taken := fun _ z v n => z = true ∨ n ≠ v } ]

/-- Whether a row's branch is taken at a CC. -/
def BranchRow.takenAt (row : BranchRow) (cc : Byte) : Prop :=
  row.taken (ccGet cc .c) (ccGet cc .z) (ccGet cc .v) (ccGet cc .n)

/-! ### Invalid encodings (spec/30_encoding.md R126, R129, R130) -/

/-- R126. -/
def noPage0 : List Byte :=
  [0x01, 0x02, 0x05, 0x0B, 0x14, 0x15, 0x18, 0x1B, 0x38, 0x3E, 0x41, 0x42, 0x45, 0x4B, 0x4E, 0x51, 0x52, 0x55, 0x5B,
   0x5E, 0x61, 0x62, 0x65, 0x6B, 0x71, 0x72, 0x75, 0x7B, 0x87, 0x8F, 0xC7, 0xCD, 0xCF]

/-- R122. -/
def page2Opcodes : List Byte :=
  [0x21, 0x22, 0x23, 0x24, 0x25, 0x26, 0x27, 0x28, 0x29, 0x2A, 0x2B, 0x2C, 0x2D, 0x2E, 0x2F, 0x3F, 0x83, 0x8C, 0x8E,
   0x93, 0x9C, 0x9E, 0x9F, 0xA3, 0xAC, 0xAE, 0xAF, 0xB3, 0xBC, 0xBE, 0xBF, 0xCE, 0xDE, 0xDF, 0xEE, 0xEF, 0xFE, 0xFF]

/-- R123. -/
def page3Opcodes : List Byte := [0x3F, 0x83, 0x8C, 0x93, 0x9C, 0xA3, 0xAC, 0xB3, 0xBC]

/-- R129: the patterns 1RRx0111, 1RRx1010, 1xxx1110, 1RR10000, 1RR10010, 1RR01111 and 1RR11111 other than $9F. -/
def badPostbyte (pb : Byte) : Prop :=
  pb &&& 0x8F = 0x87 ∨ pb &&& 0x8F = 0x8A ∨ pb &&& 0x8F = 0x8E ∨ pb &&& 0x9F = 0x90 ∨ pb &&& 0x9F = 0x92 ∨
  pb &&& 0x9F = 0x8F ∨ (pb &&& 0x9F = 0x9F ∧ pb ≠ 0x9F)

/-- R130: a nibble in 6, 7, C to F, or one nibble in 0 to 5 and the other in 8 to B. -/
def badPair (pb : Byte) : Prop :=
  let r1 := pb.toNat / 16
  let r2 := pb.toNat % 16
  ¬ ((r1 ≤ 5 ∧ r2 ≤ 5) ∨ ((8 ≤ r1 ∧ r1 ≤ 11) ∧ (8 ≤ r2 ∧ r2 ≤ 11)))

/-! ### Iterations -/

/-- The state an iteration begins with once the host's input is taken and every device is polled (R400). -/
def polled (s : State) : State := pollAll (nextInput s) (dropInput s)

/-- That state with the NMI line recorded (R406). -/
def sampled (s : State) : State := { polled s with nmiPrev := (sampleLines (polled s)).nmi }

/-- The iteration reaches its polls: the run goes on, the configuration is one that is run, and the host asks neither
for a stop nor for an abort (R400). -/
def Iterates (s : State) : Prop :=
  s.status = .running ∧ s.configAccepted = true ∧ (nextInput s).stop = false ∧ (nextInput s).abort = false

/-- The interrupt accepted after the sample, if any. -/
def accepted (s : State) : Option Event :=
  accept (nmiRequested (sampleLines (polled s)) (polled s)) (sampleLines (polled s)) (sampled s)

/-- The iteration goes on to the entry, trap and fetch stages: it does not wait, or a line ends its SYNC wait (R409). -/
def Awake (s : State) : Prop :=
  s.wait = .none ∨
  (s.wait = .sync ∧
    ((sampleLines (polled s)).nmi = true ∨ (sampleLines (polled s)).firq = true ∨ (sampleLines (polled s)).irq = true))

/-- The state those stages begin with. -/
def awakened (s : State) : State := { sampled s with wait := .none }

/-- What a line that is bound to b reads at the state p (R456): nothing when unbound, the serial device's interrupt
predicate (R452), a pure source's query (R455; log entry 4 for its two forms). -/
def LineReads (p : State) (b : Option DeviceId) (v : Bool) : Prop :=
  (b = none → v = false) ∧ (b = some .serial → v = p.serial.irqOut) ∧
  (∀ k now later, b = some (.source k) → p.sources[k]? = some (.waveform now later) → v = now) ∧
  ∀ k sigma, b = some (.source k) → p.sources[k]? = some (.general sigma) → v = Config.sourceAsserted k sigma

/-- The last byte of bs is the one that makes the encoding invalid, for the reason e: every shorter front part asks for
one more byte (R420). -/
def InvalidAtLastByte (bs : List Byte) (e : DecodeError) : Prop :=
  e ≠ .truncated ∧ decode bs = .error e ∧ ∀ k, k < bs.length → decode (bs.take k) = .error .truncated

/-- The byte of the reset vector at address a when reset reads it (R470, R76, R448, R454): storage, or
`UNMAPPED_READ_VALUE`, or a register of the serial device in its reset state (SR with TDRE alone, RDR, a higher
offset). -/
def resetVectorByte (c : Config) (m : Memory) (a : Word) : Byte :=
  match place c a with
  | .cell _ key => m.read key
  | .unmapped => c.unmappedRead
  | .serial off => if off = 0 then 0x02 else if off = 1 then 0x00 else c.serialSubRead

/-- How many of the two reads of the reset vector reach no device (R78, R470). -/
def unmappedVectorReads (c : Config) : Nat :=
  (if place c 0xFFFE = .unmapped then 1 else 0) + (if place c 0xFFFF = .unmapped then 1 else 0)

/-- Twelve addresses below S, or three, or two: bytes of RAM, no two of them the same byte. -/
def RamBelow (c : Config) (sp : Word) (n : Nat) : Prop :=
  (∀ k, 1 ≤ k → k ≤ n → ∃ key, place c (sp - BitVec.ofNat 16 k) = .cell .ram key) ∧
  ∀ j k, 1 ≤ j → j < k → k ≤ n → Separate c (sp - BitVec.ofNat 16 j) (sp - BitVec.ofNat 16 k)

/-! ### The bytes an instruction stacks -/

/-- The instructions that push: BSR, LBSR, JSR, PSHS, PSHU, SWI, SWI2, SWI3 and CWAI at s write ws, in this order, from
the state p (s itself, or s with JSR's effective address computed). -/
def StacksBytes (i : Instr) (s p : State) (ws : List (Word × Byte)) : Prop :=
  let g := { s.regs with pc := s.regs.pc + BitVec.ofNat 16 i.size }
  (((∃ rr, i = .bsr rr) ∨ ∃ rrrr, i = .lbsr rrrr) ∧ p = s ∧ ws = pushWrites g.s [.word g.pc]) ∨
  (∃ m, i = .jsr m ∧ p = (effectiveAddress m (s.advance i.size)).2 ∧ ws = pushWrites p.regs.s [.word p.regs.pc]) ∨
  (∃ pb, i = .pshs pb ∧ p = s ∧ ws = pushWrites g.s (listItems pb g.u g)) ∨
  (∃ pb, i = .pshu pb ∧ p = s ∧ ws = pushWrites g.u (listItems pb g.s g)) ∨
  ((i = .swi ∨ i = .swi2 ∨ i = .swi3) ∧ p = s ∧
    ws = pushWrites g.s (entireFrame { g with cc := withE true s.regs.cc })) ∨
  (∃ ii, i = .cwai ii ∧ p = s ∧ ws = pushWrites g.s (entireFrame { g with cc := withE true (s.regs.cc &&& ii) }))

end Sys2Proof.Claims

open Sys2Proof Sys2Proof.Machine Sys2Proof.Claims

/-! ## Encoding -/

/-- R118 to R125: decoding the bytes the encoding tables give a well-formed instruction gives that instruction, with
every operand at every value, and leaves the bytes after it. -/
def Obligations.DecodeOfEncodeIsTheInstruction : Prop :=
  ∀ (i : Instr) (rest : List Byte), i.wellFormed = true → decode (encode i ++ rest) = .ok i rest

/-- R110, R125: what the decoder accepts is well formed, takes one to five bytes, exactly those of the instruction's
length, and does not depend on the bytes after them. -/
def Obligations.DecodedInstructionsHaveTheirLength : Prop :=
  ∀ (bs : List Byte) (i : Instr) (rest : List Byte), decode bs = .ok i rest →
    i.wellFormed = true ∧ 1 ≤ i.size ∧ i.size ≤ 5 ∧
    ∃ used, bs = used ++ rest ∧ used.length = i.size ∧ ∀ other, decode (used ++ other) = .ok i other

/-- R121 to R123: a few words written out from the opcode maps. -/
def Obligations.SampleWordsDecode : Prop :=
  decode [0x86, 0x80] = .ok (.lda (.imm 0x80)) [] ∧
  decode [0x10, 0xAE, 0x99, 0x12, 0x34] = .ok (.ldy (.mem (.idx (.mode (.off16 .x 0x1234) true)))) [] ∧
  decode [0xED, 0xE3] = .ok (.std (.idx (.mode (.dec2 .s) false))) [] ∧
  decode [0x11, 0xB3, 0x20, 0x00] = .ok (.cmpu (.mem (.ext 0x2000))) [] ∧
  decode [0x10, 0x27, 0xFF, 0xFC] = .ok (.lbeq 0xFFFC) [] ∧
  decode [0x1F, 0x8B] = .ok (.tfr .a .dp) [] ∧
  decode [0x34, 0x17] = .ok (.pshs 0x17) [] ∧
  decode [0x68, 0x1F] = .ok (.asl (.idx (.off5 .x (-1)))) [] ∧
  decode [0x3C, 0xEF] = .ok (.cwai 0xEF) []

/-- R112, R126, R127, R129, R130: the encodings without an instruction are refused by name, and no other opcode,
indexed postbyte or register pair is. That $87 and $C7 are refused and $A7 and $E7 are not follows R121 and R126 against
the corner cases of R177 and R178, which is the model's reading (log entry 22). -/
def Obligations.InvalidEncodingsAreRefused : Prop :=
  (∀ op rest, op ≠ 0x10 → op ≠ 0x11 →
    (decode (op :: rest) = .error (.noSuchOpcode 0 op) ↔ op ∈ noPage0)) ∧
  (∀ op rest, decode (0x10 :: op :: rest) = .error (.noSuchOpcode 2 op) ↔ op ∉ page2Opcodes) ∧
  (∀ op rest, decode (0x11 :: op :: rest) = .error (.noSuchOpcode 3 op) ↔ op ∉ page3Opcodes) ∧
  (∀ (f : Indexed → Instr) pb rest,
    (Form.indexed f).read (pb :: rest) = .error (.badIndexedPostbyte pb) ↔ badPostbyte pb) ∧
  (∀ (f : RegCode → RegCode → Instr) pb rest,
    (Form.pair f).read (pb :: rest) = .error (.badRegisterPair pb) ↔ badPair pb)

/-! ## The iteration -/

/-- R400, R412, R414: in an iteration that is awake, enters no interrupt and is not at the trap address, when the bytes
fetched at PC decode to i, the step is `exec` of i at the state the fetch left, and the instruction's cycles are added
when the run goes on. -/
def Obligations.StepRunsTheDecodedInstruction : Prop :=
  ∀ (s : State) (i : Instr) (rest : List Byte), Iterates s → Awake s → accepted s = none →
    s.cfg.trapAddr ≠ some s.regs.pc →
    (fetch (countFetch (awakened s))).answer = .ok i rest →
    ∃ t, exec i (fetch (countFetch (awakened s))).state = .next t ∧
      step s = .next (if t.status = .running then
        { t with cycles := t.cycles + cost i (fetch (countFetch (awakened s))).state } else t)

/-- R91, R93, R412: when the storage bytes from PC on are the bytes of a well-formed instruction, the fetch reads
exactly them, decodes that instruction and changes nothing. -/
def Obligations.FetchReadsTheInstructionInStorage : Prop :=
  ∀ (s : State) (i : Instr), i.wellFormed = true →
    (∀ k, k < i.size → s.peek (s.regs.pc + BitVec.ofNat 16 k) = (encode i)[k]?) →
    fetch s = { bytes := encode i, answer := .ok i [], state := s }

/-- R420: a byte sequence at PC that is no instruction ends the run. The status names the address and the bytes fetched:
the bytes read at PC and on, up to and including the one that made the encoding invalid. PC and every register are those
at the instruction's start, and nothing but these reads has happened. Where those bytes are storage, the step changes
nothing but the status. That the fetch stops at that byte is the model's reading (log entry 19). -/
def Obligations.InvalidInstructionEndsTheRun : Prop :=
  ∀ s : State, Iterates s → Awake s → accepted s = none → s.cfg.trapAddr ≠ some s.regs.pc →
    let p := countFetch (awakened s)
    let f := fetch p
    (∀ e, f.answer = .error e →
      InvalidAtLastByte f.bytes e ∧ p.readBytes s.regs.pc f.bytes.length = (f.bytes, f.state) ∧
      ∃ t, step s = .next t ∧ t.status = .faulted (.invalidInstruction s.regs.pc f.bytes) ∧
        t.regs = s.regs ∧ t.mem = s.mem ∧ f.state = { t with status := .running } ∧ OnlyReads p f.state) ∧
    ∀ bs e, InvalidAtLastByte bs e → (∀ k, k < bs.length → s.peek (s.regs.pc + BitVec.ofNat 16 k) = bs[k]?) →
      step s = .next { p with status := .faulted (.invalidInstruction s.regs.pc bs) }

/-- R401, R402, R403, R45, R10: a stop request, seen first, and an abort request end the run and change nothing else; a
run that is over has no further step. Two things are the model's choice: the iteration takes the host's input from the
model's own field, the first one given there or else the next of the host's draws (log entry 6), and `step` answers a fault
that names the reason where no iteration applies (log entry 11). -/
def Obligations.StopAbortAndTerminalStates : Prop :=
  ∀ s : State,
    (∀ h hs, s.inbox.given = h :: hs →
      nextInput s = h ∧ dropInput s = { s with inbox := { s.inbox with given := hs } }) ∧
    (s.inbox.given = [] → nextInput s = Config.hostInput s.inbox.drawn ∧
      dropInput s = { s with inbox := { s.inbox with drawn := s.inbox.drawn + 1 } }) ∧
    (s.status = .running → s.configAccepted = true → (nextInput s).stop = true →
      step s = .next { dropInput s with status := .halted .stopRequest }) ∧
    (s.status = .running → s.configAccepted = true → (nextInput s).stop = false → (nextInput s).abort = true →
      step s = .next { dropInput s with status := .faulted .abort }) ∧
    (∀ r, s.status = .halted r → step s = .fault (.runHalted r)) ∧
    (∀ f, s.status = .faulted f → step s = .fault (.runFaulted f))

/-- R411: at the trap address an iteration that is awake and enters no interrupt halts without fetching; an interrupt
comes first; while waiting there is no check. -/
def Obligations.TrapAddressHaltsBeforeTheFetch : Prop :=
  ∀ s : State, Iterates s → s.cfg.trapAddr = some s.regs.pc →
    (Awake s → accepted s = none → step s = .next { awakened s with status := .halted .trap }) ∧
    (∀ e, Awake s → accepted s = some e → ∀ t, step s = .next t → t.status ≠ .halted .trap) ∧
    (¬ Awake s → ∀ t, step s = .next t → t.status = .running)

/-- R73, R85: a map entry with a base bit outside its mask, or a memory device not larger than its highest offset, is
refused: no step is run. -/
def Obligations.RefusedConfigurationsAreNotRun : Prop :=
  ∀ (s : State) (e : MapEntry), s.status = .running → e ∈ s.cfg.deviceMap →
    (e.base &&& ~~~e.mask ≠ 0 ∨
      ∃ k d, e.device = .memory k ∧ s.cfg.memoryDevices[k]? = some d ∧ d.size ≤ (~~~e.mask).toNat) →
    step s = .refused .configurationRefused

/-- R407: which interrupt is accepted. -/
def Obligations.AcceptanceRule : Prop :=
  ∀ (req : Bool) (l : Lines) (s : State),
    (req = true → accept req l s = some .nmi) ∧
    (req = false → l.firq = true → ccGet s.regs.cc .f = false → accept req l s = some .firq) ∧
    (req = false → (l.firq = false ∨ ccGet s.regs.cc .f = true) → l.irq = true → ccGet s.regs.cc .i = false →
      accept req l s = some .irq) ∧
    (req = false → (l.firq = false ∨ ccGet s.regs.cc .f = true) → (l.irq = false ∨ ccGet s.regs.cc .i = true) →
      accept req l s = none)

/-- R405, R406, R453, R456: what the three lines read, each from its own binding, on the state the polls leave; every
iteration that samples leaves the sampled NMI line in nmi_prev, and NMI is accepted exactly on a change of it from false
to true while armed. -/
def Obligations.EveryIterationRecordsTheNmiLine : Prop :=
  (∀ p : State, LineReads p p.cfg.lines.nmi (sampleLines p).nmi ∧ LineReads p p.cfg.lines.firq (sampleLines p).firq ∧
    LineReads p p.cfg.lines.irq (sampleLines p).irq) ∧
  ∀ s t : State, Iterates s → step s = .next t →
    let l := sampleLines (polled s)
    t.nmiPrev = l.nmi ∧ (accepted s = some .nmi ↔ (l.nmi = true ∧ s.nmiPrev = false ∧ s.nmiArmed = true))

/-- R404: a poll round polls the serial device once when it is mapped, however often, and not at all when it is neither
mapped nor listed; each listed source once; and it changes nothing but those devices. -/
def Obligations.EachDeviceIsPolledOnce : Prop :=
  ∀ (h : HostInput) (s : State),
    let ds := s.cfg.deviceMap.map MapEntry.device ++ s.cfg.pureSources
    (pollAll h s).serial = (if DeviceId.serial ∈ ds then s.serial.poll h else s.serial) ∧
    (∀ k, (pollAll h s).sources[k]? =
      if DeviceId.source k ∈ ds then (s.sources[k]?).map (PureSource.poll k h) else s.sources[k]?) ∧
    pollAll h s = { s with serial := (pollAll h s).serial, sources := (pollAll h s).sources }

/-- R409, R410, R444: a waiting iteration fetches nothing. SYNC goes on waiting while no line is true; CWAI waits while
no interrupt is accepted, and enters an accepted one by the short way of R434; neither costs cycles. -/
def Obligations.WaitingIterations : Prop :=
  ∀ s : State, Iterates s →
    (s.wait = .sync → ¬ Awake s → step s = .next (sampled s)) ∧
    (s.wait = .cwai → accepted s = none → step s = .next (sampled s)) ∧
    (∀ e, s.wait = .cwai → accepted s = some e → step s = .next (enterFromCwai e (sampled s))) ∧
    (∀ e, Awake s → accepted s = some e → step s = enter e (awakened s))

/-- R431 to R433, R435, R430: entering NMI, FIRQ or IRQ where the frame's addresses take writes. The frame is pushed on
S with the current PC and with E as the event says, then the masks are set, PC is the word at the vector, and the entry's
cycles are added; every register but S, CC and PC is unchanged. -/
def Obligations.InterruptEntries : Prop :=
  ∀ (s : State) (e : Event) (vector : Word) (frame : Regs → List StackItem) (setE setF : Bool) (cycles : Nat),
    (e, vector, frame, setE, setF, cycles) ∈
      [(Event.nmi, 0xFFFC#16, entireFrame, true, true, 19), (.firq, 0xFFF6#16, shortFrame, false, true, 10),
       (.irq, 0xFFF8#16, entireFrame, true, false, 19)] →
    s.status = .running →
    let g := { s.regs with cc := withE setE s.regs.cc }
    let ws := pushWrites s.regs.s (frame g)
    let v := (s.storeAll ws).read16 vector
    s.Writable ws →
    ∃ cc, enter e s = .next { v.2 with
        regs := { s.regs with s := s.regs.s - BitVec.ofNat 16 (itemBytes (frame g)), cc := cc, pc := v.1 }
        cycles := s.cycles + cycles } ∧
      ccGet cc .i = true ∧ ccGet cc .e = setE ∧ (setF = true → ccGet cc .f = true) ∧
      OnlyFlags [.i, .e, .f] s.regs.cc cc ∧ (setF = false → ccGet cc .f = ccGet s.regs.cc .f) ∧
      KeepsStorage s v.2 ws

/-- R434: the entry from a CWAI wait pushes nothing and leaves E; it sets the masks, loads the vector and ends the
wait. -/
def Obligations.EntryFromCwai : Prop :=
  ∀ (s : State) (e : Event) (vector : Word) (setF : Bool),
    (e, vector, setF) ∈ [(Event.nmi, 0xFFFC#16, true), (.firq, 0xFFF6#16, true), (.irq, 0xFFF8#16, false)] →
    ∃ cc, enterFromCwai e s = { (s.read16 vector).2 with
        regs := { s.regs with cc := cc, pc := (s.read16 vector).1 }, wait := .none } ∧
      ccGet cc .i = true ∧ ccGet cc .f = (setF || ccGet s.regs.cc .f) ∧ OnlyFlags [.i, .f] s.regs.cc cc

/-- R436, R383: after NMI or IRQ is entered with its frame in RAM, an RTI run with S and the frame's storage as the entry
left them gives back every register and the interrupted PC, with E = 1 in CC; after FIRQ it gives back PC, S and CC with
E = 0, and leaves the other registers to the handler. -/
def Obligations.ReturnResumesTheInterruptedProgram : Prop :=
  ∀ (s t h : State) (e : Event), s.mem.wf → s.status = .running → enter e s = .next t →
    h.cfg = t.cfg → h.mem = t.mem → h.regs.s = t.regs.s →
    (e = .nmi ∨ e = .irq → RamBelow s.cfg s.regs.s 12 →
      ∃ u, exec .rti h = .next u ∧ u.regs = { s.regs with cc := withE true s.regs.cc }) ∧
    (e = .firq → RamBelow s.cfg s.regs.s 3 →
      ∃ u, exec .rti h = .next u ∧
        u.regs = { h.regs with pc := s.regs.pc, s := s.regs.s, cc := withE false s.regs.cc })

/-! ## The whole machine -/

/-- The invariant `State.Inv` (Safety.lean) is kept by every step, from every state that has it. -/
def Obligations.EveryStepKeepsTheInvariant : Prop :=
  ∀ s t : State, s.Inv → step s = .next t → t.Inv

/-- The invariant holds right after reset, on the reference configuration (R84). -/
def Obligations.TheInvariantHoldsAtReset : Prop :=
  State.reset.Inv

/-- R82, property T3: no step of the machine changes a byte of ROM, under either policy, whatever it executes or enters;
the configuration that says where ROM is does not change either. -/
def Obligations.NoStepChangesRom : Prop :=
  ∀ (s t : State) (a : Word) (key : Nat), step s = .next t → place s.cfg a = .cell .rom key →
    place t.cfg a = .cell .rom key ∧ t.mem.read key = s.mem.read key

/-- R9, R48, R51, R52, R406, R412, R445: over every step the parameters stay, no counter falls (unmapped accesses,
cycles, the execution count of each address), the serial output only grows at its end, and NMI once armed stays armed;
and the count of a fetch adds 1 at PC exactly when profiling is enabled, and changes nothing else. -/
def Obligations.StepsKeepParametersAndCountUp : Prop :=
  (∀ s : State, countFetch s = { s with execCount := (countFetch s).execCount } ∧
    ∀ a, countAt (countFetch s).execCount a =
      countAt s.execCount a + if s.cfg.profiling = true ∧ a = s.regs.pc.toNat then 1 else 0) ∧
  ∀ s t : State, step s = .next t →
    t.cfg = s.cfg ∧ s.unmappedReads ≤ t.unmappedReads ∧ s.unmappedWrites ≤ t.unmappedWrites ∧ s.cycles ≤ t.cycles ∧
    (∀ a, countAt s.execCount a ≤ countAt t.execCount a) ∧
    (∃ sent, t.serial.output = s.serial.output ++ sent) ∧ (s.nmiArmed = true → t.nmiArmed = true) ∧
    t.sources.length = s.sources.length

/-- R413, R46, R10: an instruction answers a next state and leaves the parameters, the NMI sample, the pure sources, the
host's inputs and the statistics alone; only SYNC and CWAI begin a wait. -/
def Obligations.InstructionsAreConfinedToTheirOwnEffects : Prop :=
  ∀ (i : Instr) (s : State), ∃ t, exec i s = .next t ∧
    t.cfg = s.cfg ∧ t.nmiPrev = s.nmiPrev ∧ t.sources = s.sources ∧ t.inbox = s.inbox ∧ t.cycles = s.cycles ∧
    t.execCount = s.execCount ∧
    (t.wait = s.wait ∨ (i = .sync ∧ t.wait = .sync) ∨ (∃ ii, i = .cwai ii ∧ t.wait = .cwai))

/-- R48: NMI is armed by LDS, LEAS, TFR or EXG with S as destination and PULU with S in its list, when the parameter asks
for arming. That no other instruction arms it takes the list of R48 as complete, which is the model's reading (log entry
15). -/
def Obligations.TheInstructionsThatArmNmi : Prop :=
  ∀ (i : Instr) (s t : State), i.wellFormed = true → exec i s = .next t →
    let arms : Prop :=
      (∃ src, i = .lds src) ∨ (∃ x, i = .leas x) ∨ (∃ r, i = .tfr r .s) ∨ (∃ r, i = .exg r .s ∨ i = .exg .s r) ∨
      (∃ pb, i = .pulu pb ∧ pb.getLsbD 6 = true)
    (t.nmiArmed = true ↔ (s.nmiArmed = true ∨ (arms ∧ s.cfg.nmiArmRequired = true)))

/-- R421, R82: whatever the instruction, when its answer is the ROM-write fault, every register, CC and PC are as at its
start, the policy is fault, and the address named is one of a ROM device. -/
def Obligations.RomWriteFaultsArePrecise : Prop :=
  ∀ (i : Instr) (s t : State) (a : Word), s.status = .running → exec i s = .next t →
    t.status = .faulted (.romWrite a) →
    t.regs = s.regs ∧ s.cfg.romWritePolicy = .fault ∧ ∃ key, place s.cfg a = .cell .rom key

/-- R82, R421: a write that goes into a ROM device under policy fault ends the run there, for every instruction that
writes and for an interrupt entry: the bytes written before it stay written, the device side effects of its reads stay
done, no further byte is written, and every register, CC and PC are as before the instruction or the entry. -/
def Obligations.WritesIntoRomEndTheRun : Prop :=
  (∀ (op : Mem → Instr), op ∈ [Instr.sta, .stb, .clr] → ∀ (m : Mem) (s : State),
    let p := effectiveAddress m (s.advance (op m).size)
    s.romFaults p.1 = true →
    exec (op m) s = .next { p.2 with regs := s.regs, status := .faulted (.romWrite p.1) }) ∧
  (∀ row ∈ unaryRows, ∀ (m : Mem) (s : State),
    let ea := effectiveAddress m (s.advance (row.mem m).size)
    s.romFaults ea.1 = true →
    exec (row.mem m) s = .next { (ea.2.read8 ea.1).2 with regs := s.regs, status := .faulted (.romWrite ea.1) }) ∧
  (∀ (op : Mem → Instr) (row : Reg16Row),
    (op, row) ∈ [(Instr.std, rowD), (Instr.stx, rowX), (Instr.sty, rowY), (Instr.stu, rowU), (Instr.sts, rowS)] →
    ∀ (m : Mem) (s : State),
      let p := effectiveAddress m (s.advance (op m).size)
      (s.romFaults p.1 = true →
        exec (op m) s = .next { p.2 with regs := s.regs, status := .faulted (.romWrite p.1) }) ∧
      (s.romFaults p.1 = false → s.romFaults (p.1 + 1) = true →
        exec (op m) s = .next { p.2.store8 p.1 ((row.get p.2.regs).extractLsb' 8 8) with
          regs := s.regs, status := .faulted (.romWrite (p.1 + 1)) })) ∧
  (∀ (i : Instr) (p : State) (ws : List (Word × Byte)) (s : State), StacksBytes i s p ws →
    ∀ before a v after, ws = before ++ (a, v) :: after → s.Writable before → s.romFaults a = true →
      exec i s = .next { p.storeAll before with regs := s.regs, status := .faulted (.romWrite a) }) ∧
  (∀ (e : Event) (setE : Bool) (frame : Regs → List StackItem) (s : State),
    (e, setE, frame) ∈ [(Event.nmi, true, entireFrame), (.firq, false, shortFrame), (.irq, true, entireFrame)] →
    ∀ before a v after, pushWrites s.regs.s (frame { s.regs with cc := withE setE s.regs.cc }) = before ++ (a, v) :: after →
      s.Writable before → s.romFaults a = true →
      enter e s = .next { s.storeAll before with regs := s.regs, status := .faulted (.romWrite a) })

/-- R16, R82, R160, R202, R422, R440: with the default ROM policy every well-formed instruction completes, at every
state and with every operand: no instruction ends the run. -/
def Obligations.UnderPolicyIgnoreNoInstructionEndsTheRun : Prop :=
  ∀ (i : Instr) (s : State), i.wellFormed = true → s.cfg.romWritePolicy = .ignore →
    ∃ t, exec i s = .next t ∧ t.status = s.status

/-! ## The bus -/

/-- R72, R73, R74: the first entry in registration order whose masked bits agree answers, at the offset a AND NOT mask;
an address that matches no entry is unmapped. -/
def Obligations.TheFirstMatchingEntryAnswers : Prop :=
  ∀ (devices : List MemoryDevice) (a : Word),
    (∀ (before after : List MapEntry) (e : MapEntry) (k : Nat) (d : MemoryDevice),
      (∀ x ∈ before, a &&& x.mask ≠ x.base &&& x.mask) → a &&& e.mask = e.base &&& e.mask →
      (e.device = .memory k → devices[k]? = some d →
        placeIn devices (before ++ e :: after) a = .cell d.kind (cellKey k (a &&& ~~~e.mask))) ∧
      (e.device = .serial → placeIn devices (before ++ e :: after) a = .serial (a &&& ~~~e.mask))) ∧
    (∀ entries : List MapEntry, (∀ x ∈ entries, a &&& x.mask ≠ x.base &&& x.mask) →
      placeIn devices entries a = .unmapped)

/-- R76, R77, R78, R82, R83, R13, R80: a one-byte read or write by where the address leads, and a two-byte access as the
two one-byte accesses, high byte first and at the lower address, modulo 2^16. -/
def Obligations.BusAccesses : Prop :=
  ∀ (s : State) (a : Word) (v : Byte) (w : Word),
    (∀ kind key, place s.cfg a = .cell kind key → s.read8 a = (s.mem.read key, s)) ∧
    (∀ off, place s.cfg a = .serial off → s.read8 a =
      ((s.serial.read s.cfg.serialSubRead off).1, { s with serial := (s.serial.read s.cfg.serialSubRead off).2 })) ∧
    (place s.cfg a = .unmapped →
      s.read8 a = (s.cfg.unmappedRead, { s with unmappedReads := s.unmappedReads + 1 }) ∧
      s.write8 a v = .ok { s with unmappedWrites := s.unmappedWrites + 1 }) ∧
    (∀ key, place s.cfg a = .cell .ram key → s.write8 a v = .ok { s with mem := s.mem.write key v }) ∧
    (∀ key, place s.cfg a = .cell .rom key →
      s.write8 a v = if s.cfg.romWritePolicy = .fault then .romFault a s else .ok s) ∧
    (∀ off, place s.cfg a = .serial off → s.write8 a v = .ok { s with serial := s.serial.write off v }) ∧
    s.read16 a = ((s.read8 a).1 ++ ((s.read8 a).2.read8 (a + 1)).1, ((s.read8 a).2.read8 (a + 1)).2) ∧
    (∀ t, s.write8 a (w.extractLsb' 8 8) = .ok t → s.write16 a w = t.write8 (a + 1) (w.extractLsb' 0 8))

/-- R83, R88, R79: with storage in canonical form, a byte written to RAM through the bus reads back at once, every byte
of storage it does not go to reads as before, and reading RAM or ROM changes nothing. -/
def Obligations.StorageReadsBack : Prop :=
  ∀ (s t : State) (a b : Word) (v : Byte), s.mem.wf → s.write8 a v = .ok t →
    (∀ key, place s.cfg a = .cell .ram key → t.read8 a = (v, t)) ∧
    (Separate s.cfg a b → t.peek b = s.peek b) ∧
    (∀ kind key, place s.cfg b = .cell kind key → (s.read8 b).2 = s ∧ s.peek b = some (s.read8 b).1) ∧
    t.mem.wf

/-! ## Addressing -/

/-- R118, R142 to R159: the effective address of every memory operand, PC being the address of the next instruction; the
pointer of an indirect form is read after the mode's register update; an operand is the immediate, or is read at the
effective address after that has been computed; and whatever the mode, reading it changes only the mode's own register
and what bus reads may change. -/
def Obligations.EffectiveAddressesAndOperands : Prop :=
  ∀ (s : State) (dd n8 : Byte) (n16 : Word) (n5 : BitVec 5) (mode : IndexMode) (m : Mem),
    (effectiveAddress (.dir dd) s = (s.regs.dp ++ dd, s)) ∧
    (effectiveAddress (.ext n16) s = (n16, s)) ∧
    (∀ (r : IndexReg) (row : Reg16Row),
      (r, row) ∈ [(IndexReg.x, rowX), (.y, rowY), (.u, rowU), (.s, rowS)] →
      indexedAddress (.off5 r n5) s = (row.get s.regs + n5.signExtend 16, s) ∧
      indexedAddress (.inc1 r) s = (row.get s.regs, { s with regs := row.put s.regs (row.get s.regs + 1) }) ∧
      indexedAddress (.dec1 r) s =
        (row.get s.regs - 1, { s with regs := row.put s.regs (row.get s.regs - 1) }) ∧
      indexedAddress (.mode (.inc2 r) false) s =
        (row.get s.regs, { s with regs := row.put s.regs (row.get s.regs + 2) }) ∧
      indexedAddress (.mode (.dec2 r) false) s =
        (row.get s.regs - 2, { s with regs := row.put s.regs (row.get s.regs - 2) }) ∧
      indexedAddress (.mode (.zero r) false) s = (row.get s.regs, s) ∧
      indexedAddress (.mode (.accA r) false) s = (row.get s.regs + s.regs.a.signExtend 16, s) ∧
      indexedAddress (.mode (.accB r) false) s = (row.get s.regs + s.regs.b.signExtend 16, s) ∧
      indexedAddress (.mode (.accD r) false) s = (row.get s.regs + (s.regs.a ++ s.regs.b), s) ∧
      indexedAddress (.mode (.off8 r n8) false) s = (row.get s.regs + n8.signExtend 16, s) ∧
      indexedAddress (.mode (.off16 r n16) false) s = (row.get s.regs + n16, s)) ∧
    indexedAddress (.mode (.pcr8 n8) false) s = (s.regs.pc + n8.signExtend 16, s) ∧
    indexedAddress (.mode (.pcr16 n16) false) s = (s.regs.pc + n16, s) ∧
    indexedAddress (.mode mode true) s =
      (indexedAddress (.mode mode false) s).2.read16 (indexedAddress (.mode mode false) s).1 ∧
    indexedAddress (.absIndirect n16) s = s.read16 n16 ∧
    operand8 (.imm n8) s = (n8, s) ∧ operand16 (.imm n16) s = (n16, s) ∧
    operand8 (.mem m) s = (effectiveAddress m s).2.read8 (effectiveAddress m s).1 ∧
    operand16 (.mem m) s = (effectiveAddress m s).2.read16 (effectiveAddress m s).1 ∧
    OnlyReads { s with regs := s.regs.bumped (memBump m) } (effectiveAddress m s).2 ∧
    OnlyReads { s with regs := s.regs.bumped (memBump m) } (operand8 (.mem m) s).2 ∧
    OnlyReads { s with regs := s.regs.bumped (memBump m) } (operand16 (.mem m) s).2

/-! ## Loads, stores and LEA -/

/-- R170, R171: LDA and LDB. -/
def Obligations.LoadsOfAnAccumulator : Prop :=
  ∀ (op : Src8 → Instr) (row : Reg8Row), (op, row) ∈ [(Instr.lda, rowA), (Instr.ldb, rowB)] →
    ∀ (src : Src8) (s : State),
      let p := operand8 src (s.advance (op src).size)
      ∃ cc, exec (op src) s = .next { p.2 with regs := { row.put p.2.regs p.1 with cc := cc } } ∧
        LogicFlags8 p.1 s.regs.cc cc ∧ AfterOperand (op src).size (src8Bump src) s p.2 ∧ ∀ a, p.2.peek a = s.peek a

/-- R172 to R176: LDD, LDX, LDY, LDU and LDS; LDS also arms NMI (R48). -/
def Obligations.LoadsOfAWord : Prop :=
  ∀ (op : Src16 → Instr) (row : Reg16Row) (arms : Bool),
    (op, row, arms) ∈ [(Instr.ldd, rowD, false), (Instr.ldx, rowX, false), (Instr.ldy, rowY, false),
      (Instr.ldu, rowU, false), (Instr.lds, rowS, true)] →
    ∀ (src : Src16) (s : State),
      let p := operand16 src (s.advance (op src).size)
      ∃ cc, exec (op src) s = .next { p.2 with
          regs := { row.put p.2.regs p.1 with cc := cc }
          nmiArmed := s.nmiArmed || (arms && s.cfg.nmiArmRequired) } ∧
        LogicFlags16 p.1 s.regs.cc cc ∧ AfterOperand (op src).size (src16Bump src) s p.2 ∧
        ∀ a, p.2.peek a = s.peek a

/-- R177, R178: STA and STB, where the byte stored to takes writes; the destination is not read. -/
def Obligations.StoresOfAnAccumulator : Prop :=
  ∀ (op : Mem → Instr) (row : Reg8Row), (op, row) ∈ [(Instr.sta, rowA), (Instr.stb, rowB)] →
    ∀ (m : Mem) (s : State),
      let p := effectiveAddress m (s.advance (op m).size)
      let v := row.get s.regs
      s.Writable [(p.1, v)] →
      ∃ cc, exec (op m) s = .next (State.store8 { p.2 with regs := { p.2.regs with cc := cc } } p.1 v) ∧
        LogicFlags8 v s.regs.cc cc ∧ AfterOperand (op m).size (memBump m) s p.2 ∧
        KeepsStorage s (p.2.store8 p.1 v) [(p.1, v)]

/-- R179 to R183: STD, STX, STY, STU and STS: the high byte at EA, then the low byte at EA +16 1. The register stored is
the one after the address computation (R158). -/
def Obligations.StoresOfAWord : Prop :=
  ∀ (op : Mem → Instr) (row : Reg16Row),
    (op, row) ∈ [(Instr.std, rowD), (Instr.stx, rowX), (Instr.sty, rowY), (Instr.stu, rowU), (Instr.sts, rowS)] →
    ∀ (m : Mem) (s : State),
      let p := effectiveAddress m (s.advance (op m).size)
      let v := row.get p.2.regs
      let ws := [(p.1, v.extractLsb' 8 8), (p.1 + 1, v.extractLsb' 0 8)]
      s.Writable ws →
      ∃ cc, exec (op m) s = .next (State.storeAll { p.2 with regs := { p.2.regs with cc := cc } } ws) ∧
        LogicFlags16 v s.regs.cc cc ∧ AfterOperand (op m).size (memBump m) s p.2 ∧
        KeepsStorage s (p.2.storeAll ws) ws

/-- R184 to R187: LEAX and LEAY set Z alone; LEAU and LEAS leave CC; LEAS arms NMI; no data is read at EA. -/
def Obligations.LoadsOfAnEffectiveAddress : Prop :=
  ∀ (op : Indexed → Instr) (row : Reg16Row) (setsZ arms : Bool),
    (op, row, setsZ, arms) ∈ [(Instr.leax, rowX, true, false), (Instr.leay, rowY, true, false),
      (Instr.leau, rowU, false, false), (Instr.leas, rowS, false, true)] →
    ∀ (x : Indexed) (s : State),
      let p := indexedAddress x (s.advance (op x).size)
      ∃ cc, exec (op x) s = .next { p.2 with
          regs := { row.put p.2.regs p.1 with cc := cc }
          nmiArmed := s.nmiArmed || (arms && s.cfg.nmiArmRequired) } ∧
        (setsZ = true → ccGet cc .z = decide (p.1 = 0) ∧ OnlyFlags [.z] s.regs.cc cc) ∧
        (setsZ = false → cc = s.regs.cc) ∧ AfterOperand (op x).size (indexedBump x) s p.2 ∧
        ∀ a, p.2.peek a = s.peek a

/-! ## 8-bit arithmetic and logic -/

/-- R200, R203 to R206: ADDA, ADDB, and with the old C added ADCA, ADCB. -/
def Obligations.EightBitAdditions : Prop :=
  ∀ (op : Src8 → Instr) (row : Reg8Row) (withC : Bool),
    (op, row, withC) ∈ [(Instr.adda, rowA, false), (Instr.addb, rowB, false), (Instr.adca, rowA, true),
      (Instr.adcb, rowB, true)] →
    ∀ (src : Src8) (s : State),
      let p := operand8 src (s.advance (op src).size)
      let x := row.get s.regs
      let c := withC && ccGet s.regs.cc .c
      ∃ r cc, exec (op src) s = .next { p.2 with regs := { row.put p.2.regs r with cc := cc } } ∧
        r.toNat = (x.toNat + p.1.toNat + c.toNat) % 256 ∧ AddFlags8 x p.1 c r s.regs.cc cc ∧
        AfterOperand (op src).size (src8Bump src) s p.2 ∧ ∀ a, p.2.peek a = s.peek a

/-- R201, R207 to R212: SUBA, SUBB, SBCA and SBCB (with the old C as borrow), and CMPA and CMPB, which keep the register.
H takes a free value (`UNDEF_FLAG`). -/
def Obligations.EightBitSubtractions : Prop :=
  ∀ (op : Src8 → Instr) (row : Reg8Row) (withC keeps : Bool),
    (op, row, withC, keeps) ∈ [(Instr.suba, rowA, false, false), (Instr.subb, rowB, false, false),
      (Instr.sbca, rowA, true, false), (Instr.sbcb, rowB, true, false), (Instr.cmpa, rowA, false, true),
      (Instr.cmpb, rowB, false, true)] →
    ∀ (src : Src8) (s : State),
      let p := operand8 src (s.advance (op src).size)
      let x := row.get s.regs
      let c := withC && ccGet s.regs.cc .c
      ∃ r cc, exec (op src) s = .next { p.2 with
          regs := { (if keeps then p.2.regs else row.put p.2.regs r) with cc := cc } } ∧
        (r.toNat : Int) = (x.toNat - p.1.toNat - c.toNat : Int) % 256 ∧ SubFlags8 x p.1 c r s.regs.cc cc ∧
        AfterOperand (op src).size (src8Bump src) s p.2 ∧ ∀ a, p.2.peek a = s.peek a

/-- R213 to R220: AND, OR and EOR into A or B, and BIT, which keeps the register. -/
def Obligations.LogicInstructions : Prop :=
  ∀ (op : Src8 → Instr) (row : Reg8Row) (f : Bool → Bool → Bool) (keeps : Bool),
    (op, row, f, keeps) ∈ [(Instr.anda, rowA, Bool.and, false), (Instr.andb, rowB, Bool.and, false),
      (Instr.bita, rowA, Bool.and, true), (Instr.bitb, rowB, Bool.and, true), (Instr.ora, rowA, Bool.or, false),
      (Instr.orb, rowB, Bool.or, false), (Instr.eora, rowA, Bool.xor, false), (Instr.eorb, rowB, Bool.xor, false)] →
    ∀ (src : Src8) (s : State),
      let p := operand8 src (s.advance (op src).size)
      ∃ r cc, exec (op src) s = .next { p.2 with
          regs := { (if keeps then p.2.regs else row.put p.2.regs r) with cc := cc } } ∧
        (∀ k, k < 8 → r.getLsbD k = f ((row.get s.regs).getLsbD k) (p.1.getLsbD k)) ∧ LogicFlags8 r s.regs.cc cc ∧
        AfterOperand (op src).size (src8Bump src) s p.2 ∧ ∀ a, p.2.peek a = s.peek a

/-- R221: DAA adds $06 for the low digit and $60 for the high digit; C is set by the correction's carry and never
cleared; V takes a free value. -/
def Obligations.DecimalAdjust : Prop :=
  ∀ s : State,
    let lsn := s.regs.a.toNat % 16
    let msn := s.regs.a.toNat / 16
    let low := ccGet s.regs.cc .h = true ∨ 9 < lsn
    let high := ccGet s.regs.cc .c = true ∨ 9 < msn ∨ (8 < msn ∧ 9 < lsn)
    ∃ (r cc : Byte) (t : Nat),
      ((low → high → t = s.regs.a.toNat + 0x66) ∧ (low → ¬ high → t = s.regs.a.toNat + 0x06) ∧
        (¬ low → high → t = s.regs.a.toNat + 0x60) ∧ (¬ low → ¬ high → t = s.regs.a.toNat)) ∧
      exec .daa s = .next { s with regs := { s.regs with a := r, cc := cc, pc := s.regs.pc + 1 } } ∧
      r.toNat = t % 256 ∧ ccGet cc .n = decide (r.toInt < 0) ∧ ccGet cc .z = decide (r = 0) ∧
      ccGet cc .c = (ccGet s.regs.cc .c || decide (256 ≤ t)) ∧ OnlyFlags [.n, .z, .c, .v] s.regs.cc cc

/-- R222, R223, R249: MUL, SEX and ABX. -/
def Obligations.MultiplySignExtendAndAddB : Prop :=
  ∀ s : State,
    (∃ (d : Word) (cc : Byte), exec .mul s = .next { s with
        regs := { rowD.put s.regs d with cc := cc, pc := s.regs.pc + 1 } } ∧
      d.toNat = s.regs.a.toNat * s.regs.b.toNat ∧ ccGet cc .z = decide (d = 0) ∧
      ccGet cc .c = decide (s.regs.a.toNat * s.regs.b.toNat / 128 % 2 = 1) ∧ OnlyFlags [.z, .c] s.regs.cc cc) ∧
    (∃ (d : Word) (cc : Byte), exec .sex s = .next { s with
        regs := { rowD.put s.regs d with cc := cc, pc := s.regs.pc + 1 } } ∧
      d.toInt = s.regs.b.toInt ∧ ccGet cc .n = decide (s.regs.b.toInt < 0) ∧ ccGet cc .z = decide (s.regs.b = 0) ∧
      OnlyFlags [.n, .z] s.regs.cc cc) ∧
    (∃ x : Word, exec .abx s = .next { s with regs := { s.regs with x := x, pc := s.regs.pc + 1 } } ∧
      x.toNat = (s.regs.x.toNat + s.regs.b.toNat) % 65536)

/-- R240 to R248: ADDD, SUBD, and the compares of D, X, Y, U and S, which keep the register. -/
def Obligations.SixteenBitArithmetic : Prop :=
  ∀ (op : Src16 → Instr) (row : Reg16Row) (adds keeps : Bool),
    (op, row, adds, keeps) ∈ [(Instr.addd, rowD, true, false), (Instr.subd, rowD, false, false),
      (Instr.cmpd, rowD, false, true), (Instr.cmpx, rowX, false, true), (Instr.cmpy, rowY, false, true),
      (Instr.cmpu, rowU, false, true), (Instr.cmps, rowS, false, true)] →
    ∀ (src : Src16) (s : State),
      let p := operand16 src (s.advance (op src).size)
      let x := row.get p.2.regs
      ∃ r cc, exec (op src) s = .next { p.2 with
          regs := { (if keeps then p.2.regs else row.put p.2.regs r) with cc := cc } } ∧
        (adds = true → r.toNat = (x.toNat + p.1.toNat) % 65536 ∧ AddFlags16 x p.1 r s.regs.cc cc) ∧
        (adds = false → (r.toNat : Int) = (x.toNat - p.1.toNat : Int) % 65536 ∧ SubFlags16 x p.1 r s.regs.cc cc) ∧
        AfterOperand (op src).size (src16Bump src) s p.2 ∧ ∀ a, p.2.peek a = s.peek a

/-! ## Unary operations -/

/-- R260 to R287, memory forms: one read at EA, then one write of the result to the same EA, where that byte takes
writes. -/
def Obligations.UnaryOperationsOnMemory : Prop :=
  ∀ row ∈ unaryRows, ∀ (m : Mem) (s : State),
    let ea := effectiveAddress m (s.advance (row.mem m).size)
    let p := ea.2.read8 ea.1
    s.romFaults ea.1 = false →
    ∃ r cc, exec (row.mem m) s = .next (State.store8 { p.2 with regs := { p.2.regs with cc := cc } } ea.1 r) ∧
      r.toNat = row.result p.1 (ccGet s.regs.cc .c) ∧ row.Flags p.1 r s.regs.cc cc ∧
      AfterOperand (row.mem m).size (memBump m) s p.2 ∧ KeepsStorage s (p.2.store8 ea.1 r) [(ea.1, r)]

/-- R260 to R287, accumulator forms, and CLRA, CLRB (R292, R293). -/
def Obligations.UnaryOperationsOnAccumulators : Prop :=
  (∀ row ∈ unaryRows, ∀ (i : Instr) (acc : Reg8Row), (i, acc) ∈ [(row.onA, rowA), (row.onB, rowB)] → ∀ s : State,
    ∃ r cc, exec i s = .next { s with regs := { acc.put s.regs r with cc := cc, pc := s.regs.pc + 1 } } ∧
      r.toNat = row.result (acc.get s.regs) (ccGet s.regs.cc .c) ∧ row.Flags (acc.get s.regs) r s.regs.cc cc) ∧
  (∀ (i : Instr) (acc : Reg8Row), (i, acc) ∈ [(Instr.clra, rowA), (Instr.clrb, rowB)] → ∀ s : State,
    ∃ cc, exec i s = .next { s with regs := { acc.put s.regs 0 with cc := cc, pc := s.regs.pc + 1 } } ∧
      ccGet cc .n = false ∧ ccGet cc .z = true ∧ ccGet cc .v = false ∧ ccGet cc .c = false ∧
      OnlyFlags [.n, .z, .v, .c] s.regs.cc cc)

/-- R288 to R291: TST reads and does not write; TSTA and TSTB; CLR writes $00 and does not read. -/
def Obligations.TestAndClear : Prop :=
  (∀ (m : Mem) (s : State),
    let p := operand8 (.mem m) (s.advance (Instr.tst m).size)
    ∃ cc, exec (.tst m) s = .next { p.2 with regs := { p.2.regs with cc := cc } } ∧ LogicFlags8 p.1 s.regs.cc cc ∧
      AfterOperand (Instr.tst m).size (memBump m) s p.2 ∧ ∀ a, p.2.peek a = s.peek a) ∧
  (∀ (i : Instr) (acc : Reg8Row), (i, acc) ∈ [(Instr.tsta, rowA), (Instr.tstb, rowB)] → ∀ s : State,
    ∃ cc, exec i s = .next { s with regs := { s.regs with cc := cc, pc := s.regs.pc + 1 } } ∧
      LogicFlags8 (acc.get s.regs) s.regs.cc cc) ∧
  (∀ (m : Mem) (s : State),
    let p := effectiveAddress m (s.advance (Instr.clr m).size)
    s.romFaults p.1 = false →
    ∃ cc, exec (.clr m) s = .next (State.store8 { p.2 with regs := { p.2.regs with cc := cc } } p.1 0) ∧
      ccGet cc .n = false ∧ ccGet cc .z = true ∧ ccGet cc .v = false ∧ ccGet cc .c = false ∧
      OnlyFlags [.n, .z, .v, .c] s.regs.cc cc ∧ AfterOperand (Instr.clr m).size (memBump m) s p.2 ∧
      KeepsStorage s (p.2.store8 p.1 0) [(p.1, 0)])

/-! ## Control flow -/

/-- R145, R146, R310 to R342: the sixteen short and the sixteen long branches: PC takes the target, counted from the
next instruction, exactly when the condition holds; nothing else changes. -/
def Obligations.Branches : Prop :=
  ∀ row ∈ branchRows, ∀ (rr : Byte) (rrrr : Word) (s : State),
    let next8 := s.regs.pc + 2
    let next16 := s.regs.pc + BitVec.ofNat 16 (row.long rrrr).size
    (row.takenAt s.regs.cc →
      exec (row.short rr) s = .next { s with regs := { s.regs with pc := next8 + rr.signExtend 16 } } ∧
      exec (row.long rrrr) s = .next { s with regs := { s.regs with pc := next16 + rrrr } }) ∧
    (¬ row.takenAt s.regs.cc →
      exec (row.short rr) s = .next { s with regs := { s.regs with pc := next8 } } ∧
      exec (row.long rrrr) s = .next { s with regs := { s.regs with pc := next16 } })

/-- R343, R344, R346: BSR, LBSR and JSR push the address of the next instruction on S, high byte at the new S, and go to
their target, which JSR computes before the push; the two bytes take writes. -/
def Obligations.SubroutineCalls : Prop :=
  (∀ (i : Instr) (n : Word) (s : State), (∃ rr, i = .bsr rr ∧ n = rr.signExtend 16) ∨ i = .lbsr n →
    let next := s.regs.pc + BitVec.ofNat 16 i.size
    let ws := [(s.regs.s - 2, next.extractLsb' 8 8), (s.regs.s - 1, next.extractLsb' 0 8)]
    s.Writable ws →
    exec i s = .next { s.storeAll ws with regs := { s.regs with s := s.regs.s - 2, pc := next + n } } ∧
    KeepsStorage s (s.storeAll ws) ws) ∧
  (∀ (m : Mem) (s : State),
    let p := effectiveAddress m (s.advance (Instr.jsr m).size)
    let next := p.2.regs.pc
    let ws := [(p.2.regs.s - 2, next.extractLsb' 8 8), (p.2.regs.s - 1, next.extractLsb' 0 8)]
    s.Writable ws →
    exec (.jsr m) s =
      .next { p.2.storeAll ws with regs := { p.2.regs with s := p.2.regs.s - 2, pc := p.1 } } ∧
    AfterOperand (Instr.jsr m).size (memBump m) s p.2 ∧ KeepsStorage s (p.2.storeAll ws) ws)

/-- R345, R347: JMP loads PC with the effective address and reads nothing there; RTS pulls PC from S. -/
def Obligations.JumpAndReturn : Prop :=
  ∀ (m : Mem) (s : State),
    let p := effectiveAddress m (s.advance (Instr.jmp m).size)
    let r := s.readBytes s.regs.s 2
    exec (.jmp m) s = .next { p.2 with regs := { p.2.regs with pc := p.1 } } ∧
    AfterOperand (Instr.jmp m).size (memBump m) s p.2 ∧ (∀ a, p.2.peek a = s.peek a) ∧
    exec .rts s = .next { r.2 with regs := { s.regs with s := s.regs.s + 2, pc := pulledWord r.1 0 } } ∧
    OnlyReads s r.2 ∧ ∀ a, r.2.peek a = s.peek a

/-- R346, R347, R348: an RTS run with S and the return address's storage as BSR, LBSR or JSR left them comes back to the
instruction after the call with S as before it. -/
def Obligations.ReturnGoesBackToTheCaller : Prop :=
  ∀ (i : Instr) (s t h : State) (sp : Word), s.mem.wf → s.status = .running →
    ((∃ rr, i = .bsr rr) ∧ sp = s.regs.s ∨ (∃ rrrr, i = .lbsr rrrr) ∧ sp = s.regs.s ∨
      ∃ m, i = .jsr m ∧ sp = (effectiveAddress m (s.advance i.size)).2.regs.s) →
    RamBelow s.cfg sp 2 → exec i s = .next t → h.cfg = t.cfg → h.mem = t.mem → h.regs.s = t.regs.s →
    exec .rts h = .next { h with regs := { h.regs with s := sp, pc := s.regs.pc + BitVec.ofNat 16 i.size } }

/-! ## Registers and stacks -/

/-- R119, R360, R361: TFR copies r1 to r2 and EXG exchanges them, every register that shares no bits with a destination
keeps its value (PC being past the instruction), S as a destination arms NMI; a pair of different widths is the invalid
instruction, with nothing changed but the status. -/
def Obligations.TransferAndExchange : Prop :=
  (∀ g : Regs, codeGet .d g = g.a ++ g.b ∧ codeGet .x g = g.x ∧ codeGet .y g = g.y ∧ codeGet .u g = g.u ∧
    codeGet .s g = g.s ∧ codeGet .pc g = g.pc ∧ codeGet .a g = g.a.setWidth 16 ∧ codeGet .b g = g.b.setWidth 16 ∧
    codeGet .cc g = g.cc.setWidth 16 ∧ codeGet .dp g = g.dp.setWidth 16) ∧
  (∀ (r1 r2 : RegCode) (s : State), r1.wide = r2.wide →
    let g := { s.regs with pc := s.regs.pc + 2 }
    let apart (r k : RegCode) : Prop := k ≠ r ∧ ¬ (r = .d ∧ (k = .a ∨ k = .b)) ∧ ¬ (k = .d ∧ (r = .a ∨ r = .b))
    (∃ t, exec (.tfr r1 r2) s = .next { s with
          regs := t, nmiArmed := s.nmiArmed || (decide (r2 = .s) && s.cfg.nmiArmRequired) } ∧
      codeGet r2 t = codeGet r1 g ∧ ∀ k, apart r2 k → codeGet k t = codeGet k g) ∧
    (∃ t, exec (.exg r1 r2) s = .next { s with
          regs := t
          nmiArmed := s.nmiArmed || ((decide (r1 = .s) || decide (r2 = .s)) && s.cfg.nmiArmRequired) } ∧
      codeGet r2 t = codeGet r1 g ∧ codeGet r1 t = codeGet r2 g ∧
      ∀ k, apart r1 k → apart r2 k → codeGet k t = codeGet k g)) ∧
  (∀ (r1 r2 : RegCode) (s : State), r1.wide ≠ r2.wide →
    exec (.tfr r1 r2) s = .next { s with
      status := .faulted (.invalidInstruction s.regs.pc [0x1F, r1.nibble ++ r2.nibble]) } ∧
    exec (.exg r1 r2) s = .next { s with
      status := .faulted (.invalidInstruction s.regs.pc [0x1E, r1.nibble ++ r2.nibble]) })

/-- R14, R120, R362, R364, R93: PSHS and PSHU push the selected registers from bit 7 down to bit 0, PC being the address
of the next instruction, where the bytes pushed take writes. -/
def Obligations.Pushes : Prop :=
  ∀ (pb : Byte) (s : State),
    let g := { s.regs with pc := s.regs.pc + 2 }
    let is := listItems pb g.u g
    let iu := listItems pb g.s g
    (s.Writable (pushWrites g.s is) →
      exec (.pshs pb) s = .next { s.storeAll (pushWrites g.s is) with
        regs := { g with s := g.s - BitVec.ofNat 16 (itemBytes is) } } ∧
      KeepsStorage s (s.storeAll (pushWrites g.s is)) (pushWrites g.s is)) ∧
    (s.Writable (pushWrites g.u iu) →
      exec (.pshu pb) s = .next { s.storeAll (pushWrites g.u iu) with
        regs := { g with u := g.u - BitVec.ofNat 16 (itemBytes iu) } } ∧
      KeepsStorage s (s.storeAll (pushWrites g.u iu)) (pushWrites g.u iu))

/-- R14, R120, R363, R365, R48: PULS and PULU read the selected registers from the lowest address up, CC first and PC
last; PULU with S in its list arms NMI. -/
def Obligations.Pulls : Prop :=
  ∀ (pb : Byte) (s : State),
    let n := pulledAt pb 8
    let rs := s.readBytes s.regs.s n
    let ru := s.readBytes s.regs.u n
    let regs (bs : List Byte) : Regs :=
      { s.regs with
        cc := if pb.getLsbD 0 then bs.getD (pulledAt pb 0) 0 else s.regs.cc
        a := if pb.getLsbD 1 then bs.getD (pulledAt pb 1) 0 else s.regs.a
        b := if pb.getLsbD 2 then bs.getD (pulledAt pb 2) 0 else s.regs.b
        dp := if pb.getLsbD 3 then bs.getD (pulledAt pb 3) 0 else s.regs.dp
        x := if pb.getLsbD 4 then pulledWord bs (pulledAt pb 4) else s.regs.x
        y := if pb.getLsbD 5 then pulledWord bs (pulledAt pb 5) else s.regs.y
        pc := if pb.getLsbD 7 then pulledWord bs (pulledAt pb 7) else s.regs.pc + 2 }
    exec (.puls pb) s = .next { rs.2 with regs := { regs rs.1 with
        s := s.regs.s + BitVec.ofNat 16 n
        u := if pb.getLsbD 6 then pulledWord rs.1 (pulledAt pb 6) else s.regs.u } } ∧
    exec (.pulu pb) s = .next { ru.2 with
      regs := { regs ru.1 with
        u := s.regs.u + BitVec.ofNat 16 n
        s := if pb.getLsbD 6 then pulledWord ru.1 (pulledAt pb 6) else s.regs.s }
      nmiArmed := s.nmiArmed || (pb.getLsbD 6 && s.cfg.nmiArmRequired) } ∧
    OnlyReads s rs.2 ∧ OnlyReads s ru.2 ∧ (∀ a, rs.2.peek a = s.peek a) ∧ ∀ a, ru.2.peek a = s.peek a

/-- R366, R367, R368, R385: ANDCC and ORCC on the eight bits of CC, NOP, and SYNC, which begins the wait. -/
def Obligations.ConditionCodeMasksNopAndSync : Prop :=
  ∀ (ii : Byte) (s : State),
    (∃ cc, exec (.andcc ii) s = .next { s with regs := { s.regs with cc := cc, pc := s.regs.pc + 2 } } ∧
      ∀ k : Flag, ccGet cc k = (ccGet s.regs.cc k && ccGet ii k)) ∧
    (∃ cc, exec (.orcc ii) s = .next { s with regs := { s.regs with cc := cc, pc := s.regs.pc + 2 } } ∧
      ∀ k : Flag, ccGet cc k = (ccGet s.regs.cc k || ccGet ii k)) ∧
    exec .nop s = .next { s with regs := { s.regs with pc := s.regs.pc + 1 } } ∧
    exec .sync s = .next { s with regs := { s.regs with pc := s.regs.pc + 1 }, wait := .sync }

/-! ## Software interrupts, RTI and CWAI -/

/-- R380 to R382, R430: SWI, SWI2 and SWI3, where the frame's addresses take writes: the entire frame on S with E = 1 and
the address of the next instruction, then for SWI alone I and F set, then PC from the vector. -/
def Obligations.SoftwareInterrupts : Prop :=
  ∀ (i : Instr) (vector : Word) (masks : Bool),
    (i, vector, masks) ∈ [(Instr.swi, 0xFFFA#16, true), (Instr.swi2, 0xFFF4#16, false), (Instr.swi3, 0xFFF2#16, false)] →
    ∀ s : State,
      let g := { s.regs with pc := s.regs.pc + BitVec.ofNat 16 i.size, cc := withE true s.regs.cc }
      let ws := pushWrites g.s (entireFrame g)
      let v := (s.storeAll ws).read16 vector
      s.Writable ws →
      ∃ cc, exec i s = .next { v.2 with regs := { g with s := g.s - 12, cc := cc, pc := v.1 } } ∧
        ccGet cc .e = true ∧ ccGet cc .i = (masks || ccGet s.regs.cc .i) ∧ ccGet cc .f = (masks || ccGet s.regs.cc .f) ∧
        OnlyFlags [.e, .i, .f] s.regs.cc cc ∧ KeepsStorage s v.2 ws

/-- R383: RTI pulls CC, then, when the E just pulled is 1, A, B, DP, X, Y and U, then PC. -/
def Obligations.ReturnFromInterrupt : Prop :=
  ∀ s : State,
    let e := ccGet (s.read8 s.regs.s).1 .e
    let rl := s.readBytes s.regs.s 12
    let rs := s.readBytes s.regs.s 3
    (e = true → exec .rti s = .next { rl.2 with regs :=
      { cc := rl.1.getD 0 0, a := rl.1.getD 1 0, b := rl.1.getD 2 0, dp := rl.1.getD 3 0, x := pulledWord rl.1 4,
        y := pulledWord rl.1 6, u := pulledWord rl.1 8, pc := pulledWord rl.1 10, s := s.regs.s + 12 } }) ∧
    (e = false → exec .rti s = .next { rs.2 with regs :=
      { s.regs with cc := rs.1.getD 0 0, pc := pulledWord rs.1 1, s := s.regs.s + 3 } }) ∧
    OnlyReads s rl.2 ∧ OnlyReads s rs.2 ∧ (∀ a, rl.2.peek a = s.peek a) ∧ ∀ a, rs.2.peek a = s.peek a

/-- R384: CWAI clears the CC bits its operand clears, sets E, pushes the entire frame with that CC and the address of the
next instruction, and waits; no vector is read. -/
def Obligations.ClearAndWait : Prop :=
  ∀ (ii : Byte) (s : State),
    let g := { s.regs with pc := s.regs.pc + 2, cc := withE true (s.regs.cc &&& ii) }
    let ws := pushWrites g.s (entireFrame g)
    s.Writable ws →
    exec (.cwai ii) s = .next { s.storeAll ws with regs := { g with s := g.s - 12 }, wait := .cwai } ∧
    KeepsStorage s (s.storeAll ws) ws

/-! ## The serial peripheral -/

/-- R447 to R450: the registers of the serial device by offset, with their side effects. -/
def Obligations.SerialRegisters : Prop :=
  ∀ (d : Serial) (sub v : Byte) (off : Word),
    (∃ sr, d.read sub 0 = (sr, d) ∧ sr.getLsbD 0 = d.rdrf ∧ sr.getLsbD 1 = d.tdre ∧ sr.getLsbD 7 = d.irqOut ∧
      ∀ k, 2 ≤ k → k ≤ 6 → sr.getLsbD k = false) ∧
    d.read sub 1 = (d.rdr, { d with rdrf := false }) ∧
    (2 ≤ off.toNat → d.read sub off = (sub, d) ∧ d.write off v = d) ∧
    (v.toNat % 4 = 3 → d.write 0 v = { d with cr := v, rdrf := false, tdre := true, txPending := false }) ∧
    (v.toNat % 4 ≠ 3 → d.write 0 v = { d with cr := v }) ∧
    d.write 1 v = { d with tdr := v, tdre := false, txPending := true }

/-- R446, R451, R452: the poll, and the interrupt predicate. -/
def Obligations.SerialPollAndInterrupt : Prop :=
  ∀ (d : Serial) (h : HostInput),
    (d.cr.toNat % 4 = 3 → d.poll h = d) ∧
    (d.cr.toNat % 4 ≠ 3 → d.poll h = { d with
      output := if d.txPending then d.output ++ [d.tdr] else d.output
      tdre := d.tdre || d.txPending
      txPending := false
      rdr := if d.rdrf then d.rdr else h.rx.getD d.rdr
      rdrf := d.rdrf || h.rx.isSome }) ∧
    (d.irqOut = true ↔ d.cr.toNat % 4 ≠ 3 ∧
      ((128 ≤ d.cr.toNat ∧ d.rdrf = true) ∨ (d.cr.toNat / 32 % 4 = 1 ∧ d.tdre = true)))

/-! ## Reset, loading and cycles -/

/-- R54, R454, R470: what reset leaves, for every value of the parameters, with no image loaded: every field of the
state. PC is `ENTRY_PC`, or the word read through the bus at $FFFE, wherever its two addresses lead; an unmapped one is
counted. That the configuration, the pure sources' initial states and the host's coming inputs stand in the state is the
model's choice (log entries 10, 4 and 6). -/
def Obligations.ResetLeavesTheseValues : Prop :=
  ∀ (c : Config) (r : ResetValues) (m : Memory) (sources : List PureSource) (inputs : Inbox),
    ∃ s, boot c r m sources inputs [] = some s ∧
      s.regs.dp = 0 ∧ ccGet s.regs.cc .i = true ∧ ccGet s.regs.cc .f = true ∧ s.status = .running ∧ s.wait = .none ∧
      s.nmiPrev = false ∧ s.nmiArmed = !c.nmiArmRequired ∧ s.unmappedWrites = 0 ∧ s.cycles = 0 ∧ s.execCount = [] ∧
      s.mem = m ∧ s.regs.a = r.a ∧ s.regs.b = r.b ∧ s.regs.x = r.x ∧ s.regs.y = r.y ∧ s.regs.u = r.u ∧
      s.regs.s = r.s ∧ ccGet s.regs.cc .e = r.e ∧ ccGet s.regs.cc .h = r.h ∧ ccGet s.regs.cc .n = r.n ∧
      ccGet s.regs.cc .z = r.z ∧ ccGet s.regs.cc .v = r.v ∧ ccGet s.regs.cc .c = r.c ∧
      s.serial = { cr := 0, rdr := 0, tdr := 0, rdrf := false, tdre := true, txPending := false, output := [] } ∧
      s.cfg = c ∧ s.sources = sources ∧ s.inbox = inputs ∧
      (∀ a, c.entryPc = some a → s.regs.pc = a ∧ s.unmappedReads = 0) ∧
      (c.entryPc = none → s.regs.pc = resetVectorByte c m 0xFFFE ++ resetVectorByte c m 0xFFFF ∧
        s.unmappedReads = unmappedVectorReads c)

/-- R472, property T2: after an image is loaded at a base, the last byte of it given for an address is what a read of
that address returns, and a byte of storage that no byte of the image goes to keeps its value. -/
def Obligations.LoadedImagesReadBack : Prop :=
  ∀ (base : Word) (image : List (Word × Byte)) (s t : State), s.mem.wf → loadImage base image s = some t →
    (∀ before after a v, image = before ++ (a, v) :: after → (∀ w ∈ after, Separate s.cfg (base + w.1) (base + a)) →
      t.peek (base + a) = some v) ∧
    (∀ b, (∀ w ∈ image, Separate s.cfg (base + w.1) b) → t.peek b = s.peek b) ∧
    t = { s with mem := t.mem }

/-- R414, R482, R483: the cycle costs that depend on operands or on the state. -/
def Obligations.CycleCosts : Prop :=
  (∀ (r : IndexReg) (n5 : BitVec 5) (n8 : Byte) (n16 : Word) (ind : Bool),
    let extra := if ind then 3 else 0
    indexedCycles (.off5 r n5) = 1 ∧ indexedCycles (.inc1 r) = 2 ∧ indexedCycles (.dec1 r) = 2 ∧
    indexedCycles (.mode (.inc2 r) ind) = 3 + extra ∧ indexedCycles (.mode (.dec2 r) ind) = 3 + extra ∧
    indexedCycles (.mode (.zero r) ind) = 0 + extra ∧ indexedCycles (.mode (.accA r) ind) = 1 + extra ∧
    indexedCycles (.mode (.accB r) ind) = 1 + extra ∧ indexedCycles (.mode (.accD r) ind) = 4 + extra ∧
    indexedCycles (.mode (.off8 r n8) ind) = 1 + extra ∧ indexedCycles (.mode (.off16 r n16) ind) = 4 + extra ∧
    indexedCycles (.mode (.pcr8 n8) ind) = 1 + extra ∧ indexedCycles (.mode (.pcr16 n16) ind) = 5 + extra ∧
    indexedCycles (.absIndirect n16) = 5) ∧
  (∀ row ∈ branchRows.drop 2, ∀ (rr : Byte) (rrrr : Word) (s : State), cost (row.short rr) s = 3 ∧
    (row.takenAt s.regs.cc → cost (row.long rrrr) s = 6) ∧ (¬ row.takenAt s.regs.cc → cost (row.long rrrr) s = 5)) ∧
  (∀ (pb : Byte) (s : State), cost (.pshs pb) s = 5 + pulledAt pb 8 ∧ cost (.puls pb) s = 5 + pulledAt pb 8 ∧
    cost (.pshu pb) s = 5 + pulledAt pb 8 ∧ cost (.pulu pb) s = 5 + pulledAt pb 8) ∧
  (∀ s : State, cost .rti s = if ccGet (s.read8 s.regs.s).1 .e = true then 15 else 6)
end

