-- ==== Sys2Proof/Laws/Memory.lean ====
section
/-! SUPPORT. The laws of storage: a byte written reads back, every other byte reads as before, and every operation
keeps the canonical form. -/

namespace Sys2Proof.Machine

/-- Two bus offsets of one device, or of two devices, have different keys. -/
theorem cellKey_inj {j k : Nat} {a b : Word} : cellKey j a = cellKey k b ↔ j = k ∧ a = b := by
  unfold cellKey
  constructor
  · intro h
    have ha := a.isLt
    have hb := b.isLt
    have hjk : j = k := by omega
    subst hjk
    exact ⟨rfl, BitVec.eq_of_toNat_eq (by omega)⟩
  · rintro ⟨rfl, rfl⟩
    rfl

theorem cellKey_div (k : Nat) (a : Word) : cellKey k a / 65536 = k := by
  unfold cellKey
  have := a.isLt
  omega

theorem cellKey_mod (k : Nat) (a : Word) : cellKey k a % 65536 = a.toNat := by
  unfold cellKey
  have := a.isLt
  omega

/-! ### Reading after writing -/

theorem Memory.read_cons_ne {m : Memory} {k j : Nat} {v : Byte} (h : j ≠ k) :
    Memory.read (Memory.cons k v m) j = Memory.read m j := by
  unfold Memory.cons
  split
  · rfl
  · simp [Memory.read, h]

/-- A write leaves every other byte as it was. -/
theorem Memory.read_write_ne (m : Memory) {k j : Nat} (v : Byte) (h : j ≠ k) :
    Memory.read (Memory.write m k v) j = Memory.read m j := by
  induction m with
  | nil => exact Memory.read_cons_ne h
  | cons c m ih =>
    obtain ⟨k', v'⟩ := c
    simp only [Memory.write]
    split
    · exact Memory.read_cons_ne h
    · split
      · next h1 h2 =>
        rw [Memory.read_cons_ne h]
        simp only [Memory.read]
        rw [if_neg (by omega)]
      · simp only [Memory.read, ih]

/-- A key below every listed key reads as an unlisted one. -/
theorem Memory.read_of_lt {m : Memory} {k : Nat} (h : ∀ c ∈ m, k < c.1) : Memory.read m k = Memory.unlisted := by
  induction m with
  | nil => rfl
  | cons c m ih =>
    simp only [List.mem_cons, forall_eq_or_imp] at h
    obtain ⟨k', v'⟩ := c
    simp only [Memory.read]
    rw [if_neg (by have := h.1; simp only at this; omega), ih h.2]

/-- In a memory in canonical form a byte written reads back. -/
theorem Memory.read_write_same {m : Memory} (hm : m.wf) (k : Nat) (v : Byte) :
    Memory.read (Memory.write m k v) k = v := by
  induction m with
  | nil =>
    simp only [Memory.write, Memory.cons]
    split
    · next h => simp [Memory.read, h]
    · simp [Memory.read]
  | cons c m ih =>
    obtain ⟨k', v'⟩ := c
    obtain ⟨hs, hne⟩ := hm
    rw [List.pairwise_cons] at hs
    simp only [List.mem_cons, forall_eq_or_imp] at hne
    have hwf : Memory.wf m := ⟨hs.2, hne.2⟩
    simp only [Memory.write]
    split
    · next hlt =>
      simp only [Memory.cons]
      split
      · next h =>
        rw [h]
        refine Memory.read_of_lt ?_
        simp only [List.mem_cons, forall_eq_or_imp]
        exact ⟨hlt, fun c hc => by have := hs.1 c hc; simp only at this; omega⟩
      · simp [Memory.read]
    · split
      · next h1 h2 =>
        simp only [Memory.cons]
        split
        · next h => rw [h]; exact Memory.read_of_lt fun c hc => by have := hs.1 c hc; simp only at this; omega
        · simp [Memory.read]
      · next h1 h2 =>
        simp only [Memory.read]
        rw [if_neg h2, ih hwf]

/-! ### The canonical form -/

theorem Memory.mem_cons {m : Memory} {k : Nat} {v : Byte} {c : Host.Cell} (h : c ∈ Memory.cons k v m) :
    c = (k, v) ∨ c ∈ m := by
  unfold Memory.cons at h
  split at h
  · exact .inr h
  · simpa using h

/-- Every cell of a written memory is the written one or was there. -/
theorem Memory.mem_write {m : Memory} {k : Nat} {v : Byte} {c : Host.Cell} (h : c ∈ Memory.write m k v) :
    c = (k, v) ∨ c ∈ m := by
  induction m with
  | nil => exact Memory.mem_cons h
  | cons d m ih =>
    obtain ⟨k', v'⟩ := d
    simp only [Memory.write] at h
    split at h
    · exact Memory.mem_cons h
    · split at h
      · rcases Memory.mem_cons h with h | h
        · exact .inl h
        · exact .inr (List.mem_cons_of_mem _ h)
      · rcases List.mem_cons.1 h with h | h
        · exact .inr (by simp [h])
        · rcases ih h with h | h
          · exact .inl h
          · exact .inr (List.mem_cons_of_mem _ h)

theorem Memory.wf_cons {m : Memory} {k : Nat} {v : Byte} (hm : m.wf) (hk : ∀ c ∈ m, k < c.1) :
    (Memory.cons k v m).wf := by
  unfold Memory.cons
  split
  · exact hm
  · next h =>
    refine ⟨List.pairwise_cons.2 ⟨hk, hm.1⟩, ?_⟩
    simp only [List.mem_cons, forall_eq_or_imp]
    exact ⟨h, hm.2⟩

/-- A write keeps the canonical form. -/
theorem Memory.wf_write {m : Memory} (hm : m.wf) (k : Nat) (v : Byte) : (Memory.write m k v).wf := by
  induction m with
  | nil => exact Memory.wf_cons hm (by simp)
  | cons d m ih =>
    obtain ⟨k', v'⟩ := d
    have hm' := hm
    obtain ⟨hs, hne⟩ := hm
    rw [List.pairwise_cons] at hs
    simp only [List.mem_cons, forall_eq_or_imp] at hne
    have hwf : Memory.wf m := ⟨hs.2, hne.2⟩
    simp only [Memory.write]
    split
    · next hlt =>
      refine Memory.wf_cons hm' ?_
      simp only [List.mem_cons, forall_eq_or_imp]
      exact ⟨hlt, fun c hc => by have := hs.1 c hc; simp only at this; omega⟩
    · split
      · next h1 h2 => exact Memory.wf_cons hwf fun c hc => by have := hs.1 c hc; simp only at this; omega
      · next h1 h2 =>
        refine ⟨List.pairwise_cons.2 ⟨fun c hc => ?_, (ih hwf).1⟩, ?_⟩
        · rcases Memory.mem_write hc with h | h
          · subst h; simp only; omega
          · exact hs.1 c h
        · simp only [List.mem_cons, forall_eq_or_imp]
          exact ⟨hne.1, (ih hwf).2⟩

/-- The memory right after reset is in canonical form. -/
theorem State.reset_mem_wf : State.reset.mem.wf := by
  simp [State.reset, Memory.wf]

/-! ### Execution counts -/

theorem mem_bumpCount {l : List (Nat × Nat)} {a : Nat} {c : Nat × Nat} (h : c ∈ bumpCount l a) :
    (c.1 = a ∧ c.2 ≠ 0) ∨ c ∈ l := by
  induction l with
  | nil => simp only [bumpCount, List.mem_singleton] at h; subst h; simp
  | cons d l ih =>
    obtain ⟨a', n⟩ := d
    simp only [bumpCount] at h
    split at h
    · rcases List.mem_cons.1 h with h | h
      · subst h; simp
      · exact .inr h
    · split at h
      · rcases List.mem_cons.1 h with h | h
        · subst h; next h2 => simp [h2]
        · exact .inr (List.mem_cons_of_mem _ h)
      · rcases List.mem_cons.1 h with h | h
        · exact .inr (by simp [h])
        · rcases ih h with h | h
          · exact .inl h
          · exact .inr (List.mem_cons_of_mem _ h)

/-- Counting keeps the addresses rising. -/
theorem bumpCount_pairwise {l : List (Nat × Nat)} (h : l.Pairwise fun c d => c.1 < d.1) (a : Nat) :
    (bumpCount l a).Pairwise fun c d => c.1 < d.1 := by
  induction l with
  | nil => simp [bumpCount]
  | cons d l ih =>
    obtain ⟨a', n⟩ := d
    have h' := h
    rw [List.pairwise_cons] at h
    simp only [bumpCount]
    split
    · next hlt =>
      refine List.pairwise_cons.2 ⟨?_, h'⟩
      simp only [List.mem_cons, forall_eq_or_imp]
      exact ⟨hlt, fun c hc => by have := h.1 c hc; simp only at this; omega⟩
    · split
      · exact List.pairwise_cons.2 ⟨h.1, h.2⟩
      · next h1 h2 =>
        refine List.pairwise_cons.2 ⟨fun c hc => ?_, ih h.2⟩
        rcases mem_bumpCount hc with hc | hc
        · simp only; omega
        · exact h.1 c hc

theorem countAt_cons (k c : Nat) (l : List (Nat × Nat)) (b : Nat) :
    countAt ((k, c) :: l) b = (if b = k then c else 0) + countAt l b := by
  by_cases h : b = k
  · simp [countAt, h]
  · simp [countAt, h, Ne.symm h]

/-- Counting adds 1 to the count of its address and nothing to any other (R52, R412). -/
theorem countAt_bumpCount (l : List (Nat × Nat)) (a b : Nat) :
    countAt (bumpCount l a) b = countAt l b + if b = a then 1 else 0 := by
  induction l with
  | nil => rw [bumpCount, countAt_cons, Nat.add_comm]
  | cons d l ih =>
    obtain ⟨a', n⟩ := d
    simp only [bumpCount]
    split
    · rw [countAt_cons, Nat.add_comm]
    · split
      · next h =>
        subst h
        simp only [countAt_cons]
        split <;> omega
      · rw [countAt_cons, countAt_cons, ih, Nat.add_assoc]

end Sys2Proof.Machine
end

