-- ==== Sys2Proof/Laws/State.lean ====
section
/-! SUPPORT. What each register update of Machine/Ops.lean does to each field of the state, one lemma a field, true by
definition: no later proof unfolds a record update. -/

namespace Sys2Proof.Machine

/-! ### `setA` -/

@[simp] theorem State.setA_regs (s : State) (v : Byte) : (s.setA v).regs = { s.regs with a := v } := rfl
@[simp] theorem State.setA_cfg (s : State) (v : Byte) : (s.setA v).cfg = s.cfg := rfl
@[simp] theorem State.setA_status (s : State) (v : Byte) : (s.setA v).status = s.status := rfl
@[simp] theorem State.setA_wait (s : State) (v : Byte) : (s.setA v).wait = s.wait := rfl
@[simp] theorem State.setA_nmiPrev (s : State) (v : Byte) : (s.setA v).nmiPrev = s.nmiPrev := rfl
@[simp] theorem State.setA_nmiArmed (s : State) (v : Byte) : (s.setA v).nmiArmed = s.nmiArmed := rfl
@[simp] theorem State.setA_unmappedReads (s : State) (v : Byte) : (s.setA v).unmappedReads = s.unmappedReads := rfl
@[simp] theorem State.setA_unmappedWrites (s : State) (v : Byte) : (s.setA v).unmappedWrites = s.unmappedWrites := rfl
@[simp] theorem State.setA_cycles (s : State) (v : Byte) : (s.setA v).cycles = s.cycles := rfl
@[simp] theorem State.setA_execCount (s : State) (v : Byte) : (s.setA v).execCount = s.execCount := rfl
@[simp] theorem State.setA_mem (s : State) (v : Byte) : (s.setA v).mem = s.mem := rfl
@[simp] theorem State.setA_serial (s : State) (v : Byte) : (s.setA v).serial = s.serial := rfl
@[simp] theorem State.setA_sources (s : State) (v : Byte) : (s.setA v).sources = s.sources := rfl
@[simp] theorem State.setA_inbox (s : State) (v : Byte) : (s.setA v).inbox = s.inbox := rfl

/-! ### `setB` -/

@[simp] theorem State.setB_regs (s : State) (v : Byte) : (s.setB v).regs = { s.regs with b := v } := rfl
@[simp] theorem State.setB_cfg (s : State) (v : Byte) : (s.setB v).cfg = s.cfg := rfl
@[simp] theorem State.setB_status (s : State) (v : Byte) : (s.setB v).status = s.status := rfl
@[simp] theorem State.setB_wait (s : State) (v : Byte) : (s.setB v).wait = s.wait := rfl
@[simp] theorem State.setB_nmiPrev (s : State) (v : Byte) : (s.setB v).nmiPrev = s.nmiPrev := rfl
@[simp] theorem State.setB_nmiArmed (s : State) (v : Byte) : (s.setB v).nmiArmed = s.nmiArmed := rfl
@[simp] theorem State.setB_unmappedReads (s : State) (v : Byte) : (s.setB v).unmappedReads = s.unmappedReads := rfl
@[simp] theorem State.setB_unmappedWrites (s : State) (v : Byte) : (s.setB v).unmappedWrites = s.unmappedWrites := rfl
@[simp] theorem State.setB_cycles (s : State) (v : Byte) : (s.setB v).cycles = s.cycles := rfl
@[simp] theorem State.setB_execCount (s : State) (v : Byte) : (s.setB v).execCount = s.execCount := rfl
@[simp] theorem State.setB_mem (s : State) (v : Byte) : (s.setB v).mem = s.mem := rfl
@[simp] theorem State.setB_serial (s : State) (v : Byte) : (s.setB v).serial = s.serial := rfl
@[simp] theorem State.setB_sources (s : State) (v : Byte) : (s.setB v).sources = s.sources := rfl
@[simp] theorem State.setB_inbox (s : State) (v : Byte) : (s.setB v).inbox = s.inbox := rfl

/-! ### `setDp` -/

@[simp] theorem State.setDp_regs (s : State) (v : Byte) : (s.setDp v).regs = { s.regs with dp := v } := rfl
@[simp] theorem State.setDp_cfg (s : State) (v : Byte) : (s.setDp v).cfg = s.cfg := rfl
@[simp] theorem State.setDp_status (s : State) (v : Byte) : (s.setDp v).status = s.status := rfl
@[simp] theorem State.setDp_wait (s : State) (v : Byte) : (s.setDp v).wait = s.wait := rfl
@[simp] theorem State.setDp_nmiPrev (s : State) (v : Byte) : (s.setDp v).nmiPrev = s.nmiPrev := rfl
@[simp] theorem State.setDp_nmiArmed (s : State) (v : Byte) : (s.setDp v).nmiArmed = s.nmiArmed := rfl
@[simp] theorem State.setDp_unmappedReads (s : State) (v : Byte) : (s.setDp v).unmappedReads = s.unmappedReads := rfl
@[simp] theorem State.setDp_unmappedWrites (s : State) (v : Byte) : (s.setDp v).unmappedWrites = s.unmappedWrites := rfl
@[simp] theorem State.setDp_cycles (s : State) (v : Byte) : (s.setDp v).cycles = s.cycles := rfl
@[simp] theorem State.setDp_execCount (s : State) (v : Byte) : (s.setDp v).execCount = s.execCount := rfl
@[simp] theorem State.setDp_mem (s : State) (v : Byte) : (s.setDp v).mem = s.mem := rfl
@[simp] theorem State.setDp_serial (s : State) (v : Byte) : (s.setDp v).serial = s.serial := rfl
@[simp] theorem State.setDp_sources (s : State) (v : Byte) : (s.setDp v).sources = s.sources := rfl
@[simp] theorem State.setDp_inbox (s : State) (v : Byte) : (s.setDp v).inbox = s.inbox := rfl

/-! ### `setCc` -/

@[simp] theorem State.setCc_regs (s : State) (v : Byte) : (s.setCc v).regs = { s.regs with cc := v } := rfl
@[simp] theorem State.setCc_cfg (s : State) (v : Byte) : (s.setCc v).cfg = s.cfg := rfl
@[simp] theorem State.setCc_status (s : State) (v : Byte) : (s.setCc v).status = s.status := rfl
@[simp] theorem State.setCc_wait (s : State) (v : Byte) : (s.setCc v).wait = s.wait := rfl
@[simp] theorem State.setCc_nmiPrev (s : State) (v : Byte) : (s.setCc v).nmiPrev = s.nmiPrev := rfl
@[simp] theorem State.setCc_nmiArmed (s : State) (v : Byte) : (s.setCc v).nmiArmed = s.nmiArmed := rfl
@[simp] theorem State.setCc_unmappedReads (s : State) (v : Byte) : (s.setCc v).unmappedReads = s.unmappedReads := rfl
@[simp] theorem State.setCc_unmappedWrites (s : State) (v : Byte) : (s.setCc v).unmappedWrites = s.unmappedWrites := rfl
@[simp] theorem State.setCc_cycles (s : State) (v : Byte) : (s.setCc v).cycles = s.cycles := rfl
@[simp] theorem State.setCc_execCount (s : State) (v : Byte) : (s.setCc v).execCount = s.execCount := rfl
@[simp] theorem State.setCc_mem (s : State) (v : Byte) : (s.setCc v).mem = s.mem := rfl
@[simp] theorem State.setCc_serial (s : State) (v : Byte) : (s.setCc v).serial = s.serial := rfl
@[simp] theorem State.setCc_sources (s : State) (v : Byte) : (s.setCc v).sources = s.sources := rfl
@[simp] theorem State.setCc_inbox (s : State) (v : Byte) : (s.setCc v).inbox = s.inbox := rfl

/-! ### `setX` -/

@[simp] theorem State.setX_regs (s : State) (v : Word) : (s.setX v).regs = { s.regs with x := v } := rfl
@[simp] theorem State.setX_cfg (s : State) (v : Word) : (s.setX v).cfg = s.cfg := rfl
@[simp] theorem State.setX_status (s : State) (v : Word) : (s.setX v).status = s.status := rfl
@[simp] theorem State.setX_wait (s : State) (v : Word) : (s.setX v).wait = s.wait := rfl
@[simp] theorem State.setX_nmiPrev (s : State) (v : Word) : (s.setX v).nmiPrev = s.nmiPrev := rfl
@[simp] theorem State.setX_nmiArmed (s : State) (v : Word) : (s.setX v).nmiArmed = s.nmiArmed := rfl
@[simp] theorem State.setX_unmappedReads (s : State) (v : Word) : (s.setX v).unmappedReads = s.unmappedReads := rfl
@[simp] theorem State.setX_unmappedWrites (s : State) (v : Word) : (s.setX v).unmappedWrites = s.unmappedWrites := rfl
@[simp] theorem State.setX_cycles (s : State) (v : Word) : (s.setX v).cycles = s.cycles := rfl
@[simp] theorem State.setX_execCount (s : State) (v : Word) : (s.setX v).execCount = s.execCount := rfl
@[simp] theorem State.setX_mem (s : State) (v : Word) : (s.setX v).mem = s.mem := rfl
@[simp] theorem State.setX_serial (s : State) (v : Word) : (s.setX v).serial = s.serial := rfl
@[simp] theorem State.setX_sources (s : State) (v : Word) : (s.setX v).sources = s.sources := rfl
@[simp] theorem State.setX_inbox (s : State) (v : Word) : (s.setX v).inbox = s.inbox := rfl

/-! ### `setY` -/

@[simp] theorem State.setY_regs (s : State) (v : Word) : (s.setY v).regs = { s.regs with y := v } := rfl
@[simp] theorem State.setY_cfg (s : State) (v : Word) : (s.setY v).cfg = s.cfg := rfl
@[simp] theorem State.setY_status (s : State) (v : Word) : (s.setY v).status = s.status := rfl
@[simp] theorem State.setY_wait (s : State) (v : Word) : (s.setY v).wait = s.wait := rfl
@[simp] theorem State.setY_nmiPrev (s : State) (v : Word) : (s.setY v).nmiPrev = s.nmiPrev := rfl
@[simp] theorem State.setY_nmiArmed (s : State) (v : Word) : (s.setY v).nmiArmed = s.nmiArmed := rfl
@[simp] theorem State.setY_unmappedReads (s : State) (v : Word) : (s.setY v).unmappedReads = s.unmappedReads := rfl
@[simp] theorem State.setY_unmappedWrites (s : State) (v : Word) : (s.setY v).unmappedWrites = s.unmappedWrites := rfl
@[simp] theorem State.setY_cycles (s : State) (v : Word) : (s.setY v).cycles = s.cycles := rfl
@[simp] theorem State.setY_execCount (s : State) (v : Word) : (s.setY v).execCount = s.execCount := rfl
@[simp] theorem State.setY_mem (s : State) (v : Word) : (s.setY v).mem = s.mem := rfl
@[simp] theorem State.setY_serial (s : State) (v : Word) : (s.setY v).serial = s.serial := rfl
@[simp] theorem State.setY_sources (s : State) (v : Word) : (s.setY v).sources = s.sources := rfl
@[simp] theorem State.setY_inbox (s : State) (v : Word) : (s.setY v).inbox = s.inbox := rfl

/-! ### `setU` -/

@[simp] theorem State.setU_regs (s : State) (v : Word) : (s.setU v).regs = { s.regs with u := v } := rfl
@[simp] theorem State.setU_cfg (s : State) (v : Word) : (s.setU v).cfg = s.cfg := rfl
@[simp] theorem State.setU_status (s : State) (v : Word) : (s.setU v).status = s.status := rfl
@[simp] theorem State.setU_wait (s : State) (v : Word) : (s.setU v).wait = s.wait := rfl
@[simp] theorem State.setU_nmiPrev (s : State) (v : Word) : (s.setU v).nmiPrev = s.nmiPrev := rfl
@[simp] theorem State.setU_nmiArmed (s : State) (v : Word) : (s.setU v).nmiArmed = s.nmiArmed := rfl
@[simp] theorem State.setU_unmappedReads (s : State) (v : Word) : (s.setU v).unmappedReads = s.unmappedReads := rfl
@[simp] theorem State.setU_unmappedWrites (s : State) (v : Word) : (s.setU v).unmappedWrites = s.unmappedWrites := rfl
@[simp] theorem State.setU_cycles (s : State) (v : Word) : (s.setU v).cycles = s.cycles := rfl
@[simp] theorem State.setU_execCount (s : State) (v : Word) : (s.setU v).execCount = s.execCount := rfl
@[simp] theorem State.setU_mem (s : State) (v : Word) : (s.setU v).mem = s.mem := rfl
@[simp] theorem State.setU_serial (s : State) (v : Word) : (s.setU v).serial = s.serial := rfl
@[simp] theorem State.setU_sources (s : State) (v : Word) : (s.setU v).sources = s.sources := rfl
@[simp] theorem State.setU_inbox (s : State) (v : Word) : (s.setU v).inbox = s.inbox := rfl

/-! ### `setS` -/

@[simp] theorem State.setS_regs (s : State) (v : Word) : (s.setS v).regs = { s.regs with s := v } := rfl
@[simp] theorem State.setS_cfg (s : State) (v : Word) : (s.setS v).cfg = s.cfg := rfl
@[simp] theorem State.setS_status (s : State) (v : Word) : (s.setS v).status = s.status := rfl
@[simp] theorem State.setS_wait (s : State) (v : Word) : (s.setS v).wait = s.wait := rfl
@[simp] theorem State.setS_nmiPrev (s : State) (v : Word) : (s.setS v).nmiPrev = s.nmiPrev := rfl
@[simp] theorem State.setS_nmiArmed (s : State) (v : Word) : (s.setS v).nmiArmed = s.nmiArmed := rfl
@[simp] theorem State.setS_unmappedReads (s : State) (v : Word) : (s.setS v).unmappedReads = s.unmappedReads := rfl
@[simp] theorem State.setS_unmappedWrites (s : State) (v : Word) : (s.setS v).unmappedWrites = s.unmappedWrites := rfl
@[simp] theorem State.setS_cycles (s : State) (v : Word) : (s.setS v).cycles = s.cycles := rfl
@[simp] theorem State.setS_execCount (s : State) (v : Word) : (s.setS v).execCount = s.execCount := rfl
@[simp] theorem State.setS_mem (s : State) (v : Word) : (s.setS v).mem = s.mem := rfl
@[simp] theorem State.setS_serial (s : State) (v : Word) : (s.setS v).serial = s.serial := rfl
@[simp] theorem State.setS_sources (s : State) (v : Word) : (s.setS v).sources = s.sources := rfl
@[simp] theorem State.setS_inbox (s : State) (v : Word) : (s.setS v).inbox = s.inbox := rfl

/-! ### `setPc` -/

@[simp] theorem State.setPc_regs (s : State) (v : Word) : (s.setPc v).regs = { s.regs with pc := v } := rfl
@[simp] theorem State.setPc_cfg (s : State) (v : Word) : (s.setPc v).cfg = s.cfg := rfl
@[simp] theorem State.setPc_status (s : State) (v : Word) : (s.setPc v).status = s.status := rfl
@[simp] theorem State.setPc_wait (s : State) (v : Word) : (s.setPc v).wait = s.wait := rfl
@[simp] theorem State.setPc_nmiPrev (s : State) (v : Word) : (s.setPc v).nmiPrev = s.nmiPrev := rfl
@[simp] theorem State.setPc_nmiArmed (s : State) (v : Word) : (s.setPc v).nmiArmed = s.nmiArmed := rfl
@[simp] theorem State.setPc_unmappedReads (s : State) (v : Word) : (s.setPc v).unmappedReads = s.unmappedReads := rfl
@[simp] theorem State.setPc_unmappedWrites (s : State) (v : Word) : (s.setPc v).unmappedWrites = s.unmappedWrites := rfl
@[simp] theorem State.setPc_cycles (s : State) (v : Word) : (s.setPc v).cycles = s.cycles := rfl
@[simp] theorem State.setPc_execCount (s : State) (v : Word) : (s.setPc v).execCount = s.execCount := rfl
@[simp] theorem State.setPc_mem (s : State) (v : Word) : (s.setPc v).mem = s.mem := rfl
@[simp] theorem State.setPc_serial (s : State) (v : Word) : (s.setPc v).serial = s.serial := rfl
@[simp] theorem State.setPc_sources (s : State) (v : Word) : (s.setPc v).sources = s.sources := rfl
@[simp] theorem State.setPc_inbox (s : State) (v : Word) : (s.setPc v).inbox = s.inbox := rfl

/-! ### `setD` -/

@[simp] theorem State.setD_regs (s : State) (v : Word) : (s.setD v).regs = { s.regs with a := hiByte v, b := loByte v } := rfl
@[simp] theorem State.setD_cfg (s : State) (v : Word) : (s.setD v).cfg = s.cfg := rfl
@[simp] theorem State.setD_status (s : State) (v : Word) : (s.setD v).status = s.status := rfl
@[simp] theorem State.setD_wait (s : State) (v : Word) : (s.setD v).wait = s.wait := rfl
@[simp] theorem State.setD_nmiPrev (s : State) (v : Word) : (s.setD v).nmiPrev = s.nmiPrev := rfl
@[simp] theorem State.setD_nmiArmed (s : State) (v : Word) : (s.setD v).nmiArmed = s.nmiArmed := rfl
@[simp] theorem State.setD_unmappedReads (s : State) (v : Word) : (s.setD v).unmappedReads = s.unmappedReads := rfl
@[simp] theorem State.setD_unmappedWrites (s : State) (v : Word) : (s.setD v).unmappedWrites = s.unmappedWrites := rfl
@[simp] theorem State.setD_cycles (s : State) (v : Word) : (s.setD v).cycles = s.cycles := rfl
@[simp] theorem State.setD_execCount (s : State) (v : Word) : (s.setD v).execCount = s.execCount := rfl
@[simp] theorem State.setD_mem (s : State) (v : Word) : (s.setD v).mem = s.mem := rfl
@[simp] theorem State.setD_serial (s : State) (v : Word) : (s.setD v).serial = s.serial := rfl
@[simp] theorem State.setD_sources (s : State) (v : Word) : (s.setD v).sources = s.sources := rfl
@[simp] theorem State.setD_inbox (s : State) (v : Word) : (s.setD v).inbox = s.inbox := rfl

/-! ### `loadS` -/

@[simp] theorem State.loadS_regs (s : State) (v : Word) : (s.loadS v).regs = { s.regs with s := v } := rfl
@[simp] theorem State.loadS_cfg (s : State) (v : Word) : (s.loadS v).cfg = s.cfg := rfl
@[simp] theorem State.loadS_status (s : State) (v : Word) : (s.loadS v).status = s.status := rfl
@[simp] theorem State.loadS_wait (s : State) (v : Word) : (s.loadS v).wait = s.wait := rfl
@[simp] theorem State.loadS_nmiPrev (s : State) (v : Word) : (s.loadS v).nmiPrev = s.nmiPrev := rfl
@[simp] theorem State.loadS_nmiArmed (s : State) (v : Word) : (s.loadS v).nmiArmed = (s.nmiArmed || s.cfg.nmiArmRequired) := rfl
@[simp] theorem State.loadS_unmappedReads (s : State) (v : Word) : (s.loadS v).unmappedReads = s.unmappedReads := rfl
@[simp] theorem State.loadS_unmappedWrites (s : State) (v : Word) : (s.loadS v).unmappedWrites = s.unmappedWrites := rfl
@[simp] theorem State.loadS_cycles (s : State) (v : Word) : (s.loadS v).cycles = s.cycles := rfl
@[simp] theorem State.loadS_execCount (s : State) (v : Word) : (s.loadS v).execCount = s.execCount := rfl
@[simp] theorem State.loadS_mem (s : State) (v : Word) : (s.loadS v).mem = s.mem := rfl
@[simp] theorem State.loadS_serial (s : State) (v : Word) : (s.loadS v).serial = s.serial := rfl
@[simp] theorem State.loadS_sources (s : State) (v : Word) : (s.loadS v).sources = s.sources := rfl
@[simp] theorem State.loadS_inbox (s : State) (v : Word) : (s.loadS v).inbox = s.inbox := rfl

/-! ### `armNmi` -/

@[simp] theorem State.armNmi_regs (s : State) : (s.armNmi).regs = s.regs := rfl
@[simp] theorem State.armNmi_cfg (s : State) : (s.armNmi).cfg = s.cfg := rfl
@[simp] theorem State.armNmi_status (s : State) : (s.armNmi).status = s.status := rfl
@[simp] theorem State.armNmi_wait (s : State) : (s.armNmi).wait = s.wait := rfl
@[simp] theorem State.armNmi_nmiPrev (s : State) : (s.armNmi).nmiPrev = s.nmiPrev := rfl
@[simp] theorem State.armNmi_nmiArmed (s : State) : (s.armNmi).nmiArmed = (s.nmiArmed || s.cfg.nmiArmRequired) := rfl
@[simp] theorem State.armNmi_unmappedReads (s : State) : (s.armNmi).unmappedReads = s.unmappedReads := rfl
@[simp] theorem State.armNmi_unmappedWrites (s : State) : (s.armNmi).unmappedWrites = s.unmappedWrites := rfl
@[simp] theorem State.armNmi_cycles (s : State) : (s.armNmi).cycles = s.cycles := rfl
@[simp] theorem State.armNmi_execCount (s : State) : (s.armNmi).execCount = s.execCount := rfl
@[simp] theorem State.armNmi_mem (s : State) : (s.armNmi).mem = s.mem := rfl
@[simp] theorem State.armNmi_serial (s : State) : (s.armNmi).serial = s.serial := rfl
@[simp] theorem State.armNmi_sources (s : State) : (s.armNmi).sources = s.sources := rfl
@[simp] theorem State.armNmi_inbox (s : State) : (s.armNmi).inbox = s.inbox := rfl

/-! ### `advance` -/

@[simp] theorem State.advance_regs (s : State) (n : Nat) : (s.advance n).regs = { s.regs with pc := s.regs.pc + BitVec.ofNat 16 n } := rfl
@[simp] theorem State.advance_cfg (s : State) (n : Nat) : (s.advance n).cfg = s.cfg := rfl
@[simp] theorem State.advance_status (s : State) (n : Nat) : (s.advance n).status = s.status := rfl
@[simp] theorem State.advance_wait (s : State) (n : Nat) : (s.advance n).wait = s.wait := rfl
@[simp] theorem State.advance_nmiPrev (s : State) (n : Nat) : (s.advance n).nmiPrev = s.nmiPrev := rfl
@[simp] theorem State.advance_nmiArmed (s : State) (n : Nat) : (s.advance n).nmiArmed = s.nmiArmed := rfl
@[simp] theorem State.advance_unmappedReads (s : State) (n : Nat) : (s.advance n).unmappedReads = s.unmappedReads := rfl
@[simp] theorem State.advance_unmappedWrites (s : State) (n : Nat) : (s.advance n).unmappedWrites = s.unmappedWrites := rfl
@[simp] theorem State.advance_cycles (s : State) (n : Nat) : (s.advance n).cycles = s.cycles := rfl
@[simp] theorem State.advance_execCount (s : State) (n : Nat) : (s.advance n).execCount = s.execCount := rfl
@[simp] theorem State.advance_mem (s : State) (n : Nat) : (s.advance n).mem = s.mem := rfl
@[simp] theorem State.advance_serial (s : State) (n : Nat) : (s.advance n).serial = s.serial := rfl
@[simp] theorem State.advance_sources (s : State) (n : Nat) : (s.advance n).sources = s.sources := rfl
@[simp] theorem State.advance_inbox (s : State) (n : Nat) : (s.advance n).inbox = s.inbox := rfl

/-! ### `setFlag` -/

@[simp] theorem State.setFlag_regs (s : State) (k : Flag) (b : Bool) : (s.setFlag k b).regs = { s.regs with cc := ccSet s.regs.cc k b } := rfl
@[simp] theorem State.setFlag_cfg (s : State) (k : Flag) (b : Bool) : (s.setFlag k b).cfg = s.cfg := rfl
@[simp] theorem State.setFlag_status (s : State) (k : Flag) (b : Bool) : (s.setFlag k b).status = s.status := rfl
@[simp] theorem State.setFlag_wait (s : State) (k : Flag) (b : Bool) : (s.setFlag k b).wait = s.wait := rfl
@[simp] theorem State.setFlag_nmiPrev (s : State) (k : Flag) (b : Bool) : (s.setFlag k b).nmiPrev = s.nmiPrev := rfl
@[simp] theorem State.setFlag_nmiArmed (s : State) (k : Flag) (b : Bool) : (s.setFlag k b).nmiArmed = s.nmiArmed := rfl
@[simp] theorem State.setFlag_unmappedReads (s : State) (k : Flag) (b : Bool) : (s.setFlag k b).unmappedReads = s.unmappedReads := rfl
@[simp] theorem State.setFlag_unmappedWrites (s : State) (k : Flag) (b : Bool) : (s.setFlag k b).unmappedWrites = s.unmappedWrites := rfl
@[simp] theorem State.setFlag_cycles (s : State) (k : Flag) (b : Bool) : (s.setFlag k b).cycles = s.cycles := rfl
@[simp] theorem State.setFlag_execCount (s : State) (k : Flag) (b : Bool) : (s.setFlag k b).execCount = s.execCount := rfl
@[simp] theorem State.setFlag_mem (s : State) (k : Flag) (b : Bool) : (s.setFlag k b).mem = s.mem := rfl
@[simp] theorem State.setFlag_serial (s : State) (k : Flag) (b : Bool) : (s.setFlag k b).serial = s.serial := rfl
@[simp] theorem State.setFlag_sources (s : State) (k : Flag) (b : Bool) : (s.setFlag k b).sources = s.sources := rfl
@[simp] theorem State.setFlag_inbox (s : State) (k : Flag) (b : Bool) : (s.setFlag k b).inbox = s.inbox := rfl

/-! ### Updates that take a register as operand -/

@[simp] theorem Acc.set_a (s : State) (v : Byte) : Acc.set .a s v = s.setA v := rfl
@[simp] theorem Acc.set_b (s : State) (v : Byte) : Acc.set .b s v = s.setB v := rfl
@[simp] theorem Acc.get_a (r : Regs) : Acc.get .a r = r.a := rfl
@[simp] theorem Acc.get_b (r : Regs) : Acc.get .b r = r.b := rfl
@[simp] theorem Stack.set_s (s : State) (v : Word) : Stack.set .s s v = s.setS v := rfl
@[simp] theorem Stack.set_u (s : State) (v : Word) : Stack.set .u s v = s.setU v := rfl
@[simp] theorem Stack.get_s (r : Regs) : Stack.get .s r = r.s := rfl
@[simp] theorem Stack.get_u (r : Regs) : Stack.get .u r = r.u := rfl
@[simp] theorem Reg16.get_d (r : Regs) : Reg16.get .d r = r.d := rfl
@[simp] theorem Reg16.get_x (r : Regs) : Reg16.get .x r = r.x := rfl
@[simp] theorem Reg16.get_y (r : Regs) : Reg16.get .y r = r.y := rfl
@[simp] theorem Reg16.get_u (r : Regs) : Reg16.get .u r = r.u := rfl
@[simp] theorem Reg16.get_s (r : Regs) : Reg16.get .s r = r.s := rfl
@[simp] theorem Reg16.load_d (s : State) (v : Word) : Reg16.load .d s v = s.setD v := rfl
@[simp] theorem Reg16.load_x (s : State) (v : Word) : Reg16.load .x s v = s.setX v := rfl
@[simp] theorem Reg16.load_y (s : State) (v : Word) : Reg16.load .y s v = s.setY v := rfl
@[simp] theorem Reg16.load_u (s : State) (v : Word) : Reg16.load .u s v = s.setU v := rfl
@[simp] theorem Reg16.load_s (s : State) (v : Word) : Reg16.load .s s v = s.loadS v := rfl

/-- D written and read back is the word written (R32). -/
@[simp] theorem Regs.d_setD (s : State) (v : Word) : (s.setD v).regs.d = v := by
  simp only [State.setD_regs, Regs.d, wordOf, hiByte, loByte]
  ext i hi
  simp only [BitVec.getElem_append, BitVec.getElem_extractLsb']
  split
  · rename_i h
    simp [BitVec.getLsbD_eq_getElem hi]
  · rename_i h
    have : 8 + (i - 8) = i := by omega
    simp [this, BitVec.getLsbD_eq_getElem hi]

end Sys2Proof.Machine
end

