-- ==== Sys2Proof/Laws/Bus.lean ====
section
/-! SUPPORT. What one bus access can do: a read (`read8_onlyReads`), a write (`store8_spec`, `write8_of_not_romFaults`,
`write8_of_romFaults`), sequences of them, and how they commute with updates of the registers. -/

namespace Sys2Proof.Machine

/-! ### What reads may change -/

theorem OnlyReads.refl (s : State) : OnlyReads s s := ⟨rfl, id, le_rfl⟩

theorem OnlyReads.trans {s t u : State} (h : OnlyReads s t) (h' : OnlyReads t u) : OnlyReads s u := by
  obtain ⟨h1, h2, h3⟩ := h
  obtain ⟨k1, k2, k3⟩ := h'
  refine ⟨?_, fun hu => h2 (k2 hu), h3.trans k3⟩
  rw [k1, h1]

theorem OnlyReads.regs {s t : State} (h : OnlyReads s t) : t.regs = s.regs := by rw [h.1]
theorem OnlyReads.cfg {s t : State} (h : OnlyReads s t) : t.cfg = s.cfg := by rw [h.1]
theorem OnlyReads.status {s t : State} (h : OnlyReads s t) : t.status = s.status := by rw [h.1]
theorem OnlyReads.wait {s t : State} (h : OnlyReads s t) : t.wait = s.wait := by rw [h.1]
theorem OnlyReads.nmiPrev {s t : State} (h : OnlyReads s t) : t.nmiPrev = s.nmiPrev := by rw [h.1]
theorem OnlyReads.nmiArmed {s t : State} (h : OnlyReads s t) : t.nmiArmed = s.nmiArmed := by rw [h.1]
theorem OnlyReads.unmappedWrites {s t : State} (h : OnlyReads s t) : t.unmappedWrites = s.unmappedWrites := by rw [h.1]
theorem OnlyReads.cycles {s t : State} (h : OnlyReads s t) : t.cycles = s.cycles := by rw [h.1]
theorem OnlyReads.execCount {s t : State} (h : OnlyReads s t) : t.execCount = s.execCount := by rw [h.1]
theorem OnlyReads.mem {s t : State} (h : OnlyReads s t) : t.mem = s.mem := by rw [h.1]
theorem OnlyReads.sources {s t : State} (h : OnlyReads s t) : t.sources = s.sources := by rw [h.1]
theorem OnlyReads.inbox {s t : State} (h : OnlyReads s t) : t.inbox = s.inbox := by rw [h.1]
theorem OnlyReads.serial {s t : State} (h : OnlyReads s t) :
    t.serial = { s.serial with rdrf := t.serial.rdrf } := by
  have := congrArg State.serial h.1
  exact this

/-- Reads change nothing that a register update touches. -/
theorem OnlyReads.withRegs {s t : State} (h : OnlyReads s t) (r : Regs) :
    OnlyReads { s with regs := r } { t with regs := r } := by
  obtain ⟨h1, h2, h3⟩ := h
  exact ⟨by rw [h1], h2, h3⟩

/-- Storage looks the same after reads. -/
theorem OnlyReads.peek {s t : State} (h : OnlyReads s t) (a : Word) : t.peek a = s.peek a := by
  simp only [State.peek, h.cfg, h.mem]

/-- A register update leaves storage alone. -/
theorem peek_withRegs (s : State) (r : Regs) (a : Word) : State.peek { s with regs := r } a = s.peek a := rfl

/-- Storage is a matter of the configuration and the storage bytes alone. -/
theorem peek_congr {s t : State} (hc : t.cfg = s.cfg) (hm : t.mem = s.mem) (a : Word) : t.peek a = s.peek a := by
  simp only [State.peek, hc, hm]

theorem Serial.read_spec (d : Serial) (sub : Byte) (off : Word) :
    (d.read sub off).2 = { d with rdrf := (d.read sub off).2.rdrf } ∧
      ((d.read sub off).2.rdrf = true → d.rdrf = true) := by
  unfold Serial.read
  split
  · exact ⟨rfl, id⟩
  · split
    · exact ⟨rfl, by simp⟩
    · exact ⟨rfl, id⟩

/-- Everything a one-byte bus read can change. -/
theorem read8_onlyReads (s : State) (a : Word) : OnlyReads s (s.read8 a).2 := by
  unfold State.read8
  split
  · exact OnlyReads.refl s
  · next off h =>
    refine ⟨?_, (Serial.read_spec s.serial s.cfg.serialSubRead off).2, le_rfl⟩
    dsimp only
    rw [← (Serial.read_spec s.serial s.cfg.serialSubRead off).1]
  · exact ⟨rfl, id, Nat.le_succ _⟩

/-- Everything a two-byte bus read can change. -/
theorem read16_onlyReads (s : State) (a : Word) : OnlyReads s (s.read16 a).2 :=
  (read8_onlyReads s a).trans (read8_onlyReads _ _)

/-- A read of a storage byte: the byte, and no change. -/
theorem read8_of_peek {s : State} {a : Word} {v : Byte} (h : s.peek a = some v) : s.read8 a = (v, s) := by
  cases hp : place s.cfg a <;> simp only [State.peek, hp] at h <;> simp_all [State.read8]

/-- Reads do not look at the registers. -/
theorem read8_withRegs (s : State) (r : Regs) (a : Word) :
    State.read8 { s with regs := r } a = ((s.read8 a).1, { (s.read8 a).2 with regs := r }) := by
  unfold State.read8
  dsimp only
  split <;> rfl

theorem read16_withRegs (s : State) (r : Regs) (a : Word) :
    State.read16 { s with regs := r } a = ((s.read16 a).1, { (s.read16 a).2 with regs := r }) := by
  unfold State.read16
  simp only [read8_withRegs]

/-- A sequence of reads changes what reads may change. -/
theorem readBytes_onlyReads (n : Nat) (s : State) (a : Word) : OnlyReads s (s.readBytes a n).2 := by
  induction n generalizing s a with
  | zero => exact OnlyReads.refl s
  | succ n ih => exact (read8_onlyReads s a).trans (ih _ _)

/-! ### What a write may change -/

/-- Whether a write faults is a matter of the configuration. -/
theorem romFaults_congr {s t : State} (h : t.cfg = s.cfg) (a : Word) : t.romFaults a = s.romFaults a := by
  simp only [State.romFaults, h]

/-- Everything a one-byte bus write can change. -/
theorem store8_spec (s : State) (a : Word) (v : Byte) :
    s.store8 a v =
      { s with mem := (s.store8 a v).mem, serial := (s.store8 a v).serial,
               unmappedWrites := (s.store8 a v).unmappedWrites } := by
  unfold State.store8
  split <;> rfl

@[simp] theorem store8_cfg (s : State) (a : Word) (v : Byte) : (s.store8 a v).cfg = s.cfg := by rw [store8_spec]
@[simp] theorem store8_regs (s : State) (a : Word) (v : Byte) : (s.store8 a v).regs = s.regs := by rw [store8_spec]
@[simp] theorem store8_status (s : State) (a : Word) (v : Byte) : (s.store8 a v).status = s.status := by
  rw [store8_spec]
@[simp] theorem store8_wait (s : State) (a : Word) (v : Byte) : (s.store8 a v).wait = s.wait := by rw [store8_spec]
@[simp] theorem store8_nmiPrev (s : State) (a : Word) (v : Byte) : (s.store8 a v).nmiPrev = s.nmiPrev := by
  rw [store8_spec]
@[simp] theorem store8_nmiArmed (s : State) (a : Word) (v : Byte) : (s.store8 a v).nmiArmed = s.nmiArmed := by
  rw [store8_spec]
@[simp] theorem store8_unmappedReads (s : State) (a : Word) (v : Byte) :
    (s.store8 a v).unmappedReads = s.unmappedReads := by rw [store8_spec]
@[simp] theorem store8_cycles (s : State) (a : Word) (v : Byte) : (s.store8 a v).cycles = s.cycles := by
  rw [store8_spec]
@[simp] theorem store8_execCount (s : State) (a : Word) (v : Byte) : (s.store8 a v).execCount = s.execCount := by
  rw [store8_spec]
@[simp] theorem store8_sources (s : State) (a : Word) (v : Byte) : (s.store8 a v).sources = s.sources := by
  rw [store8_spec]
@[simp] theorem store8_inbox (s : State) (a : Word) (v : Byte) : (s.store8 a v).inbox = s.inbox := by rw [store8_spec]

/-- Writes do not look at the registers. -/
theorem store8_withRegs (s : State) (r : Regs) (a : Word) (v : Byte) :
    State.store8 { s with regs := r } a v = { s.store8 a v with regs := r } := by
  unfold State.store8
  dsimp only
  split <;> rfl

/-- A write that does not fault has its effect. -/
theorem write8_of_not_romFaults {s : State} {a : Word} (h : s.romFaults a = false) (v : Byte) :
    s.write8 a v = .ok (s.store8 a v) := by
  simp [State.write8, h]

/-- A write that faults has none. -/
theorem write8_of_romFaults {s : State} {a : Word} (h : s.romFaults a = true) (v : Byte) :
    s.write8 a v = .romFault a s := by
  simp [State.write8, h]

/-- The policy ignore rules the ROM-write fault out (R82). -/
theorem romFaults_of_ignore {s : State} (h : s.cfg.romWritePolicy = .ignore) (a : Word) : s.romFaults a = false := by
  unfold State.romFaults
  split
  · simp [h]
  · rfl

/-- What a write leaves in storage: the key it goes to, and only that one. -/
theorem store8_mem (s : State) (a : Word) (v : Byte) :
    (s.store8 a v).mem = match place s.cfg a with
      | .cell .ram key => s.mem.write key v
      | _ => s.mem := by
  unfold State.store8
  split <;> simp_all

/-! ### Where a storage byte lies -/

theorem placeIn_cell {devices : List MemoryDevice} {map : List MapEntry} {a : Word} {kind : MemoryKind} {key : Nat}
    (h : placeIn devices map a = .cell kind key) :
    ∃ e ∈ map, ∃ k d, e.device = .memory k ∧ devices[k]? = some d ∧ d.kind = kind ∧
      key = cellKey k (a &&& ~~~e.mask) := by
  induction map with
  | nil => simp [placeIn] at h
  | cons e es ih =>
    simp only [placeIn] at h
    split at h
    · unfold entryPlace at h
      split at h
      · next k hk =>
        split at h
        · next d hd =>
          simp only [Place.cell.injEq] at h
          exact ⟨e, by simp, k, d, hk, hd, h.1, h.2.symm⟩
        · simp at h
      · simp at h
      · simp at h
    · obtain ⟨e', he', hrest⟩ := ih h
      exact ⟨e', List.mem_cons_of_mem _ he', hrest⟩

/-- A storage byte lies in a memory device of the configuration, at the device-local offset of a map entry (R73). -/
theorem place_cell {c : Config} {a : Word} {kind : MemoryKind} {key : Nat} (h : place c a = .cell kind key) :
    ∃ e ∈ c.deviceMap, ∃ k d, e.device = .memory k ∧ c.memoryDevices[k]? = some d ∧ d.kind = kind ∧
      key = cellKey k (a &&& ~~~e.mask) := placeIn_cell h

/-- A key belongs to one device, so to one kind of device. -/
theorem place_cell_kind {c : Config} {a b : Word} {j k : MemoryKind} {key : Nat} (ha : place c a = .cell j key)
    (hb : place c b = .cell k key) : j = k := by
  obtain ⟨e, -, m, d, -, hd, rfl, hk⟩ := place_cell ha
  obtain ⟨e', -, m', d', -, hd', rfl, hk'⟩ := place_cell hb
  have := (cellKey_inj.1 (hk.symm.trans hk')).1
  subst this
  rw [hd] at hd'
  simpa using congrArg (Option.map MemoryDevice.kind) hd'

/-- A write keeps every byte of storage that it does not go to. -/
theorem peek_store8_of_separate (s : State) {a b : Word} (v : Byte) (h : Separate s.cfg a b) :
    (s.store8 a v).peek b = s.peek b := by
  simp only [State.peek, store8_cfg, store8_mem]
  split
  · next k key hb =>
    split
    · next key' ha =>
      congr 1
      refine Memory.read_write_ne _ _ ?_
      rintro rfl
      have := place_cell_kind ha hb
      subst this
      exact h (ha.trans hb.symm)
    · rfl
  · rfl
  · rfl

/-- A byte written to RAM reads back (R83). -/
theorem peek_store8_same {s : State} (hm : s.mem.wf) {a : Word} {key : Nat} (h : place s.cfg a = .cell .ram key)
    (v : Byte) : (s.store8 a v).peek a = some v := by
  simp only [State.peek, store8_cfg, store8_mem, h]
  rw [Memory.read_write_same hm]

/-- Writes keep the storage in canonical form. -/
theorem store8_wf {s : State} (hm : s.mem.wf) (a : Word) (v : Byte) : (s.store8 a v).mem.wf := by
  rw [store8_mem]
  split
  · exact Memory.wf_write hm _ _
  · exact hm

/-! ### Sequences of writes -/

@[simp] theorem storeAll_nil (s : State) : s.storeAll [] = s := rfl

@[simp] theorem storeAll_cons (s : State) (w : Word × Byte) (ws : List (Word × Byte)) :
    s.storeAll (w :: ws) = (s.store8 w.1 w.2).storeAll ws := rfl

theorem storeAll_append (s : State) (ws us : List (Word × Byte)) :
    s.storeAll (ws ++ us) = (s.storeAll ws).storeAll us := by
  induction ws generalizing s with
  | nil => rfl
  | cons w ws ih => exact ih _

/-- Everything a sequence of writes can change. -/
theorem storeAll_spec (s : State) (ws : List (Word × Byte)) :
    s.storeAll ws =
      { s with mem := (s.storeAll ws).mem, serial := (s.storeAll ws).serial,
               unmappedWrites := (s.storeAll ws).unmappedWrites } := by
  induction ws generalizing s with
  | nil => rfl
  | cons w ws ih =>
    rw [storeAll_cons, ih, store8_spec]

@[simp] theorem storeAll_cfg (s : State) (ws : List (Word × Byte)) : (s.storeAll ws).cfg = s.cfg := by
  rw [storeAll_spec]
@[simp] theorem storeAll_regs (s : State) (ws : List (Word × Byte)) : (s.storeAll ws).regs = s.regs := by
  rw [storeAll_spec]

theorem storeAll_withRegs (s : State) (r : Regs) (ws : List (Word × Byte)) :
    State.storeAll { s with regs := r } ws = { s.storeAll ws with regs := r } := by
  induction ws generalizing s with
  | nil => rfl
  | cons w ws ih => rw [storeAll_cons, store8_withRegs, ih, storeAll_cons]

theorem storeAll_wf {s : State} (hm : s.mem.wf) (ws : List (Word × Byte)) : (s.storeAll ws).mem.wf := by
  induction ws generalizing s with
  | nil => exact hm
  | cons w ws ih => exact ih (store8_wf hm _ _)

/-- A sequence of writes keeps every byte of storage that none of them goes to. -/
theorem keepsStorage_storeAll (s : State) (ws : List (Word × Byte)) : KeepsStorage s (s.storeAll ws) ws := by
  induction ws generalizing s with
  | nil => exact fun b _ => rfl
  | cons w ws ih =>
    intro b hb
    simp only [List.mem_cons, forall_eq_or_imp] at hb
    rw [storeAll_cons, ih (s.store8 w.1 w.2) b (by simpa using hb.2)]
    exact peek_store8_of_separate s w.2 hb.1

theorem Access.ok_andThen (s : State) (f : State → Access) : (Access.ok s).andThen f = f s := rfl

theorem Access.romFault_andThen (a : Word) (s : State) (f : State → Access) :
    (Access.romFault a s).andThen f = .romFault a s := rfl

/-- A word written where neither byte faults: the high byte at the address, then the low byte at the next (R13). -/
theorem write16_of_writable {s : State} {a : Word} (h : s.romFaults a = false) (h' : s.romFaults (a + 1) = false)
    (w : Word) : s.write16 a w = .ok (s.storeAll [(a, hiByte w), (a + 1, loByte w)]) := by
  rw [State.write16, write8_of_not_romFaults h, Access.ok_andThen,
    write8_of_not_romFaults (by rw [romFaults_congr (store8_cfg _ _ _)]; exact h')]
  rfl

end Sys2Proof.Machine
end

