-- ==== Sys2Proof/Laws/Decode.lean ====
section
/-! SUPPORT. The operand parts of the encoder: their lengths, and that the decoder reads them back (spec/30_encoding.md
R118, R119, R125). -/

namespace Sys2Proof

theorem wordOf_hiByte_loByte (w : Word) : wordOf (hiByte w) (loByte w) = w := by
  apply BitVec.eq_of_getLsbD_eq
  intro i hi
  simp only [wordOf, hiByte, loByte, BitVec.getLsbD_append, BitVec.getLsbD_extractLsb']
  by_cases h : i < 8
  · simp [h]
  · simp [h, show i - 8 < 8 by omega, show 8 + (i - 8) = i by omega]

theorem ofBits_bits (r : IndexReg) : IndexReg.ofBits r.bits = r := by cases r <;> rfl

/-- An indexed operand's postbyte and offset read back, whatever follows (R118). -/
theorem readIndexed_encodeIndexed (x : Indexed) (rest : List Byte) :
    readIndexed (encodeIndexed x ++ rest) = .ok x rest := by
  cases x with
  | off5 r n =>
    have h7 : ∀ (n : BitVec 5) (b : BitVec 2), (0#1 ++ b ++ n : BitVec 8).getLsbD 7 = false := by decide
    have hr : ∀ (n : BitVec 5) (b : BitVec 2), (0#1 ++ b ++ n : BitVec 8).extractLsb' 5 2 = b := by decide
    have hn : ∀ (n : BitVec 5) (b : BitVec 2), (0#1 ++ b ++ n : BitVec 8).extractLsb' 0 5 = n := by decide
    simp only [encodeIndexed, List.cons_append, List.nil_append, readIndexed]
    rw [if_neg (by rw [h7]; simp), hr, hn, ofBits_bits]
  | inc1 r => cases r <;> rfl
  | dec1 r => cases r <;> rfl
  | mode m ind =>
    have hw : ∀ (f : Word → Indexed) (n : Word),
        Read.ok (f (wordOf (hiByte n) (loByte n))) rest = .ok (f n) rest := fun f n => by
      rw [wordOf_hiByte_loByte]
    cases m with
    | off16 r n => cases r <;> cases ind <;> exact hw (fun n => .mode (.off16 _ n) _) n
    | pcr16 n => cases ind <;> exact hw (fun n => .mode (.pcr16 n) _) n
    | off8 r n => cases r <;> cases ind <;> rfl
    | pcr8 n => cases ind <;> rfl
    | inc2 r => cases r <;> cases ind <;> rfl
    | dec2 r => cases r <;> cases ind <;> rfl
    | zero r => cases r <;> cases ind <;> rfl
    | accB r => cases r <;> cases ind <;> rfl
    | accA r => cases r <;> cases ind <;> rfl
    | accD r => cases r <;> cases ind <;> rfl
  | absIndirect n =>
    show Read.ok (Indexed.absIndirect (wordOf (hiByte n) (loByte n))) rest = _
    rw [wordOf_hiByte_loByte]

/-- A register pair's postbyte reads back (R119). -/
theorem readPair_encode (f : RegCode → RegCode → Instr) {r1 r2 : RegCode} (h : r1.wide = r2.wide) (rest : List Byte) :
    readPair f ((r1.nibble ++ r2.nibble) :: rest) = .ok (f r1 r2) rest := by
  cases r1 <;> cases r2 <;> first | rfl | simp [RegCode.wide] at h

/-! ### Lengths (R125) -/

theorem encodeIndexed_length (x : Indexed) : 1 ≤ (encodeIndexed x).length ∧ (encodeIndexed x).length ≤ 3 := by
  cases x with
  | mode m ind => cases m <;> simp [encodeIndexed, encodeMode]
  | _ => simp [encodeIndexed]

theorem encodeMem_length (d x e : Byte) (m : Mem) :
    2 ≤ (encodeMem d x e m).length ∧ (encodeMem d x e m).length ≤ 4 := by
  cases m with
  | dir => simp [encodeMem]
  | ext => simp [encodeMem]
  | idx y =>
    have := encodeIndexed_length y
    simp only [encodeMem, List.length_cons]
    omega

theorem encodeSrc8_length (i d x e : Byte) (src : Src8) :
    2 ≤ (encodeSrc8 i d x e src).length ∧ (encodeSrc8 i d x e src).length ≤ 4 := by
  cases src with
  | imm => simp [encodeSrc8]
  | mem m => exact encodeMem_length _ _ _ _

theorem encodeSrc16_length (i d x e : Byte) (src : Src16) :
    2 ≤ (encodeSrc16 i d x e src).length ∧ (encodeSrc16 i d x e src).length ≤ 4 := by
  cases src with
  | imm => simp [encodeSrc16]
  | mem m => exact encodeMem_length _ _ _ _

/-! ### When the decoder asks for one more byte (R125) -/

theorem readIndexed_truncated_length {bs : List Byte} (h : readIndexed bs = .error .truncated) : bs.length ≤ 2 := by
  match bs with
  | [] | [_] | [_, _] => simp
  | pb :: b :: c :: bs =>
    exfalso
    simp only [readIndexed, readIndexedForm, readOffset8, readOffset16] at h
    split at h
    · split at h <;> first | (split at h <;> simp at h) | simp at h
    · simp at h

/-- No operand takes more than three bytes, so none of three is cut short. -/
theorem Form.read_truncated_length {f : Form} {bs : List Byte} (h : f.read bs = .error .truncated) : bs.length ≤ 2 := by
  cases f with
  | inherent => simp [Form.read] at h
  | byte => cases bs <;> simp [Form.read] at h ⊢
  | word =>
    match bs, h with
    | [], _ => simp
    | [_], _ => simp
    | _ :: _ :: _, h => simp [Form.read] at h
  | indexed f =>
    simp only [Form.read] at h
    cases hx : readIndexed bs with
    | ok => rw [hx] at h; simp [Read.map] at h
    | error e =>
      rw [hx] at h
      obtain rfl := Read.error.inj h
      exact readIndexed_truncated_length hx
  | pair =>
    cases bs with
    | nil => simp
    | cons pb bs =>
      simp only [Form.read, readPair] at h
      split at h
      · split at h <;> simp at h
      · simp at h

theorem decodeOn_truncated_length {page : Nat} {table : Byte → Option Form} {bs : List Byte}
    (h : decodeOn page table bs = .error .truncated) : bs.length ≤ 3 := by
  cases bs with
  | nil => simp
  | cons op bs =>
    simp only [decodeOn] at h
    split at h
    · have := Form.read_truncated_length h
      rw [List.length_cons]
      omega
    · simp at h

/-- Five bytes are always enough to tell (R110). -/
theorem decode_truncated_length {bs : List Byte} (h : decode bs = .error .truncated) : bs.length < 5 := by
  cases bs with
  | nil => simp
  | cons b bs =>
    simp only [decode] at h
    rw [List.length_cons]
    split at h
    · have := decodeOn_truncated_length h; omega
    · split at h
      · have := decodeOn_truncated_length h; omega
      · have := decodeOn_truncated_length h
        rw [List.length_cons] at this
        omega

end Sys2Proof
end

