-- ==== Sys2Proof/Laws/Devices.lean ====
section
/-! SUPPORT. What the serial peripheral's operations leave alone (spec/60_exceptions.md R447 to R452). -/

namespace Sys2Proof.Machine

theorem Serial.write_output (d : Serial) (off : Word) (v : Byte) : (d.write off v).output = d.output := by
  unfold Serial.write Serial.writeControl
  split
  · dsimp only
    split <;> rfl
  · split <;> rfl

theorem Serial.pollRx_output (d : Serial) (rx : Option Byte) : (d.pollRx rx).output = d.output := by
  unfold Serial.pollRx
  split
  · split <;> rfl
  · rfl

/-- The output list only grows at its end (R445, R451). -/
theorem Serial.poll_output (d : Serial) (h : HostInput) : ∃ sent, (d.poll h).output = d.output ++ sent := by
  unfold Serial.poll
  split
  · exact ⟨[], by simp⟩
  · rw [Serial.pollRx_output]
    unfold Serial.pollTx
    split
    · exact ⟨_, rfl⟩
    · exact ⟨[], by simp⟩

/-- A register write keeps TX_pending the opposite of TDRE (R450). -/
theorem Serial.write_txPending {d : Serial} (hd : d.txPending = !d.tdre) (off : Word) (v : Byte) :
    (d.write off v).txPending = !(d.write off v).tdre := by
  unfold Serial.write Serial.writeControl
  split
  · dsimp only
    split
    · rfl
    · exact hd
  · split
    · rfl
    · exact hd

/-- A poll keeps TX_pending the opposite of TDRE (R451). -/
theorem Serial.poll_txPending {d : Serial} (hd : d.txPending = !d.tdre) (h : HostInput) :
    (d.poll h).txPending = !(d.poll h).tdre := by
  have hr : ∀ (e : Serial) rx, (e.pollRx rx).txPending = e.txPending ∧ (e.pollRx rx).tdre = e.tdre := by
    intro e rx
    unfold Serial.pollRx
    split
    · split <;> exact ⟨rfl, rfl⟩
    · exact ⟨rfl, rfl⟩
  unfold Serial.poll
  split
  · exact hd
  · rw [(hr _ _).1, (hr _ _).2]
    unfold Serial.pollTx
    split
    · rfl
    · exact hd

end Sys2Proof.Machine
end

