-- ==== Sys2Proof/Laws/Flags.lean ====
section
/-! SUPPORT. Reading a flag after each flag computation. -/

namespace Sys2Proof.Machine

/-- A flag written reads back, and every other flag reads as before. -/
@[simp] theorem ccGet_ccSet (cc : Byte) (k j : Flag) (b : Bool) :
    ccGet (ccSet cc k b) j = if j = k then b else ccGet cc j := by
  unfold ccGet ccSet
  cases b <;> cases k <;> cases j <;> simp [flagBit]

theorem ccGet_setNZ8 (r cc : Byte) (j : Flag) :
    ccGet (setNZ8 r cc) j = if j = .z then r == 0 else if j = .n then r.getLsbD 7 else ccGet cc j := by
  cases j <;> simp [setNZ8]

theorem ccGet_setNZ16 (r : Word) (cc : Byte) (j : Flag) :
    ccGet (setNZ16 r cc) j = if j = .z then r == 0 else if j = .n then r.getLsbD 15 else ccGet cc j := by
  cases j <;> simp [setNZ16]

theorem ccGet_logicFlags8 (r cc : Byte) (j : Flag) :
    ccGet (logicFlags8 r cc) j =
      if j = .v then false else if j = .z then r == 0 else if j = .n then r.getLsbD 7 else ccGet cc j := by
  cases j <;> simp [logicFlags8, ccGet_setNZ8]

theorem ccGet_logicFlags16 (r : Word) (cc : Byte) (j : Flag) :
    ccGet (logicFlags16 r cc) j =
      if j = .v then false else if j = .z then r == 0 else if j = .n then r.getLsbD 15 else ccGet cc j := by
  cases j <;> simp [logicFlags16, ccGet_setNZ16]

theorem ccGet_setUndef (opcode : BitVec 16) (ops : List Byte) (k j : Flag) (cc : Byte) :
    ccGet (setUndef opcode ops k cc) j = if j = k then Config.undefFlag opcode ops k else ccGet cc j := by
  simp [setUndef]

/-- Two CC bytes with the same eight flags are the same byte. -/
theorem cc_ext {c d : Byte} (h : ∀ k, ccGet c k = ccGet d k) : c = d := by
  have hk : ∀ k : Flag, c.getLsbD (flagBit k) = d.getLsbD (flagBit k) := h
  apply BitVec.eq_of_getLsbD_eq
  intro i hi
  have : i = 0 ∨ i = 1 ∨ i = 2 ∨ i = 3 ∨ i = 4 ∨ i = 5 ∨ i = 6 ∨ i = 7 := by omega
  rcases this with rfl | rfl | rfl | rfl | rfl | rfl | rfl | rfl
  · exact hk .c
  · exact hk .v
  · exact hk .z
  · exact hk .n
  · exact hk .i
  · exact hk .h
  · exact hk .f
  · exact hk .e

/-! ### Bit 7 and bit 15 as sign bits -/

theorem getLsbD_seven (r : Byte) : r.getLsbD 7 = decide (128 ≤ r.toNat) := by
  have := BitVec.msb_eq_decide r
  rw [BitVec.msb_eq_getLsbD_last] at this
  simpa using this

theorem getLsbD_fifteen (r : Word) : r.getLsbD 15 = decide (32768 ≤ r.toNat) := by
  have := BitVec.msb_eq_decide r
  rw [BitVec.msb_eq_getLsbD_last] at this
  simpa using this

end Sys2Proof.Machine
end

