-- ==== Sys2Proof/Laws/Operands.lean ====
section
/-! SUPPORT. What reading an operand can change, said once for every addressing mode: the operand's own register
update and the side effects of bus reads (spec/40_addressing.md R153, R154, R156, R159). -/

namespace Sys2Proof.Machine

theorem indexSet_withRegs (r : IndexReg) (s : State) (n : Word) :
    indexSet r s (indexGet r s.regs + n) = { s with regs := s.regs.bumped (some (r, n)) } := by
  cases r <;> rfl

/-- The state after an indexed form's register update. -/
theorem modeAddress_state (m : IndexMode) (ind : Bool) (s : State) :
    (modeAddress m s).2 = { s with regs := s.regs.bumped (indexedBump (.mode m ind)) } := by
  cases m with
  | inc2 r => exact indexSet_withRegs r s 2
  | dec2 r =>
    rw [show (modeAddress (.dec2 r) s).2 = indexSet r s (indexGet r s.regs + (-2)) by
      simp only [modeAddress, BitVec.sub_eq_add_neg]]
    exact indexSet_withRegs r s (-2)
  | _ => rfl

/-- Everything that computing an indexed operand's address can change. -/
theorem indexedAddress_onlyReads (x : Indexed) (s : State) :
    OnlyReads { s with regs := s.regs.bumped (indexedBump x) } (indexedAddress x s).2 := by
  cases x with
  | off5 r n => exact OnlyReads.refl _
  | inc1 r => rw [show (indexedAddress (.inc1 r) s).2 = _ from indexSet_withRegs r s 1]; exact OnlyReads.refl _
  | dec1 r =>
    rw [show (indexedAddress (.dec1 r) s).2 = indexSet r s (indexGet r s.regs + (-1)) by
      simp only [indexedAddress, BitVec.sub_eq_add_neg]]
    rw [indexSet_withRegs r s (-1)]
    exact OnlyReads.refl _
  | mode m ind =>
    cases ind with
    | false =>
      rw [show (indexedAddress (.mode m false) s).2 = (modeAddress m s).2 from rfl, modeAddress_state m false]
      exact OnlyReads.refl _
    | true =>
      rw [show (indexedAddress (.mode m true) s).2 = ((modeAddress m s).2.read16 (modeAddress m s).1).2 from rfl]
      rw [← modeAddress_state m true]
      exact read16_onlyReads _ _
  | absIndirect n => exact read16_onlyReads s n

/-- Everything that computing a memory operand's address can change. -/
theorem effectiveAddress_onlyReads (m : Mem) (s : State) :
    OnlyReads { s with regs := s.regs.bumped (memBump m) } (effectiveAddress m s).2 := by
  cases m with
  | dir dd => exact OnlyReads.refl _
  | ext a => exact OnlyReads.refl _
  | idx x => exact indexedAddress_onlyReads x s

/-- Everything that reading an 8-bit operand can change. -/
theorem operand8_onlyReads (src : Src8) (s : State) :
    OnlyReads { s with regs := s.regs.bumped (src8Bump src) } (operand8 src s).2 := by
  cases src with
  | imm v => exact OnlyReads.refl _
  | mem m => exact (effectiveAddress_onlyReads m s).trans (read8_onlyReads _ _)

/-- Everything that reading a 16-bit operand can change. -/
theorem operand16_onlyReads (src : Src16) (s : State) :
    OnlyReads { s with regs := s.regs.bumped (src16Bump src) } (operand16 src s).2 := by
  cases src with
  | imm v => exact OnlyReads.refl _
  | mem m => exact (effectiveAddress_onlyReads m s).trans (read16_onlyReads _ _)

/-! ### The same at the start of an operation, PC past the instruction's bytes -/

theorem afterOperand_indexed (x : Indexed) (n : Nat) (s : State) :
    AfterOperand n (indexedBump x) s (indexedAddress x (s.advance n)).2 :=
  indexedAddress_onlyReads x (s.advance n)

theorem afterOperand_mem (m : Mem) (n : Nat) (s : State) :
    AfterOperand n (memBump m) s (effectiveAddress m (s.advance n)).2 :=
  effectiveAddress_onlyReads m (s.advance n)

theorem afterOperand_src8 (src : Src8) (n : Nat) (s : State) :
    AfterOperand n (src8Bump src) s (operand8 src (s.advance n)).2 :=
  operand8_onlyReads src (s.advance n)

theorem afterOperand_src16 (src : Src16) (n : Nat) (s : State) :
    AfterOperand n (src16Bump src) s (operand16 src (s.advance n)).2 :=
  operand16_onlyReads src (s.advance n)

/-- Reading an operand leaves storage as it was. -/
theorem AfterOperand.peek {n : Nat} {b : Option (IndexReg × Word)} {s p : State} (h : AfterOperand n b s p) (a : Word) :
    p.peek a = s.peek a := OnlyReads.peek h a

/-- Reading an operand leaves the configuration as it was. -/
theorem AfterOperand.cfg {n : Nat} {b : Option (IndexReg × Word)} {s p : State} (h : AfterOperand n b s p) :
    p.cfg = s.cfg := by
  rw [h.1]

end Sys2Proof.Machine
end

