-- ==== Sys2Proof/Laws/Ops.lean ====
section
/-! SUPPORT. What the shared operations of Machine/Ops.lean do: pushes as one sequence of writes, pulls as one sequence
of reads, and the end of an instruction. -/

namespace Sys2Proof.Machine

/-! ### The stack pointer as an operand -/

@[simp] theorem Stack.get_set (k : Stack) (s : State) (v : Word) : k.get (k.set s v).regs = v := by cases k <;> rfl
@[simp] theorem Stack.set_set (k : Stack) (s : State) (v w : Word) : k.set (k.set s v) w = k.set s w := by
  cases k <;> rfl
@[simp] theorem Stack.set_get (k : Stack) (s : State) : k.set s (k.get s.regs) = s := by cases k <;> rfl
@[simp] theorem Stack.set_cfg (k : Stack) (s : State) (v : Word) : (k.set s v).cfg = s.cfg := by cases k <;> rfl

theorem Stack.set_storeAll (k : Stack) (s : State) (v : Word) (ws : List (Word × Byte)) :
    k.set (s.storeAll ws) v = (k.set s v).storeAll ws := by
  cases k <;>
  simp only [Stack.set, State.setS, State.setU, storeAll_withRegs, storeAll_regs]

/-- A stack pointer's update as an update of the registers. -/
theorem Stack.set_eq (k : Stack) (s : State) (v : Word) : k.set s v = { s with regs := (k.set s v).regs } := by
  cases k <;> rfl

/-! ### Pushes -/

/-- The state when the items have been pushed. -/
def pushed (k : Stack) (s : State) (is : List StackItem) : State :=
  (k.set s (k.get s.regs - BitVec.ofNat 16 (itemBytes is))).storeAll (pushWrites (k.get s.regs) is)

@[simp] theorem pushed_nil (k : Stack) (s : State) : pushed k s [] = s := by
  simp [pushed, itemBytes, pushWrites]

@[simp] theorem pushed_cfg (k : Stack) (s : State) (is : List StackItem) : (pushed k s is).cfg = s.cfg := by
  simp [pushed]

@[simp] theorem pushed_regs (k : Stack) (s : State) (is : List StackItem) :
    (pushed k s is).regs = (k.set s (k.get s.regs - BitVec.ofNat 16 (itemBytes is))).regs := by
  simp [pushed]

theorem itemBytes_append (is js : List StackItem) : itemBytes (is ++ js) = itemBytes is + itemBytes js := by
  simp [itemBytes]

theorem ofNat16_sub_sub (w : Word) (m n : Nat) :
    w - BitVec.ofNat 16 m - BitVec.ofNat 16 n = w - BitVec.ofNat 16 (m + n) := by
  rw [BitVec.ofNat_add, BitVec.sub_sub]

theorem pushWrites_append (sp : Word) (is js : List StackItem) :
    pushWrites sp (is ++ js) = pushWrites sp is ++ pushWrites (sp - BitVec.ofNat 16 (itemBytes is)) js := by
  induction is generalizing sp with
  | nil => simp [pushWrites, itemBytes]
  | cons i is ih =>
    simp only [List.cons_append, pushWrites, ih, List.append_assoc, ofNat16_sub_sub]
    simp [itemBytes]

/-- One more byte pushed. -/
theorem push8_pushed {k : Stack} {s : State} {is : List StackItem} {v : Byte}
    (hw : s.Writable (pushWrites (k.get s.regs) (is ++ [.byte v]))) :
    push8 k v (pushed k s is) = .ok (pushed k s (is ++ [.byte v])) := by
  have h : s.romFaults (k.get s.regs - BitVec.ofNat 16 (itemBytes is) - 1) = false := by
    refine hw (_, v) ?_
    rw [pushWrites_append]
    simp [pushWrites, StackItem.writes]
  simp only [push8, pushed_regs, Stack.get_set]
  rw [write8_of_not_romFaults (by rw [← h]; exact romFaults_congr (by simp) _)]
  simp only [pushed, Stack.set_storeAll, Stack.set_set, pushWrites_append, storeAll_append, itemBytes_append]
  simp [pushWrites, StackItem.writes, itemBytes, StackItem.size, ← ofNat16_sub_sub]

/-- One more word pushed. -/
theorem push16_pushed {k : Stack} {s : State} {is : List StackItem} {v : Word}
    (hw : s.Writable (pushWrites (k.get s.regs) (is ++ [.word v]))) :
    push16 k v (pushed k s is) = .ok (pushed k s (is ++ [.word v])) := by
  have e : k.get s.regs - BitVec.ofNat 16 (itemBytes is) - 2 + 1 = k.get s.regs - BitVec.ofNat 16 (itemBytes is) - 1 := by
    bv_omega
  have h : s.romFaults (k.get s.regs - BitVec.ofNat 16 (itemBytes is) - 2) = false := by
    refine hw (_, v.extractLsb' 8 8) ?_
    rw [pushWrites_append]
    simp [pushWrites, StackItem.writes]
  have h' : s.romFaults (k.get s.regs - BitVec.ofNat 16 (itemBytes is) - 2 + 1) = false := by
    rw [e]
    refine hw (_, v.extractLsb' 0 8) ?_
    rw [pushWrites_append]
    simp [pushWrites, StackItem.writes]
  simp only [push16, pushed_regs, Stack.get_set]
  rw [write16_of_writable (by rw [← h]; exact romFaults_congr (by simp) _)
    (by rw [← h']; exact romFaults_congr (by simp) _), e]
  simp only [pushed, Stack.set_storeAll, Stack.set_set, pushWrites_append, storeAll_append, itemBytes_append]
  simp [pushWrites, StackItem.writes, itemBytes, StackItem.size, ← ofNat16_sub_sub, hiByte, loByte]

/-- One place of a register list pushed, for an 8-bit register. -/
theorem pushIf_byte {k : Stack} {s : State} {is : List StackItem} (b : Bool) (f : Regs → Byte)
    (hf : ∀ v, f (k.set s v).regs = f s.regs)
    (hw : s.Writable (pushWrites (k.get s.regs) (is ++ if b then [.byte (f s.regs)] else []))) :
    (Access.ok (pushed k s is)).andThen (pushIf b fun u => push8 k (f u.regs) u) =
      .ok (pushed k s (is ++ if b then [.byte (f s.regs)] else [])) := by
  rw [Access.ok_andThen]
  cases b with
  | false => simp [pushIf]
  | true =>
    simp only [pushIf, if_true] at hw ⊢
    rw [show f (pushed k s is).regs = f s.regs by rw [pushed_regs, hf]]
    exact push8_pushed hw

/-- One place of a register list pushed, for a 16-bit register. -/
theorem pushIf_word {k : Stack} {s : State} {is : List StackItem} (b : Bool) (f : Regs → Word)
    (hf : ∀ v, f (k.set s v).regs = f s.regs)
    (hw : s.Writable (pushWrites (k.get s.regs) (is ++ if b then [.word (f s.regs)] else []))) :
    (Access.ok (pushed k s is)).andThen (pushIf b fun u => push16 k (f u.regs) u) =
      .ok (pushed k s (is ++ if b then [.word (f s.regs)] else [])) := by
  rw [Access.ok_andThen]
  cases b with
  | false => simp [pushIf]
  | true =>
    simp only [pushIf, if_true] at hw ⊢
    rw [show f (pushed k s is).regs = f s.regs by rw [pushed_regs, hf]]
    exact push16_pushed hw

theorem Writable.left {s : State} {k : Stack} {is js : List StackItem}
    (h : s.Writable (pushWrites (k.get s.regs) (is ++ js))) : s.Writable (pushWrites (k.get s.regs) is) := by
  intro w hw
  refine h w ?_
  rw [pushWrites_append]
  exact List.mem_append_left _ hw

/-- A register list pushed where nothing faults: one sequence of writes, and the stack pointer below them. -/
theorem pushList_eq {k : Stack} {pb : Byte} {s : State}
    (hw : s.Writable (pushWrites (k.get s.regs) (listItems pb (k.other.get s.regs) s.regs))) :
    pushList k pb s = .ok (pushed k s (listItems pb (k.other.get s.regs) s.regs)) := by
  unfold listItems at hw ⊢
  unfold pushList
  have h0 := Writable.left hw
  have h1 := Writable.left h0
  have h2 := Writable.left h1
  have h3 := Writable.left h2
  have h4 := Writable.left h3
  have h5 := Writable.left h4
  have h6 := Writable.left h5
  rw [show pushIf (pb.getLsbD 7) (fun s => push16 k s.regs.pc s) s =
      (Access.ok (pushed k s [])).andThen (pushIf (pb.getLsbD 7) fun u => push16 k u.regs.pc u) by
    rw [pushed_nil, Access.ok_andThen]]
  rw [pushIf_word (pb.getLsbD 7) (fun r => r.pc) (by cases k <;> simp) (by simpa using h6)]
  rw [pushIf_word (pb.getLsbD 6) (fun r => k.other.get r) (by cases k <;> simp [Stack.other]) (by simpa using h5)]
  rw [pushIf_word (pb.getLsbD 5) (fun r => r.y) (by cases k <;> simp) (by simpa using h4)]
  rw [pushIf_word (pb.getLsbD 4) (fun r => r.x) (by cases k <;> simp) (by simpa using h3)]
  rw [pushIf_byte (pb.getLsbD 3) (fun r => r.dp) (by cases k <;> simp) (by simpa using h2)]
  rw [pushIf_byte (pb.getLsbD 2) (fun r => r.b) (by cases k <;> simp) (by simpa using h1)]
  rw [pushIf_byte (pb.getLsbD 1) (fun r => r.a) (by cases k <;> simp) (by simpa using h0)]
  rw [pushIf_byte (pb.getLsbD 0) (fun r => r.cc) (by cases k <;> simp) (by simpa using hw)]
  simp

/-- The entire frame pushed where nothing faults. -/
theorem pushEntire_eq {s : State} (hw : s.Writable (pushWrites s.regs.s (entireFrame s.regs))) :
    pushEntire s = .ok (pushed .s s (entireFrame s.regs)) := by
  have e : listItems 0xFF#8 s.regs.u s.regs = entireFrame s.regs := by
    simp [listItems, entireFrame]
  have := pushList_eq (k := .s) (pb := 0xFF#8) (s := s) (by rw [show Stack.other .s = .u from rfl, Stack.get_u, e]; exact hw)
  rw [show Stack.other .s = .u from rfl, Stack.get_u, e] at this
  exact this

/-- The short frame pushed where nothing faults. -/
theorem pushShort_eq {s : State} (hw : s.Writable (pushWrites s.regs.s (shortFrame s.regs))) :
    pushShort s = .ok (pushed .s s (shortFrame s.regs)) := by
  have h0 : s.Writable (pushWrites (Stack.get .s s.regs) ([] ++ [.word s.regs.pc])) :=
    Writable.left (k := .s) (js := [.byte s.regs.cc]) hw
  have h1 := push16_pushed (k := .s) h0
  rw [pushed_nil] at h1
  unfold pushShort
  rw [h1, Access.ok_andThen]
  have h2 := push8_pushed (k := .s) (s := s) (is := [.word s.regs.pc]) (v := s.regs.cc) hw
  rw [show (pushed .s s ([] ++ [.word s.regs.pc])).regs.cc = s.regs.cc by simp]
  exact h2

/-! ### Pulls -/

/-- One more byte read. -/
theorem readBytes_succ (n : Nat) (s : State) (a : Word) :
    s.readBytes a (n + 1) =
      ((s.readBytes a n).1 ++ [((s.readBytes a n).2.read8 (a + BitVec.ofNat 16 n)).1],
        ((s.readBytes a n).2.read8 (a + BitVec.ofNat 16 n)).2) := by
  induction n generalizing s a with
  | zero => simp [State.readBytes]
  | succ n ih =>
    rw [State.readBytes]
    simp only [ih (s.read8 a).2 (a + 1)]
    have e : a + 1 + BitVec.ofNat 16 n = a + BitVec.ofNat 16 (n + 1) := by
      rw [BitVec.ofNat_add, BitVec.add_assoc, BitVec.add_comm 1 (BitVec.ofNat 16 n)]
      rfl
    simp only [State.readBytes, e, List.cons_append]

theorem readBytes_length (n : Nat) (s : State) (a : Word) : (s.readBytes a n).1.length = n := by
  induction n generalizing s a with
  | zero => rfl
  | succ n ih => simp [State.readBytes, ih]

/-- The first bytes of a longer read are those of a shorter one. -/
theorem readBytes_take {n m : Nat} (h : n ≤ m) (s : State) (a : Word) :
    (s.readBytes a m).1.take n = (s.readBytes a n).1 := by
  induction n generalizing m s a with
  | zero => rfl
  | succ n ih =>
    obtain ⟨m, rfl⟩ : ∃ k, m = k + 1 := ⟨m - 1, by omega⟩
    simp only [State.readBytes, List.take_succ_cons, ih (Nat.le_of_succ_le_succ h)]

/-- A byte read early is the same however many are read after it. -/
theorem readBytes_getD {n m : Nat} (h : n < m) (s : State) (a : Word) :
    (s.readBytes a m).1.getD n 0 = ((s.readBytes a n).2.read8 (a + BitVec.ofNat 16 n)).1 := by
  induction m with
  | zero => omega
  | succ m ih =>
    rw [readBytes_succ]
    by_cases hm : n < m
    · rw [← ih hm, List.getD_append _ _ _ _ (by rw [readBytes_length]; exact hm)]
    · have : n = m := by omega
      subst this
      rw [List.getD_append_right _ _ _ _ (by rw [readBytes_length])]
      simp [readBytes_length]

theorem readBytes_withRegs (n : Nat) (s : State) (a : Word) (r : Regs) :
    State.readBytes { s with regs := r } a n = ((s.readBytes a n).1, { (s.readBytes a n).2 with regs := r }) := by
  induction n generalizing s a with
  | zero => rfl
  | succ n ih =>
    simp only [State.readBytes]
    rw [read8_withRegs]
    dsimp only
    rw [ih]

/-- Bytes of storage are read as they stand, and the reads change nothing. -/
theorem readBytes_of_peek (bs : List Byte) (s : State) (a : Word)
    (h : ∀ k (hk : k < bs.length), s.peek (a + BitVec.ofNat 16 k) = some bs[k]) :
    s.readBytes a bs.length = (bs, s) := by
  induction bs generalizing a with
  | nil => rfl
  | cons b bs ih =>
    have h0 : s.peek a = some b := by
      have := h 0 (by simp)
      simp only [BitVec.add_zero, List.getElem_cons_zero] at this
      exact this
    have := ih (a + 1) fun k hk => by
      have := h (k + 1) (by simpa using hk)
      simp only [List.getElem_cons_succ] at this
      rw [← this, Nat.add_comm k 1, BitVec.ofNat_add, BitVec.add_assoc]
      rfl
    simp only [List.length_cons, State.readBytes, read8_of_peek h0, this]

/-- The state when n bytes have been read from address a on and the registers are g. -/
def pulling (s : State) (a : Word) (n : Nat) (g : Regs) (arm : Bool) : State :=
  { (s.readBytes a n).2 with regs := g, nmiArmed := arm }

theorem pulling_start (s : State) (a : Word) : pulling s a 0 s.regs s.nmiArmed = s := rfl

theorem pulling_eq (s : State) (a : Word) (n : Nat) (g : Regs) :
    pulling s a n g s.nmiArmed = { (s.readBytes a n).2 with regs := g } := by
  rw [pulling, ← (readBytes_onlyReads n s a).nmiArmed]

theorem read8_pulling (s : State) (a : Word) (n : Nat) (g : Regs) (arm : Bool) :
    (pulling s a n g arm).read8 (a + BitVec.ofNat 16 n) =
      ((s.readBytes a (n + 1)).1.getD n 0, pulling s a (n + 1) g arm) := by
  rw [readBytes_getD (Nat.lt_succ_self n), pulling, pulling, readBytes_succ]
  unfold State.read8
  dsimp only
  split <;> rfl

theorem add_ofNat16_succ (a : Word) (n k : Nat) :
    a + BitVec.ofNat 16 n + BitVec.ofNat 16 k = a + BitVec.ofNat 16 (n + k) := by
  rw [BitVec.ofNat_add, BitVec.add_assoc]

/-- One byte pulled. -/
theorem pull8_pulling {k : Stack} {s : State} {a : Word} {n : Nat} {g : Regs} {arm : Bool}
    (h : k.get g = a + BitVec.ofNat 16 n) :
    pull8 k (pulling s a n g arm) =
      ((s.readBytes a (n + 1)).1.getD n 0,
        k.set (pulling s a (n + 1) g arm) (a + BitVec.ofNat 16 (n + 1))) := by
  unfold pull8
  rw [show (pulling s a n g arm).regs = g from rfl, h, read8_pulling]
  dsimp only
  rw [show (pulling s a (n + 1) g arm).regs = g from rfl, h]
  rw [← add_ofNat16_succ a n 1]
  rfl

/-- One word pulled, high byte first. -/
theorem pull16_pulling {k : Stack} {s : State} {a : Word} {n : Nat} {g : Regs} {arm : Bool}
    (h : k.get g = a + BitVec.ofNat 16 n) :
    pull16 k (pulling s a n g arm) =
      (pulledWord (s.readBytes a (n + 2)).1 n,
        k.set (pulling s a (n + 2) g arm) (a + BitVec.ofNat 16 (n + 2))) := by
  unfold pull16 State.read16
  rw [show (pulling s a n g arm).regs = g from rfl, h, read8_pulling]
  dsimp only
  rw [show a + BitVec.ofNat 16 n + 1 = a + BitVec.ofNat 16 (n + 1) from add_ofNat16_succ a n 1, read8_pulling]
  dsimp only
  rw [show (pulling s a (n + 1 + 1) g arm).regs = g from rfl, h]
  rw [← add_ofNat16_succ a n 2]
  rw [readBytes_getD (Nat.lt_succ_self n), ← readBytes_getD (m := n + 1 + 1) (by omega)]
  rfl

/-- One place of a register list pulled, for an 8-bit register. -/
theorem pullIf_byte {k : Stack} {s : State} {a : Word} {n m : Nat} {g : Regs} {arm : Bool} (b : Bool)
    (f : State → Byte → State) (hm : n + (if b then 1 else 0) ≤ m) (h : k.get g = a + BitVec.ofNat 16 n) :
    pullIf b (pullInto8 k f) (pulling s a n g arm) =
      if b then f (k.set (pulling s a (n + 1) g arm) (a + BitVec.ofNat 16 (n + 1))) ((s.readBytes a m).1.getD n 0)
      else pulling s a n g arm := by
  cases b with
  | false => rfl
  | true =>
    simp only [if_true] at hm
    simp only [pullIf, pullInto8, if_true, pull8_pulling h]
    rw [readBytes_getD (Nat.lt_succ_self n), ← readBytes_getD (m := m) (by omega)]

/-- One place of a register list pulled, for a 16-bit register. -/
theorem pullIf_word {k : Stack} {s : State} {a : Word} {n m : Nat} {g : Regs} {arm : Bool} (b : Bool)
    (f : State → Word → State) (hm : n + (if b then 2 else 0) ≤ m) (h : k.get g = a + BitVec.ofNat 16 n) :
    pullIf b (pullInto16 k f) (pulling s a n g arm) =
      if b then f (k.set (pulling s a (n + 2) g arm) (a + BitVec.ofNat 16 (n + 2))) (pulledWord (s.readBytes a m).1 n)
      else pulling s a n g arm := by
  cases b with
  | false => rfl
  | true =>
    simp only [if_true] at hm
    simp only [pullIf, pullInto16, if_true, pull16_pulling h, pulledWord]
    rw [readBytes_getD (n := n) (by omega), ← readBytes_getD (n := n) (m := m) (by omega),
      readBytes_getD (n := n + 1) (by omega), ← readBytes_getD (n := n + 1) (m := m) (by omega)]

theorem pulledAt_le (pb : Byte) {j k : Nat} (h : j ≤ k) : pulledAt pb j ≤ pulledAt pb k := by
  induction k with
  | zero => simp_all
  | succ k ih =>
    rcases Nat.lt_or_ge j (k + 1) with h' | h'
    · exact (ih (by omega)).trans (by simp [pulledAt])
    · have : j = k + 1 := by omega
      subst this
      exact le_rfl

/-- The registers with a stack pointer replaced. -/
def withSp (k : Stack) (g : Regs) (v : Word) : Regs :=
  match k with
  | .s => { g with s := v }
  | .u => { g with u := v }

theorem withSp_get (k : Stack) (g : Regs) : withSp k g (k.get g) = g := by cases k <;> rfl

/-- One place of a register list pulled into an 8-bit register, as an update of the registers alone; `get` and `put` are the
register's reading and writing. -/
theorem pullIf_byte_put {k : Stack} {s : State} {a : Word} {n n' m : Nat} {g : Regs} {arm : Bool} (b : Bool)
    (f : State → Byte → State) (get : Regs → Byte) (put : Regs → Byte → Regs)
    (hf : ∀ t v, f t v = { t with regs := put t.regs v }) (hput : ∀ g, put g (get g) = g)
    (hget : ∀ g v, get (withSp k g v) = get g) (hn : n' = n + if b then 1 else 0) (hm : n' ≤ m)
    (h : k.get g = a + BitVec.ofNat 16 n) :
    pullIf b (pullInto8 k f) (pulling s a n g arm) =
      pulling s a n' (put (withSp k g (a + BitVec.ofNat 16 n')) (if b then ((s.readBytes a m).1.getD n 0) else get g)) arm := by
  subst hn
  rw [pullIf_byte b f hm h]
  cases b with
  | false =>
    simp only [Bool.false_eq_true, if_false, Nat.add_zero]
    rw [← hget g (a + BitVec.ofNat 16 n), hput, ← h, withSp_get]
  | true =>
    simp only [if_true, hf]
    rw [Stack.set_eq]
    cases k <;> rfl

/-- One place of a register list pulled into a 16-bit register, as an update of the registers alone; `get` and `put` are the
register's reading and writing. -/
theorem pullIf_word_put {k : Stack} {s : State} {a : Word} {n n' m : Nat} {g : Regs} {arm : Bool} (b : Bool)
    (f : State → Word → State) (get : Regs → Word) (put : Regs → Word → Regs)
    (hf : ∀ t v, f t v = { t with regs := put t.regs v }) (hput : ∀ g, put g (get g) = g)
    (hget : ∀ g v, get (withSp k g v) = get g) (hn : n' = n + if b then 2 else 0) (hm : n' ≤ m)
    (h : k.get g = a + BitVec.ofNat 16 n) :
    pullIf b (pullInto16 k f) (pulling s a n g arm) =
      pulling s a n' (put (withSp k g (a + BitVec.ofNat 16 n')) (if b then (pulledWord (s.readBytes a m).1 n) else get g)) arm := by
  subst hn
  rw [pullIf_word b f hm h]
  cases b with
  | false =>
    simp only [Bool.false_eq_true, if_false, Nat.add_zero]
    rw [← hget g (a + BitVec.ofNat 16 n), hput, ← h, withSp_get]
  | true =>
    simp only [if_true, hf]
    rw [Stack.set_eq]
    cases k <;> rfl

/-- A register list pulled from S: one sequence of reads, each selected register from its place in it (R363). -/
theorem pullList_s (pb : Byte) (s : State) :
    pullList .s pb s =
      let n := pulledAt pb 8
      let r := s.readBytes s.regs.s n
      { r.2 with
        regs :=
        { a := if pb.getLsbD 1 then r.1.getD (pulledAt pb 1) 0 else s.regs.a
          b := if pb.getLsbD 2 then r.1.getD (pulledAt pb 2) 0 else s.regs.b
          dp := if pb.getLsbD 3 then r.1.getD (pulledAt pb 3) 0 else s.regs.dp
          cc := if pb.getLsbD 0 then r.1.getD (pulledAt pb 0) 0 else s.regs.cc
          x := if pb.getLsbD 4 then pulledWord r.1 (pulledAt pb 4) else s.regs.x
          y := if pb.getLsbD 5 then pulledWord r.1 (pulledAt pb 5) else s.regs.y
          u := if pb.getLsbD 6 then pulledWord r.1 (pulledAt pb 6) else s.regs.u
          s := s.regs.s + BitVec.ofNat 16 n
          pc := if pb.getLsbD 7 then pulledWord r.1 (pulledAt pb 7) else s.regs.pc } } := by
  have hm (j : Nat) (hj : j < 8) : pulledAt pb (j + 1) ≤ pulledAt pb 8 := pulledAt_le pb hj
  unfold pullList
  dsimp only
  rw [show pullIf (pb.getLsbD 0) (pullInto8 .s State.setCc) s =
      pullIf (pb.getLsbD 0) (pullInto8 .s State.setCc) (pulling s s.regs.s (pulledAt pb 0) s.regs s.nmiArmed)
    from rfl]
  rw [pullIf_byte_put (pb.getLsbD 0) State.setCc (fun g => g.cc) (fun g v => { g with cc := v }) (fun _ _ => rfl)
    (fun _ => rfl) (fun _ _ => rfl) (n' := pulledAt pb 1) (m := pulledAt pb 8) rfl (hm 0 (by omega)) (by simp [pulledAt])]
  rw [pullIf_byte_put (pb.getLsbD 1) State.setA (fun g => g.a) (fun g v => { g with a := v }) (fun _ _ => rfl)
    (fun _ => rfl) (fun _ _ => rfl) (n' := pulledAt pb 2) (m := pulledAt pb 8) rfl (hm 1 (by omega)) rfl]
  rw [pullIf_byte_put (pb.getLsbD 2) State.setB (fun g => g.b) (fun g v => { g with b := v }) (fun _ _ => rfl)
    (fun _ => rfl) (fun _ _ => rfl) (n' := pulledAt pb 3) (m := pulledAt pb 8) rfl (hm 2 (by omega)) rfl]
  rw [pullIf_byte_put (pb.getLsbD 3) State.setDp (fun g => g.dp) (fun g v => { g with dp := v }) (fun _ _ => rfl)
    (fun _ => rfl) (fun _ _ => rfl) (n' := pulledAt pb 4) (m := pulledAt pb 8) rfl (hm 3 (by omega)) rfl]
  rw [pullIf_word_put (pb.getLsbD 4) State.setX (fun g => g.x) (fun g v => { g with x := v }) (fun _ _ => rfl)
    (fun _ => rfl) (fun _ _ => rfl) (n' := pulledAt pb 5) (m := pulledAt pb 8) rfl (hm 4 (by omega)) rfl]
  rw [pullIf_word_put (pb.getLsbD 5) State.setY (fun g => g.y) (fun g v => { g with y := v }) (fun _ _ => rfl)
    (fun _ => rfl) (fun _ _ => rfl) (n' := pulledAt pb 6) (m := pulledAt pb 8) rfl (hm 5 (by omega)) rfl]
  rw [pullIf_word_put (pb.getLsbD 6) (Stack.loadOther .s) (fun g => g.u) (fun g v => { g with u := v }) (fun _ _ => rfl)
    (fun _ => rfl) (fun _ _ => rfl) (n' := pulledAt pb 7) (m := pulledAt pb 8) rfl (hm 6 (by omega)) rfl]
  rw [pullIf_word_put (pb.getLsbD 7) State.setPc (fun g => g.pc) (fun g v => { g with pc := v }) (fun _ _ => rfl)
    (fun _ => rfl) (fun _ _ => rfl) (n' := pulledAt pb 8) (m := pulledAt pb 8) rfl (hm 7 (by omega)) rfl]
  exact pulling_eq s s.regs.s (pulledAt pb 8) _

/-- S pulled by PULU: the word, and NMI armed (R48). -/
theorem pullIf_word_loadS {s : State} {a : Word} {n n' m : Nat} {g : Regs} {arm : Bool} (b : Bool)
    (hn : n' = n + if b then 2 else 0) (hm : n' ≤ m) (h : g.u = a + BitVec.ofNat 16 n) :
    pullIf b (pullInto16 .u (Stack.loadOther .u)) (pulling s a n g arm) =
      pulling s a n' { g with
          u := a + BitVec.ofNat 16 n'
          s := if b then pulledWord (s.readBytes a m).1 n else g.s }
        (arm || (b && s.cfg.nmiArmRequired)) := by
  subst hn
  rw [pullIf_word (k := .u) b _ hm h]
  cases b with
  | false =>
    simp only [Bool.false_eq_true, if_false, Nat.add_zero, Bool.false_and, Bool.or_false, ← h]
  | true =>
    simp only [if_true, Bool.true_and]
    rw [← (readBytes_onlyReads (n + 2) s a).cfg]
    rfl

/-- A register list pulled from U: one sequence of reads, each selected register from its place in it (R365). -/
theorem pullList_u (pb : Byte) (s : State) :
    pullList .u pb s =
      let n := pulledAt pb 8
      let r := s.readBytes s.regs.u n
      { r.2 with
        regs :=
        { a := if pb.getLsbD 1 then r.1.getD (pulledAt pb 1) 0 else s.regs.a
          b := if pb.getLsbD 2 then r.1.getD (pulledAt pb 2) 0 else s.regs.b
          dp := if pb.getLsbD 3 then r.1.getD (pulledAt pb 3) 0 else s.regs.dp
          cc := if pb.getLsbD 0 then r.1.getD (pulledAt pb 0) 0 else s.regs.cc
          x := if pb.getLsbD 4 then pulledWord r.1 (pulledAt pb 4) else s.regs.x
          y := if pb.getLsbD 5 then pulledWord r.1 (pulledAt pb 5) else s.regs.y
          u := s.regs.u + BitVec.ofNat 16 n
          s := if pb.getLsbD 6 then pulledWord r.1 (pulledAt pb 6) else s.regs.s
          pc := if pb.getLsbD 7 then pulledWord r.1 (pulledAt pb 7) else s.regs.pc }
        nmiArmed := s.nmiArmed || (pb.getLsbD 6 && s.cfg.nmiArmRequired) } := by
  have hm (j : Nat) (hj : j < 8) : pulledAt pb (j + 1) ≤ pulledAt pb 8 := pulledAt_le pb hj
  unfold pullList
  dsimp only
  rw [show pullIf (pb.getLsbD 0) (pullInto8 .u State.setCc) s =
      pullIf (pb.getLsbD 0) (pullInto8 .u State.setCc) (pulling s s.regs.u (pulledAt pb 0) s.regs s.nmiArmed)
    from rfl]
  rw [pullIf_byte_put (pb.getLsbD 0) State.setCc (fun g => g.cc) (fun g v => { g with cc := v }) (fun _ _ => rfl)
    (fun _ => rfl) (fun _ _ => rfl) (n' := pulledAt pb 1) (m := pulledAt pb 8) rfl (hm 0 (by omega)) (by simp [pulledAt])]
  rw [pullIf_byte_put (pb.getLsbD 1) State.setA (fun g => g.a) (fun g v => { g with a := v }) (fun _ _ => rfl)
    (fun _ => rfl) (fun _ _ => rfl) (n' := pulledAt pb 2) (m := pulledAt pb 8) rfl (hm 1 (by omega)) rfl]
  rw [pullIf_byte_put (pb.getLsbD 2) State.setB (fun g => g.b) (fun g v => { g with b := v }) (fun _ _ => rfl)
    (fun _ => rfl) (fun _ _ => rfl) (n' := pulledAt pb 3) (m := pulledAt pb 8) rfl (hm 2 (by omega)) rfl]
  rw [pullIf_byte_put (pb.getLsbD 3) State.setDp (fun g => g.dp) (fun g v => { g with dp := v }) (fun _ _ => rfl)
    (fun _ => rfl) (fun _ _ => rfl) (n' := pulledAt pb 4) (m := pulledAt pb 8) rfl (hm 3 (by omega)) rfl]
  rw [pullIf_word_put (pb.getLsbD 4) State.setX (fun g => g.x) (fun g v => { g with x := v }) (fun _ _ => rfl)
    (fun _ => rfl) (fun _ _ => rfl) (n' := pulledAt pb 5) (m := pulledAt pb 8) rfl (hm 4 (by omega)) rfl]
  rw [pullIf_word_put (pb.getLsbD 5) State.setY (fun g => g.y) (fun g v => { g with y := v }) (fun _ _ => rfl)
    (fun _ => rfl) (fun _ _ => rfl) (n' := pulledAt pb 6) (m := pulledAt pb 8) rfl (hm 5 (by omega)) rfl]
  rw [pullIf_word_loadS (pb.getLsbD 6) (n' := pulledAt pb 7) (m := pulledAt pb 8) rfl (hm 6 (by omega)) rfl]
  rw [pullIf_word_put (pb.getLsbD 7) State.setPc (fun g => g.pc) (fun g v => { g with pc := v }) (fun _ _ => rfl)
    (fun _ => rfl) (fun _ _ => rfl) (n' := pulledAt pb 8) (m := pulledAt pb 8) rfl (hm 7 (by omega)) rfl]
  rfl

/-! ### Returning from and taking an interrupt -/

theorem ccSet_e (cc : Byte) (b : Bool) : ccSet cc .e b = withE b cc := by
  cases b <;> simp [ccSet, withE, flagBit]

/-- What RTI does: the CC byte decides whether it reads twelve bytes or three (R383). -/
theorem returnFromException_eq (s : State) :
    returnFromException s =
      let e := ccGet (s.read8 s.regs.s).1 .e
      let n := if e then 12 else 3
      let r := s.readBytes s.regs.s n
      { r.2 with regs :=
        if e then
          { cc := r.1.getD 0 0, a := r.1.getD 1 0, b := r.1.getD 2 0, dp := r.1.getD 3 0, x := pulledWord r.1 4,
            y := pulledWord r.1 6, u := pulledWord r.1 8, pc := pulledWord r.1 10, s := s.regs.s + 12 }
        else { s.regs with cc := r.1.getD 0 0, pc := pulledWord r.1 1, s := s.regs.s + 3 } } := by
  have hb : ∀ m, 0 < m → (s.readBytes s.regs.s m).1.getD 0 0 = (s.read8 s.regs.s).1 := by
    intro m hm
    rw [readBytes_getD hm]
    simp [State.readBytes]
  have h0 : ∀ M, 1 ≤ M → pullInto8 .s State.setCc s =
      pulling s s.regs.s 1 { s.regs with s := s.regs.s + BitVec.ofNat 16 1, cc := (s.readBytes s.regs.s M).1.getD 0 0 }
        s.nmiArmed := by
    intro M hM
    have := pullIf_byte_put (k := .s) (s := s) (a := s.regs.s) (n := 0) (n' := 1) (m := M) (g := s.regs)
      (arm := s.nmiArmed) true State.setCc (fun g => g.cc) (fun g v => { g with cc := v }) (fun _ _ => rfl)
      (fun _ => rfl) (fun _ _ => rfl) rfl hM (by simp)
    exact this
  unfold returnFromException
  dsimp only
  cases he : ccGet (s.read8 s.regs.s).1 .e with
  | true =>
    simp only [if_true]
    rw [h0 12 (by omega)]
    rw [if_pos (by
      change ccGet ((s.readBytes s.regs.s 12).1.getD 0 0) .e = true
      rw [hb 12 (by omega)]
      exact he)]
    generalize hM : (12 : Nat) = M
    unfold pullList
    dsimp only
    rw [show BitVec.getLsbD 0x7E#8 0 = false from rfl, show BitVec.getLsbD 0x7E#8 1 = true from rfl,
      show BitVec.getLsbD 0x7E#8 2 = true from rfl, show BitVec.getLsbD 0x7E#8 3 = true from rfl,
      show BitVec.getLsbD 0x7E#8 4 = true from rfl, show BitVec.getLsbD 0x7E#8 5 = true from rfl,
      show BitVec.getLsbD 0x7E#8 6 = true from rfl, show BitVec.getLsbD 0x7E#8 7 = false from rfl]
    simp only [show ∀ (f : State → State) (t : State), pullIf false f t = t from fun _ _ => rfl]
    rw [show ∀ t, pullInto16 .s State.setPc t = pullIf true (pullInto16 .s State.setPc) t from fun _ => rfl]
    rw [pullIf_byte_put true State.setA (fun g => g.a) (fun g v => { g with a := v }) (fun _ _ => rfl)
      (fun _ => rfl) (fun _ _ => rfl) (n := 1) (n' := 2) (m := M) rfl (by omega) rfl]
    rw [pullIf_byte_put true State.setB (fun g => g.b) (fun g v => { g with b := v }) (fun _ _ => rfl)
      (fun _ => rfl) (fun _ _ => rfl) (n := 2) (n' := 3) (m := M) rfl (by omega) rfl]
    rw [pullIf_byte_put true State.setDp (fun g => g.dp) (fun g v => { g with dp := v }) (fun _ _ => rfl)
      (fun _ => rfl) (fun _ _ => rfl) (n := 3) (n' := 4) (m := M) rfl (by omega) rfl]
    rw [pullIf_word_put true State.setX (fun g => g.x) (fun g v => { g with x := v }) (fun _ _ => rfl)
      (fun _ => rfl) (fun _ _ => rfl) (n := 4) (n' := 6) (m := M) rfl (by omega) rfl]
    rw [pullIf_word_put true State.setY (fun g => g.y) (fun g v => { g with y := v }) (fun _ _ => rfl)
      (fun _ => rfl) (fun _ _ => rfl) (n := 6) (n' := 8) (m := M) rfl (by omega) rfl]
    rw [pullIf_word_put true (Stack.loadOther .s) (fun g => g.u) (fun g v => { g with u := v }) (fun _ _ => rfl)
      (fun _ => rfl) (fun _ _ => rfl) (n := 8) (n' := 10) (m := M) rfl (by omega) rfl]
    rw [pullIf_word_put true State.setPc (fun g => g.pc) (fun g v => { g with pc := v }) (fun _ _ => rfl)
      (fun _ => rfl) (fun _ _ => rfl) (n := 10) (n' := 12) (m := M) rfl (by omega) rfl]
    subst hM
    exact pulling_eq s s.regs.s 12 _
  | false =>
    simp only [Bool.false_eq_true, if_false]
    rw [h0 3 (by omega)]
    rw [if_neg (by
      change ¬ ccGet ((s.readBytes s.regs.s 3).1.getD 0 0) .e = true
      rw [hb 3 (by omega), he]
      exact Bool.false_ne_true)]
    generalize hM : (3 : Nat) = M
    rw [show ∀ t, pullInto16 .s State.setPc t = pullIf true (pullInto16 .s State.setPc) t from fun _ => rfl]
    rw [pullIf_word_put true State.setPc (fun g => g.pc) (fun g v => { g with pc := v }) (fun _ _ => rfl)
      (fun _ => rfl) (fun _ _ => rfl) (n := 1) (n' := 3) (m := M) rfl (by omega) rfl]
    subst hM
    exact pulling_eq s s.regs.s 3 _

/-- Taking an interrupt whose frame faults nowhere: the frame of the registers with E set for the event, then the masks
and the vector (R380 to R382, R431 to R433). -/
theorem takeException_eq {e : Event} {s : State}
    (hw : s.Writable (pushWrites s.regs.s
      ((if e.entire then entireFrame else shortFrame) { s.regs with cc := withE e.entire s.regs.cc }))) :
    takeException e s =
      .ok (vectorTo e (pushed .s { s with regs := { s.regs with cc := withE e.entire s.regs.cc } }
        ((if e.entire then entireFrame else shortFrame) { s.regs with cc := withE e.entire s.regs.cc }))) := by
  have h : s.setFlag .e e.entire = { s with regs := { s.regs with cc := withE e.entire s.regs.cc } } := by
    rw [← ccSet_e]
    rfl
  unfold takeException
  dsimp only
  rw [h]
  cases he : e.entire with
  | true =>
    simp only [he, if_true] at hw ⊢
    rw [pushEntire_eq hw, Access.ok_andThen]
  | false =>
    simp only [he, Bool.false_eq_true, if_false] at hw ⊢
    rw [pushShort_eq hw, Access.ok_andThen]

/-! ### The end of an instruction -/

theorem finish_ok (s0 t : State) : finish s0 (.ok t) = .next t := rfl

theorem runPure_eq (i : Instr) (s : State) (f : State → State) : runPure i s f = .next (f (s.advance i.size)) := rfl

end Sys2Proof.Machine
end

