-- ==== Sys2Proof/Laws/Evolves.lean ====
section
/-! SUPPORT. Everything an instruction can do, said once: `Evolves s t` is a sequence of bus reads, bus writes that do
not fault, register updates and NMI arming, and `exec_cases` says that every answer of `exec` is one of those, a
ROM-write fault at the end of one, or the invalid-instruction fault. -/

namespace Sys2Proof.Machine

/-- t comes from s by bus reads, writes that do not fault, register updates and NMI arming. -/
inductive Evolves (s : State) : State → Prop where
  | refl : Evolves s s
  | read {t : State} (a : Word) : Evolves s t → Evolves s (t.read8 a).2
  | write {t : State} (a : Word) (v : Byte) : t.romFaults a = false → Evolves s t → Evolves s (t.store8 a v)
  | regs {t : State} (r : Regs) : Evolves s t → Evolves s { t with regs := r }
  | arm {t : State} : Evolves s t → Evolves s t.armNmi

namespace Evolves

theorem trans {s t u : State} (h : Evolves s t) (h' : Evolves t u) : Evolves s u := by
  induction h' with
  | refl => exact h
  | read a _ ih => exact ih.read a
  | write a v hf _ ih => exact ih.write a v hf
  | regs r _ ih => exact ih.regs r
  | arm _ ih => exact ih.arm

/-- A property that the five kinds of change keep holds at the end. -/
theorem induct {s t : State} (P : State → Prop) (h : Evolves s t) (h0 : P s)
    (hread : ∀ t a, P t → P (t.read8 a).2) (hwrite : ∀ t a v, t.romFaults a = false → P t → P (t.store8 a v))
    (hregs : ∀ (t : State) r, P t → P { t with regs := r }) (harm : ∀ t, P t → P t.armNmi) : P t := by
  induction h with
  | refl => exact h0
  | read a _ ih => exact hread _ a ih
  | write a v hf _ ih => exact hwrite _ a v hf ih
  | regs r _ ih => exact hregs _ r ih
  | arm _ ih => exact harm _ ih

/-- The fields no instruction's own effect touches. -/
theorem frame {s t : State} (h : Evolves s t) :
    t.cfg = s.cfg ∧ t.status = s.status ∧ t.wait = s.wait ∧ t.nmiPrev = s.nmiPrev ∧ t.cycles = s.cycles ∧
      t.execCount = s.execCount ∧ t.sources = s.sources ∧ t.inbox = s.inbox := by
  refine induct (fun t => t.cfg = s.cfg ∧ t.status = s.status ∧ t.wait = s.wait ∧ t.nmiPrev = s.nmiPrev ∧
    t.cycles = s.cycles ∧ t.execCount = s.execCount ∧ t.sources = s.sources ∧ t.inbox = s.inbox) h
    ⟨rfl, rfl, rfl, rfl, rfl, rfl, rfl, rfl⟩ ?_ ?_ ?_ ?_
  · intro t a h
    have k := read8_onlyReads t a
    rw [k.cfg, k.status, k.wait, k.nmiPrev, k.cycles, k.execCount, k.sources, k.inbox]
    exact h
  · intro t a v _ h
    simpa using h
  · intro t r h
    exact h
  · intro t h
    exact h

theorem cfg {s t : State} (h : Evolves s t) : t.cfg = s.cfg := h.frame.1

end Evolves

/-! ### The shared operations -/

theorem evolves_setS (s : State) (v : Word) : Evolves s (s.setS v) := Evolves.refl.regs _
theorem evolves_stackSet (k : Stack) (s : State) (v : Word) : Evolves s (k.set s v) := by
  cases k <;> exact Evolves.refl.regs _

theorem evolves_accSet (k : Acc) (s : State) (v : Byte) : Evolves s (k.set s v) := by
  cases k <;> exact Evolves.refl.regs _

theorem evolves_load (k : Reg16) (s : State) (v : Word) : Evolves s (k.load s v) := by
  cases k
  case s => exact (Evolves.refl.regs _).arm
  all_goals exact Evolves.refl.regs _

theorem evolves_codeSet (k : RegCode) (s : State) (v : Word) : Evolves s (codeSet k s v) := by
  cases k
  case s => exact (Evolves.refl.regs _).arm
  all_goals exact Evolves.refl.regs _

theorem evolves_read16 (s : State) (a : Word) : Evolves s (s.read16 a).2 := (Evolves.refl.read a).read _

theorem evolves_indexSet (r : IndexReg) (s : State) (v : Word) : Evolves s (indexSet r s v) := by
  cases r <;> exact Evolves.refl.regs _

theorem evolves_modeAddress (m : IndexMode) (s : State) : Evolves s (modeAddress m s).2 := by
  cases m
  case inc2 r => exact evolves_indexSet _ _ _
  case dec2 r => exact evolves_indexSet _ _ _
  all_goals exact Evolves.refl

theorem evolves_indexedAddress (x : Indexed) (s : State) : Evolves s (indexedAddress x s).2 := by
  cases x with
  | off5 r n => exact Evolves.refl
  | inc1 r => exact evolves_indexSet _ _ _
  | dec1 r => exact evolves_indexSet _ _ _
  | mode m ind =>
    cases ind with
    | false => exact evolves_modeAddress m s
    | true => exact (evolves_modeAddress m s).trans (evolves_read16 _ _)
  | absIndirect n => exact evolves_read16 _ _

theorem evolves_effectiveAddress (m : Mem) (s : State) : Evolves s (effectiveAddress m s).2 := by
  cases m with
  | dir dd => exact Evolves.refl
  | ext a => exact Evolves.refl
  | idx x => exact evolves_indexedAddress x s

theorem evolves_operand8 (src : Src8) (s : State) : Evolves s (operand8 src s).2 := by
  cases src with
  | imm v => exact Evolves.refl
  | mem m => exact (evolves_effectiveAddress m s).read _

theorem evolves_operand16 (src : Src16) (s : State) : Evolves s (operand16 src s).2 := by
  cases src with
  | imm v => exact Evolves.refl
  | mem m => exact (evolves_effectiveAddress m s).trans (evolves_read16 _ _)

theorem evolves_pullInto8 (k : Stack) (f : State → Byte → State) (hf : ∀ t v, Evolves t (f t v)) (s : State) :
    Evolves s (pullInto8 k f s) :=
  ((Evolves.refl.read _).trans (evolves_stackSet _ _ _)).trans (hf _ _)

theorem evolves_pullInto16 (k : Stack) (f : State → Word → State) (hf : ∀ t v, Evolves t (f t v)) (s : State) :
    Evolves s (pullInto16 k f s) :=
  ((evolves_read16 _ _).trans (evolves_stackSet _ _ _)).trans (hf _ _)

theorem evolves_pullIf (b : Bool) (f : State → State) (hf : ∀ t, Evolves t (f t)) (s : State) :
    Evolves s (pullIf b f s) := by
  cases b
  · exact Evolves.refl
  · exact hf s

theorem evolves_loadOther (k : Stack) (s : State) (v : Word) : Evolves s (k.loadOther s v) := by
  cases k
  · exact Evolves.refl.regs _
  · exact (Evolves.refl.regs _).arm

theorem evolves_pullList (k : Stack) (pb : Byte) (s : State) : Evolves s (pullList k pb s) := by
  unfold pullList
  dsimp only
  have r8 : ∀ f : State → Byte → State, (∀ t v, Evolves t (f t v)) → ∀ t, Evolves t (pullInto8 k f t) :=
    fun f hf t => evolves_pullInto8 k f hf t
  have r16 : ∀ f : State → Word → State, (∀ t v, Evolves t (f t v)) → ∀ t, Evolves t (pullInto16 k f t) :=
    fun f hf t => evolves_pullInto16 k f hf t
  refine Evolves.trans ?_ (evolves_pullIf _ _ (r16 _ fun t v => Evolves.refl.regs _) _)
  refine Evolves.trans ?_ (evolves_pullIf _ _ (r16 _ fun t v => evolves_loadOther k t v) _)
  refine Evolves.trans ?_ (evolves_pullIf _ _ (r16 _ fun t v => Evolves.refl.regs _) _)
  refine Evolves.trans ?_ (evolves_pullIf _ _ (r16 _ fun t v => Evolves.refl.regs _) _)
  refine Evolves.trans ?_ (evolves_pullIf _ _ (r8 _ fun t v => Evolves.refl.regs _) _)
  refine Evolves.trans ?_ (evolves_pullIf _ _ (r8 _ fun t v => Evolves.refl.regs _) _)
  refine Evolves.trans ?_ (evolves_pullIf _ _ (r8 _ fun t v => Evolves.refl.regs _) _)
  exact evolves_pullIf _ _ (r8 _ fun t v => Evolves.refl.regs _) _

/-! ### Writes -/

/-- The same for what a sequence of writes comes to. -/
def EvolvesTo (s : State) : Access → Prop
  | .ok t => Evolves s t
  | .romFault a t => Evolves s t ∧ t.romFaults a = true

theorem EvolvesTo.after {s t : State} (h : Evolves s t) {x : Access} (h' : EvolvesTo t x) : EvolvesTo s x := by
  cases x with
  | ok u => exact h.trans h'
  | romFault a u => exact ⟨h.trans h'.1, h'.2⟩

theorem EvolvesTo.andThen {s : State} {x : Access} (h : EvolvesTo s x) {f : State → Access}
    (hf : ∀ t, EvolvesTo t (f t)) : EvolvesTo s (x.andThen f) := by
  cases x with
  | ok t => exact EvolvesTo.after h (hf t)
  | romFault a t => exact h

theorem evolvesTo_write8 (s : State) (a : Word) (v : Byte) : EvolvesTo s (s.write8 a v) := by
  unfold State.write8
  split
  · next h => exact ⟨Evolves.refl, h⟩
  · next h => exact Evolves.refl.write a v (by simpa using h)

theorem evolvesTo_write16 (s : State) (a : Word) (w : Word) : EvolvesTo s (s.write16 a w) :=
  (evolvesTo_write8 s a _).andThen fun t => evolvesTo_write8 t _ _

theorem evolvesTo_push8 (k : Stack) (v : Byte) (s : State) : EvolvesTo s (push8 k v s) :=
  EvolvesTo.after (evolves_stackSet k s _) (evolvesTo_write8 _ _ _)

theorem evolvesTo_push16 (k : Stack) (v : Word) (s : State) : EvolvesTo s (push16 k v s) :=
  EvolvesTo.after (evolves_stackSet k s _) (evolvesTo_write16 _ _ _)

theorem evolvesTo_pushIf (b : Bool) (f : State → Access) (hf : ∀ t, EvolvesTo t (f t)) (s : State) :
    EvolvesTo s (pushIf b f s) := by
  cases b
  · exact Evolves.refl
  · exact hf s

theorem evolvesTo_pushList (k : Stack) (pb : Byte) (s : State) : EvolvesTo s (pushList k pb s) := by
  unfold pushList
  refine EvolvesTo.andThen ?_ fun t => evolvesTo_pushIf _ _ (fun t => evolvesTo_push8 k _ t) t
  refine EvolvesTo.andThen ?_ fun t => evolvesTo_pushIf _ _ (fun t => evolvesTo_push8 k _ t) t
  refine EvolvesTo.andThen ?_ fun t => evolvesTo_pushIf _ _ (fun t => evolvesTo_push8 k _ t) t
  refine EvolvesTo.andThen ?_ fun t => evolvesTo_pushIf _ _ (fun t => evolvesTo_push8 k _ t) t
  refine EvolvesTo.andThen ?_ fun t => evolvesTo_pushIf _ _ (fun t => evolvesTo_push16 k _ t) t
  refine EvolvesTo.andThen ?_ fun t => evolvesTo_pushIf _ _ (fun t => evolvesTo_push16 k _ t) t
  refine EvolvesTo.andThen ?_ fun t => evolvesTo_pushIf _ _ (fun t => evolvesTo_push16 k _ t) t
  exact evolvesTo_pushIf _ _ (fun t => evolvesTo_push16 k _ t) s

theorem evolves_vectorTo (e : Event) (s : State) : Evolves s (vectorTo e s) := by
  unfold vectorTo
  dsimp only
  refine Evolves.regs _ (Evolves.trans ?_ (evolves_read16 _ _))
  cases e.masksI <;> cases e.masksF
  · exact Evolves.refl
  · exact Evolves.refl.regs _
  · exact Evolves.refl.regs _
  · exact (Evolves.refl.regs _).regs _

theorem evolvesTo_takeException (e : Event) (s : State) : EvolvesTo s (takeException e s) := by
  unfold takeException
  dsimp only
  refine EvolvesTo.andThen ?_ fun t => evolves_vectorTo e t
  refine EvolvesTo.after (t := s.setFlag .e e.entire) (Evolves.refl.regs _) ?_
  split
  · exact evolvesTo_pushList _ _ _
  · exact (evolvesTo_push16 _ _ _).andThen fun t => evolvesTo_push8 _ _ t

theorem evolves_returnFromException (s : State) : Evolves s (returnFromException s) := by
  unfold returnFromException
  dsimp only
  refine Evolves.trans ?_ (evolves_pullInto16 _ _ (fun t v => Evolves.refl.regs _) _)
  refine Evolves.trans (evolves_pullInto8 .s State.setCc (fun t v => Evolves.refl.regs _) s) ?_
  split
  · exact evolves_pullList _ _ _
  · exact Evolves.refl

/-! ### The meanings -/

theorem evolves_load8 (k : Acc) (src : Src8) (s : State) : Evolves s (load8 k src s) :=
  ((evolves_operand8 src s).trans (evolves_accSet _ _ _)).regs _

theorem evolves_load16 (k : Reg16) (src : Src16) (s : State) : Evolves s (load16 k src s) :=
  ((evolves_operand16 src s).trans (evolves_load _ _ _)).regs _

theorem evolvesTo_store8At (k : Acc) (m : Mem) (s : State) : EvolvesTo s (store8At k m s) :=
  EvolvesTo.after ((evolves_effectiveAddress m s).regs _) (evolvesTo_write8 _ _ _)

theorem evolvesTo_store16At (k : Reg16) (m : Mem) (s : State) : EvolvesTo s (store16At k m s) :=
  EvolvesTo.after ((evolves_effectiveAddress m s).regs _) (evolvesTo_write16 _ _ _)

theorem evolves_loadAddress (k : Reg16) (x : Indexed) (s : State) : Evolves s (loadAddress k x s) :=
  (evolves_indexedAddress x s).trans (evolves_load _ _ _)

theorem evolves_loadAddressZ (k : Reg16) (x : Indexed) (s : State) : Evolves s (loadAddressZ k x s) :=
  (evolves_loadAddress k x s).regs _

theorem evolves_alu8 (k : Acc) (op : Byte → Byte → Byte → Byte × Byte) (src : Src8) (s : State) :
    Evolves s (alu8 k op src s) :=
  ((evolves_operand8 src s).trans (evolves_accSet _ _ _)).regs _

theorem evolves_test8 (k : Acc) (op : Byte → Byte → Byte → Byte × Byte) (src : Src8) (s : State) :
    Evolves s (test8 k op src s) :=
  (evolves_operand8 src s).regs _

theorem evolves_aluD (op : Word → Word → Byte → Word × Byte) (src : Src16) (s : State) : Evolves s (aluD op src s) :=
  ((evolves_operand16 src s).regs _).regs _

theorem evolves_compare16 (k : Reg16) (src : Src16) (s : State) : Evolves s (compare16 k src s) :=
  (evolves_operand16 src s).regs _

theorem evolvesTo_modifyMem (op : Byte → Byte → Byte × Byte) (m : Mem) (s : State) : EvolvesTo s (modifyMem op m s) :=
  EvolvesTo.after (((evolves_effectiveAddress m s).read _).regs _) (evolvesTo_write8 _ _ _)

theorem evolves_modifyAcc (op : Byte → Byte → Byte × Byte) (k : Acc) (s : State) : Evolves s (modifyAcc op k s) :=
  (Evolves.refl.regs _).trans (evolves_accSet _ _ _)

theorem evolves_testMem (m : Mem) (s : State) : Evolves s (testMem m s) :=
  ((evolves_effectiveAddress m s).read _).regs _

theorem evolvesTo_clearMem (m : Mem) (s : State) : EvolvesTo s (clearMem m s) :=
  EvolvesTo.after ((evolves_effectiveAddress m s).regs _) (evolvesTo_write8 _ _ _)

theorem evolves_clearAcc (k : Acc) (s : State) : Evolves s (clearAcc k s) :=
  (Evolves.refl.regs _).trans (evolves_accSet _ _ _)

theorem evolves_branch8 (k : Cond) (rr : Byte) (s : State) : Evolves s (branch8 k rr s) := by
  unfold branch8
  split
  · exact Evolves.refl.regs _
  · exact Evolves.refl

theorem evolves_branch16 (k : Cond) (rrrr : Word) (s : State) : Evolves s (branch16 k rrrr s) := by
  unfold branch16
  split
  · exact Evolves.refl.regs _
  · exact Evolves.refl

theorem evolvesTo_callTo (target : Word) (s : State) : EvolvesTo s (callTo target s) :=
  (evolvesTo_push16 _ _ _).andThen fun _ => Evolves.refl.regs _

theorem evolves_jumpTo (m : Mem) (s : State) : Evolves s (jumpTo m s) := (evolves_effectiveAddress m s).regs _

theorem evolvesTo_callMem (m : Mem) (s : State) : EvolvesTo s (callMem m s) :=
  EvolvesTo.after (evolves_effectiveAddress m s) (evolvesTo_callTo _ _)

/-! ### Every answer of `exec` -/

/-- What an instruction's answer can be: the effect, the ROM-write fault at the end of one, or the invalid
instruction. -/
inductive ExecCase (i : Instr) (s : State) : State → Prop where
  | effect {t : State} : Evolves s t → ExecCase i s t
  | sync : i = .sync → ExecCase i s { s.advance 1 with wait := .sync }
  | cwai {t : State} (ii : Byte) : i = .cwai ii → Evolves s t → ccGet t.regs.cc .e = true →
      ExecCase i s { t with wait := .cwai }
  | romWrite {t : State} (a : Word) : Evolves s t → t.romFaults a = true →
      ExecCase i s { t with regs := s.regs, status := .faulted (.romWrite a) }
  | invalid : i.wellFormed = false → ExecCase i s (raiseInvalid (encode i) s)

theorem execCase_pure (j : Instr) {i : Instr} {s : State} {f : State → State} (hf : ∀ t, Evolves t (f t)) :
    ∃ t, runPure j s f = .next t ∧ ExecCase i s t :=
  ⟨_, rfl, .effect ((Evolves.refl.regs _).trans (hf _))⟩

theorem execCase_instr (j : Instr) {i : Instr} {s : State} {f : State → Access} (hf : ∀ t, EvolvesTo t (f t)) :
    ∃ t, runInstr j s f = .next t ∧ ExecCase i s t := by
  have h : EvolvesTo s (f (s.advance j.size)) := EvolvesTo.after (Evolves.refl.regs _) (hf _)
  unfold runInstr
  cases hx : f (s.advance j.size) with
  | ok t => rw [hx] at h; exact ⟨_, rfl, .effect h⟩
  | romFault a t => rw [hx] at h; exact ⟨_, rfl, .romWrite a h.1 h.2⟩

theorem execCase_pair {i : Instr} {s : State} {f : State → State} (hf : ∀ t, Evolves t (f t)) :
    ∃ t, runPair i s f = .next t ∧ ExecCase i s t := by
  unfold runPair
  split
  · exact execCase_pure i hf
  · next h => exact ⟨_, rfl, .invalid (by simpa using h)⟩

theorem ccGet_e_frame {k : Stack} {pb : Byte} {s t : State} (h : pushList k pb s = .ok t) :
    t.regs.cc = s.regs.cc := by
  have step : ∀ (x : Access) (f : State → Access), (∀ u v, f u = .ok v → v.regs.cc = u.regs.cc) →
      (∀ u, x = .ok u → u.regs.cc = s.regs.cc) → ∀ v, x.andThen f = .ok v → v.regs.cc = s.regs.cc := by
    intro x f hf hx v hv
    cases x with
    | ok u => exact (hf u v hv).trans (hx u rfl)
    | romFault a u => cases hv
  have w8 : ∀ (u : State) a b v, u.write8 a b = .ok v → v.regs.cc = u.regs.cc := by
    intro u a b v hv
    unfold State.write8 at hv
    split at hv
    · cases hv
    · cases hv
      simp
  have p8 : ∀ b (g : State → Byte) u v, pushIf b (fun s => push8 k (g s) s) u = .ok v → v.regs.cc = u.regs.cc := by
    intro b g u v hv
    cases b with
    | false => cases hv; rfl
    | true =>
      refine (w8 _ _ _ _ hv).trans ?_
      cases k <;> rfl
  have p16 : ∀ b (g : State → Word) u v, pushIf b (fun s => push16 k (g s) s) u = .ok v → v.regs.cc = u.regs.cc := by
    intro b g u v hv
    cases b with
    | false => cases hv; rfl
    | true =>
      simp only [pushIf, if_true, push16, State.write16] at hv
      cases hx : State.write8 (k.set u (k.get u.regs - 2)) (k.get u.regs - 2) (hiByte (g u)) with
      | ok y =>
        rw [hx] at hv
        refine (w8 _ _ _ _ hv).trans ((w8 _ _ _ _ hx).trans ?_)
        cases k <;> rfl
      | romFault a y => rw [hx] at hv; cases hv
  unfold pushList at h
  refine step _ _ (fun u v => p8 _ _ u v) ?_ t h
  refine step _ _ (fun u v => p8 _ _ u v) ?_
  refine step _ _ (fun u v => p8 _ _ u v) ?_
  refine step _ _ (fun u v => p8 _ _ u v) ?_
  refine step _ _ (fun u v => p16 _ _ u v) ?_
  refine step _ _ (fun u v => p16 _ _ u v) ?_
  refine step _ _ (fun u v => p16 _ _ u v) ?_
  exact fun u hu => p16 _ _ s u hu

theorem execCase_cwai (ii : Byte) (s : State) :
    ∃ t, execCwai ii s = .next t ∧ ExecCase (.cwai ii) s t := by
  have h : EvolvesTo s (pushEntire (((s.advance (Instr.cwai ii).size).setCc
      ((s.advance (Instr.cwai ii).size).regs.cc &&& ii)).setFlag .e true)) :=
    EvolvesTo.after (((Evolves.refl.regs _).regs _).regs _) (evolvesTo_pushList _ _ _)
  unfold execCwai runInstr clearAndWait
  dsimp only
  generalize hv : (((s.advance (Instr.cwai ii).size).setCc ((s.advance (Instr.cwai ii).size).regs.cc &&& ii)).setFlag
    .e true) = v at h ⊢
  have he : ccGet v.regs.cc .e = true := by
    rw [← hv]
    simp
  cases hx : pushEntire v with
  | ok t =>
    rw [hx] at h
    refine ⟨_, rfl, ?_⟩
    exact .cwai ii rfl h (by rw [ccGet_e_frame hx]; exact he)
  | romFault a t =>
    rw [hx] at h
    exact ⟨_, rfl, .romWrite a h.1 h.2⟩

/-- Every instruction answers a next state, of one of the five kinds. -/
theorem exec_cases (i : Instr) (s : State) : ∃ t, exec i s = .next t ∧ ExecCase i s t := by
  cases i
  case lda src => exact execCase_pure _ (evolves_load8 _ _)
  case ldb src => exact execCase_pure _ (evolves_load8 _ _)
  case ldd src => exact execCase_pure _ (evolves_load16 _ _)
  case ldx src => exact execCase_pure _ (evolves_load16 _ _)
  case ldy src => exact execCase_pure _ (evolves_load16 _ _)
  case ldu src => exact execCase_pure _ (evolves_load16 _ _)
  case lds src => exact execCase_pure _ (evolves_load16 _ _)
  case sta m => exact execCase_instr _ (evolvesTo_store8At _ _)
  case stb m => exact execCase_instr _ (evolvesTo_store8At _ _)
  case std m => exact execCase_instr _ (evolvesTo_store16At _ _)
  case stx m => exact execCase_instr _ (evolvesTo_store16At _ _)
  case sty m => exact execCase_instr _ (evolvesTo_store16At _ _)
  case stu m => exact execCase_instr _ (evolvesTo_store16At _ _)
  case sts m => exact execCase_instr _ (evolvesTo_store16At _ _)
  case leax x => exact execCase_pure _ (evolves_loadAddressZ _ _)
  case leay x => exact execCase_pure _ (evolves_loadAddressZ _ _)
  case leau x => exact execCase_pure _ (evolves_loadAddress _ _)
  case leas x => exact execCase_pure _ (evolves_loadAddress _ _)
  case adda src => exact execCase_pure _ (evolves_alu8 _ _ _)
  case addb src => exact execCase_pure _ (evolves_alu8 _ _ _)
  case adca src => exact execCase_pure _ (evolves_alu8 _ _ _)
  case adcb src => exact execCase_pure _ (evolves_alu8 _ _ _)
  case suba src => exact execCase_pure _ (evolves_alu8 _ _ _)
  case subb src => exact execCase_pure _ (evolves_alu8 _ _ _)
  case sbca src => exact execCase_pure _ (evolves_alu8 _ _ _)
  case sbcb src => exact execCase_pure _ (evolves_alu8 _ _ _)
  case cmpa src => exact execCase_pure _ (evolves_test8 _ _ _)
  case cmpb src => exact execCase_pure _ (evolves_test8 _ _ _)
  case anda src => exact execCase_pure _ (evolves_alu8 _ _ _)
  case andb src => exact execCase_pure _ (evolves_alu8 _ _ _)
  case bita src => exact execCase_pure _ (evolves_test8 _ _ _)
  case bitb src => exact execCase_pure _ (evolves_test8 _ _ _)
  case ora src => exact execCase_pure _ (evolves_alu8 _ _ _)
  case orb src => exact execCase_pure _ (evolves_alu8 _ _ _)
  case eora src => exact execCase_pure _ (evolves_alu8 _ _ _)
  case eorb src => exact execCase_pure _ (evolves_alu8 _ _ _)
  case daa => exact execCase_pure _ fun t => (Evolves.refl.regs _).regs _
  case mul => exact execCase_pure _ fun t => (Evolves.refl.regs _).regs _
  case sex => exact execCase_pure _ fun t => (Evolves.refl.regs _).regs _
  case addd src => exact execCase_pure _ (evolves_aluD _ _)
  case subd src => exact execCase_pure _ (evolves_aluD _ _)
  case cmpd src => exact execCase_pure _ (evolves_compare16 _ _)
  case cmpx src => exact execCase_pure _ (evolves_compare16 _ _)
  case cmpy src => exact execCase_pure _ (evolves_compare16 _ _)
  case cmpu src => exact execCase_pure _ (evolves_compare16 _ _)
  case cmps src => exact execCase_pure _ (evolves_compare16 _ _)
  case abx => exact execCase_pure _ fun t => Evolves.refl.regs _
  case neg m => exact execCase_instr _ (evolvesTo_modifyMem _ _)
  case nega => exact execCase_pure _ (evolves_modifyAcc _ _)
  case negb => exact execCase_pure _ (evolves_modifyAcc _ _)
  case com m => exact execCase_instr _ (evolvesTo_modifyMem _ _)
  case coma => exact execCase_pure _ (evolves_modifyAcc _ _)
  case comb => exact execCase_pure _ (evolves_modifyAcc _ _)
  case lsr m => exact execCase_instr _ (evolvesTo_modifyMem _ _)
  case lsra => exact execCase_pure _ (evolves_modifyAcc _ _)
  case lsrb => exact execCase_pure _ (evolves_modifyAcc _ _)
  case ror m => exact execCase_instr _ (evolvesTo_modifyMem _ _)
  case rora => exact execCase_pure _ (evolves_modifyAcc _ _)
  case rorb => exact execCase_pure _ (evolves_modifyAcc _ _)
  case asr m => exact execCase_instr _ (evolvesTo_modifyMem _ _)
  case asra => exact execCase_pure _ (evolves_modifyAcc _ _)
  case asrb => exact execCase_pure _ (evolves_modifyAcc _ _)
  case asl m => exact execCase_instr _ (evolvesTo_modifyMem _ _)
  case asla => exact execCase_pure _ (evolves_modifyAcc _ _)
  case aslb => exact execCase_pure _ (evolves_modifyAcc _ _)
  case rol m => exact execCase_instr _ (evolvesTo_modifyMem _ _)
  case rola => exact execCase_pure _ (evolves_modifyAcc _ _)
  case rolb => exact execCase_pure _ (evolves_modifyAcc _ _)
  case dec m => exact execCase_instr _ (evolvesTo_modifyMem _ _)
  case deca => exact execCase_pure _ (evolves_modifyAcc _ _)
  case decb => exact execCase_pure _ (evolves_modifyAcc _ _)
  case inc m => exact execCase_instr _ (evolvesTo_modifyMem _ _)
  case inca => exact execCase_pure _ (evolves_modifyAcc _ _)
  case incb => exact execCase_pure _ (evolves_modifyAcc _ _)
  case tst m => exact execCase_pure _ (evolves_testMem _)
  case tsta => exact execCase_pure _ fun t => Evolves.refl.regs _
  case tstb => exact execCase_pure _ fun t => Evolves.refl.regs _
  case clr m => exact execCase_instr _ (evolvesTo_clearMem _)
  case clra => exact execCase_pure _ (evolves_clearAcc _)
  case clrb => exact execCase_pure _ (evolves_clearAcc _)
  case bsr rr => exact execCase_instr _ fun t => evolvesTo_callTo _ _
  case lbsr rrrr => exact execCase_instr _ fun t => evolvesTo_callTo _ _
  case jmp m => exact execCase_pure _ (evolves_jumpTo _)
  case jsr m => exact execCase_instr _ (evolvesTo_callMem _)
  case rts => exact execCase_pure _ (evolves_pullInto16 _ _ fun t v => Evolves.refl.regs _)
  case tfr r1 r2 => exact execCase_pair fun t => evolves_codeSet _ _ _
  case exg r1 r2 => exact execCase_pair fun t => (evolves_codeSet _ _ _).trans (evolves_codeSet _ _ _)
  case pshs pb => exact execCase_instr _ (evolvesTo_pushList _ _)
  case puls pb => exact execCase_pure _ (evolves_pullList _ _)
  case pshu pb => exact execCase_instr _ (evolvesTo_pushList _ _)
  case pulu pb => exact execCase_pure _ (evolves_pullList _ _)
  case andcc ii => exact execCase_pure _ fun t => Evolves.refl.regs _
  case orcc ii => exact execCase_pure _ fun t => Evolves.refl.regs _
  case nop => exact execCase_pure _ fun t => Evolves.refl
  case swi => exact execCase_instr _ (evolvesTo_takeException _)
  case swi2 => exact execCase_instr _ (evolvesTo_takeException _)
  case swi3 => exact execCase_instr _ (evolvesTo_takeException _)
  case rti => exact execCase_pure _ evolves_returnFromException
  case cwai ii => exact execCase_cwai ii s
  case sync => exact ⟨_, rfl, .sync rfl⟩
  case lbra rrrr => exact execCase_pure _ (evolves_branch16 _ _)
  case lbrn rrrr => exact execCase_pure _ (evolves_branch16 _ _)
  case lbhi rrrr => exact execCase_pure _ (evolves_branch16 _ _)
  case lbls rrrr => exact execCase_pure _ (evolves_branch16 _ _)
  case lbhs rrrr => exact execCase_pure _ (evolves_branch16 _ _)
  case lblo rrrr => exact execCase_pure _ (evolves_branch16 _ _)
  case lbne rrrr => exact execCase_pure _ (evolves_branch16 _ _)
  case lbeq rrrr => exact execCase_pure _ (evolves_branch16 _ _)
  case lbvc rrrr => exact execCase_pure _ (evolves_branch16 _ _)
  case lbvs rrrr => exact execCase_pure _ (evolves_branch16 _ _)
  case lbpl rrrr => exact execCase_pure _ (evolves_branch16 _ _)
  case lbmi rrrr => exact execCase_pure _ (evolves_branch16 _ _)
  case lbge rrrr => exact execCase_pure _ (evolves_branch16 _ _)
  case lblt rrrr => exact execCase_pure _ (evolves_branch16 _ _)
  case lbgt rrrr => exact execCase_pure _ (evolves_branch16 _ _)
  case lble rrrr => exact execCase_pure _ (evolves_branch16 _ _)
  all_goals exact execCase_pure _ (evolves_branch8 _ _)

end Sys2Proof.Machine
end

