-- ==== Sys2Proof/Laws/Loader.lean ====
section
/-! SUPPORT. Loading into storage and the reset procedure (spec/70_reset_and_hazards.md R470 to R472). -/

namespace Sys2Proof.Machine

/-- `State.reset` is what the reset procedure of R470 gives on the reference configuration with `RESET_VALUES` all zero,
nothing listed in memory and no image loaded: the vector at $FFFE then reads $0000. -/
theorem reset_eq_powerOn : boot Config.reference ResetValues.zero [] [] { given := [], drawn := 0 } [] = some State.reset := by decide

/-- Everything a byte load can do (R472). -/
theorem loadByte_spec {s t : State} {a : Word} {v : Byte} (h : loadByte s a v = some t) :
    ∃ kind key, place s.cfg a = .cell kind key ∧ t = { s with mem := s.mem.write key v } := by
  unfold loadByte at h
  split at h
  · next kind key hk => exact ⟨kind, key, hk, (Option.some.inj h).symm⟩
  · simp at h
  · simp at h

theorem loadByte_peek_same {s t : State} {a : Word} {v : Byte} (hm : s.mem.wf) (h : loadByte s a v = some t) :
    t.peek a = some v := by
  obtain ⟨kind, key, hk, rfl⟩ := loadByte_spec h
  simp only [State.peek, hk, Memory.read_write_same hm]

theorem loadByte_wf {s t : State} {a : Word} {v : Byte} (hm : s.mem.wf) (h : loadByte s a v = some t) : t.mem.wf := by
  obtain ⟨kind, key, hk, rfl⟩ := loadByte_spec h
  exact Memory.wf_write hm _ _

theorem loadByte_cfg {s t : State} {a : Word} {v : Byte} (h : loadByte s a v = some t) : t.cfg = s.cfg := by
  obtain ⟨kind, key, hk, rfl⟩ := loadByte_spec h
  rfl

theorem loadByte_peek_other {s t : State} {a b : Word} {v : Byte} (h : loadByte s a v = some t)
    (hs : Separate s.cfg a b) : t.peek b = s.peek b := by
  obtain ⟨kind, key, hk, rfl⟩ := loadByte_spec h
  simp only [State.peek]
  split
  · next k2 key2 hb =>
    congr 1
    refine Memory.read_write_ne _ _ ?_
    rintro rfl
    have := place_cell_kind hk hb
    subst this
    exact hs (hk.trans hb.symm)
  · rfl
  · rfl

end Sys2Proof.Machine
end

