-- ==== Sys2Proof/Laws/PerInstr.lean ====
section
/-! SUPPORT. One lemma per instruction: every encoding takes one to five bytes (spec/30_encoding.md R110, R125). -/

namespace Sys2Proof.Laws.SizeBounds

/-- The instruction takes one to five bytes, whatever its operands. -/
def Statement (i : Instr) : Prop := 1 ≤ i.size ∧ i.size ≤ 5

theorem unprefixed {bs : List Byte} (h : 2 ≤ bs.length ∧ bs.length ≤ 4) : 1 ≤ bs.length ∧ bs.length ≤ 5 := by omega

theorem prefixed {b : Byte} {bs : List Byte} (h : 2 ≤ bs.length ∧ bs.length ≤ 4) :
    1 ≤ (b :: bs).length ∧ (b :: bs).length ≤ 5 := by
  rw [List.length_cons]
  omega

theorem indexed {b : Byte} {bs : List Byte} (h : 1 ≤ bs.length ∧ bs.length ≤ 3) :
    1 ≤ (b :: bs).length ∧ (b :: bs).length ≤ 5 := by
  rw [List.length_cons]
  omega

theorem lda (src : Src8) : Statement (.lda src) := unprefixed (encodeSrc8_length _ _ _ _ _)
theorem ldb (src : Src8) : Statement (.ldb src) := unprefixed (encodeSrc8_length _ _ _ _ _)
theorem ldd (src : Src16) : Statement (.ldd src) := unprefixed (encodeSrc16_length _ _ _ _ _)
theorem ldx (src : Src16) : Statement (.ldx src) := unprefixed (encodeSrc16_length _ _ _ _ _)
theorem ldy (src : Src16) : Statement (.ldy src) := prefixed (encodeSrc16_length _ _ _ _ _)
theorem ldu (src : Src16) : Statement (.ldu src) := unprefixed (encodeSrc16_length _ _ _ _ _)
theorem lds (src : Src16) : Statement (.lds src) := prefixed (encodeSrc16_length _ _ _ _ _)
theorem sta (m : Mem) : Statement (.sta m) := unprefixed (encodeMem_length _ _ _ _)
theorem stb (m : Mem) : Statement (.stb m) := unprefixed (encodeMem_length _ _ _ _)
theorem std (m : Mem) : Statement (.std m) := unprefixed (encodeMem_length _ _ _ _)
theorem stx (m : Mem) : Statement (.stx m) := unprefixed (encodeMem_length _ _ _ _)
theorem sty (m : Mem) : Statement (.sty m) := prefixed (encodeMem_length _ _ _ _)
theorem stu (m : Mem) : Statement (.stu m) := unprefixed (encodeMem_length _ _ _ _)
theorem sts (m : Mem) : Statement (.sts m) := prefixed (encodeMem_length _ _ _ _)
theorem leax (x : Indexed) : Statement (.leax x) := indexed (encodeIndexed_length _)
theorem leay (x : Indexed) : Statement (.leay x) := indexed (encodeIndexed_length _)
theorem leau (x : Indexed) : Statement (.leau x) := indexed (encodeIndexed_length _)
theorem leas (x : Indexed) : Statement (.leas x) := indexed (encodeIndexed_length _)
theorem adda (src : Src8) : Statement (.adda src) := unprefixed (encodeSrc8_length _ _ _ _ _)
theorem addb (src : Src8) : Statement (.addb src) := unprefixed (encodeSrc8_length _ _ _ _ _)
theorem adca (src : Src8) : Statement (.adca src) := unprefixed (encodeSrc8_length _ _ _ _ _)
theorem adcb (src : Src8) : Statement (.adcb src) := unprefixed (encodeSrc8_length _ _ _ _ _)
theorem suba (src : Src8) : Statement (.suba src) := unprefixed (encodeSrc8_length _ _ _ _ _)
theorem subb (src : Src8) : Statement (.subb src) := unprefixed (encodeSrc8_length _ _ _ _ _)
theorem sbca (src : Src8) : Statement (.sbca src) := unprefixed (encodeSrc8_length _ _ _ _ _)
theorem sbcb (src : Src8) : Statement (.sbcb src) := unprefixed (encodeSrc8_length _ _ _ _ _)
theorem cmpa (src : Src8) : Statement (.cmpa src) := unprefixed (encodeSrc8_length _ _ _ _ _)
theorem cmpb (src : Src8) : Statement (.cmpb src) := unprefixed (encodeSrc8_length _ _ _ _ _)
theorem anda (src : Src8) : Statement (.anda src) := unprefixed (encodeSrc8_length _ _ _ _ _)
theorem andb (src : Src8) : Statement (.andb src) := unprefixed (encodeSrc8_length _ _ _ _ _)
theorem bita (src : Src8) : Statement (.bita src) := unprefixed (encodeSrc8_length _ _ _ _ _)
theorem bitb (src : Src8) : Statement (.bitb src) := unprefixed (encodeSrc8_length _ _ _ _ _)
theorem ora (src : Src8) : Statement (.ora src) := unprefixed (encodeSrc8_length _ _ _ _ _)
theorem orb (src : Src8) : Statement (.orb src) := unprefixed (encodeSrc8_length _ _ _ _ _)
theorem eora (src : Src8) : Statement (.eora src) := unprefixed (encodeSrc8_length _ _ _ _ _)
theorem eorb (src : Src8) : Statement (.eorb src) := unprefixed (encodeSrc8_length _ _ _ _ _)
theorem daa : Statement .daa := ⟨by decide, by decide⟩
theorem mul : Statement .mul := ⟨by decide, by decide⟩
theorem sex : Statement .sex := ⟨by decide, by decide⟩
theorem addd (src : Src16) : Statement (.addd src) := unprefixed (encodeSrc16_length _ _ _ _ _)
theorem subd (src : Src16) : Statement (.subd src) := unprefixed (encodeSrc16_length _ _ _ _ _)
theorem cmpd (src : Src16) : Statement (.cmpd src) := prefixed (encodeSrc16_length _ _ _ _ _)
theorem cmpx (src : Src16) : Statement (.cmpx src) := unprefixed (encodeSrc16_length _ _ _ _ _)
theorem cmpy (src : Src16) : Statement (.cmpy src) := prefixed (encodeSrc16_length _ _ _ _ _)
theorem cmpu (src : Src16) : Statement (.cmpu src) := prefixed (encodeSrc16_length _ _ _ _ _)
theorem cmps (src : Src16) : Statement (.cmps src) := prefixed (encodeSrc16_length _ _ _ _ _)
theorem abx : Statement .abx := ⟨by decide, by decide⟩
theorem neg (m : Mem) : Statement (.neg m) := unprefixed (encodeMem_length _ _ _ _)
theorem nega : Statement .nega := ⟨by decide, by decide⟩
theorem negb : Statement .negb := ⟨by decide, by decide⟩
theorem com (m : Mem) : Statement (.com m) := unprefixed (encodeMem_length _ _ _ _)
theorem coma : Statement .coma := ⟨by decide, by decide⟩
theorem comb : Statement .comb := ⟨by decide, by decide⟩
theorem lsr (m : Mem) : Statement (.lsr m) := unprefixed (encodeMem_length _ _ _ _)
theorem lsra : Statement .lsra := ⟨by decide, by decide⟩
theorem lsrb : Statement .lsrb := ⟨by decide, by decide⟩
theorem ror (m : Mem) : Statement (.ror m) := unprefixed (encodeMem_length _ _ _ _)
theorem rora : Statement .rora := ⟨by decide, by decide⟩
theorem rorb : Statement .rorb := ⟨by decide, by decide⟩
theorem asr (m : Mem) : Statement (.asr m) := unprefixed (encodeMem_length _ _ _ _)
theorem asra : Statement .asra := ⟨by decide, by decide⟩
theorem asrb : Statement .asrb := ⟨by decide, by decide⟩
theorem asl (m : Mem) : Statement (.asl m) := unprefixed (encodeMem_length _ _ _ _)
theorem asla : Statement .asla := ⟨by decide, by decide⟩
theorem aslb : Statement .aslb := ⟨by decide, by decide⟩
theorem rol (m : Mem) : Statement (.rol m) := unprefixed (encodeMem_length _ _ _ _)
theorem rola : Statement .rola := ⟨by decide, by decide⟩
theorem rolb : Statement .rolb := ⟨by decide, by decide⟩
theorem dec (m : Mem) : Statement (.dec m) := unprefixed (encodeMem_length _ _ _ _)
theorem deca : Statement .deca := ⟨by decide, by decide⟩
theorem decb : Statement .decb := ⟨by decide, by decide⟩
theorem inc (m : Mem) : Statement (.inc m) := unprefixed (encodeMem_length _ _ _ _)
theorem inca : Statement .inca := ⟨by decide, by decide⟩
theorem incb : Statement .incb := ⟨by decide, by decide⟩
theorem tst (m : Mem) : Statement (.tst m) := unprefixed (encodeMem_length _ _ _ _)
theorem tsta : Statement .tsta := ⟨by decide, by decide⟩
theorem tstb : Statement .tstb := ⟨by decide, by decide⟩
theorem clr (m : Mem) : Statement (.clr m) := unprefixed (encodeMem_length _ _ _ _)
theorem clra : Statement .clra := ⟨by decide, by decide⟩
theorem clrb : Statement .clrb := ⟨by decide, by decide⟩
theorem bra (rr : Byte) : Statement (.bra rr) := ⟨Nat.le_add_left 1 _, by show 2 ≤ 5; decide⟩
theorem brn (rr : Byte) : Statement (.brn rr) := ⟨Nat.le_add_left 1 _, by show 2 ≤ 5; decide⟩
theorem bhi (rr : Byte) : Statement (.bhi rr) := ⟨Nat.le_add_left 1 _, by show 2 ≤ 5; decide⟩
theorem bls (rr : Byte) : Statement (.bls rr) := ⟨Nat.le_add_left 1 _, by show 2 ≤ 5; decide⟩
theorem bhs (rr : Byte) : Statement (.bhs rr) := ⟨Nat.le_add_left 1 _, by show 2 ≤ 5; decide⟩
theorem blo (rr : Byte) : Statement (.blo rr) := ⟨Nat.le_add_left 1 _, by show 2 ≤ 5; decide⟩
theorem bne (rr : Byte) : Statement (.bne rr) := ⟨Nat.le_add_left 1 _, by show 2 ≤ 5; decide⟩
theorem beq (rr : Byte) : Statement (.beq rr) := ⟨Nat.le_add_left 1 _, by show 2 ≤ 5; decide⟩
theorem bvc (rr : Byte) : Statement (.bvc rr) := ⟨Nat.le_add_left 1 _, by show 2 ≤ 5; decide⟩
theorem bvs (rr : Byte) : Statement (.bvs rr) := ⟨Nat.le_add_left 1 _, by show 2 ≤ 5; decide⟩
theorem bpl (rr : Byte) : Statement (.bpl rr) := ⟨Nat.le_add_left 1 _, by show 2 ≤ 5; decide⟩
theorem bmi (rr : Byte) : Statement (.bmi rr) := ⟨Nat.le_add_left 1 _, by show 2 ≤ 5; decide⟩
theorem bge (rr : Byte) : Statement (.bge rr) := ⟨Nat.le_add_left 1 _, by show 2 ≤ 5; decide⟩
theorem blt (rr : Byte) : Statement (.blt rr) := ⟨Nat.le_add_left 1 _, by show 2 ≤ 5; decide⟩
theorem bgt (rr : Byte) : Statement (.bgt rr) := ⟨Nat.le_add_left 1 _, by show 2 ≤ 5; decide⟩
theorem ble (rr : Byte) : Statement (.ble rr) := ⟨Nat.le_add_left 1 _, by show 2 ≤ 5; decide⟩
theorem lbra (rrrr : Word) : Statement (.lbra rrrr) := ⟨Nat.le_add_left 1 _, by show 3 ≤ 5; decide⟩
theorem lbrn (rrrr : Word) : Statement (.lbrn rrrr) := ⟨Nat.le_add_left 1 _, by show 4 ≤ 5; decide⟩
theorem lbhi (rrrr : Word) : Statement (.lbhi rrrr) := ⟨Nat.le_add_left 1 _, by show 4 ≤ 5; decide⟩
theorem lbls (rrrr : Word) : Statement (.lbls rrrr) := ⟨Nat.le_add_left 1 _, by show 4 ≤ 5; decide⟩
theorem lbhs (rrrr : Word) : Statement (.lbhs rrrr) := ⟨Nat.le_add_left 1 _, by show 4 ≤ 5; decide⟩
theorem lblo (rrrr : Word) : Statement (.lblo rrrr) := ⟨Nat.le_add_left 1 _, by show 4 ≤ 5; decide⟩
theorem lbne (rrrr : Word) : Statement (.lbne rrrr) := ⟨Nat.le_add_left 1 _, by show 4 ≤ 5; decide⟩
theorem lbeq (rrrr : Word) : Statement (.lbeq rrrr) := ⟨Nat.le_add_left 1 _, by show 4 ≤ 5; decide⟩
theorem lbvc (rrrr : Word) : Statement (.lbvc rrrr) := ⟨Nat.le_add_left 1 _, by show 4 ≤ 5; decide⟩
theorem lbvs (rrrr : Word) : Statement (.lbvs rrrr) := ⟨Nat.le_add_left 1 _, by show 4 ≤ 5; decide⟩
theorem lbpl (rrrr : Word) : Statement (.lbpl rrrr) := ⟨Nat.le_add_left 1 _, by show 4 ≤ 5; decide⟩
theorem lbmi (rrrr : Word) : Statement (.lbmi rrrr) := ⟨Nat.le_add_left 1 _, by show 4 ≤ 5; decide⟩
theorem lbge (rrrr : Word) : Statement (.lbge rrrr) := ⟨Nat.le_add_left 1 _, by show 4 ≤ 5; decide⟩
theorem lblt (rrrr : Word) : Statement (.lblt rrrr) := ⟨Nat.le_add_left 1 _, by show 4 ≤ 5; decide⟩
theorem lbgt (rrrr : Word) : Statement (.lbgt rrrr) := ⟨Nat.le_add_left 1 _, by show 4 ≤ 5; decide⟩
theorem lble (rrrr : Word) : Statement (.lble rrrr) := ⟨Nat.le_add_left 1 _, by show 4 ≤ 5; decide⟩
theorem bsr (rr : Byte) : Statement (.bsr rr) := ⟨Nat.le_add_left 1 _, by show 2 ≤ 5; decide⟩
theorem lbsr (rrrr : Word) : Statement (.lbsr rrrr) := ⟨Nat.le_add_left 1 _, by show 3 ≤ 5; decide⟩
theorem jmp (m : Mem) : Statement (.jmp m) := unprefixed (encodeMem_length _ _ _ _)
theorem jsr (m : Mem) : Statement (.jsr m) := unprefixed (encodeMem_length _ _ _ _)
theorem rts : Statement .rts := ⟨by decide, by decide⟩
theorem tfr (r1 r2 : RegCode) : Statement (.tfr r1 r2) := ⟨Nat.le_add_left 1 _, by show 2 ≤ 5; decide⟩
theorem exg (r1 r2 : RegCode) : Statement (.exg r1 r2) := ⟨Nat.le_add_left 1 _, by show 2 ≤ 5; decide⟩
theorem pshs (pb : Byte) : Statement (.pshs pb) := ⟨Nat.le_add_left 1 _, by show 2 ≤ 5; decide⟩
theorem puls (pb : Byte) : Statement (.puls pb) := ⟨Nat.le_add_left 1 _, by show 2 ≤ 5; decide⟩
theorem pshu (pb : Byte) : Statement (.pshu pb) := ⟨Nat.le_add_left 1 _, by show 2 ≤ 5; decide⟩
theorem pulu (pb : Byte) : Statement (.pulu pb) := ⟨Nat.le_add_left 1 _, by show 2 ≤ 5; decide⟩
theorem andcc (ii : Byte) : Statement (.andcc ii) := ⟨Nat.le_add_left 1 _, by show 2 ≤ 5; decide⟩
theorem orcc (ii : Byte) : Statement (.orcc ii) := ⟨Nat.le_add_left 1 _, by show 2 ≤ 5; decide⟩
theorem nop : Statement .nop := ⟨by decide, by decide⟩
theorem swi : Statement .swi := ⟨by decide, by decide⟩
theorem swi2 : Statement .swi2 := ⟨by decide, by decide⟩
theorem swi3 : Statement .swi3 := ⟨by decide, by decide⟩
theorem rti : Statement .rti := ⟨by decide, by decide⟩
theorem cwai (ii : Byte) : Statement (.cwai ii) := ⟨Nat.le_add_left 1 _, by show 2 ≤ 5; decide⟩
theorem sync : Statement .sync := ⟨by decide, by decide⟩

end Sys2Proof.Laws.SizeBounds
end

