-- ==== Sys2Proof/Laws/Pushes.lean ====
section
/-! SUPPORT. Pushes with their ROM-write fault: `PushesTo k s is x` says that x is the outcome of pushing the items `is`
at s, both where every byte takes writes and where one does not (R82, R421). The interrupt frames and the register lists
are pushes in this sense. -/

namespace Sys2Proof.Machine

/-- x is what comes of pushing the items at s: the pushed state where every byte takes writes, and otherwise the fault at
the first byte that does not, with the bytes before it written. -/
def PushesTo (k : Stack) (s : State) (is : List StackItem) (x : Access) : Prop :=
  (s.Writable (pushWrites (k.get s.regs) is) → x = .ok (pushed k s is)) ∧
  ∀ before a v after, pushWrites (k.get s.regs) is = before ++ (a, v) :: after → s.Writable before →
    s.romFaults a = true → ∃ r, x = .romFault a { s.storeAll before with regs := r }

theorem PushesTo.nil (k : Stack) (s : State) : PushesTo k s [] (.ok s) := by
  refine ⟨fun _ => by rw [pushed_nil], fun before a v after h => ?_⟩
  simp [pushWrites] at h

/-- The place of the first write that faults, when a list of writes is followed by another. -/
theorem append_eq_split {α : Type} {xs ys before after : List α} {w : α} (h : xs ++ ys = before ++ w :: after) :
    (∃ rest, xs = before ++ w :: rest) ∨ ∃ mid, before = xs ++ mid ∧ ys = mid ++ w :: after := by
  induction xs generalizing before with
  | nil => exact .inr ⟨before, rfl, h⟩
  | cons x xs ih =>
    cases before with
    | nil => exact .inl ⟨xs, by simp at h; simp [h.1]⟩
    | cons b before =>
      simp only [List.cons_append, List.cons.injEq] at h
      rcases ih h.2 with ⟨rest, hr⟩ | ⟨mid, hm, hy⟩
      · exact .inl ⟨rest, by rw [h.1, hr]; rfl⟩
      · exact .inr ⟨mid, by rw [h.1, hm]; rfl, hy⟩

theorem storeAll_pushed (k : Stack) (s : State) (is : List StackItem) (mid : List (Word × Byte)) :
    (pushed k s is).storeAll mid =
      { s.storeAll (pushWrites (k.get s.regs) is ++ mid) with regs := (pushed k s is).regs } := by
  rw [pushed_regs, pushed, Stack.set_eq, storeAll_append]
  generalize (k.set s (k.get s.regs - BitVec.ofNat 16 (itemBytes is))).regs = g
  rw [storeAll_withRegs s g, storeAll_withRegs (s.storeAll _) g]

/-- A byte that takes no writes, pushed. -/
theorem push8_pushed_fault {k : Stack} {s : State} {is : List StackItem} {v : Byte}
    (h : s.romFaults (k.get s.regs - BitVec.ofNat 16 (itemBytes is) - 1) = true) :
    ∃ r, push8 k v (pushed k s is) = .romFault (k.get s.regs - BitVec.ofNat 16 (itemBytes is) - 1)
      { s.storeAll (pushWrites (k.get s.regs) is) with regs := r } := by
  simp only [push8, pushed_regs, Stack.get_set]
  rw [write8_of_romFaults (by rw [← h]; exact romFaults_congr (by simp) _)]
  rw [Stack.set_eq]
  generalize (k.set (pushed k s is) _).regs = g
  have := storeAll_pushed k s is []
  rw [storeAll_nil, List.append_nil] at this
  exact ⟨g, by rw [this]⟩

/-- A word whose high or low byte takes no writes, pushed. -/
theorem push16_pushed_fault {k : Stack} {s : State} {is : List StackItem} {w : Word} {mid after : List (Word × Byte)}
    {a : Word} {v : Byte}
    (hm : (StackItem.word w).writes (k.get s.regs - BitVec.ofNat 16 (itemBytes is)) = mid ++ (a, v) :: after)
    (hw : s.Writable mid) (h : s.romFaults a = true) :
    ∃ r, push16 k w (pushed k s is) = .romFault a
      { s.storeAll (pushWrites (k.get s.regs) is ++ mid) with regs := r } := by
  have e : k.get s.regs - BitVec.ofNat 16 (itemBytes is) - 2 + 1 = k.get s.regs - BitVec.ofNat 16 (itemBytes is) - 1 := by
    bv_omega
  simp only [push16, pushed_regs, Stack.get_set, State.write16]
  rw [Stack.set_eq]
  generalize (k.set (pushed k s is) (k.get s.regs - BitVec.ofNat 16 (itemBytes is) - 2)).regs = g
  have hs : ∀ ws, State.storeAll { pushed k s is with regs := g } ws =
      { s.storeAll (pushWrites (k.get s.regs) is ++ ws) with regs := g } := by
    intro ws
    rw [storeAll_withRegs, storeAll_pushed]
  have hf : ∀ b, State.romFaults { pushed k s is with regs := g } b = s.romFaults b :=
    fun b => romFaults_congr (by simp) b
  cases mid with
  | nil =>
    simp only [StackItem.writes, List.nil_append, List.cons.injEq, Prod.mk.injEq] at hm
    obtain ⟨⟨rfl, -⟩, -⟩ := hm
    rw [write8_of_romFaults (by rw [hf]; exact h), Access.romFault_andThen]
    have := hs []
    rw [storeAll_nil] at this
    exact ⟨g, by rw [this]⟩
  | cons x mid =>
    cases mid with
    | cons y mid => simp [StackItem.writes] at hm
    | nil =>
      simp only [StackItem.writes, List.cons_append, List.nil_append, List.cons.injEq, Prod.mk.injEq] at hm
      obtain ⟨rfl, ⟨rfl, -⟩, -⟩ := hm
      rw [write8_of_not_romFaults (by rw [hf]; exact hw (k.get s.regs - BitVec.ofNat 16 (itemBytes is) - 2, w.extractLsb' 8 8) (by simp)), Access.ok_andThen, e]
      rw [write8_of_romFaults (by rw [romFaults_congr (store8_cfg _ _ _), hf]; exact h)]
      have := hs [(k.get s.regs - BitVec.ofNat 16 (itemBytes is) - 2, hiByte w)]
      rw [storeAll_cons, storeAll_nil] at this
      exact ⟨g, congrArg _ this⟩

/-- A push after pushes. -/
theorem PushesTo.andThen {k : Stack} {s : State} {is : List StackItem} {x : Access} (h : PushesTo k s is x)
    (i : StackItem) {f : State → Access}
    (hf : f (pushed k s is) = match i with
      | .byte v => push8 k v (pushed k s is)
      | .word w => push16 k w (pushed k s is)) :
    PushesTo k s (is ++ [i]) (x.andThen f) := by
  refine ⟨fun hw => ?_, fun before a v after hs hw ha => ?_⟩
  · rw [h.1 (Writable.left hw), Access.ok_andThen, hf]
    cases i with
    | byte v => exact push8_pushed hw
    | word w => exact push16_pushed hw
  · rw [pushWrites_append] at hs
    simp only [pushWrites, List.append_nil] at hs
    rcases append_eq_split hs with ⟨rest, hr⟩ | ⟨mid, rfl, hm⟩
    · obtain ⟨r, hr⟩ := h.2 before a v rest hr hw ha
      exact ⟨r, by rw [hr]; rfl⟩
    · have hwl : s.Writable (pushWrites (k.get s.regs) is) := fun w hm => hw w (List.mem_append_left _ hm)
      have hwm : s.Writable mid := fun w hm => hw w (List.mem_append_right _ hm)
      rw [h.1 hwl, Access.ok_andThen, hf]
      cases i with
      | byte b =>
        cases mid with
        | cons y mid => simp [StackItem.writes] at hm
        | nil =>
          simp only [StackItem.writes, List.nil_append, List.cons.injEq, Prod.mk.injEq] at hm
          obtain ⟨⟨rfl, -⟩, -⟩ := hm
          rw [List.append_nil]
          exact push8_pushed_fault ha
      | word w => exact push16_pushed_fault hm hwm ha

/-- One place of a register list. -/
theorem PushesTo.pushIf_byte {k : Stack} {s : State} {is : List StackItem} {x : Access} (h : PushesTo k s is x) (b : Bool)
    (f : Regs → Byte) (hf : ∀ v, f (k.set s v).regs = f s.regs) :
    PushesTo k s (is ++ if b then [.byte (f s.regs)] else []) (x.andThen (pushIf b fun u => push8 k (f u.regs) u)) := by
  cases b with
  | false => rw [if_neg (by simp), List.append_nil]; cases x <;> exact h
  | true => exact h.andThen (.byte (f s.regs)) (by simp only [pushIf, if_true]; rw [pushed_regs, hf])

theorem PushesTo.pushIf_word {k : Stack} {s : State} {is : List StackItem} {x : Access} (h : PushesTo k s is x) (b : Bool)
    (f : Regs → Word) (hf : ∀ v, f (k.set s v).regs = f s.regs) :
    PushesTo k s (is ++ if b then [.word (f s.regs)] else []) (x.andThen (pushIf b fun u => push16 k (f u.regs) u)) := by
  cases b with
  | false => rw [if_neg (by simp), List.append_nil]; cases x <;> exact h
  | true => exact h.andThen (.word (f s.regs)) (by simp only [pushIf, if_true]; rw [pushed_regs, hf])

/-- The pushes of a register list (R362, R364). -/
theorem pushList_pushesTo (k : Stack) (pb : Byte) (s : State) :
    PushesTo k s (listItems pb (k.other.get s.regs) s.regs) (pushList k pb s) := by
  have h := PushesTo.nil k s
  have h := h.pushIf_word (pb.getLsbD 7) (fun r => r.pc) (by cases k <;> simp)
  have h := h.pushIf_word (pb.getLsbD 6) (fun r => k.other.get r) (by cases k <;> simp [Stack.other])
  have h := h.pushIf_word (pb.getLsbD 5) (fun r => r.y) (by cases k <;> simp)
  have h := h.pushIf_word (pb.getLsbD 4) (fun r => r.x) (by cases k <;> simp)
  have h := h.pushIf_byte (pb.getLsbD 3) (fun r => r.dp) (by cases k <;> simp)
  have h := h.pushIf_byte (pb.getLsbD 2) (fun r => r.b) (by cases k <;> simp)
  have h := h.pushIf_byte (pb.getLsbD 1) (fun r => r.a) (by cases k <;> simp)
  exact h.pushIf_byte (pb.getLsbD 0) (fun r => r.cc) (by cases k <;> simp)

/-- The entire frame (R431). -/
theorem pushEntire_pushesTo (s : State) : PushesTo .s s (entireFrame s.regs) (pushEntire s) := by
  have := pushList_pushesTo .s 0xFF#8 s
  rw [show Stack.other .s = .u from rfl, Stack.get_u,
    show listItems 0xFF#8 s.regs.u s.regs = entireFrame s.regs by simp [listItems, entireFrame]] at this
  exact this

/-- The short frame (R432). -/
theorem pushShort_pushesTo (s : State) : PushesTo .s s (shortFrame s.regs) (pushShort s) := by
  have h := (PushesTo.nil .s s).pushIf_word true (fun r => r.pc) (by simp)
  exact h.pushIf_byte true (fun r => r.cc) (by simp)

/-- The ROM-write fault of an interrupt entry (R421): the frame is written up to the byte that takes no writes. -/
theorem takeException_romFault {e : Event} {s : State} {before after : List (Word × Byte)} {a : Word} {v : Byte}
    (hs : pushWrites s.regs.s ((if e.entire then entireFrame else shortFrame)
      { s.regs with cc := withE e.entire s.regs.cc }) = before ++ (a, v) :: after)
    (hw : s.Writable before) (ha : s.romFaults a = true) :
    ∃ r, takeException e s = .romFault a { s.storeAll before with regs := r } := by
  have h : s.setFlag .e e.entire = { s with regs := { s.regs with cc := withE e.entire s.regs.cc } } := by
    rw [← ccSet_e]
    rfl
  have hx : ∀ {x : Access}, (∃ r, x = .romFault a
      { State.storeAll { s with regs := { s.regs with cc := withE e.entire s.regs.cc } } before with regs := r }) →
      ∀ f, ∃ r, x.andThen f = .romFault a { s.storeAll before with regs := r } := by
    rintro x ⟨r, rfl⟩ f
    rw [storeAll_withRegs]
    exact ⟨r, rfl⟩
  unfold takeException
  dsimp only
  rw [h]
  cases he : e.entire with
  | true =>
    rw [he] at hs hx
    simp only [if_true] at hs ⊢
    exact hx ((pushEntire_pushesTo _).2 _ _ _ _ hs hw ha) _
  | false =>
    rw [he] at hs hx
    simp only [Bool.false_eq_true, if_false] at hs ⊢
    exact hx ((pushShort_pushesTo _).2 _ _ _ _ hs hw ha) _

/-- A return address (R343, R344, R346). -/
theorem push16_pushesTo (k : Stack) (w : Word) (s : State) : PushesTo k s [.word w] (push16 k w s) :=
  (PushesTo.nil k s).andThen (.word w) (f := fun u => push16 k w u) rfl

end Sys2Proof.Machine
end

