-- ==== Sys2Proof/Laws/RunLoop.lean ====
section
/-! SUPPORT. Everything the stages of an iteration can do, said once per stage (spec/60_exceptions.md R400 to R414). -/

namespace Sys2Proof.Machine

/-! ### The host's input (R10) -/

/-- An input already given is the one an iteration takes, and the others remain. -/
theorem nextInput_given {s : State} {h : HostInput} {hs : List HostInput} (e : s.inbox.given = h :: hs) :
    nextInput s = h ∧ dropInput s = { s with inbox := { s.inbox with given := hs } } := by
  simp only [nextInput, dropInput, Inbox.rest, e, and_self]

/-- With none given an iteration takes the next of the host's draws. -/
theorem nextInput_drawn {s : State} (e : s.inbox.given = []) :
    nextInput s = Config.hostInput s.inbox.drawn ∧
    dropInput s = { s with inbox := { s.inbox with drawn := s.inbox.drawn + 1 } } := by
  simp only [nextInput, dropInput, Inbox.rest, e, and_self]

/-! ### Polls (R404) -/

/-- A poll changes the serial device and the sources alone, and keeps the number of sources. -/
theorem pollOne_frame (h : HostInput) (d : DeviceId) (s : State) :
    pollOne h d s = { s with serial := (pollOne h d s).serial, sources := (pollOne h d s).sources } ∧
    (pollOne h d s).sources.length = s.sources.length := by
  cases d <;> simp [pollOne]

theorem pollList_frame (h : HostInput) (ds seen : List DeviceId) (s : State) :
    pollList h seen ds s =
      { s with serial := (pollList h seen ds s).serial, sources := (pollList h seen ds s).sources } ∧
    (pollList h seen ds s).sources.length = s.sources.length := by
  induction ds generalizing seen s with
  | nil => exact ⟨rfl, rfl⟩
  | cons d ds ih =>
    unfold pollList
    split
    · exact ih _ _
    · obtain ⟨h1, h2⟩ := pollOne_frame h d s
      obtain ⟨h3, h4⟩ := ih (d :: seen) (pollOne h d s)
      refine ⟨?_, h4.trans h2⟩
      generalize pollList h (d :: seen) ds (pollOne h d s) = x at h3 ⊢
      rw [h1] at h3
      rw [h3]

/-- A poll round changes the serial device and the sources alone. -/
theorem pollAll_frame (h : HostInput) (s : State) :
    pollAll h s = { s with serial := (pollAll h s).serial, sources := (pollAll h s).sources } ∧
    (pollAll h s).sources.length = s.sources.length := pollList_frame h _ [] s

/-! ### Fetch (R412) -/

theorem countFetch_eq (s : State) : countFetch s = { s with execCount := (countFetch s).execCount } := by
  unfold countFetch
  split <;> rfl

/-- What the count of a fetch adds to the count of an address. -/
theorem countAt_countFetch (s : State) (a : Nat) :
    countAt (countFetch s).execCount a =
      countAt s.execCount a + if s.cfg.profiling = true ∧ a = s.regs.pc.toNat then 1 else 0 := by
  unfold countFetch
  split
  · next h => simp only [countAt_bumpCount, h, true_and]
  · next h => rw [if_neg fun hc => h hc.1, Nat.add_zero]

/-- Everything a fetch of at most n more bytes does: it reads bytes in order, each time that the bytes so far ask for one
more, and answers what the decoder makes of them. -/
theorem fetchFrom_spec (n : Nat) (got : List Byte) (a : Word) (s : State) (hn : 0 < n) :
    ∃ m, m < n ∧ (fetchFrom n got a s).bytes = got ++ (s.readBytes a (m + 1)).1 ∧
      (fetchFrom n got a s).state = (s.readBytes a (m + 1)).2 ∧
      (fetchFrom n got a s).answer = decode (fetchFrom n got a s).bytes ∧
      (m + 1 = n ∨ (fetchFrom n got a s).answer ≠ .error .truncated) ∧
      ∀ k, k < m → decode (got ++ (s.readBytes a (m + 1)).1.take (k + 1)) = .error .truncated := by
  induction n generalizing got a s with
  | zero => omega
  | succ n ih =>
    by_cases ht : decode (got ++ [(s.read8 a).1]) = .error .truncated
    · have hf : fetchFrom (n + 1) got a s = fetchFrom n (got ++ [(s.read8 a).1]) (a + 1) (s.read8 a).2 := by
        simp only [fetchFrom, ht]
      rw [hf]
      rcases Nat.eq_zero_or_pos n with rfl | hpos
      · exact ⟨0, by omega, rfl, rfl, ht.symm, .inl rfl, fun k hk => absurd hk (by omega)⟩
      · obtain ⟨m, h1, h2, h3, h4, h5, h6⟩ := ih (got ++ [(s.read8 a).1]) (a + 1) (s.read8 a).2 hpos
        refine ⟨m + 1, by omega, by rw [h2, List.append_assoc]; rfl, h3, h4, h5.imp_left (by omega), fun k hk => ?_⟩
        rw [show (s.readBytes a (m + 1 + 1)).1 = (s.read8 a).1 :: ((s.read8 a).2.readBytes (a + 1) (m + 1)).1 from rfl,
          List.take_succ_cons]
        cases k with
        | zero => exact ht
        | succ k =>
          have := h6 k (by omega)
          rwa [List.append_assoc] at this
    · have hf : fetchFrom (n + 1) got a s =
          { bytes := got ++ [(s.read8 a).1], answer := decode (got ++ [(s.read8 a).1]), state := (s.read8 a).2 } := by
        unfold fetchFrom
        dsimp only
        split
        · next h => exact absurd h ht
        · rfl
      rw [hf]
      exact ⟨0, by omega, rfl, rfl, rfl, .inr ht, fun k hk => absurd hk (by omega)⟩

/-- Everything a fetch does (R91, R412): it reads bytes from PC on, the last of which is the first after which the decoder
asks for no more, and answers what the decoder makes of them. -/
theorem fetch_spec (s : State) :
    s.readBytes s.regs.pc (fetch s).bytes.length = ((fetch s).bytes, (fetch s).state) ∧
    (fetch s).answer = decode (fetch s).bytes ∧ (fetch s).answer ≠ .error .truncated ∧
    ∀ k, k < (fetch s).bytes.length → decode ((fetch s).bytes.take k) = .error .truncated := by
  obtain ⟨m, h1, h2, h3, h4, h5, h6⟩ := fetchFrom_spec 5 [] s.regs.pc s (by omega)
  rw [List.nil_append] at h2
  have hl : (fetch s).bytes.length = m + 1 := by rw [fetch, h2, readBytes_length]
  refine ⟨by rw [hl]; exact Prod.ext h2.symm h3.symm, h4, fun ht => ?_, fun k hk => ?_⟩
  · have := decode_truncated_length (h4.symm.trans ht)
    rw [show (fetchFrom 5 [] s.regs.pc s).bytes.length = m + 1 from hl] at this
    exact h5.elim (by omega) fun h => h ht
  · cases k with
    | zero => rfl
    | succ k =>
      have := h6 k (by omega)
      rwa [List.nil_append, ← h2] at this

theorem fetch_onlyReads (s : State) : OnlyReads s (fetch s).state := by
  have := readBytes_onlyReads (fetch s).bytes.length s s.regs.pc
  rwa [(fetch_spec s).1] at this

/-- Bytes of storage at PC that the decoder makes something of, and of no shorter front part: the fetch reads exactly
them and changes nothing. -/
theorem fetch_of_peek {s : State} {bs : List Byte} (hd : decode bs ≠ .error .truncated)
    (hk : ∀ k, k < bs.length → decode (bs.take k) = .error .truncated)
    (h : ∀ k, k < bs.length → s.peek (s.regs.pc + BitVec.ofNat 16 k) = bs[k]?) :
    fetch s = { bytes := bs, answer := decode bs, state := s } := by
  obtain ⟨h1, h2, h3, h4⟩ := fetch_spec s
  have hr : ∀ n, n ≤ bs.length → s.readBytes s.regs.pc n = (bs.take n, s) := by
    intro n hn
    have := readBytes_of_peek (bs.take n) s s.regs.pc fun k hk' => by
      rw [List.length_take] at hk'
      rw [h k (by omega), List.getElem?_eq_getElem (by omega), List.getElem_take]
    rwa [List.length_take, Nat.min_eq_left hn] at this
  have hle : bs.length ≤ (fetch s).bytes.length := by
    by_contra hlt
    have hb := congrArg Prod.fst (h1.symm.trans (hr _ (by omega)))
    exact h3 (h2.trans ((congrArg decode hb).trans (hk _ (by omega))))
  have hbs : (fetch s).bytes.take bs.length = bs := by
    have := readBytes_take hle s s.regs.pc
    rwa [h1, hr _ le_rfl, List.take_length] at this
  have hlen : (fetch s).bytes.length = bs.length := by
    by_contra hne
    have := h4 bs.length (by omega)
    rw [hbs] at this
    exact hd this
  rw [hlen, hr _ le_rfl, List.take_length] at h1
  generalize fetch s = f at h1 h2
  obtain ⟨_, _, _⟩ := f
  obtain ⟨rfl, rfl⟩ := Prod.mk.inj h1
  exact congrArg (Fetched.mk _ · _) h2

/-! ### The end of an instruction or an entry (R414, R421) -/

theorem addCycles_eq (n : Nat) (t : State) : ∃ c, addCycles n t = { t with cycles := c } ∧ t.cycles ≤ c := by
  unfold addCycles
  split
  · exact ⟨_, rfl, Nat.le_add_right _ _⟩
  · exact ⟨t.cycles, rfl, le_rfl⟩

theorem addCycles_of_running (n : Nat) {t : State} (h : t.status = .running) :
    addCycles n t = { t with cycles := t.cycles + n } := by
  simp only [addCycles, h]

/-- Everything an interrupt entry can do: a sequence of bus accesses and register writes, or the same up to a ROM-write
fault, and then the cycles. -/
theorem enter_cases {e : Event} {s t : State} (h : enter e s = .next t) :
    ∃ n u, t = addCycles n u ∧ (Evolves s u ∨
      ∃ v a, Evolves s v ∧ v.romFaults a = true ∧ u = { v with regs := s.regs, status := .faulted (.romWrite a) }) := by
  have hx := evolvesTo_takeException e s
  unfold enter at h
  cases hy : takeException e s with
  | ok u =>
    rw [hy] at h hx
    exact ⟨_, _, (Host.Outcome.next.inj h).symm, .inl hx⟩
  | romFault a u =>
    rw [hy] at h hx
    exact ⟨_, _, (Host.Outcome.next.inj h).symm, .inr ⟨u, a, hx.1, hx.2, rfl⟩⟩

/-- An instruction's next state is one of the cases of `ExecCase`. -/
theorem exec_next {i : Instr} {s t : State} (h : exec i s = .next t) : ExecCase i s t := by
  obtain ⟨u, h1, h2⟩ := exec_cases i s
  rw [h1] at h
  obtain rfl := Host.Outcome.next.inj h
  exact h2

/-- Everything the fetch-and-execute stage can do: reads, then the invalid instruction or an instruction and its
cycles. -/
theorem executeOne_cases {s t : State} (h : executeOne s = .next t) :
    ∃ f, OnlyReads (countFetch s) f ∧
      ((∃ bs, t = raiseInvalid bs f) ∨ ∃ i n u, exec i f = .next u ∧ ExecCase i f u ∧ t = addCycles n u) := by
  refine ⟨(fetch (countFetch s)).state, fetch_onlyReads _, ?_⟩
  simp only [executeOne] at h
  split at h
  · next i _ _ =>
    obtain ⟨u, hu, hc⟩ := exec_cases i (fetch (countFetch s)).state
    rw [hu] at h
    exact .inr ⟨i, _, u, hu, hc, (Host.Outcome.next.inj h).symm⟩
  · exact .inl ⟨_, (Host.Outcome.next.inj h).symm⟩

end Sys2Proof.Machine
end

