-- ==== Sys2Proof/Tests/Slice0.lean ====
section
/-! SUPPORT. Tests of the model by the kernel: the smoke test of `wellFormed`, the words of the opcode table,
test vectors of spec/95_test_vectors.md (one step each), and for every obligation with hypotheses a witness that meets
them. Expected values are the spec's; nothing here is a statement for the provers. -/

namespace Sys2Proof.Tests

open Sys2Proof Sys2Proof.Machine Sys2Proof.Claims

/-! ### WellFormed: each ill-formed term is refused (R119, R130) -/

theorem test_wellFormed_refuses_tfr_widths : Instr.wellFormed (.tfr .a .x) = false := by decide
theorem test_wellFormed_refuses_exg_widths : Instr.wellFormed (.exg .pc .dp) = false := by decide
theorem test_wellFormed_accepts_tfr : Instr.wellFormed (.tfr .a .dp) = true := by decide

/-! ### Decoding: the words of spec/opcode_table.json with operand bytes written out (R110 to R125)

Operands: DIR $40, EXT $2034, IDX $A4 (zero offset from Y), IMM8 $12, IMM16 $1234, REL8 $F0, REL16 $F012, the register
pair A,DP ($8B) and the register list A,B,X ($16). -/

theorem test_decode_unary_memory : ∀ w ∈ ([
    ([0x00, 0x40], .neg (.dir 0x40)), ([0x03, 0x40], .com (.dir 0x40)), ([0x04, 0x40], .lsr (.dir 0x40)),
    ([0x06, 0x40], .ror (.dir 0x40)), ([0x07, 0x40], .asr (.dir 0x40)), ([0x08, 0x40], .asl (.dir 0x40)),
    ([0x09, 0x40], .rol (.dir 0x40)), ([0x0A, 0x40], .dec (.dir 0x40)), ([0x0C, 0x40], .inc (.dir 0x40)),
    ([0x0D, 0x40], .tst (.dir 0x40)), ([0x0F, 0x40], .clr (.dir 0x40)),
    ([0x60, 0xA4], .neg (.idx (.mode (.zero .y) false))), ([0x63, 0xA4], .com (.idx (.mode (.zero .y) false))),
    ([0x64, 0xA4], .lsr (.idx (.mode (.zero .y) false))), ([0x66, 0xA4], .ror (.idx (.mode (.zero .y) false))),
    ([0x67, 0xA4], .asr (.idx (.mode (.zero .y) false))), ([0x68, 0xA4], .asl (.idx (.mode (.zero .y) false))),
    ([0x69, 0xA4], .rol (.idx (.mode (.zero .y) false))), ([0x6A, 0xA4], .dec (.idx (.mode (.zero .y) false))),
    ([0x6C, 0xA4], .inc (.idx (.mode (.zero .y) false))), ([0x6D, 0xA4], .tst (.idx (.mode (.zero .y) false))),
    ([0x6F, 0xA4], .clr (.idx (.mode (.zero .y) false))), ([0x70, 0x20, 0x34], .neg (.ext 0x2034)),
    ([0x73, 0x20, 0x34], .com (.ext 0x2034)), ([0x74, 0x20, 0x34], .lsr (.ext 0x2034)),
    ([0x76, 0x20, 0x34], .ror (.ext 0x2034)), ([0x77, 0x20, 0x34], .asr (.ext 0x2034)),
    ([0x78, 0x20, 0x34], .asl (.ext 0x2034)), ([0x79, 0x20, 0x34], .rol (.ext 0x2034)),
    ([0x7A, 0x20, 0x34], .dec (.ext 0x2034)), ([0x7C, 0x20, 0x34], .inc (.ext 0x2034)),
    ([0x7D, 0x20, 0x34], .tst (.ext 0x2034)), ([0x7F, 0x20, 0x34], .clr (.ext 0x2034))
    ] : List (List Byte × Instr)), decode w.1 = .ok w.2 [] := by decide

theorem test_decode_control_jumps : ∀ w ∈ ([
    ([0x0E, 0x40], .jmp (.dir 0x40)), ([0x39], .rts), ([0x6E, 0xA4], .jmp (.idx (.mode (.zero .y) false))),
    ([0x7E, 0x20, 0x34], .jmp (.ext 0x2034)), ([0x9D, 0x40], .jsr (.dir 0x40)),
    ([0xAD, 0xA4], .jsr (.idx (.mode (.zero .y) false))), ([0xBD, 0x20, 0x34], .jsr (.ext 0x2034))
    ] : List (List Byte × Instr)), decode w.1 = .ok w.2 [] := by decide

theorem test_decode_register_stack : ∀ w ∈ ([
    ([0x12], .nop), ([0x1A, 0x12], .orcc 0x12), ([0x1C, 0x12], .andcc 0x12), ([0x1E, 0x8B], .exg .a .dp),
    ([0x1F, 0x8B], .tfr .a .dp), ([0x34, 0x16], .pshs 0x16), ([0x35, 0x16], .puls 0x16),
    ([0x36, 0x16], .pshu 0x16), ([0x37, 0x16], .pulu 0x16)
    ] : List (List Byte × Instr)), decode w.1 = .ok w.2 [] := by decide

theorem test_decode_system : ∀ w ∈ ([
    ([0x13], .sync), ([0x3B], .rti), ([0x3C, 0x12], .cwai 0x12), ([0x3F], .swi), ([0x10, 0x3F], .swi2),
    ([0x11, 0x3F], .swi3)
    ] : List (List Byte × Instr)), decode w.1 = .ok w.2 [] := by decide

theorem test_decode_control_long_branches : ∀ w ∈ ([
    ([0x16, 0xF0, 0x12], .lbra 0xF012), ([0x17, 0xF0, 0x12], .lbsr 0xF012),
    ([0x10, 0x21, 0xF0, 0x12], .lbrn 0xF012), ([0x10, 0x22, 0xF0, 0x12], .lbhi 0xF012),
    ([0x10, 0x23, 0xF0, 0x12], .lbls 0xF012), ([0x10, 0x24, 0xF0, 0x12], .lbhs 0xF012),
    ([0x10, 0x25, 0xF0, 0x12], .lblo 0xF012), ([0x10, 0x26, 0xF0, 0x12], .lbne 0xF012),
    ([0x10, 0x27, 0xF0, 0x12], .lbeq 0xF012), ([0x10, 0x28, 0xF0, 0x12], .lbvc 0xF012),
    ([0x10, 0x29, 0xF0, 0x12], .lbvs 0xF012), ([0x10, 0x2A, 0xF0, 0x12], .lbpl 0xF012),
    ([0x10, 0x2B, 0xF0, 0x12], .lbmi 0xF012), ([0x10, 0x2C, 0xF0, 0x12], .lbge 0xF012),
    ([0x10, 0x2D, 0xF0, 0x12], .lblt 0xF012), ([0x10, 0x2E, 0xF0, 0x12], .lbgt 0xF012),
    ([0x10, 0x2F, 0xF0, 0x12], .lble 0xF012)
    ] : List (List Byte × Instr)), decode w.1 = .ok w.2 [] := by decide

theorem test_decode_alu8_b : ∀ w ∈ ([
    ([0x19], .daa), ([0x1D], .sex), ([0x3D], .mul), ([0xC0, 0x12], .subb (.imm 0x12)),
    ([0xC1, 0x12], .cmpb (.imm 0x12)), ([0xC2, 0x12], .sbcb (.imm 0x12)), ([0xC4, 0x12], .andb (.imm 0x12)),
    ([0xC5, 0x12], .bitb (.imm 0x12)), ([0xC8, 0x12], .eorb (.imm 0x12)), ([0xC9, 0x12], .adcb (.imm 0x12)),
    ([0xCA, 0x12], .orb (.imm 0x12)), ([0xCB, 0x12], .addb (.imm 0x12)), ([0xD0, 0x40], .subb (.mem (.dir 0x40))),
    ([0xD1, 0x40], .cmpb (.mem (.dir 0x40))), ([0xD2, 0x40], .sbcb (.mem (.dir 0x40))),
    ([0xD4, 0x40], .andb (.mem (.dir 0x40))), ([0xD5, 0x40], .bitb (.mem (.dir 0x40))),
    ([0xD8, 0x40], .eorb (.mem (.dir 0x40))), ([0xD9, 0x40], .adcb (.mem (.dir 0x40))),
    ([0xDA, 0x40], .orb (.mem (.dir 0x40))), ([0xDB, 0x40], .addb (.mem (.dir 0x40))),
    ([0xE0, 0xA4], .subb (.mem (.idx (.mode (.zero .y) false)))),
    ([0xE1, 0xA4], .cmpb (.mem (.idx (.mode (.zero .y) false)))),
    ([0xE2, 0xA4], .sbcb (.mem (.idx (.mode (.zero .y) false)))),
    ([0xE4, 0xA4], .andb (.mem (.idx (.mode (.zero .y) false)))),
    ([0xE5, 0xA4], .bitb (.mem (.idx (.mode (.zero .y) false)))),
    ([0xE8, 0xA4], .eorb (.mem (.idx (.mode (.zero .y) false)))),
    ([0xE9, 0xA4], .adcb (.mem (.idx (.mode (.zero .y) false)))),
    ([0xEA, 0xA4], .orb (.mem (.idx (.mode (.zero .y) false)))),
    ([0xEB, 0xA4], .addb (.mem (.idx (.mode (.zero .y) false)))), ([0xF0, 0x20, 0x34], .subb (.mem (.ext 0x2034))),
    ([0xF1, 0x20, 0x34], .cmpb (.mem (.ext 0x2034))), ([0xF2, 0x20, 0x34], .sbcb (.mem (.ext 0x2034))),
    ([0xF4, 0x20, 0x34], .andb (.mem (.ext 0x2034))), ([0xF5, 0x20, 0x34], .bitb (.mem (.ext 0x2034))),
    ([0xF8, 0x20, 0x34], .eorb (.mem (.ext 0x2034))), ([0xF9, 0x20, 0x34], .adcb (.mem (.ext 0x2034))),
    ([0xFA, 0x20, 0x34], .orb (.mem (.ext 0x2034))), ([0xFB, 0x20, 0x34], .addb (.mem (.ext 0x2034)))
    ] : List (List Byte × Instr)), decode w.1 = .ok w.2 [] := by decide

theorem test_decode_control_short_branches : ∀ w ∈ ([
    ([0x20, 0xF0], .bra 0xF0), ([0x21, 0xF0], .brn 0xF0), ([0x22, 0xF0], .bhi 0xF0), ([0x23, 0xF0], .bls 0xF0),
    ([0x24, 0xF0], .bhs 0xF0), ([0x25, 0xF0], .blo 0xF0), ([0x26, 0xF0], .bne 0xF0), ([0x27, 0xF0], .beq 0xF0),
    ([0x28, 0xF0], .bvc 0xF0), ([0x29, 0xF0], .bvs 0xF0), ([0x2A, 0xF0], .bpl 0xF0), ([0x2B, 0xF0], .bmi 0xF0),
    ([0x2C, 0xF0], .bge 0xF0), ([0x2D, 0xF0], .blt 0xF0), ([0x2E, 0xF0], .bgt 0xF0), ([0x2F, 0xF0], .ble 0xF0),
    ([0x8D, 0xF0], .bsr 0xF0)
    ] : List (List Byte × Instr)), decode w.1 = .ok w.2 [] := by decide

theorem test_decode_loads_stores_lea : ∀ w ∈ ([
    ([0x30, 0xA4], .leax (.mode (.zero .y) false)), ([0x31, 0xA4], .leay (.mode (.zero .y) false)),
    ([0x32, 0xA4], .leas (.mode (.zero .y) false)), ([0x33, 0xA4], .leau (.mode (.zero .y) false)),
    ([0x86, 0x12], .lda (.imm 0x12)), ([0x8E, 0x12, 0x34], .ldx (.imm 0x1234)),
    ([0x96, 0x40], .lda (.mem (.dir 0x40))), ([0x97, 0x40], .sta (.dir 0x40)),
    ([0x9E, 0x40], .ldx (.mem (.dir 0x40))), ([0x9F, 0x40], .stx (.dir 0x40)),
    ([0xA6, 0xA4], .lda (.mem (.idx (.mode (.zero .y) false)))),
    ([0xA7, 0xA4], .sta (.idx (.mode (.zero .y) false))),
    ([0xAE, 0xA4], .ldx (.mem (.idx (.mode (.zero .y) false)))),
    ([0xAF, 0xA4], .stx (.idx (.mode (.zero .y) false))), ([0xB6, 0x20, 0x34], .lda (.mem (.ext 0x2034))),
    ([0xB7, 0x20, 0x34], .sta (.ext 0x2034)), ([0xBE, 0x20, 0x34], .ldx (.mem (.ext 0x2034))),
    ([0xBF, 0x20, 0x34], .stx (.ext 0x2034)), ([0xC6, 0x12], .ldb (.imm 0x12)),
    ([0xCC, 0x12, 0x34], .ldd (.imm 0x1234)), ([0xCE, 0x12, 0x34], .ldu (.imm 0x1234)),
    ([0xD6, 0x40], .ldb (.mem (.dir 0x40))), ([0xD7, 0x40], .stb (.dir 0x40)),
    ([0xDC, 0x40], .ldd (.mem (.dir 0x40))), ([0xDD, 0x40], .std (.dir 0x40)),
    ([0xDE, 0x40], .ldu (.mem (.dir 0x40))), ([0xDF, 0x40], .stu (.dir 0x40)),
    ([0xE6, 0xA4], .ldb (.mem (.idx (.mode (.zero .y) false)))),
    ([0xE7, 0xA4], .stb (.idx (.mode (.zero .y) false))),
    ([0xEC, 0xA4], .ldd (.mem (.idx (.mode (.zero .y) false)))),
    ([0xED, 0xA4], .std (.idx (.mode (.zero .y) false))),
    ([0xEE, 0xA4], .ldu (.mem (.idx (.mode (.zero .y) false)))),
    ([0xEF, 0xA4], .stu (.idx (.mode (.zero .y) false))), ([0xF6, 0x20, 0x34], .ldb (.mem (.ext 0x2034))),
    ([0xF7, 0x20, 0x34], .stb (.ext 0x2034)), ([0xFC, 0x20, 0x34], .ldd (.mem (.ext 0x2034))),
    ([0xFD, 0x20, 0x34], .std (.ext 0x2034)), ([0xFE, 0x20, 0x34], .ldu (.mem (.ext 0x2034))),
    ([0xFF, 0x20, 0x34], .stu (.ext 0x2034)), ([0x10, 0x8E, 0x12, 0x34], .ldy (.imm 0x1234)),
    ([0x10, 0x9E, 0x40], .ldy (.mem (.dir 0x40))), ([0x10, 0x9F, 0x40], .sty (.dir 0x40)),
    ([0x10, 0xAE, 0xA4], .ldy (.mem (.idx (.mode (.zero .y) false)))),
    ([0x10, 0xAF, 0xA4], .sty (.idx (.mode (.zero .y) false))),
    ([0x10, 0xBE, 0x20, 0x34], .ldy (.mem (.ext 0x2034))), ([0x10, 0xBF, 0x20, 0x34], .sty (.ext 0x2034)),
    ([0x10, 0xCE, 0x12, 0x34], .lds (.imm 0x1234)), ([0x10, 0xDE, 0x40], .lds (.mem (.dir 0x40))),
    ([0x10, 0xDF, 0x40], .sts (.dir 0x40)), ([0x10, 0xEE, 0xA4], .lds (.mem (.idx (.mode (.zero .y) false)))),
    ([0x10, 0xEF, 0xA4], .sts (.idx (.mode (.zero .y) false))),
    ([0x10, 0xFE, 0x20, 0x34], .lds (.mem (.ext 0x2034))), ([0x10, 0xFF, 0x20, 0x34], .sts (.ext 0x2034))
    ] : List (List Byte × Instr)), decode w.1 = .ok w.2 [] := by decide

theorem test_decode_alu16 : ∀ w ∈ ([
    ([0x3A], .abx), ([0x83, 0x12, 0x34], .subd (.imm 0x1234)), ([0x8C, 0x12, 0x34], .cmpx (.imm 0x1234)),
    ([0x93, 0x40], .subd (.mem (.dir 0x40))), ([0x9C, 0x40], .cmpx (.mem (.dir 0x40))),
    ([0xA3, 0xA4], .subd (.mem (.idx (.mode (.zero .y) false)))),
    ([0xAC, 0xA4], .cmpx (.mem (.idx (.mode (.zero .y) false)))), ([0xB3, 0x20, 0x34], .subd (.mem (.ext 0x2034))),
    ([0xBC, 0x20, 0x34], .cmpx (.mem (.ext 0x2034))), ([0xC3, 0x12, 0x34], .addd (.imm 0x1234)),
    ([0xD3, 0x40], .addd (.mem (.dir 0x40))), ([0xE3, 0xA4], .addd (.mem (.idx (.mode (.zero .y) false)))),
    ([0xF3, 0x20, 0x34], .addd (.mem (.ext 0x2034))), ([0x10, 0x83, 0x12, 0x34], .cmpd (.imm 0x1234)),
    ([0x10, 0x8C, 0x12, 0x34], .cmpy (.imm 0x1234)), ([0x10, 0x93, 0x40], .cmpd (.mem (.dir 0x40))),
    ([0x10, 0x9C, 0x40], .cmpy (.mem (.dir 0x40))),
    ([0x10, 0xA3, 0xA4], .cmpd (.mem (.idx (.mode (.zero .y) false)))),
    ([0x10, 0xAC, 0xA4], .cmpy (.mem (.idx (.mode (.zero .y) false)))),
    ([0x10, 0xB3, 0x20, 0x34], .cmpd (.mem (.ext 0x2034))), ([0x10, 0xBC, 0x20, 0x34], .cmpy (.mem (.ext 0x2034))),
    ([0x11, 0x83, 0x12, 0x34], .cmpu (.imm 0x1234)), ([0x11, 0x8C, 0x12, 0x34], .cmps (.imm 0x1234)),
    ([0x11, 0x93, 0x40], .cmpu (.mem (.dir 0x40))), ([0x11, 0x9C, 0x40], .cmps (.mem (.dir 0x40))),
    ([0x11, 0xA3, 0xA4], .cmpu (.mem (.idx (.mode (.zero .y) false)))),
    ([0x11, 0xAC, 0xA4], .cmps (.mem (.idx (.mode (.zero .y) false)))),
    ([0x11, 0xB3, 0x20, 0x34], .cmpu (.mem (.ext 0x2034))), ([0x11, 0xBC, 0x20, 0x34], .cmps (.mem (.ext 0x2034)))
    ] : List (List Byte × Instr)), decode w.1 = .ok w.2 [] := by decide

theorem test_decode_unary_accumulator : ∀ w ∈ ([
    ([0x40], .nega), ([0x43], .coma), ([0x44], .lsra), ([0x46], .rora), ([0x47], .asra), ([0x48], .asla),
    ([0x49], .rola), ([0x4A], .deca), ([0x4C], .inca), ([0x4D], .tsta), ([0x4F], .clra), ([0x50], .negb),
    ([0x53], .comb), ([0x54], .lsrb), ([0x56], .rorb), ([0x57], .asrb), ([0x58], .aslb), ([0x59], .rolb),
    ([0x5A], .decb), ([0x5C], .incb), ([0x5D], .tstb), ([0x5F], .clrb)
    ] : List (List Byte × Instr)), decode w.1 = .ok w.2 [] := by decide

theorem test_decode_alu8_a : ∀ w ∈ ([
    ([0x80, 0x12], .suba (.imm 0x12)), ([0x81, 0x12], .cmpa (.imm 0x12)), ([0x82, 0x12], .sbca (.imm 0x12)),
    ([0x84, 0x12], .anda (.imm 0x12)), ([0x85, 0x12], .bita (.imm 0x12)), ([0x88, 0x12], .eora (.imm 0x12)),
    ([0x89, 0x12], .adca (.imm 0x12)), ([0x8A, 0x12], .ora (.imm 0x12)), ([0x8B, 0x12], .adda (.imm 0x12)),
    ([0x90, 0x40], .suba (.mem (.dir 0x40))), ([0x91, 0x40], .cmpa (.mem (.dir 0x40))),
    ([0x92, 0x40], .sbca (.mem (.dir 0x40))), ([0x94, 0x40], .anda (.mem (.dir 0x40))),
    ([0x95, 0x40], .bita (.mem (.dir 0x40))), ([0x98, 0x40], .eora (.mem (.dir 0x40))),
    ([0x99, 0x40], .adca (.mem (.dir 0x40))), ([0x9A, 0x40], .ora (.mem (.dir 0x40))),
    ([0x9B, 0x40], .adda (.mem (.dir 0x40))), ([0xA0, 0xA4], .suba (.mem (.idx (.mode (.zero .y) false)))),
    ([0xA1, 0xA4], .cmpa (.mem (.idx (.mode (.zero .y) false)))),
    ([0xA2, 0xA4], .sbca (.mem (.idx (.mode (.zero .y) false)))),
    ([0xA4, 0xA4], .anda (.mem (.idx (.mode (.zero .y) false)))),
    ([0xA5, 0xA4], .bita (.mem (.idx (.mode (.zero .y) false)))),
    ([0xA8, 0xA4], .eora (.mem (.idx (.mode (.zero .y) false)))),
    ([0xA9, 0xA4], .adca (.mem (.idx (.mode (.zero .y) false)))),
    ([0xAA, 0xA4], .ora (.mem (.idx (.mode (.zero .y) false)))),
    ([0xAB, 0xA4], .adda (.mem (.idx (.mode (.zero .y) false)))), ([0xB0, 0x20, 0x34], .suba (.mem (.ext 0x2034))),
    ([0xB1, 0x20, 0x34], .cmpa (.mem (.ext 0x2034))), ([0xB2, 0x20, 0x34], .sbca (.mem (.ext 0x2034))),
    ([0xB4, 0x20, 0x34], .anda (.mem (.ext 0x2034))), ([0xB5, 0x20, 0x34], .bita (.mem (.ext 0x2034))),
    ([0xB8, 0x20, 0x34], .eora (.mem (.ext 0x2034))), ([0xB9, 0x20, 0x34], .adca (.mem (.ext 0x2034))),
    ([0xBA, 0x20, 0x34], .ora (.mem (.ext 0x2034))), ([0xBB, 0x20, 0x34], .adda (.mem (.ext 0x2034)))
    ] : List (List Byte × Instr)), decode w.1 = .ok w.2 [] := by decide

/-- The rows of the table of R118, with every base register. -/
theorem test_decode_indexed_forms : ∀ w ∈ ([
    ([0xA6, 0x1F], .off5 .x (-1)), ([0xA6, 0x30], .off5 .y (-16)), ([0xA6, 0x4F], .off5 .u 15),
    ([0xA6, 0x60], .off5 .s 0), ([0xA6, 0x80], .inc1 .x), ([0xA6, 0xA1], .mode (.inc2 .y) false),
    ([0xA6, 0xD1], .mode (.inc2 .u) true), ([0xA6, 0xE2], .dec1 .s), ([0xA6, 0x83], .mode (.dec2 .x) false),
    ([0xA6, 0xB3], .mode (.dec2 .y) true), ([0xA6, 0xC4], .mode (.zero .u) false),
    ([0xA6, 0xF4], .mode (.zero .s) true), ([0xA6, 0x85], .mode (.accB .x) false),
    ([0xA6, 0xB5], .mode (.accB .y) true), ([0xA6, 0xC6], .mode (.accA .u) false),
    ([0xA6, 0xF6], .mode (.accA .s) true), ([0xA6, 0x88, 0x80], .mode (.off8 .x 0x80) false),
    ([0xA6, 0xB8, 0x7F], .mode (.off8 .y 0x7F) true), ([0xA6, 0xC9, 0x12, 0x34], .mode (.off16 .u 0x1234) false),
    ([0xA6, 0xF9, 0x12, 0x34], .mode (.off16 .s 0x1234) true), ([0xA6, 0x8B], .mode (.accD .x) false),
    ([0xA6, 0xBB], .mode (.accD .y) true), ([0xA6, 0x8C, 0x05], .mode (.pcr8 0x05) false),
    ([0xA6, 0xFC, 0x05], .mode (.pcr8 0x05) true), ([0xA6, 0xED, 0x01, 0x00], .mode (.pcr16 0x0100) false),
    ([0xA6, 0x9D, 0x01, 0x00], .mode (.pcr16 0x0100) true), ([0xA6, 0x9F, 0x30, 0x00], .absIndirect 0x3000)
    ] : List (List Byte × Indexed)), decode w.1 = .ok (.lda (.mem (.idx w.2))) [] := by decide

/-- R112, R125, R126 to R130: what is no instruction, and what asks for one more byte. -/
theorem test_decode_refusals : ∀ w ∈ ([
    ([], .truncated), ([0x10], .truncated), ([0xB6, 0x20], .truncated), ([0x01], .noSuchOpcode 0 0x01),
    ([0x10, 0x10], .noSuchOpcode 2 0x10), ([0x11, 0x10], .noSuchOpcode 3 0x10), ([0x10, 0x86], .noSuchOpcode 2 0x86),
    ([0xA6, 0x87], .badIndexedPostbyte 0x87), ([0xA6, 0x90], .badIndexedPostbyte 0x90),
    ([0xA6, 0x8F], .badIndexedPostbyte 0x8F), ([0xA6, 0xBF], .badIndexedPostbyte 0xBF),
    ([0x1F, 0x81], .badRegisterPair 0x81), ([0x1E, 0x18], .badRegisterPair 0x18), ([0x1F, 0x61], .badRegisterPair 0x61)
    ] : List (List Byte × DecodeError)), decode w.1 = .error w.2 := by decide

/-- The table's numbering of an instruction's bits (`decodeTableWord`): the first byte is the low one. -/
theorem test_decodeTableWord : decodeTableWord 16 0x8086 = some (.lda (.imm 0x80)) ∧
    decodeTableWord 16 0x103F = some .swi2 ∧ decodeTableWord 8 0x12 = some .nop := by decide

/-! ### One step on a small state -/

/-- The test bus of spec/95_test_vectors.md section 3: one RAM device that answers every address. -/
def flat : Config :=
  { Config.reference with
    memoryDevices := [{ kind := .ram, size := 65536 }]
    deviceMap := [{ device := .memory 0, base := 0x0000, mask := 0x0000 }]
    lines := { nmi := none, firq := none, irq := none } }

/-- The start registers of that section. -/
def base : Regs := { a := 0, b := 0, dp := 0, cc := 0, x := 0, y := 0, u := 0x6F00, s := 0x7F00, pc := 0x1000 }

/-- The start registers of V186 and V195. -/
def full : Regs := { base with a := 0x11, b := 0x22, dp := 0x33, x := 0x4444, y := 0x5555, u := 0x6666 }

/-- Bytes put in place by the loader's rule. -/
def placeAll (data : List (Word × List Byte)) (s : State) : State := data.foldl (fun s d => placeProgram d.1 d.2 s) s

/-- A host that asks for nothing in the coming iteration. -/
def quietHost : Inbox := { given := [HostInput.quiet], drawn := 0 }

/-- A state about to run the bytes at $1000 on that bus, with other bytes in place. -/
def start (bytes : List Byte) (g : Regs) (data : List (Word × List Byte) := []) : State :=
  placeAll ((0x1000, bytes) :: data) { State.reset with cfg := flat, regs := g, inbox := quietHost }

/-- A state of the reference map (R84) with its registers and bytes in place. -/
def onMap (g : Regs) (data : List (Word × List Byte)) : State := placeAll data { State.reset with regs := g, inbox := quietHost }

/-- The status, the registers and some bytes of storage after one step. -/
def outcome (s : State) (as : List Word) : Option (Status × Regs × List (Option Byte)) :=
  match step s with
  | .next t => some (t.status, t.regs, as.map t.peek)
  | _ => none

/-- A vector: the start, the addresses looked at, and the registers and the bytes there after one step. -/
abbrev Row := State × List Word × Regs × List (Option Byte)

theorem test_vectors_addressing : ∀ v ∈ ([
    -- V1 `LDA <$10`
    (start [0x96, 0x10] { base with dp := 0x20 } [(0x2010, [0x5A])],
      [], { base with dp := 0x20, a := 0x5A, pc := 0x1002 }, []),
    -- V2 `LDA $FFFF`
    (start [0xB6, 0xFF, 0xFF] base [(0xFFFF, [0x01])],
      [], { base with a := 0x1, pc := 0x1003 }, []),
    -- V4 `LDA -16,X`
    (start [0xA6, 0x10] { base with x := 0x2000 } [(0x1FF0, [0x22])],
      [], { base with x := 0x2000, a := 0x22, pc := 0x1002 }, []),
    -- V5 `LDA 1,X (wrap)`
    (start [0xA6, 0x01] { base with x := 0xFFFF } [(0x0000, [0x33])],
      [], { base with x := 0xFFFF, a := 0x33, pc := 0x1002 }, []),
    -- V9 `LDD ,--X`
    (start [0xEC, 0x83] { base with x := 0x2000 } [(0x1FFE, [0xAB, 0xCD])],
      [], { base with x := 0x1FFE, cc := 0x8, a := 0xAB, b := 0xCD, pc := 0x1002 }, []),
    -- V11 `LDA B,U`
    (start [0xA6, 0xC5] { base with u := 0x3010, b := 0xF0 } [(0x3000, [0x77])],
      [], { base with u := 0x3010, b := 0xF0, a := 0x77, pc := 0x1002 }, []),
    -- V12 `LDA A,S`
    (start [0xA6, 0xE6] { base with s := 0x3000, a := 0x5 } [(0x3005, [0x88])],
      [], { base with s := 0x3000, a := 0x88, cc := 0x8, pc := 0x1002 }, []),
    -- V14 `LDA -128,X`
    (start [0xA6, 0x88, 0x80] { base with x := 0x2000 } [(0x1F80, [0x9A])],
      [], { base with x := 0x2000, cc := 0x8, a := 0x9A, pc := 0x1003 }, []),
    -- V16 `LDA D,X`
    (start [0xA6, 0x8B] { base with x := 0x2000, a := 0xFF, b := 0xFE } [(0x1FFE, [0x9C])],
      [], { base with x := 0x2000, a := 0x9C, b := 0xFE, cc := 0x8, pc := 0x1002 }, []),
    -- V17 `LDA 5,PCR`
    (start [0xA6, 0x8C, 0x05] base [(0x1008, [0x9D])],
      [], { base with cc := 0x8, a := 0x9D, pc := 0x1003 }, []),
    -- V18 `LDA $0100,PCR`
    (start [0xA6, 0x8D, 0x01, 0x00] base [(0x1104, [0x9E])],
      [], { base with cc := 0x8, a := 0x9E, pc := 0x1004 }, []),
    -- V20 `LDA [,X++]`
    (start [0xA6, 0x91] { base with x := 0x2000 } [(0x2000, [0x30, 0x00]), (0x3000, [0xA2])],
      [], { base with x := 0x2002, cc := 0x8, a := 0xA2, pc := 0x1002 }, []),
    -- V21 `LDA [2,X]`
    (start [0xA6, 0x98, 0x02] { base with x := 0x2000 } [(0x2002, [0x30, 0x10]), (0x3010, [0xA3])],
      [], { base with x := 0x2000, cc := 0x8, a := 0xA3, pc := 0x1003 }, []),
    -- V22 `LDA [$3000]`
    (start [0xA6, 0x9F, 0x30, 0x00] base [(0x3000, [0x40, 0x00]), (0x4000, [0xA4])],
      [], { base with cc := 0x8, a := 0xA4, pc := 0x1004 }, []),
    -- V23 `LEAX ,X+`
    (start [0x30, 0x80] { base with x := 0x2000 },
      [], { base with x := 0x2000, pc := 0x1002 }, []),
    -- V24 `STX ,X++`
    (start [0xAF, 0x81] { base with x := 0x2000 },
      [0x2000, 0x2001], { base with x := 0x2002, pc := 0x1002 }, [some 0x20, some 0x02])
    ] : List Row), outcome v.1 v.2.1 = some (.running, v.2.2) := by decide

theorem test_vectors_loads : ∀ v ∈ ([
    -- V32 `LDA #$80`
    (start [0x86, 0x80] { base with cc := 0x3 },
      [], { base with cc := 0x9, a := 0x80, pc := 0x1002 }, []),
    -- V33 `LDB #$7F`
    (start [0xC6, 0x7F] { base with cc := 0xD },
      [], { base with cc := 0x1, b := 0x7F, pc := 0x1002 }, []),
    -- V34 `LDD #$8000`
    (start [0xCC, 0x80, 0x00] { base with cc := 0x1 },
      [], { base with cc := 0x9, a := 0x80, pc := 0x1003 }, []),
    -- V35 `LDX #$0000`
    (start [0x8E, 0x00, 0x00] { base with x := 0x1234, cc := 0x1 },
      [], { base with cc := 0x5, pc := 0x1003 }, []),
    -- V36 `LDY $2000`
    (start [0x10, 0xBE, 0x20, 0x00] { base with cc := 0x1 } [(0x2000, [0xFF, 0xFE])],
      [], { base with cc := 0x9, y := 0xFFFE, pc := 0x1004 }, []),
    -- V37 `LDU #$4000`
    (start [0xCE, 0x40, 0x00] { base with cc := 0x1 },
      [], { base with cc := 0x1, u := 0x4000, pc := 0x1003 }, []),
    -- V38 `LDS #$7000`
    (start [0x10, 0xCE, 0x70, 0x00] { base with cc := 0x1 },
      [], { base with cc := 0x1, s := 0x7000, pc := 0x1004 }, [])
    ] : List Row), outcome v.1 v.2.1 = some (.running, v.2.2) := by decide

theorem test_vectors_stores : ∀ v ∈ ([
    -- V39 `STA $2000`
    (start [0xB7, 0x20, 0x00] { base with a := 0x80, cc := 0x3 },
      [0x2000], { base with a := 0x80, cc := 0x9, pc := 0x1003 }, [some 0x80]),
    -- V40 `STB ,X`
    (start [0xE7, 0x84] { base with x := 0x2000, cc := 0x3 },
      [0x2000], { base with x := 0x2000, cc := 0x5, pc := 0x1002 }, [some 0x00]),
    -- V41 `STD <$40`
    (start [0xDD, 0x40] { base with a := 0x12, b := 0x34, dp := 0x20, cc := 0x3 },
      [0x2040, 0x2041], { base with a := 0x12, b := 0x34, dp := 0x20, cc := 0x1, pc := 0x1002 }, [some 0x12,
        some 0x34]),
    -- V42 `STX $2000`
    (start [0xBF, 0x20, 0x00] { base with x := 0x8001, cc := 0x1 },
      [0x2000, 0x2001], { base with x := 0x8001, cc := 0x9, pc := 0x1003 }, [some 0x80, some 0x01]),
    -- V43 `STY $2000`
    (start [0x10, 0xBF, 0x20, 0x00] { base with cc := 0x1 },
      [0x2000, 0x2001], { base with cc := 0x5, pc := 0x1004 }, [some 0x00, some 0x00]),
    -- V44 `STU ,--S`
    (start [0xEF, 0xE3] { base with u := 0xBEEF },
      [0x7EFE, 0x7EFF], { base with u := 0xBEEF, s := 0x7EFE, cc := 0x8, pc := 0x1002 }, [some 0xBE, some 0xEF]),
    -- V45 `STS $2000`
    (start [0x10, 0xFF, 0x20, 0x00] base,
      [0x2000, 0x2001], { base with pc := 0x1004 }, [some 0x7F, some 0x00])
    ] : List Row), outcome v.1 v.2.1 = some (.running, v.2.2) := by decide

theorem test_vectors_lea : ∀ v ∈ ([
    -- V46 `LEAX -1,X`
    (start [0x30, 0x1F] { base with x := 0x1, cc := 0xF },
      [], { base with cc := 0xF, pc := 0x1002 }, []),
    -- V47 `LEAY 1,Y`
    (start [0x31, 0x21] { base with y := 0xFFFF },
      [], { base with cc := 0x4, pc := 0x1002 }, []),
    -- V48 `LEAU -1,U`
    (start [0x33, 0x5F] { base with u := 0x1 },
      [], { base with u := 0x0, pc := 0x1002 }, []),
    -- V49 `LEAS 10,S`
    (start [0x32, 0x6A] { base with cc := 0x4 },
      [], { base with s := 0x7F0A, cc := 0x4, pc := 0x1002 }, [])
    ] : List Row), outcome v.1 v.2.1 = some (.running, v.2.2) := by decide

theorem test_vectors_alu8 : ∀ v ∈ ([
    -- V51 `ADDA #$01`
    (start [0x8B, 0x01] { base with a := 0xFF },
      [], { base with cc := 0x25, pc := 0x1002 }, []),
    -- V54 `ADDB #$10`
    (start [0xCB, 0x10] { base with b := 0x70 },
      [], { base with b := 0x80, cc := 0xA, pc := 0x1002 }, []),
    -- V55 `ADCA #$00`
    (start [0x89, 0x00] { base with a := 0xFF, cc := 0x1 },
      [], { base with cc := 0x25, pc := 0x1002 }, []),
    -- V56 `ADCB #$7F`
    (start [0xC9, 0x7F] { base with cc := 0x1 },
      [], { base with b := 0x80, cc := 0x2A, pc := 0x1002 }, []),
    -- V64 `ANDA #$0F`
    (start [0x84, 0x0F] { base with a := 0xF0, cc := 0x3 },
      [], { base with cc := 0x5, pc := 0x1002 }, []),
    -- V65 `ANDB #$80`
    (start [0xC4, 0x80] { base with b := 0xFF, cc := 0x2 },
      [], { base with b := 0x80, cc := 0x8, pc := 0x1002 }, []),
    -- V66 `BITA #$80`
    (start [0x85, 0x80] { base with a := 0x80, cc := 0x3 },
      [], { base with a := 0x80, cc := 0x9, pc := 0x1002 }, []),
    -- V67 `BITB #$01`
    (start [0xC5, 0x01] { base with b := 0xFE },
      [], { base with b := 0xFE, cc := 0x4, pc := 0x1002 }, []),
    -- V68 `ORA #$80`
    (start [0x8A, 0x80] { base with a := 0x1, cc := 0x2 },
      [], { base with a := 0x81, cc := 0x8, pc := 0x1002 }, []),
    -- V69 `ORB #$00`
    (start [0xCA, 0x00] base,
      [], { base with cc := 0x4, pc := 0x1002 }, []),
    -- V70 `EORA #$FF`
    (start [0x88, 0xFF] { base with a := 0xFF, cc := 0x2 },
      [], { base with cc := 0x4, pc := 0x1002 }, []),
    -- V71 `EORB #$0F`
    (start [0xC8, 0x0F] { base with b := 0xF0 },
      [], { base with b := 0xFF, cc := 0x8, pc := 0x1002 }, []),
    -- V79 `MUL`
    (start [0x3D] { base with a := 0xC, b := 0xA },
      [], { base with b := 0x78, pc := 0x1001 }, []),
    -- V81 `MUL`
    (start [0x3D] { base with a := 0x80, b := 0x1 },
      [], { base with b := 0x80, cc := 0x1, pc := 0x1001 }, []),
    -- V82 `MUL`
    (start [0x3D] { base with b := 0x37, cc := 0x1 },
      [], { base with cc := 0x4, pc := 0x1001 }, []),
    -- V83 `SEX`
    (start [0x1D] { base with a := 0x12, b := 0x80, cc := 0x2 },
      [], { base with a := 0xFF, b := 0x80, cc := 0xA, pc := 0x1001 }, [])
    ] : List Row), outcome v.1 v.2.1 = some (.running, v.2.2) := by decide

theorem test_vectors_alu16 : ∀ v ∈ ([
    -- V85 `ADDD #$0001`
    (start [0xC3, 0x00, 0x01] { base with a := 0x7F, b := 0xFF, cc := 0x20 },
      [], { base with a := 0x80, cc := 0x2A, pc := 0x1003 }, []),
    -- V88 `ADDD $2000`
    (start [0xF3, 0x20, 0x00] { base with a := 0x12, b := 0x34 } [(0x2000, [0x11, 0x11])],
      [], { base with a := 0x23, b := 0x45, pc := 0x1003 }, []),
    -- V89 `SUBD #$0001`
    (start [0x83, 0x00, 0x01] base,
      [], { base with a := 0xFF, b := 0xFF, cc := 0x9, pc := 0x1003 }, []),
    -- V90 `SUBD #$0001`
    (start [0x83, 0x00, 0x01] { base with a := 0x80 },
      [], { base with a := 0x7F, b := 0xFF, cc := 0x2, pc := 0x1003 }, []),
    -- V91 `CMPD #$1234`
    (start [0x10, 0x83, 0x12, 0x34] { base with a := 0x12, b := 0x34, cc := 0x20 },
      [], { base with a := 0x12, b := 0x34, cc := 0x24, pc := 0x1004 }, []),
    -- V92 `CMPX #$0001`
    (start [0x8C, 0x00, 0x01] base,
      [], { base with cc := 0x9, pc := 0x1003 }, []),
    -- V93 `CMPY #$8000`
    (start [0x10, 0x8C, 0x80, 0x00] { base with y := 0x7FFF },
      [], { base with y := 0x7FFF, cc := 0xB, pc := 0x1004 }, []),
    -- V94 `CMPU #$FFFF`
    (start [0x11, 0x83, 0xFF, 0xFF] { base with u := 0x0 },
      [], { base with u := 0x0, cc := 0x1, pc := 0x1004 }, []),
    -- V95 `CMPS #$7F00`
    (start [0x11, 0x8C, 0x7F, 0x00] base,
      [], { base with cc := 0x4, pc := 0x1004 }, []),
    -- V96 `ABX`
    (start [0x3A] { base with x := 0xFFFF, b := 0x1, cc := 0xF },
      [], { base with b := 0x1, cc := 0xF, pc := 0x1001 }, [])
    ] : List Row), outcome v.1 v.2.1 = some (.running, v.2.2) := by decide

theorem test_vectors_unary_accumulator : ∀ v ∈ ([
    -- V101 `COMA`
    (start [0x43] base,
      [], { base with a := 0xFF, cc := 0x9, pc := 0x1001 }, []),
    -- V102 `COMB`
    (start [0x53] { base with b := 0xFF, cc := 0x2 },
      [], { base with cc := 0x5, pc := 0x1001 }, []),
    -- V103 `LSRA`
    (start [0x44] { base with a := 0x1, cc := 0x8 },
      [], { base with cc := 0x5, pc := 0x1001 }, []),
    -- V104 `LSRB`
    (start [0x54] { base with b := 0x80 },
      [], { base with b := 0x40, pc := 0x1001 }, []),
    -- V105 `RORA`
    (start [0x46] { base with cc := 0x1 },
      [], { base with a := 0x80, cc := 0x8, pc := 0x1001 }, []),
    -- V106 `RORB`
    (start [0x56] { base with b := 0x1 },
      [], { base with cc := 0x5, pc := 0x1001 }, []),
    -- V111 `ROLA`
    (start [0x49] { base with a := 0x80 },
      [], { base with cc := 0x7, pc := 0x1001 }, []),
    -- V112 `ROLB`
    (start [0x59] { base with b := 0x40, cc := 0x1 },
      [], { base with b := 0x81, cc := 0xA, pc := 0x1001 }, []),
    -- V113 `DECA`
    (start [0x4A] { base with a := 0x80 },
      [], { base with a := 0x7F, cc := 0x2, pc := 0x1001 }, []),
    -- V114 `DECB`
    (start [0x5A] { base with cc := 0x1 },
      [], { base with b := 0xFF, cc := 0x9, pc := 0x1001 }, []),
    -- V115 `INCA`
    (start [0x4C] { base with a := 0x7F, cc := 0x1 },
      [], { base with a := 0x80, cc := 0xB, pc := 0x1001 }, []),
    -- V116 `INCB`
    (start [0x5C] { base with b := 0xFF },
      [], { base with cc := 0x4, pc := 0x1001 }, []),
    -- V117 `TSTA`
    (start [0x4D] { base with a := 0x80, cc := 0x3 },
      [], { base with a := 0x80, cc := 0x9, pc := 0x1001 }, []),
    -- V118 `TSTB`
    (start [0x5D] { base with cc := 0xB },
      [], { base with cc := 0x5, pc := 0x1001 }, []),
    -- V119 `CLRA`
    (start [0x4F] { base with a := 0x55, cc := 0x2B },
      [], { base with cc := 0x24, pc := 0x1001 }, []),
    -- V120 `CLRB`
    (start [0x5F] { base with b := 0x80, cc := 0x8 },
      [], { base with cc := 0x4, pc := 0x1001 }, [])
    ] : List Row), outcome v.1 v.2.1 = some (.running, v.2.2) := by decide

theorem test_vectors_unary_memory : ∀ v ∈ ([
    -- V122 `COM $2000`
    (start [0x73, 0x20, 0x00] base [(0x2000, [0x0F])],
      [0x2000], { base with cc := 0x9, pc := 0x1003 }, [some 0xF0]),
    -- V123 `LSR ,X`
    (start [0x64, 0x84] { base with x := 0x2000 } [(0x2000, [0x03])],
      [0x2000], { base with x := 0x2000, cc := 0x1, pc := 0x1002 }, [some 0x01]),
    -- V124 `ROR ,X+`
    (start [0x66, 0x80] { base with x := 0x2000, cc := 0x1 } [(0x2000, [0x02])],
      [0x2000], { base with x := 0x2001, cc := 0x8, pc := 0x1002 }, [some 0x81]),
    -- V127 `ROL $2000`
    (start [0x79, 0x20, 0x00] { base with cc := 0x1 } [(0x2000, [0x7F])],
      [0x2000], { base with cc := 0xA, pc := 0x1003 }, [some 0xFF]),
    -- V128 `DEC ,X`
    (start [0x6A, 0x84] { base with x := 0x2000 } [(0x2000, [0x01])],
      [0x2000], { base with x := 0x2000, cc := 0x4, pc := 0x1002 }, [some 0x00]),
    -- V129 `INC $2000`
    (start [0x7C, 0x20, 0x00] base [(0x2000, [0xFF])],
      [0x2000], { base with cc := 0x4, pc := 0x1003 }, [some 0x00]),
    -- V130 `TST $2000`
    (start [0x7D, 0x20, 0x00] { base with cc := 0x3 } [(0x2000, [0x00])],
      [], { base with cc := 0x5, pc := 0x1003 }, []),
    -- V131 `CLR -1,X`
    (start [0x6F, 0x1F] { base with x := 0x2001, cc := 0xB } [(0x2000, [0x99])],
      [0x2000], { base with x := 0x2001, cc := 0x4, pc := 0x1002 }, [some 0x00])
    ] : List Row), outcome v.1 v.2.1 = some (.running, v.2.2) := by decide

theorem test_vectors_short_branches : ∀ v ∈ ([
    -- V132 `BRA *+$12`
    (start [0x20, 0x10] base,
      [], { base with pc := 0x1012 }, []),
    -- V133 `BRN *+$12`
    (start [0x21, 0x10] base,
      [], { base with pc := 0x1002 }, []),
    -- V135 `BHI *+$12`
    (start [0x22, 0x10] { base with cc := 0x4 },
      [], { base with cc := 0x4, pc := 0x1002 }, []),
    -- V136 `BLS *+$12`
    (start [0x23, 0x10] { base with cc := 0x1 },
      [], { base with cc := 0x1, pc := 0x1012 }, []),
    -- V138 `BHS *+$12`
    (start [0x24, 0x10] base,
      [], { base with pc := 0x1012 }, []),
    -- V140 `BLO *+$12`
    (start [0x25, 0x10] { base with cc := 0x1 },
      [], { base with cc := 0x1, pc := 0x1012 }, []),
    -- V142 `BNE *+$12`
    (start [0x26, 0x10] { base with cc := 0x4 },
      [], { base with cc := 0x4, pc := 0x1002 }, []),
    -- V143 `BEQ *+$12`
    (start [0x27, 0x10] { base with cc := 0x4 },
      [], { base with cc := 0x4, pc := 0x1012 }, []),
    -- V144 `BVC *+$12`
    (start [0x28, 0x10] { base with cc := 0x2 },
      [], { base with cc := 0x2, pc := 0x1002 }, []),
    -- V145 `BVS *+$12`
    (start [0x29, 0x10] { base with cc := 0x2 },
      [], { base with cc := 0x2, pc := 0x1012 }, []),
    -- V146 `BPL *+$12`
    (start [0x2A, 0x10] { base with cc := 0x8 },
      [], { base with cc := 0x8, pc := 0x1002 }, []),
    -- V147 `BMI *+$12`
    (start [0x2B, 0x10] { base with cc := 0x8 },
      [], { base with cc := 0x8, pc := 0x1012 }, []),
    -- V149 `BGE *+$12`
    (start [0x2C, 0x10] { base with cc := 0x8 },
      [], { base with cc := 0x8, pc := 0x1002 }, []),
    -- V150 `BLT *+$12`
    (start [0x2D, 0x10] { base with cc := 0x8 },
      [], { base with cc := 0x8, pc := 0x1012 }, []),
    -- V153 `BGT *+$12`
    (start [0x2E, 0x10] { base with cc := 0x4 },
      [], { base with cc := 0x4, pc := 0x1002 }, []),
    -- V154 `BLE *+$12`
    (start [0x2F, 0x10] { base with cc := 0x2 },
      [], { base with cc := 0x2, pc := 0x1012 }, []),
    -- V157 `BRA *-126`
    (start [0x20, 0x80] base,
      [], { base with pc := 0xF82 }, [])
    ] : List Row), outcome v.1 v.2.1 = some (.running, v.2.2) := by decide

theorem test_vectors_long_branches : ∀ v ∈ ([
    -- V158 `LBRA *+$1003`
    (start [0x16, 0x10, 0x00] base,
      [], { base with pc := 0x2003 }, []),
    -- V159 `LBRN`
    (start [0x10, 0x21, 0x10, 0x00] base,
      [], { base with pc := 0x1004 }, []),
    -- V160 `LBEQ (taken)`
    (start [0x10, 0x27, 0x00, 0x10] { base with cc := 0x4 },
      [], { base with cc := 0x4, pc := 0x1014 }, []),
    -- V161 `LBEQ (not taken)`
    (start [0x10, 0x27, 0x00, 0x10] base,
      [], { base with pc := 0x1004 }, []),
    -- V162 `LBLT (taken, backwards)`
    (start [0x10, 0x2D, 0xFF, 0xFC] { base with cc := 0x8 },
      [], { base with cc := 0x8 }, []),
    -- V163 `LBRA (wrap)`
    (start [0x16, 0xEF, 0xFD] base,
      [], { base with pc := 0x0 }, [])
    ] : List Row), outcome v.1 v.2.1 = some (.running, v.2.2) := by decide

theorem test_vectors_jumps : ∀ v ∈ ([
    -- V164 `BSR *+$22`
    (start [0x8D, 0x20] base,
      [0x7EFE, 0x7EFF], { base with s := 0x7EFE, pc := 0x1022 }, [some 0x10, some 0x02]),
    -- V165 `LBSR`
    (start [0x17, 0x01, 0x00] base,
      [0x7EFE, 0x7EFF], { base with s := 0x7EFE, pc := 0x1103 }, [some 0x10, some 0x03]),
    -- V166 `JSR ,X`
    (start [0xAD, 0x84] { base with x := 0x3000 },
      [0x7EFE, 0x7EFF], { base with x := 0x3000, s := 0x7EFE, pc := 0x3000 }, [some 0x10, some 0x02]),
    -- V167 `JSR $4000`
    (start [0xBD, 0x40, 0x00] { base with s := 0x1 },
      [0xFFFF, 0x0000], { base with s := 0xFFFF, pc := 0x4000 }, [some 0x10, some 0x03]),
    -- V168 `JMP [$2000]`
    (start [0x6E, 0x9F, 0x20, 0x00] base [(0x2000, [0x45, 0x67])],
      [], { base with pc := 0x4567 }, []),
    -- V169 `JMP <$80`
    (start [0x0E, 0x80] { base with dp := 0x30 },
      [], { base with dp := 0x30, pc := 0x3080 }, []),
    -- V170 `RTS`
    (start [0x39] { base with s := 0x7EFE } [(0x7EFE, [0x12, 0x34])],
      [], { base with pc := 0x1234 }, [])
    ] : List Row), outcome v.1 v.2.1 = some (.running, v.2.2) := by decide

theorem test_vectors_transfer : ∀ v ∈ ([
    -- V171 `TFR A,B`
    (start [0x1F, 0x89] { base with a := 0x5A },
      [], { base with a := 0x5A, b := 0x5A, pc := 0x1002 }, []),
    -- V173 `TFR D,S`
    (start [0x1F, 0x04] { base with a := 0x2 },
      [], { base with a := 0x2, s := 0x200, pc := 0x1002 }, []),
    -- V174 `TFR CC,A`
    (start [0x1F, 0xA8] { base with cc := 0xD5 },
      [], { base with cc := 0xD5, a := 0xD5, pc := 0x1002 }, []),
    -- V175 `TFR A,CC`
    (start [0x1F, 0x8A] { base with a := 0xF, cc := 0xD0 },
      [], { base with a := 0xF, cc := 0xF, pc := 0x1002 }, []),
    -- V176 `TFR X,PC`
    (start [0x1F, 0x15] { base with x := 0x3000 },
      [], { base with x := 0x3000, pc := 0x3000 }, []),
    -- V177 `TFR PC,X`
    (start [0x1F, 0x51] base,
      [], { base with x := 0x1002, pc := 0x1002 }, []),
    -- V178 `EXG A,B`
    (start [0x1E, 0x89] { base with a := 0x1, b := 0x2 },
      [], { base with a := 0x2, b := 0x1, pc := 0x1002 }, []),
    -- V180 `EXG D,Y`
    (start [0x1E, 0x02] { base with a := 0xAA, b := 0xAA, y := 0x5555 },
      [], { base with a := 0x55, b := 0x55, y := 0xAAAA, pc := 0x1002 }, []),
    -- V181 `EXG A,DP`
    (start [0x1E, 0x8B] { base with a := 0x20 },
      [], { base with dp := 0x20, pc := 0x1002 }, [])
    ] : List Row), outcome v.1 v.2.1 = some (.running, v.2.2) := by decide

theorem test_vectors_stack : ∀ v ∈ ([
    -- V185 `PSHS A,B,X`
    (start [0x34, 0x16] { base with a := 0x11, b := 0x22, x := 0x3344 },
      [0x7EFE, 0x7EFF, 0x7EFD, 0x7EFC], { base with a := 0x11, b := 0x22, x := 0x3344, s := 0x7EFC, pc := 0x1002 },
        [some 0x33, some 0x44, some 0x22, some 0x11]),
    -- V186 `PSHS PC,U,Y,X,DP,B,A,CC`
    (start [0x34, 0xFF] { full with cc := 0x80 },
      [0x7EFF, 0x7EFC, 0x7EFA, 0x7EF8, 0x7EF7, 0x7EF6, 0x7EF5, 0x7EF4],
        { full with s := 0x7EF4, cc := 0x80, pc := 0x1002 }, [some 0x02, some 0x66, some 0x55, some 0x44, some 0x33,
        some 0x22, some 0x11, some 0x80]),
    -- V187 `PULS A,B,X`
    (start [0x35, 0x16] { base with s := 0x7EFC } [(0x7EFC, [0x11, 0x22, 0x33, 0x44])],
      [], { base with a := 0x11, b := 0x22, x := 0x3344, pc := 0x1002 }, []),
    -- V188 `PULS CC,PC`
    (start [0x35, 0x81] { base with s := 0x7EFD } [(0x7EFD, [0x0F, 0x20, 0x00])],
      [], { base with cc := 0xF, pc := 0x2000 }, []),
    -- V189 `PSHU S,A`
    (start [0x36, 0x42] { base with a := 0x99 },
      [0x6EFE, 0x6EFF, 0x6EFD], { base with a := 0x99, u := 0x6EFD, pc := 0x1002 }, [some 0x7F, some 0x00,
        some 0x99]),
    -- V190 `PULU S,Y`
    (start [0x37, 0x60] { base with u := 0x6EFC } [(0x6EFC, [0x12, 0x34, 0x70, 0x00])],
      [], { base with y := 0x1234, s := 0x7000, pc := 0x1002 }, []),
    -- V191 `PSHS (empty list)`
    (start [0x34, 0x00] base,
      [], { base with pc := 0x1002 }, [])
    ] : List Row), outcome v.1 v.2.1 = some (.running, v.2.2) := by decide

theorem test_vectors_cc_and_nop : ∀ v ∈ ([
    -- V192 `ANDCC #$AF`
    (start [0x1C, 0xAF] { base with cc := 0xFF },
      [], { base with cc := 0xAF, pc := 0x1002 }, []),
    -- V193 `ORCC #$50`
    (start [0x1A, 0x50] base,
      [], { base with cc := 0x50, pc := 0x1002 }, []),
    -- V194 `NOP`
    (start [0x12] { base with cc := 0x2A },
      [], { base with cc := 0x2A, pc := 0x1001 }, [])
    ] : List Row), outcome v.1 v.2.1 = some (.running, v.2.2) := by decide

theorem test_vectors_system : ∀ v ∈ ([
    -- V195 `SWI`
    (start [0x3F] { full with cc := 0x1 } [(0xFFFA, [0xE1, 0x00])],
      [0x7EFE, 0x7EFF, 0x7EFC, 0x7EF5, 0x7EF4], { full with s := 0x7EF4, cc := 0xD1, pc := 0xE100 }, [some 0x10,
        some 0x01, some 0x66, some 0x11, some 0x81]),
    -- V196 `SWI2`
    (start [0x10, 0x3F] base [(0xFFF4, [0xE2, 0x00])],
      [0x7EFE, 0x7EFF, 0x7EFC, 0x7EF5, 0x7EF4], { base with s := 0x7EF4, cc := 0x80, pc := 0xE200 }, [some 0x10,
        some 0x02, some 0x6F, some 0x00, some 0x80]),
    -- V197 `SWI3`
    (start [0x11, 0x3F] { base with cc := 0x50 } [(0xFFF2, [0xE3, 0x00])],
      [0x7EFE, 0x7EFF, 0x7EFC, 0x7EF5, 0x7EF4], { base with s := 0x7EF4, cc := 0xD0, pc := 0xE300 }, [some 0x10,
        some 0x02, some 0x6F, some 0x00, some 0xD0]),
    -- V198 `RTI (E=1)`
    (start [0x3B] { base with s := 0x7EF4 } [(0x7EF4, [0x80, 0x11, 0x22, 0x33, 0x44, 0x44, 0x55, 0x55, 0x66, 0x66,
      0x20, 0x00])],
      [],
        { base with cc := 0x80, a := 0x11, b := 0x22, x := 0x4444, y := 0x5555, u := 0x6666, dp := 0x33, pc := 0x2000 }, []),
    -- V199 `RTI (E=0)`
    (start [0x3B] { base with s := 0x7EFD, a := 0x77 } [(0x7EFD, [0x05, 0x20, 0x00])],
      [], { base with a := 0x77, cc := 0x5, pc := 0x2000 }, []),
    -- V200 `CWAI #$EF`
    (start [0x3C, 0xEF] { base with cc := 0x50 },
      [0x7EFE, 0x7EFF, 0x7EFC, 0x7EF5, 0x7EF4], { base with s := 0x7EF4, cc := 0xC0, pc := 0x1002 }, [some 0x10,
        some 0x02, some 0x6F, some 0x00, some 0xC0]),
    -- V201 `SYNC`
    (start [0x13] { base with cc := 0x50 },
      [], { base with cc := 0x50, pc := 0x1001 }, [])
    ] : List Row), outcome v.1 v.2.1 = some (.running, v.2.2) := by decide

/-- Vectors with an undefined flag: the accumulators and PC (CC holds a free value). -/
theorem test_vectors_undefined_flag : ∀ v ∈ ([
    -- V57 `SUBA #$01`, V59 `SUBB #$FF`, V60 `SBCA #$00`, V61 `SBCB #$01`, V62 `CMPA #$05`, V63 `CMPB #$80`
    (start [0x80, 0x01] base, 0xFF, 0x00, 0x1002), (start [0xC0, 0xFF] { base with b := 0x7F }, 0x00, 0x80, 0x1002),
    (start [0x82, 0x00] { base with cc := 0x01 }, 0xFF, 0x00, 0x1002),
    (start [0xC2, 0x01] { base with b := 0x01, cc := 0x01 }, 0x00, 0xFF, 0x1002),
    (start [0x81, 0x05] { base with a := 0x05 }, 0x05, 0x00, 0x1002),
    (start [0xC1, 0x80] { base with b := 0x7F }, 0x00, 0x7F, 0x1002),
    -- V73 to V77 `DAA`
    (start [0x19] { base with a := 0x7D }, 0x83, 0x00, 0x1001),
    (start [0x19] { base with a := 0xAC }, 0x12, 0x00, 0x1001),
    (start [0x19] { base with a := 0x9A }, 0x00, 0x00, 0x1001),
    (start [0x19] { base with a := 0x12, cc := 0x20 }, 0x18, 0x00, 0x1001),
    (start [0x19] { base with a := 0x30, cc := 0x01 }, 0x90, 0x00, 0x1001),
    -- V99 `NEGA`, V100 `NEGB`, V107 `ASRA`, V108 `ASRB`, V109 `ASLA`, V110 `ASLB`
    (start [0x40] { base with a := 0x80 }, 0x80, 0x00, 0x1001),
    (start [0x50] { base with b := 0x01 }, 0x00, 0xFF, 0x1001),
    (start [0x47] { base with a := 0x81 }, 0xC0, 0x00, 0x1001),
    (start [0x57] { base with b := 0x01 }, 0x00, 0x00, 0x1001),
    (start [0x48] { base with a := 0x40 }, 0x80, 0x00, 0x1001),
    (start [0x58] { base with b := 0x80 }, 0x00, 0x00, 0x1001)
    ] : List (State × Byte × Byte × Word)),
    (outcome v.1 []).map (fun o => (o.2.1.a, o.2.1.b, o.2.1.pc)) = some v.2 := by decide

/-- V121 `NEG <$10`, V125 `ASR $2000`, V126 `ASL <$00`: the byte written. -/
theorem test_vectors_undefined_flag_memory : ∀ v ∈ ([
    (start [0x00, 0x10] { base with dp := 0x20 } [(0x2010, [0x01])], 0x2010, 0xFF),
    (start [0x77, 0x20, 0x00] base [(0x2000, [0x80])], 0x2000, 0xC0),
    (start [0x08, 0x00] { base with dp := 0x20 } [(0x2000, [0xC0])], 0x2000, 0x80)
    ] : List (State × Word × Byte)), (outcome v.1 [v.2.1]).map (fun o => o.2.2) = some [some v.2.2] := by decide

/-- V27 to V30 and V182 to V184: the run ends with the registers as they were (R420). -/
theorem test_vectors_invalid : ∀ bs ∈ ([[0xA6, 0x90], [0xA6, 0x87], [0xA6, 0xBF], [0xA6, 0x8F], [0x1F, 0x81],
    [0x1E, 0x18], [0x1F, 0x61]] : List (List Byte)),
    outcome (start bs base) [] = some (.faulted (.invalidInstruction 0x1000 bs), base, []) := by decide

/-! ### The bus, ROM and the serial device (spec/95_test_vectors.md section 4) -/

/-- B2: an unmapped read. -/
theorem test_b2 : State.read8 State.reset 0x8000 = (0xFF, { State.reset with unmappedReads := 1 }) := by decide
/-- B3: $C002 is outside the serial window. -/
theorem test_b3 : State.write8 State.reset 0xC002 0x12 = .ok { State.reset with unmappedWrites := 1 } := by decide
/-- B4: `LDD $7FFF` reads a RAM byte, then an unmapped one. -/
theorem test_b4 : (outcome (onMap { base with cc := 0 } [(0x1000, [0xFC, 0x7F, 0xFF]), (0x7FFF, [0x12])]) []).map
    (fun o => (o.2.1.a, o.2.1.b)) = some (0x12, 0xFF) := by decide
/-- B5: SR after reset. -/
theorem test_b5 : (Serial.reset.read 0xFF 0).1 = 0x02 := by decide
/-- B6, B7: CR = $80, then $41 is received; reading RDR clears RDRF. -/
theorem test_b6_b7 : let d := (Serial.reset.write 0 0x80).poll { HostInput.quiet with rx := some 0x41 }
    (d.read 0xFF 0).1 = 0x83 ∧ (d.read 0xFF 1).1 = 0x41 ∧ ((d.read 0xFF 1).2.read 0xFF 0).1 = 0x02 := by decide
/-- B8: CR = $20, then $55 is sent. -/
theorem test_b8 : let d := Serial.reset.write 0 0x20
    let e := d.write 1 0x55
    let f := e.poll HostInput.quiet
    (d.read 0xFF 0).1 = 0x82 ∧ (e.read 0xFF 0).1 = 0x00 ∧
      (f.read 0xFF 0).1 = 0x82 ∧ f.output = [0x55] := by decide
/-- B13, B14: an offer is refused in master reset, and while RDRF = 1. -/
theorem test_b13_b14 :
    (((Serial.reset.write 0 0x03).poll { HostInput.quiet with rx := some 0x99 }).read 0xFF 0).1 = 0x02 ∧
    (((Serial.reset.write 0 0x00).poll { HostInput.quiet with rx := some 0x99 }).poll
      { HostInput.quiet with rx := some 0x98 }).rdr = 0x99 := by decide
/-- B9: ROM ignores `STA $F000`. -/
theorem test_b9 : outcome (onMap { base with a := 0x12 } [(0x1000, [0xB7, 0xF0, 0x00]), (0xF000, [0x5A])]) [0xF000] =
    some (.running, { base with a := 0x12, pc := 0x1003 }, [some 0x5A]) := by decide

/-- The reference map with `ROM_WRITE_POLICY` = fault. -/
def faulting : Config := { Config.reference with romWritePolicy := .fault }

/-- A state on that map. -/
def onFaulting (g : Regs) (data : List (Word × List Byte)) : State :=
  placeAll data { State.reset with cfg := faulting, regs := g, inbox := quietHost }

/-- B10: `STD $DFFF`: the high byte goes to unmapped $DFFF, then ROM at $E000 ends the run. -/
theorem test_b10 : outcome (onFaulting { base with a := 0x12, b := 0x34 } [(0x1000, [0xFD, 0xDF, 0xFF])]) [0xE000] =
    some (.faulted (.romWrite 0xE000), { base with a := 0x12, b := 0x34 }, [some 0x00]) := by decide
/-- B11: a push into ROM restores S. -/
theorem test_b11 : outcome (onFaulting { base with s := 0xE010 } [(0x1000, [0x34, 0x02])]) [0xE00F] =
    some (.faulted (.romWrite 0xE00F), { base with s := 0xE010 }, [some 0x00]) := by decide
/-- B12: of two entries that match, the first in registration order answers. -/
theorem test_b12 : let ram : MemoryDevice := { kind := .ram, size := 65536 }
    let map : List MapEntry := [{ device := .memory 0, base := 0x0000, mask := 0xF000 },
      { device := .memory 1, base := 0x0000, mask := 0x8000 }]
    placeIn [ram, ram] map 0x0100 = .cell .ram 0x0100 ∧
      placeIn [ram, ram] map 0x1100 = .cell .ram 0x11100 := by decide

/-! ### Loading (spec/95_test_vectors.md section 5) -/

/-- L1: a hex-record image. -/
theorem test_l1 : hexImage [":03001000864139ED".toList, ":00000001FF".toList] =
    some [(0x0010, 0x86), (0x0011, 0x41), (0x0012, 0x39)] := by decide
/-- L4: a record of type 02 refuses the load. -/
theorem test_l4 : hexImage [":020000020000FC".toList] = none := by decide
/-- L5, L6: a byte with no memory device refuses the load. -/
theorem test_l5_l6 : loadImage 0 [(0xC000, 0x01)] State.reset = none ∧
    loadImage 0x7FFF [(0x0000, 0x01), (0x0001, 0x02)] State.reset = none := by decide

/-! ### Interrupts and waits (spec/95_test_vectors.md section 6) -/

/-- The reference map with the NMI line on pure source 0 and the FIRQ line on pure source 1. -/
def wired : Config :=
  { Config.reference with
    pureSources := [.source 0, .source 1]
    lines := { nmi := some (.source 0), firq := some (.source 1), irq := some .serial } }

/-- A state on that map, the lines scripted, with the ROM of the spec's runs: NOPs at $E000, handlers at $E200, $E300
and $E400. -/
def wiredState (nmi firq : Bool) (g : Regs) (pc : List Byte := [0x12, 0x12]) : State :=
  placeAll [(0xE000, pc), (0xFFF6, [0xE3, 0x00]), (0xFFF8, [0xE2, 0x00]), (0xFFFC, [0xE4, 0x00])]
    { State.reset with
      inbox := quietHost, cfg := wired, regs := { g with s := 0x0100, pc := 0xE000 }, nmiArmed := true
      sources := [.waveform nmi [], .waveform firq []] }

/-- The serial device with a received byte and the receive interrupt enabled. -/
def received : Serial := { Serial.reset with cr := 0x80, rdrf := true, rdr := 0x41 }

/-- X2, iteration 0: FIRQ pushes PC and CC with E = 0. -/
theorem test_x2_firq : outcome (wiredState false true base) [0x00FD, 0x00FE, 0x00FF] =
    some (.running, { base with s := 0x00FD, cc := 0x50, pc := 0xE300 }, [some 0x00, some 0xE0, some 0x00]) := by decide
/-- X1, iteration 2: IRQ pushes the entire state with E = 1 and sets I. -/
theorem test_x1_irq : outcome { wiredState false false { base with cc := 0x40 } with serial := received }
    [0x00F4, 0x00FE, 0x00FF] =
    some (.running, { base with s := 0x00F4, cc := 0xD0, pc := 0xE200 }, [some 0xC0, some 0xE0, some 0x00]) := by decide
/-- X4, iteration 0: NMI comes before IRQ. -/
theorem test_x4_nmi : outcome { wiredState true false base with serial := received } [0x00F4] =
    some (.running, { base with s := 0x00F4, cc := 0xD0, pc := 0xE400 }, [some 0x80]) := by decide
/-- X1, iteration 0: a masked line enters nothing. -/
theorem test_x1_masked : outcome { wiredState false false { base with cc := 0x50 } with serial := received } [] =
    some (.running, { base with s := 0x0100, cc := 0x50, pc := 0xE001 }, []) := by decide

/-! ### Witnesses: the hypotheses of each obligation, met by concrete values

One theorem per obligation (more where it has clauses), named after it. -/

/-- DecodeOfEncodeIsTheInstruction, FetchReadsTheInstructionInStorage, UnderPolicyIgnoreNoInstructionEndsTheRun. -/
theorem witness_wellFormed : (Instr.exg .x .u).wellFormed = true ∧ (Instr.tfr .a .cc).wellFormed = true ∧
    State.reset.cfg.romWritePolicy = .ignore := by decide

theorem witness_DecodedInstructionsHaveTheirLength :
    decode [0x10, 0xAE, 0x9F, 0x12, 0x34, 0x56] = .ok (.ldy (.mem (.idx (.absIndirect 0x1234)))) [0x56] := by decide

/-- Both sides of each equivalence. -/
theorem witness_InvalidEncodingsAreRefused :
    (0x01#8 ∈ noPage0 ∧ 0xCF#8 ∈ noPage0 ∧ 0x00#8 ∉ noPage0 ∧ 0xFF#8 ∉ noPage0) ∧
    (0x20#8 ∉ page2Opcodes ∧ 0x21#8 ∈ page2Opcodes ∧ 0xFF#8 ∈ page2Opcodes) ∧
    (0x3F#8 ∈ page3Opcodes ∧ 0x8E#8 ∉ page3Opcodes) := by decide

theorem witness_InvalidEncodingsAreRefused_postbytes :
    (badPostbyte 0x87 ∧ badPostbyte 0x90 ∧ badPostbyte 0xBF ∧ ¬ badPostbyte 0x9F ∧ ¬ badPostbyte 0x7F) ∧
    (badPair 0x60 ∧ badPair 0x58 ∧ badPair 0xBC ∧ ¬ badPair 0x55 ∧ ¬ badPair 0xBB) := by
  refine ⟨?_, ?_⟩
  · unfold badPostbyte
    decide
  · simp [badPair]

/-- A NOP on the reference map, PC in ROM, NMI armed, no line true. -/
def quietState : State := wiredState false false base

/-- The same with no line in use and a trap address. -/
def trapState : State := { quietState with cfg := { wired with trapAddr := some 0xE000 } }

theorem quietState_iterates : Iterates quietState := ⟨by decide, by decide, by decide, by decide⟩
theorem quietState_awake : Awake quietState := .inl (by decide)
theorem trapState_iterates : Iterates trapState := ⟨by decide, by decide, by decide, by decide⟩

theorem witness_StepRunsTheDecodedInstruction : Iterates quietState ∧ Awake quietState ∧ accepted quietState = none ∧
    quietState.cfg.trapAddr ≠ some quietState.regs.pc ∧
    (fetch (countFetch (awakened quietState))).answer = .ok .nop [] :=
  ⟨quietState_iterates, quietState_awake, by decide, by decide, by decide⟩

theorem witness_FetchReadsTheInstructionInStorage : ∀ k, k < (Instr.nop).size →
    quietState.peek (quietState.regs.pc + BitVec.ofNat 16 k) = (encode .nop)[k]? := by decide

/-- The bytes of an instruction that wraps around the top of memory. -/
theorem witness_FetchReadsTheInstructionInStorage_wrap : ∀ k, k < (Instr.lda (.ext 0x1234 |> .mem)).size →
    (start [] { base with pc := 0xFFFE } [(0xFFFE, [0xB6, 0x12, 0x34])]).peek (0xFFFE#16 + BitVec.ofNat 16 k) =
      (encode (.lda (.ext 0x1234 |> .mem)))[k]? := by decide

/-- A state with the given bytes in ROM at PC. -/
def badState (bytes : List Byte) : State := wiredState false false base bytes

theorem badState_reachesFetch (bytes : List Byte) (h : bytes ∈ ([[0x01], [0x10, 0x10], [0xA6, 0x87], [0x1F, 0x08]] : List _)) :
    Iterates (badState bytes) ∧ Awake (badState bytes) ∧ accepted (badState bytes) = none ∧
    (badState bytes).cfg.trapAddr ≠ some (badState bytes).regs.pc := by
  simp only [List.mem_cons, List.not_mem_nil, or_false] at h
  rcases h with rfl | rfl | rfl | rfl <;>
    exact ⟨⟨by decide, by decide, by decide, by decide⟩, .inl (by decide), by decide, by decide⟩

/-- Bytes invalid at the opcode, at the second prefix, at an indexed postbyte, at a register pair (R126 to R130). -/
theorem witness_InvalidAtLastByte : InvalidAtLastByte [0x01] (.noSuchOpcode 0 0x01) ∧
    InvalidAtLastByte [0x10, 0x10] (.noSuchOpcode 2 0x10) ∧ InvalidAtLastByte [0xA6, 0x87] (.badIndexedPostbyte 0x87) ∧
    InvalidAtLastByte [0x1F, 0x08] (.badRegisterPair 0x08) :=
  ⟨⟨by decide, by decide, by decide⟩, ⟨by decide, by decide, by decide⟩, ⟨by decide, by decide, by decide⟩,
    ⟨by decide, by decide, by decide⟩⟩

/-- Those bytes in storage at PC, and the fetch that refuses them. -/
theorem witness_InvalidInstructionEndsTheRun :
    ∀ bs ∈ ([[0x01], [0x10, 0x10], [0xA6, 0x87], [0x1F, 0x08]] : List (List Byte)),
      (∀ k, k < bs.length → (badState bs).peek ((badState bs).regs.pc + BitVec.ofNat 16 k) = bs[k]?) ∧
      (fetch (countFetch (awakened (badState bs)))).bytes = bs ∧
      ∀ rest i, (fetch (countFetch (awakened (badState bs)))).answer ≠ .ok i rest := by
  have h : ∀ bs ∈ ([[0x01], [0x10, 0x10], [0xA6, 0x87], [0x1F, 0x08]] : List (List Byte)),
      (∀ k, k < bs.length → (badState bs).peek ((badState bs).regs.pc + BitVec.ofNat 16 k) = bs[k]?) ∧
      (fetch (countFetch (awakened (badState bs)))).bytes = bs ∧
      (fetch (countFetch (awakened (badState bs)))).answer = decode bs ∧ ∃ e ∈ ([.noSuchOpcode 0 0x01,
        .noSuchOpcode 2 0x10, .badIndexedPostbyte 0x87, .badRegisterPair 0x08] : List DecodeError),
          decode bs = .error e := by decide
  intro bs hb
  obtain ⟨h1, h2, h3, e, -, h4⟩ := h bs hb
  exact ⟨h1, h2, fun _ _ hc => by simp [h3, h4] at hc⟩

theorem witness_StopAbortAndTerminalStates :
    (∃ s : State, s.status = .running ∧ s.configAccepted = true ∧ (nextInput s).stop = true) ∧
    (∃ s : State, s.status = .running ∧ s.configAccepted = true ∧ (nextInput s).stop = false ∧
      (nextInput s).abort = true) ∧
    (∃ s : State, s.inbox.given = []) ∧ (∃ (s : State) (r : HaltReason), s.status = .halted r) ∧ ∃ (s : State) (f : FaultReason), s.status = .faulted f :=
  ⟨⟨{ State.reset with inbox := { given := [{ stop := true, abort := true, rx := none }], drawn := 0 } }, by decide, by decide, by decide⟩,
    ⟨{ State.reset with inbox := { given := [{ stop := false, abort := true, rx := none }], drawn := 0 } }, by decide, by decide, by decide,
      by decide⟩,
    ⟨State.reset, rfl⟩, ⟨{ State.reset with status := .halted .trap }, .trap, rfl⟩,
    ⟨{ State.reset with status := .faulted .abort }, .abort, rfl⟩⟩

/-- The three clauses: halted at the trap address, an interrupt first, and a wait there. -/
theorem witness_TrapAddressHaltsBeforeTheFetch :
    (Iterates trapState ∧ trapState.cfg.trapAddr = some trapState.regs.pc ∧ Awake trapState ∧
      accepted trapState = none) ∧
    (∃ s : State, Iterates s ∧ s.cfg.trapAddr = some s.regs.pc ∧ Awake s ∧ accepted s = some .firq) ∧
    ∃ s : State, Iterates s ∧ s.cfg.trapAddr = some s.regs.pc ∧ ¬ Awake s := by
  refine ⟨⟨trapState_iterates, by decide, .inl (by decide), by decide⟩,
    ⟨{ trapState with sources := [.waveform false [], .waveform true []] },
      ⟨by decide, by decide, by decide, by decide⟩, by decide, .inl (by decide), by decide⟩,
    ⟨{ trapState with wait := .sync }, ⟨by decide, by decide, by decide, by decide⟩, by decide, ?_⟩⟩
  rintro (h | ⟨-, h⟩)
  · exact absurd h (by decide)
  · exact absurd h (by decide)

/-- A base bit outside the mask, and a memory device one byte too small for its window. -/
theorem witness_RefusedConfigurationsAreNotRun :
    (∃ (s : State) (e : MapEntry), s.status = .running ∧ e ∈ s.cfg.deviceMap ∧ e.base &&& ~~~e.mask ≠ 0) ∧
    ∃ (s : State) (e : MapEntry) (d : MemoryDevice), s.status = .running ∧ e ∈ s.cfg.deviceMap ∧
      e.device = .memory 0 ∧ s.cfg.memoryDevices[0]? = some d ∧ d.size ≤ (~~~e.mask).toNat :=
  ⟨⟨{ State.reset with cfg := { flat with deviceMap := [{ device := .serial, base := 0xC001, mask := 0xFFFE }] } },
      { device := .serial, base := 0xC001, mask := 0xFFFE }, by decide, by decide, by decide⟩,
    ⟨{ State.reset with cfg := { flat with memoryDevices := [{ kind := .ram, size := 65535 }] } },
      { device := .memory 0, base := 0x0000, mask := 0x0000 }, { kind := .ram, size := 65535 }, by decide, by decide,
      by decide, by decide, by decide⟩⟩

/-- Lines and masks for each clause; the FIRQ line masked and the IRQ line open in the third. -/
theorem witness_AcceptanceRule :
    (∃ (l : Lines) (s : State), l.firq = true ∧ ccGet s.regs.cc .f = false) ∧
    (∃ (l : Lines) (s : State), (l.firq = false ∨ ccGet s.regs.cc .f = true) ∧ l.irq = true ∧
      ccGet s.regs.cc .i = false) ∧
    ∃ (l : Lines) (s : State), (l.firq = false ∨ ccGet s.regs.cc .f = true) ∧
      (l.irq = false ∨ ccGet s.regs.cc .i = true) :=
  ⟨⟨{ nmi := false, firq := true, irq := true }, quietState, by decide⟩,
    ⟨{ nmi := false, firq := true, irq := true }, wiredState false false { base with cc := 0x40 }, by decide⟩,
    ⟨{ nmi := false, firq := true, irq := true }, State.reset, by decide⟩⟩

/-- An iteration that requests NMI, and one with the line held since the last sample. -/
theorem witness_EveryIterationRecordsTheNmiLine :
    (∃ s t : State, Iterates s ∧ step s = .next t ∧ accepted s = some .nmi) ∧
    ∃ s t : State, Iterates s ∧ step s = .next t ∧ (sampleLines (polled s)).nmi = true ∧ accepted s = none :=
  ⟨⟨wiredState true false base, _, ⟨by decide, by decide, by decide, by decide⟩, rfl, by decide⟩,
    ⟨{ wiredState true false base with nmiPrev := true }, _, ⟨by decide, by decide, by decide, by decide⟩, rfl,
      by decide, by decide⟩⟩

/-- A line bound to nothing, to the serial device, and to a source of either form. -/
theorem witness_LineReads : State.reset.cfg.lines.nmi = none ∧ State.reset.cfg.lines.irq = some .serial ∧
    (∃ p : State, p.cfg.lines.firq = some (.source 1) ∧ p.sources[1]? = some (.waveform true [])) ∧
    ∃ p : State, p.cfg.lines.nmi = some (.source 0) ∧ p.sources[0]? = some (.general 7) :=
  ⟨rfl, rfl, ⟨wiredState false true base, rfl, rfl⟩, { wiredState false true base with sources := [.general 7] }, rfl, rfl⟩

theorem witness_WaitingIterations :
    (∃ s : State, Iterates s ∧ s.wait = .sync ∧ ¬ Awake s) ∧
    (∃ s : State, Iterates s ∧ s.wait = .cwai ∧ accepted s = none) ∧
    (∃ s : State, Iterates s ∧ s.wait = .cwai ∧ accepted s = some .firq) ∧
    ∃ s : State, Iterates s ∧ s.wait = .sync ∧ Awake s ∧ accepted s = some .firq := by
  refine ⟨⟨{ quietState with wait := .sync }, ⟨by decide, by decide, by decide, by decide⟩, rfl, ?_⟩,
    ⟨{ quietState with wait := .cwai }, ⟨by decide, by decide, by decide, by decide⟩, rfl, by decide⟩,
    ⟨{ wiredState false true base with wait := .cwai }, ⟨by decide, by decide, by decide, by decide⟩, rfl, by decide⟩,
    ⟨{ wiredState false true base with wait := .sync }, ⟨by decide, by decide, by decide, by decide⟩, rfl,
      .inr ⟨rfl, .inr (.inl (by decide))⟩, by decide⟩⟩
  rintro (h | ⟨-, h⟩)
  · exact absurd h (by decide)
  · exact absurd h (by decide)

theorem writable_one {s : State} {a : Word} {v : Byte} (h : s.romFaults a = false) : s.Writable [(a, v)] := by
  simp [h]

theorem writable_two {s : State} {a b : Word} {v w : Byte} (h : s.romFaults a = false) (h' : s.romFaults b = false) :
    s.Writable [(a, v), (b, w)] := by
  rintro x hx
  rcases List.mem_pair.mp hx with rfl | rfl
  · exact h
  · exact h'

/-- Under policy ignore every write list takes writes. -/
theorem writable_of_ignore {s : State} (h : s.cfg.romWritePolicy = .ignore) (ws : List (Word × Byte)) : s.Writable ws :=
  fun _ _ => romFaults_of_ignore h _

theorem place_flat (a : Word) : place flat a = .cell .ram (cellKey 0 a) := by
  have h : a &&& 65535#16 = a := BitVec.and_allOnes
  simp [place, flat, placeIn, entryHits, entryPlace, h]

/-- A state of the test bus under policy fault: no address of it is ROM. -/
def flatFaulting (g : Regs) : State := { start [] g with cfg := { flat with romWritePolicy := .fault } }

theorem writable_flatFaulting (g : Regs) (ws : List (Word × Byte)) : (flatFaulting g).Writable ws := fun w _ => by
  have h : place (flatFaulting g).cfg w.1 = .cell .ram (cellKey 0 w.1) := place_flat w.1
  simp [State.romFaults, h]

/-- On the reference map, and on RAM where the stack wraps below $0000 under policy fault. -/
theorem witness_InterruptEntries : quietState.status = .running ∧ (∀ ws, quietState.Writable ws) ∧
    ∃ s : State, s.status = .running ∧ s.cfg.romWritePolicy = .fault ∧
      s.Writable (pushWrites s.regs.s (shortFrame { s.regs with cc := withE false s.regs.cc })) :=
  ⟨by decide, writable_of_ignore rfl,
    flatFaulting { base with s := 0x0001 }, by decide, rfl, writable_flatFaulting _ _⟩

theorem witness_EntryFromCwai : (Event.irq, 0xFFF8#16, false) ∈
    [(Event.nmi, 0xFFFC#16, true), (.firq, 0xFFF6#16, true), (.irq, 0xFFF8#16, false)] := by decide

/-- The bytes below any S are RAM on the test bus, wherever the stack wraps. -/
theorem ramBelow_flat (sp : Word) {n : Nat} (hn : n ≤ 12) : RamBelow flat sp n := by
  refine ⟨fun k _ _ => ⟨_, place_flat _⟩, fun j k h1 h2 h3 h => ?_⟩
  rw [place_flat, place_flat, Place.cell.injEq, cellKey_inj] at h
  have := congrArg BitVec.toNat h.2.2
  simp only [BitVec.toNat_sub, BitVec.toNat_ofNat] at this
  omega

/-- The stack pointer $0005 wraps below $0000 while the frame is pushed. -/
theorem witness_ReturnResumesTheInterruptedProgram : ∀ e : Event, (e = .nmi ∨ e = .irq ∨ e = .firq) →
    ∃ s t h : State, s.mem.wf ∧ s.status = .running ∧ enter e s = .next t ∧ h.cfg = t.cfg ∧ h.mem = t.mem ∧
      h.regs.s = t.regs.s ∧ RamBelow s.cfg s.regs.s 12 ∧ RamBelow s.cfg s.regs.s 3 := by
  rintro e (rfl | rfl | rfl)
  all_goals
    exact ⟨start [] { base with s := 0x0005 }, _, _, by decide, by decide, rfl, rfl, rfl, rfl,
      ramBelow_flat _ (by omega), ramBelow_flat _ (by omega)⟩

/-- EveryStepKeepsTheInvariant, NoStepChangesRom, StepsKeepParametersAndCountUp. -/
theorem witness_steps : (∃ s t : State, s.Inv ∧ step s = .next t) ∧
    (∃ (s t : State) (key : Nat), step s = .next t ∧ place s.cfg 0xE000 = .cell .rom key) ∧
    ∃ (s t : State) (key : Nat), step s = .next t ∧ place s.cfg 0xFFFF = .cell .rom key := by
  refine ⟨⟨{ quietState with mem := [] }, _, ⟨by decide, ?_, by decide, ?_, by decide, by decide⟩, rfl⟩,
    ⟨quietState, _, _, rfl, rfl⟩, ⟨quietState, _, _, rfl, rfl⟩⟩
  · intro c h
    exact absurd h (by simp)
  · intro h
    exact absurd h (by decide)

/-- The very next step after reset runs the instruction placed: `LDA #$80` (R170). -/
theorem test_withFetchWord : ∃ t : State, step (State.reset.withFetchWord 16 0x8086) = .next t ∧ t.regs.a = 0x80 ∧
    t.regs.pc = 0x0002 := ⟨_, rfl, by decide⟩

/-- R412: one step with profiling enabled counts 1 at PC, one without counts nothing. -/
theorem test_profiling :
    (∃ t : State, step { quietState with cfg := { wired with profiling := true } } = .next t ∧
      t.execCount = [(0xE000, 1)]) ∧ ∃ t : State, step quietState = .next t ∧ t.execCount = [] :=
  ⟨⟨_, rfl, by decide⟩, _, rfl, by decide⟩

theorem witness_TheInstructionsThatArmNmi :
    (∃ t : State, exec (.lds (.imm 0x7000)) State.reset = .next t) ∧
    (∃ t : State, exec (.pulu 0x40) State.reset = .next t) ∧ ∃ t : State, exec (.pulu 0x3F) State.reset = .next t :=
  ⟨⟨_, rfl⟩, ⟨_, rfl⟩, ⟨_, rfl⟩⟩

/-- A state about to store into ROM under policy fault. -/
def faultState : State := onFaulting { base with a := 0x12, b := 0x34, s := 0xE006, u := 0xE001 } []

theorem witness_RomWriteFaultsArePrecise : faultState.status = .running ∧
    ∃ t : State, exec (.sta (.ext 0xE000)) faultState = .next t ∧ t.status = .faulted (.romWrite 0xE000) :=
  ⟨by decide, _, rfl, rfl⟩

/-- The clauses of WritesIntoRomEndTheRun: the byte stores, the unary operations, and the word stores at their two
bytes. -/
theorem witness_WritesIntoRomEndTheRun :
    let ea (m : Mem) (i : Instr) : Word := (effectiveAddress m (faultState.advance i.size)).1
    faultState.romFaults (ea (.ext 0xE000) (.sta (.ext 0xE000))) = true ∧
    faultState.romFaults (ea (.ext 0xFFFF) (.neg (.ext 0xFFFF))) = true ∧
    faultState.romFaults (ea (.ext 0xE000) (.std (.ext 0xE000))) = true ∧
    (faultState.romFaults (ea (.ext 0xDFFF) (.std (.ext 0xDFFF))) = false ∧
      faultState.romFaults (ea (.ext 0xDFFF) (.std (.ext 0xDFFF)) + 1) = true) :=
  ⟨rfl, rfl, rfl, rfl, rfl⟩

/-- A state whose stack wraps from RAM at $0000 to ROM at $FFFF under policy fault. -/
def wrapState : State := onFaulting { base with s := 0x0001 } []

/-- A call whose first byte goes into ROM, a push whose second byte does, and an interrupt entry. -/
theorem witness_WritesIntoRomEndTheRun_pushes :
    (∃ ws v after, StacksBytes (.bsr 0x10) wrapState wrapState ws ∧ ws = [] ++ (0xFFFF, v) :: after) ∧
    (∃ ws w v after, StacksBytes (.pshs 0x03) wrapState wrapState ws ∧ ws = [w] ++ (0xFFFF, v) :: after ∧
      wrapState.Writable [w]) ∧
    wrapState.romFaults 0xFFFF = true ∧
    ∃ before a v after, pushWrites faultState.regs.s
        (entireFrame { faultState.regs with cc := withE true faultState.regs.cc }) = before ++ (a, v) :: after ∧
      faultState.Writable before ∧ faultState.romFaults a = true := by
  refine ⟨⟨_, _, _, .inl ⟨.inl ⟨0x10, rfl⟩, rfl, rfl⟩, rfl⟩,
    ⟨_, _, _, _, .inr (.inr (.inl ⟨0x03, rfl, rfl, rfl⟩)), rfl, writable_one rfl⟩, rfl,
    ⟨[], 0xE004, _, _, rfl, fun _ h => absurd h (List.not_mem_nil), rfl⟩⟩

/-- A hit behind an entry that does not match, for a memory device and for the serial device, and an address with no
hit. -/
theorem witness_TheFirstMatchingEntryAnswers :
    let m := Config.reference.deviceMap
    let before := m.take 1
    let e : MapEntry := { device := .memory 1, base := 0xE000, mask := 0xE000 }
    let serial : MapEntry := { device := .serial, base := 0xC000, mask := 0xFFFE }
    (∀ x ∈ before, 0xFFFF#16 &&& x.mask ≠ x.base &&& x.mask) ∧ 0xFFFF#16 &&& e.mask = e.base &&& e.mask ∧
    Config.reference.memoryDevices[1]? = some { kind := .rom, size := 8192 } ∧
    (∀ x ∈ m.take 2, 0xC001#16 &&& x.mask ≠ x.base &&& x.mask) ∧
    0xC001#16 &&& serial.mask = serial.base &&& serial.mask ∧
    ∀ x ∈ m, 0xC002#16 &&& x.mask ≠ x.base &&& x.mask := by decide

/-- BusAccesses, StorageReadsBack: the four kinds of place at the edges of their windows. -/
theorem witness_places : place State.reset.cfg 0x7FFF = .cell .ram 0x7FFF ∧ place State.reset.cfg 0x8000 = .unmapped ∧
    place State.reset.cfg 0xC000 = .serial 0 ∧ place State.reset.cfg 0xC001 = .serial 1 ∧
    place State.reset.cfg 0xC002 = .unmapped ∧ place State.reset.cfg 0xDFFF = .unmapped ∧
    place State.reset.cfg 0xE000 = .cell .rom 0x10000 ∧ place State.reset.cfg 0xFFFF = .cell .rom 0x11FFF ∧
    place faultState.cfg 0xE000 = .cell .rom 0x10000 := by decide

theorem witness_BusAccesses_write16 : ∃ t : State, State.reset.write8 0x7FFF ((0x1234#16).extractLsb' 8 8) = .ok t :=
  ⟨_, rfl⟩

theorem witness_StorageReadsBack : State.reset.mem.wf ∧ (∃ t : State, State.reset.write8 0x0000 0xFF = .ok t) ∧
    (∃ t : State, State.reset.write8 0xE000 0xFF = .ok t) ∧ Separate State.reset.cfg 0x0000 0x0001 ∧
    Separate State.reset.cfg 0x0000 0xE000 :=
  ⟨State.reset_mem_wf, ⟨_, rfl⟩, ⟨_, rfl⟩, by decide, by decide⟩

/-- EffectiveAddressesAndOperands, LoadsOfAnAccumulator, LoadsOfAWord, LoadsOfAnEffectiveAddress, EightBitAdditions,
EightBitSubtractions, LogicInstructions and SixteenBitArithmetic: a row of each one's table. -/
theorem witness_tables :
    (IndexReg.s, rowS) ∈ [(IndexReg.x, rowX), (.y, rowY), (.u, rowU), (.s, rowS)] ∧
    (Instr.ldb, rowB) ∈ [(Instr.lda, rowA), (Instr.ldb, rowB)] ∧
    (Instr.lds, rowS, true) ∈ [(Instr.ldd, rowD, false), (Instr.ldx, rowX, false), (Instr.ldy, rowY, false),
      (Instr.ldu, rowU, false), (Instr.lds, rowS, true)] ∧
    (Instr.leay, rowY, true, false) ∈ [(Instr.leax, rowX, true, false), (Instr.leay, rowY, true, false),
      (Instr.leau, rowU, false, false), (Instr.leas, rowS, false, true)] ∧
    (Instr.leas, rowS, false, true) ∈ [(Instr.leax, rowX, true, false), (Instr.leay, rowY, true, false),
      (Instr.leau, rowU, false, false), (Instr.leas, rowS, false, true)] ∧
    (Instr.adcb, rowB, true) ∈ [(Instr.adda, rowA, false), (Instr.addb, rowB, false), (Instr.adca, rowA, true),
      (Instr.adcb, rowB, true)] ∧
    (Instr.cmpb, rowB, false, true) ∈ [(Instr.suba, rowA, false, false), (Instr.subb, rowB, false, false),
      (Instr.sbca, rowA, true, false), (Instr.sbcb, rowB, true, false), (Instr.cmpa, rowA, false, true),
      (Instr.cmpb, rowB, false, true)] ∧
    (Instr.bitb, rowB, Bool.and, true) ∈ [(Instr.anda, rowA, Bool.and, false), (Instr.andb, rowB, Bool.and, false),
      (Instr.bita, rowA, Bool.and, true), (Instr.bitb, rowB, Bool.and, true), (Instr.ora, rowA, Bool.or, false),
      (Instr.orb, rowB, Bool.or, false), (Instr.eora, rowA, Bool.xor, false), (Instr.eorb, rowB, Bool.xor, false)] ∧
    (Instr.addd, rowD, true, false) ∈ [(Instr.addd, rowD, true, false), (Instr.subd, rowD, false, false),
      (Instr.cmpd, rowD, false, true), (Instr.cmpx, rowX, false, true), (Instr.cmpy, rowY, false, true),
      (Instr.cmpu, rowU, false, true), (Instr.cmps, rowS, false, true)] ∧
    (Instr.cmps, rowS, false, true) ∈ [(Instr.addd, rowD, true, false), (Instr.subd, rowD, false, false),
      (Instr.cmpd, rowD, false, true), (Instr.cmpx, rowX, false, true), (Instr.cmpy, rowY, false, true),
      (Instr.cmpu, rowU, false, true), (Instr.cmps, rowS, false, true)] := by simp

/-- The stores under policy fault, at the top of RAM. -/
theorem witness_StoresOfAnAccumulator : (Instr.stb, rowB) ∈ [(Instr.sta, rowA), (Instr.stb, rowB)] ∧
    faultState.Writable
      [((effectiveAddress (.ext 0x7FFF) (faultState.advance (Instr.stb (.ext 0x7FFF)).size)).1, faultState.regs.b)] :=
  ⟨by simp, writable_one rfl⟩

theorem witness_StoresOfAWord :
    (Instr.sts, rowS) ∈ [(Instr.std, rowD), (Instr.stx, rowX), (Instr.sty, rowY), (Instr.stu, rowU), (Instr.sts, rowS)] ∧
    let p := effectiveAddress (.ext 0x7FFE) (faultState.advance (Instr.sts (.ext 0x7FFE)).size)
    let v := p.2.regs.s
    faultState.Writable [(p.1, v.extractLsb' 8 8), (p.1 + 1, v.extractLsb' 0 8)] :=
  ⟨by simp, writable_two rfl rfl⟩

theorem witness_UnaryOperationsOnMemory : unaryRows ≠ [] ∧
    faultState.romFaults (effectiveAddress (.ext 0x7FFF) (faultState.advance (Instr.neg (.ext 0x7FFF)).size)).1 = false :=
  ⟨by simp [unaryRows], by decide⟩

theorem witness_UnaryOperationsOnAccumulators : ∀ row ∈ unaryRows, (row.onB, rowB) ∈ [(row.onA, rowA), (row.onB, rowB)] := by
  simp

theorem witness_TestAndClear : (Instr.tstb, rowB) ∈ [(Instr.tsta, rowA), (Instr.tstb, rowB)] ∧
    faultState.romFaults (effectiveAddress (.ext 0x0000) (faultState.advance (Instr.clr (.ext 0x0000)).size)).1 = false :=
  ⟨by simp, by decide⟩

/-- Branches, CycleCosts: BLE taken and not taken. -/
theorem witness_Branches : ∃ row ∈ branchRows.drop 2, row.takenAt 0x08 ∧ row.takenAt 0x04 ∧ ¬ row.takenAt 0x0A := by
  refine ⟨{ short := .ble, long := .lble, taken := fun _ z v n => z = true ∨ n ≠ v }, by simp [branchRows], ?_⟩
  simp only [BranchRow.takenAt]
  decide

theorem witness_SubroutineCalls :
    (∃ s : State, s.cfg.romWritePolicy = .fault ∧ s.Writable [(s.regs.s - 2, 0x10), (s.regs.s - 1, 0x02)]) ∧
    (∃ s : State,
      let p := effectiveAddress (.ext 0x4000) (s.advance (Instr.jsr (.ext 0x4000)).size)
      s.cfg.romWritePolicy = .fault ∧ s.Writable [(p.2.regs.s - 2, 0x10), (p.2.regs.s - 1, 0x03)]) :=
  ⟨⟨onFaulting { base with s := 0x8000 } [], rfl, writable_two rfl rfl⟩,
    ⟨onFaulting { base with s := 0x0002 } [], rfl, writable_two rfl rfl⟩⟩

theorem witness_ReturnGoesBackToTheCaller :
    (∃ s t h : State, s.mem.wf ∧ s.status = .running ∧ RamBelow s.cfg s.regs.s 2 ∧ exec (.bsr 0x10) s = .next t ∧
      h.cfg = t.cfg ∧ h.mem = t.mem ∧ h.regs.s = t.regs.s) ∧
    ∃ s t h : State, s.mem.wf ∧ s.status = .running ∧
      RamBelow s.cfg (effectiveAddress (.ext 0x4000) (s.advance (Instr.jsr (.ext 0x4000)).size)).2.regs.s 2 ∧
      exec (.jsr (.ext 0x4000)) s = .next t ∧ h.cfg = t.cfg ∧ h.mem = t.mem ∧ h.regs.s = t.regs.s :=
  ⟨⟨start [] { base with s := 0x0001 }, _, _, by decide, by decide, ramBelow_flat _ (by omega), rfl, rfl, rfl, rfl⟩,
    ⟨start [] { base with s := 0x0000 }, _, _, by decide, by decide, ramBelow_flat _ (by omega), rfl, rfl, rfl, rfl⟩⟩

/-- Equal widths, with overlap of D and A left to the `apart` clause, and unequal ones. -/
theorem witness_TransferAndExchange : RegCode.wide .d = RegCode.wide .pc ∧ RegCode.wide .a = RegCode.wide .cc ∧
    RegCode.wide .a ≠ RegCode.wide .x := by decide

/-- Pushes, SoftwareInterrupts, ClearAndWait: any list under policy ignore, and under policy fault where the stack wraps
below $0000. -/
theorem witness_pushes : (∀ ws, quietState.Writable ws) ∧
    ∃ s : State, s.cfg.romWritePolicy = .fault ∧ s.regs.s = 0x0001 ∧ ∀ ws, s.Writable ws :=
  ⟨writable_of_ignore rfl, flatFaulting { base with s := 0x0001 }, rfl, rfl, writable_flatFaulting _⟩

theorem witness_SoftwareInterrupts : (Instr.swi3, 0xFFF2#16, false) ∈
    [(Instr.swi, 0xFFFA#16, true), (Instr.swi2, 0xFFF4#16, false), (Instr.swi3, 0xFFF2#16, false)] := by decide

theorem witness_ReturnFromInterrupt :
    ccGet ((start [] base [(0x7F00, [0x80])]).read8 0x7F00).1 .e = true ∧
    ccGet ((start [] base [(0x7F00, [0x7F])]).read8 0x7F00).1 .e = false := by decide

theorem witness_SerialRegisters : 2 ≤ (0x0002#16).toNat ∧ (0x03#8).toNat % 4 = 3 ∧ (0xFF#8).toNat % 4 = 3 ∧
    (0x80#8).toNat % 4 ≠ 3 := by decide

theorem witness_SerialPollAndInterrupt : (Serial.reset.write 0 0x03).cr.toNat % 4 = 3 ∧ Serial.reset.cr.toNat % 4 ≠ 3 ∧
    (received.irqOut = true ∧ received.cr.toNat % 4 ≠ 3) := by decide

/-- `ENTRY_PC` given, and the word at $FFFE: in ROM, on no device, and on the serial device, whose SR reads $02 and RDR $00 (R448, R454). -/
theorem witness_ResetLeavesTheseValues :
    (∃ (c : Config) (a : Word), c.entryPc = some a) ∧ Config.reference.entryPc = none ∧
    resetVectorByte Config.reference [(0x11FFE, 0xE0)] 0xFFFE = 0xE0 ∧
    (∃ c : Config, c.entryPc = none ∧ resetVectorByte c [] 0xFFFE = 0xFF ∧ unmappedVectorReads c = 2) ∧
    ∃ c : Config, c.entryPc = none ∧ resetVectorByte c [] 0xFFFE = 0x02 ∧ resetVectorByte c [] 0xFFFF = 0x00 ∧
      unmappedVectorReads c = 0 :=
  ⟨⟨{ Config.reference with entryPc := some 0x0000 }, 0x0000, rfl⟩, rfl, by decide,
    ⟨{ Config.reference with deviceMap := [] }, rfl, by decide, by decide⟩,
    { Config.reference with deviceMap := [{ device := .serial, base := 0xFFFE, mask := 0xFFFE }] }, rfl, by decide,
      by decide, by decide⟩

/-- An image that gives one address twice, and wraps past $FFFF into RAM. -/
theorem witness_LoadedImagesReadBack : State.reset.mem.wf ∧
    (∃ t : State, loadImage 0xFFFF [(0x0000, 0x01), (0x0001, 0x02), (0x0000, 0x03)] State.reset = some t) ∧
    (∀ w ∈ ([(0x0000, 0x03)] : List (Word × Byte)), Separate State.reset.cfg (0xFFFF#16 + w.1) (0xFFFF#16 + 0x0001#16)) ∧
    ∀ w ∈ ([(0x0000, 0x01), (0x0001, 0x02), (0x0000, 0x03)] : List (Word × Byte)),
      Separate State.reset.cfg (0xFFFF#16 + w.1) 0x0001 :=
  ⟨State.reset_mem_wf, ⟨_, rfl⟩, List.forall_mem_singleton.mpr (by decide),
    List.forall_mem_cons.mpr ⟨by decide, List.forall_mem_cons.mpr ⟨by decide, List.forall_mem_singleton.mpr (by decide)⟩⟩⟩

end Sys2Proof.Tests
end

section
/-! PROOF. What a step keeps and counts (spec/00_scope.md R9, 10_state.md R48, R51, R52, 60_exceptions.md R406, R412,
R445): the relation `Grows` from a state to a later one, each stage of an iteration in it, and the stages an iteration
goes through (`step_cases`). -/

namespace Sys2Proof.Machine

/-! ### The stages of an iteration (R400), by inversion -/

/-- Everything a step that answers a next state has done first: the run was on, its configuration is one that is run, and
the input it took stops the run, aborts it, or leaves it to the polls. -/
theorem step_cases {s t : State} (h : step s = .next t) :
    s.status = .running ∧ s.configAccepted = true ∧
      (((nextInput s).stop = true ∧ t = { dropInput s with status := .halted .stopRequest }) ∨
        ((nextInput s).stop = false ∧ (nextInput s).abort = true ∧ t = { dropInput s with status := .faulted .abort }) ∨
        ((nextInput s).stop = false ∧ (nextInput s).abort = false ∧
          pollAndSample (nextInput s) (dropInput s) = .next t)) := by
  simp only [step, iterate] at h
  split at h
  case h_1 => cases h
  case h_2 => cases h
  case h_3 hs =>
    split at h
    case isFalse => cases h
    case isTrue hc =>
      refine ⟨hs, hc, ?_⟩
      simp only [iterateWith] at h
      split at h
      case isTrue hstop => exact .inl ⟨hstop, (Host.Outcome.next.inj h).symm⟩
      case isFalse hstop =>
        replace hstop := Bool.eq_false_iff.2 hstop
        split at h
        case isTrue habort => exact .inr (.inl ⟨hstop, habort, (Host.Outcome.next.inj h).symm⟩)
        case isFalse habort => exact .inr (.inr ⟨hstop, Bool.eq_false_iff.2 habort, h⟩)

/-- Everything that follows the sample (R409, R410): the wait goes on, the CWAI wait ends in an entry, or the last stages
run on a state that does not wait. -/
theorem afterSample_cases {r : Bool} {l : Lines} {s t : State} (h : afterSample r l s = .next t) :
    (s.wait ≠ .none ∧ t = s) ∨ (s.wait = .cwai ∧ ∃ e, accept r l s = some e ∧ t = enterFromCwai e s) ∨
      (s.wait ≠ .cwai ∧ dispatchIteration r l { s with wait := .none } = .next t) := by
  simp only [afterSample] at h
  split at h
  case h_1 hw =>
    split at h
    · exact .inr (.inr ⟨by simp [hw], h⟩)
    · exact .inl ⟨by simp [hw], (Host.Outcome.next.inj h).symm⟩
  case h_2 hw =>
    split at h
    case h_1 e he => exact .inr (.inl ⟨hw, e, he, (Host.Outcome.next.inj h).symm⟩)
    case h_2 => exact .inl ⟨by simp [hw], (Host.Outcome.next.inj h).symm⟩
  case h_3 hw =>
    have hs : { s with wait := .none } = s := by rw [← hw]
    exact .inr (.inr ⟨by simp [hw], hs.symm ▸ h⟩)

/-- Everything the last stages can do: an entry, the trap halt, or one instruction. -/
theorem dispatchIteration_cases {r : Bool} {l : Lines} {s t : State} (h : dispatchIteration r l s = .next t) :
    (∃ e, accept r l s = some e ∧ enter e s = .next t) ∨
      (accept r l s = none ∧ atTrap s = true ∧ t = { s with status := .halted .trap }) ∨
      (accept r l s = none ∧ atTrap s = false ∧ executeOne s = .next t) := by
  simp only [dispatchIteration] at h
  split at h
  case h_1 e he => exact .inl ⟨e, he, h⟩
  case h_2 hn =>
    split at h
    case isTrue ha => exact .inr (.inl ⟨hn, ha, (Host.Outcome.next.inj h).symm⟩)
    case isFalse ha => exact .inr (.inr ⟨hn, Bool.eq_false_iff.2 ha, h⟩)

/-! ### Keeping the parameters and counting up -/

/-- The parameters and the number of pure sources are the same, no counter falls, the serial output has the old one as
its front part, and an armed NMI is still armed. -/
structure Grows (s t : State) : Prop where
  cfg : t.cfg = s.cfg
  unmappedReads : s.unmappedReads ≤ t.unmappedReads
  unmappedWrites : s.unmappedWrites ≤ t.unmappedWrites
  cycles : s.cycles ≤ t.cycles
  counts : ∀ a, countAt s.execCount a ≤ countAt t.execCount a
  output : s.serial.output <+: t.serial.output
  armed : s.nmiArmed = true → t.nmiArmed = true
  sources : t.sources.length = s.sources.length

/-- `Grows` leaves the registers, the status, the wait, the NMI sample, the storage and the inputs free. -/
theorem Grows.free (s : State) (regs : Regs) (status : Status) (wait : Wait) (nmiPrev : Bool) (mem : Memory)
    (inbox : Inbox) :
    Grows s { s with regs, status, wait, nmiPrev, mem, inbox } :=
  ⟨rfl, le_rfl, le_rfl, le_rfl, fun _ => le_rfl, List.prefix_rfl, id, rfl⟩

theorem Grows.refl (s : State) : Grows s s := Grows.free s ..

theorem Grows.trans {s t u : State} (h : Grows s t) (k : Grows t u) : Grows s u where
  cfg := k.cfg.trans h.cfg
  unmappedReads := h.unmappedReads.trans k.unmappedReads
  unmappedWrites := h.unmappedWrites.trans k.unmappedWrites
  cycles := h.cycles.trans k.cycles
  counts a := (h.counts a).trans (k.counts a)
  output := h.output.trans k.output
  armed hs := k.armed (h.armed hs)
  sources := k.sources.trans h.sources

/-! ### Instructions -/

theorem OnlyReads.unmappedReads_le {s t : State} : OnlyReads s t → s.unmappedReads ≤ t.unmappedReads :=
  fun ⟨_, _, hle⟩ => hle

theorem OnlyReads.grows {s t : State} (h : OnlyReads s t) : Grows s t where
  cfg := h.cfg
  unmappedReads := h.unmappedReads_le
  unmappedWrites := h.unmappedWrites.ge
  cycles := h.cycles.ge
  counts a := by rw [h.execCount]
  output := by rw [h.serial]
  armed hs := h.nmiArmed.trans hs
  sources := by rw [h.sources]

/-- A bus write sends nothing: what it puts in the transmitter waits for a poll (R450, R451). -/
theorem store8_output (s : State) (a : Word) (v : Byte) : (s.store8 a v).serial.output = s.serial.output := by
  unfold State.store8
  split
  case h_3 off _ => exact Serial.write_output s.serial off v
  all_goals rfl

theorem le_store8_unmappedWrites (s : State) (a : Word) (v : Byte) :
    s.unmappedWrites ≤ (s.store8 a v).unmappedWrites := by
  unfold State.store8
  split
  case h_4 => exact Nat.le_succ _
  all_goals exact le_rfl

theorem store8_grows (s : State) (a : Word) (v : Byte) : Grows s (s.store8 a v) where
  cfg := store8_cfg s a v
  unmappedReads := (store8_unmappedReads s a v).ge
  unmappedWrites := le_store8_unmappedWrites s a v
  cycles := (store8_cycles s a v).ge
  counts b := by rw [store8_execCount]
  output := by rw [store8_output]
  armed hs := (store8_nmiArmed s a v).trans hs
  sources := by rw [store8_sources]

/-- Arming never disarms (R48). -/
theorem armNmi_grows (s : State) : Grows s s.armNmi where
  cfg := rfl
  unmappedReads := le_rfl
  unmappedWrites := le_rfl
  cycles := le_rfl
  counts _ := le_rfl
  output := List.prefix_rfl
  armed hs := by simp [State.armNmi, hs]
  sources := rfl

theorem Evolves.grows {s t : State} (h : Evolves s t) : Grows s t :=
  h.induct (Grows s) (Grows.refl s) (fun t a k => k.trans (read8_onlyReads t a).grows)
    (fun t a v _ k => k.trans (store8_grows t a v)) (fun t r k => k.trans (Grows.free t r ..))
    fun t k => k.trans (armNmi_grows t)

theorem ExecCase.grows {i : Instr} {s t : State} (h : ExecCase i s t) : Grows s t := by
  cases h with
  | effect h => exact h.grows
  | sync => exact Grows.free s ..
  | cwai _ _ h => exact h.grows.trans (Grows.free _ ..)
  | romWrite _ h => exact h.grows.trans (Grows.free _ ..)
  | invalid => exact Grows.free s ..

/-! ### The other stages of an iteration -/

theorem addCycles_grows (n : Nat) (t : State) : Grows t (addCycles n t) := by
  obtain ⟨c, heq, hle⟩ := addCycles_eq n t
  rw [heq]
  exact ⟨rfl, le_rfl, le_rfl, hle, fun _ => le_rfl, List.prefix_rfl, id, rfl⟩

theorem countFetch_grows (s : State) : Grows s (countFetch s) := by
  have hcount : ∀ a, countAt s.execCount a ≤ countAt (countFetch s).execCount a := fun a => by
    rw [countAt_countFetch]
    exact Nat.le_add_right _ _
  rw [countFetch_eq]
  exact ⟨rfl, le_rfl, le_rfl, le_rfl, hcount, List.prefix_rfl, id, rfl⟩

theorem executeOne_grows {s t : State} (h : executeOne s = .next t) : Grows s t := by
  obtain ⟨f, hf, ⟨bs, rfl⟩ | ⟨i, n, u, -, hu, rfl⟩⟩ := executeOne_cases h
  · exact ((countFetch_grows s).trans hf.grows).trans (Grows.free f ..)
  · exact (((countFetch_grows s).trans hf.grows).trans hu.grows).trans (addCycles_grows n u)

theorem enter_grows {e : Event} {s t : State} (h : enter e s = .next t) : Grows s t := by
  obtain ⟨n, u, rfl, hu | ⟨v, a, hv, -, rfl⟩⟩ := enter_cases h
  · exact hu.grows.trans (addCycles_grows n u)
  · exact (hv.grows.trans (Grows.free v ..)).trans (addCycles_grows n _)

theorem dispatchIteration_grows {r : Bool} {l : Lines} {s t : State} (h : dispatchIteration r l s = .next t) :
    Grows s t := by
  obtain ⟨e, -, he⟩ | ⟨-, -, rfl⟩ | ⟨-, -, hx⟩ := dispatchIteration_cases h
  · exact enter_grows he
  · exact Grows.free s ..
  · exact executeOne_grows hx

theorem afterSample_grows {r : Bool} {l : Lines} {s t : State} (h : afterSample r l s = .next t) : Grows s t := by
  obtain ⟨-, rfl⟩ | ⟨-, e, -, rfl⟩ | ⟨-, hd⟩ := afterSample_cases h
  · exact Grows.refl t
  · exact (evolves_vectorTo e s).grows.trans (Grows.free _ ..)
  · exact (Grows.free s ..).trans (dispatchIteration_grows hd)

/-- A poll is where the serial output grows (R451). -/
theorem pollOne_output (h : HostInput) (d : DeviceId) (s : State) :
    s.serial.output <+: (pollOne h d s).serial.output := by
  cases d with
  | memory k => exact List.prefix_rfl
  | serial =>
    obtain ⟨sent, hsent⟩ := Serial.poll_output s.serial h
    exact ⟨sent, hsent.symm⟩
  | source k => exact List.prefix_rfl

theorem pollList_output (h : HostInput) (ds seen : List DeviceId) (s : State) :
    s.serial.output <+: (pollList h seen ds s).serial.output := by
  induction ds generalizing seen s with
  | nil => exact List.prefix_rfl
  | cons d ds ih =>
    unfold pollList
    split
    · exact ih seen s
    · exact (pollOne_output h d s).trans (ih (d :: seen) (pollOne h d s))

theorem pollAll_grows (h : HostInput) (s : State) : Grows s (pollAll h s) := by
  obtain ⟨heq, hlen⟩ := pollAll_frame h s
  have hout : s.serial.output <+: (pollAll h s).serial.output := pollList_output h _ [] s
  rw [heq]
  exact ⟨rfl, le_rfl, le_rfl, le_rfl, fun _ => le_rfl, hout, id, hlen⟩

theorem pollAndSample_grows {h : HostInput} {s t : State} (hp : pollAndSample h s = .next t) : Grows s t :=
  ((pollAll_grows h s).trans (Grows.free _ ..)).trans (afterSample_grows hp)

theorem step_grows {s t : State} (h : step s = .next t) : Grows s t := by
  obtain ⟨-, -, ⟨-, rfl⟩ | ⟨-, -, rfl⟩ | ⟨-, -, hp⟩⟩ := step_cases h
  · exact Grows.free s ..
  · exact Grows.free s ..
  · exact (Grows.free s ..).trans (pollAndSample_grows hp)

/-- Settles O21, by composing `Grows` over the stages of an iteration. -/
theorem stepsKeepParametersAndCountUp : Obligations.StepsKeepParametersAndCountUp := by
  refine ⟨fun s => ⟨countFetch_eq s, countAt_countFetch s⟩, fun s t h => ?_⟩
  obtain ⟨hcfg, hreads, hwrites, hcycles, hcounts, ⟨sent, hsent⟩, harmed, hsources⟩ := step_grows h
  exact ⟨hcfg, hreads, hwrites, hcycles, hcounts, ⟨sent, hsent.symm⟩, harmed, hsources⟩

end Sys2Proof.Machine
end

section
/-! PROOF. The machine invariant (spec/10_state.md R48, R52, R53, 20_memory.md R85, 60_exceptions.md R434, R451) over
the stages of an iteration. `Sound` is its part that no stage can break, and `Sound.inv` adds the clause on the CWAI
wait back at the end of each stage. -/

namespace Sys2Proof.Machine

/-! ### Storage within its devices (R53, R85) -/

/-- Every entry of the map is one the model runs, and leads to devices larger than its window (R73, R85). -/
def MapAccepted (c : Config) : Prop := ∀ e ∈ c.deviceMap, entryAccepted c.memoryDevices e = true

/-- A configuration that is run has an accepted map. -/
theorem mapAccepted_of_configAccepted {s : State} (h : s.configAccepted = true) : MapAccepted s.cfg := by
  simp only [State.configAccepted, Bool.and_eq_true, List.all_eq_true] at h
  obtain ⟨⟨⟨⟨hmap, -⟩, -⟩, -⟩, -⟩ := h
  exact hmap

/-- The window of an accepted entry lies within its memory device (R85). -/
theorem window_lt_size {devices : List MemoryDevice} {e : MapEntry} {k : Nat} {d : MemoryDevice}
    (he : entryAccepted devices e = true) (hk : e.device = .memory k) (hd : devices[k]? = some d) :
    (~~~e.mask).toNat < d.size := by
  simp only [entryAccepted, hk, hd, Bool.and_eq_true, decide_eq_true_eq] at he
  exact he.2

/-- Where an accepted map leads into storage, it leads to a byte of a memory device. -/
theorem place_inRange {c : Config} (hmap : MapAccepted c) {a : Word} {kind : MemoryKind} {key : Nat}
    (h : place c a = .cell kind key) :
    ∃ d, c.memoryDevices[key / 65536]? = some d ∧ key % 65536 < d.size := by
  obtain ⟨e, he, k, d, hk, hd, -, rfl⟩ := place_cell h
  rw [cellKey_div, cellKey_mod, BitVec.toNat_and]
  exact ⟨d, hd, Nat.and_le_right.trans_lt (window_lt_size (hmap e he) hk hd)⟩

theorem store8_cellsInRange {s : State} (hmap : MapAccepted s.cfg) (h : CellsInRange s) (a : Word) (v : Byte) :
    CellsInRange (s.store8 a v) := by
  intro c hc
  rw [store8_mem] at hc
  rw [store8_cfg]
  split at hc
  case h_1 key hp =>
    obtain rfl | hold := Memory.mem_write hc
    · exact place_inRange hmap hp
    · exact h c hold
  case h_2 => exact h c hc

/-! ### Counts and the transmitter -/

/-- Counting a fetch keeps the counts in canonical form (R52). -/
theorem countsWf_bumpCount {l : List (Nat × Nat)} (h : CountsWf l) (pc : Word) : CountsWf (bumpCount l pc.toNat) := by
  obtain ⟨hrising, hrange⟩ := h
  refine ⟨bumpCount_pairwise hrising _, fun c hc => ?_⟩
  obtain ⟨haddr, hpos⟩ | hold := mem_bumpCount hc
  · exact ⟨haddr ▸ pc.isLt, hpos⟩
  · exact hrange c hold

theorem countsWf_countFetch {s : State} (h : CountsWf s.execCount) : CountsWf (countFetch s).execCount := by
  unfold countFetch
  split
  · exact countsWf_bumpCount h s.regs.pc
  · exact h

/-- A bus write keeps the transmitter idle or busy (R450, R451). -/
theorem store8_txPending {s : State} (h : s.serial.txPending = !s.serial.tdre) (a : Word) (v : Byte) :
    (s.store8 a v).serial.txPending = !(s.store8 a v).serial.tdre := by
  unfold State.store8
  split
  case h_3 off _ => exact Serial.write_txPending h off v
  all_goals exact h

theorem pollOne_txPending {s : State} (h : s.serial.txPending = !s.serial.tdre) (input : HostInput) (d : DeviceId) :
    (pollOne input d s).serial.txPending = !(pollOne input d s).serial.tdre := by
  cases d with
  | memory k => exact h
  | serial => exact Serial.poll_txPending h input
  | source k => exact h

theorem pollList_txPending (input : HostInput) (ds seen : List DeviceId) {s : State}
    (h : s.serial.txPending = !s.serial.tdre) :
    (pollList input seen ds s).serial.txPending = !(pollList input seen ds s).serial.tdre := by
  induction ds generalizing seen s with
  | nil => exact h
  | cons d ds ih =>
    unfold pollList
    split
    · exact ih seen h
    · exact ih (d :: seen) (pollOne_txPending h input d)

/-! ### The part of the invariant that no stage can break -/

/-- The invariant but for its clause on the CWAI wait, on a configuration whose map is accepted. -/
structure Sound (s : State) : Prop where
  map : MapAccepted s.cfg
  storage : s.mem.wf
  cells : CellsInRange s
  counts : CountsWf s.execCount
  armed : s.cfg.nmiArmRequired = false → s.nmiArmed = true
  transmitter : s.serial.txPending = !s.serial.tdre

theorem State.Inv.sound {s : State} (h : s.Inv) (hmap : MapAccepted s.cfg) : Sound s :=
  ⟨hmap, h.storage, h.cells, h.counts, h.armed, h.transmitter⟩

theorem Sound.inv {s : State} (h : Sound s) (he : s.wait = .cwai → ccGet s.regs.cc .e = true) : s.Inv :=
  ⟨h.storage, h.cells, h.counts, h.armed, h.transmitter, he⟩

/-- The clause on the CWAI wait asks nothing of a state that does not wait. -/
theorem Sound.inv_of_awake {s : State} (h : Sound s) (hw : s.wait = .none) : s.Inv :=
  h.inv fun hc => by rw [hw] at hc; cases hc

/-- `Sound` does not look at the registers, the status, the wait, the NMI sample, the cycles, the counts of unmapped
accesses, the sources and the inputs. -/
theorem Sound.free {s : State} (h : Sound s) (regs : Regs) (status : Status) (wait : Wait) (nmiPrev : Bool)
    (unmappedReads unmappedWrites cycles : Nat) (sources : List PureSource) (inbox : Inbox) :
    Sound { s with regs, status, wait, nmiPrev, unmappedReads, unmappedWrites, cycles, sources, inbox } :=
  ⟨h.map, h.storage, h.cells, h.counts, h.armed, h.transmitter⟩

/-! ### Bus accesses and instructions -/

/-- Reads lower RDRF and count, and leave the transmitter alone (R449). -/
theorem Sound.onlyReads {s t : State} (h : Sound s) (k : OnlyReads s t) : Sound t := by
  obtain ⟨heq, -, -⟩ := k
  rw [heq]
  exact ⟨h.map, h.storage, h.cells, h.counts, h.armed, h.transmitter⟩

theorem Sound.store8 {s : State} (h : Sound s) (a : Word) (v : Byte) : Sound (s.store8 a v) where
  map := by rw [store8_cfg]; exact h.map
  storage := store8_wf h.storage a v
  cells := store8_cellsInRange h.map h.cells a v
  counts := by rw [store8_execCount]; exact h.counts
  armed := by rw [store8_cfg, store8_nmiArmed]; exact h.armed
  transmitter := store8_txPending h.transmitter a v

theorem Sound.armNmi {s : State} (h : Sound s) : Sound s.armNmi :=
  ⟨h.map, h.storage, h.cells, h.counts, fun hreq => (armNmi_grows s).armed (h.armed hreq), h.transmitter⟩

theorem Evolves.sound {s t : State} (h : Evolves s t) (hs : Sound s) : Sound t :=
  h.induct Sound hs (fun t a k => k.onlyReads (read8_onlyReads t a)) (fun _ a v _ k => k.store8 a v)
    (fun _ _ k => k.free ..) fun _ k => k.armNmi

/-- What an instruction does of itself begins and ends no wait. -/
theorem Evolves.wait {s t : State} (h : Evolves s t) : t.wait = s.wait := by
  obtain ⟨-, -, hwait, -⟩ := h.frame
  exact hwait

/-- An instruction keeps the invariant: of those run awake only CWAI begins the wait that asks for E = 1, and it has set
E (R384). -/
theorem ExecCase.inv {i : Instr} {s t : State} (h : ExecCase i s t) (hs : Sound s) (hw : s.wait = .none) : t.Inv := by
  cases h with
  | effect h => exact (h.sound hs).inv_of_awake (h.wait.trans hw)
  | sync => exact (hs.free ..).inv fun hc => by cases hc
  | cwai _ _ h he => exact ((h.sound hs).free ..).inv fun _ => he
  | romWrite _ h => exact ((h.sound hs).free ..).inv_of_awake (h.wait.trans hw)
  | invalid => exact (hs.free ..).inv_of_awake hw

/-! ### The other stages of an iteration -/

/-- The invariant does not look at the cycles. -/
theorem State.Inv.addCycles {t : State} (h : t.Inv) (n : Nat) : (addCycles n t).Inv := by
  obtain ⟨c, heq, -⟩ := addCycles_eq n t
  rw [heq]
  exact ⟨h.storage, h.cells, h.counts, h.armed, h.transmitter, h.entire⟩

theorem Sound.countFetch {s : State} (h : Sound s) : Sound (countFetch s) := by
  have hcounts := countsWf_countFetch h.counts
  rw [countFetch_eq]
  exact ⟨h.map, h.storage, h.cells, hcounts, h.armed, h.transmitter⟩

theorem countFetch_wait (s : State) : (countFetch s).wait = s.wait := by
  rw [countFetch_eq]

theorem executeOne_inv {s t : State} (h : executeOne s = .next t) (hs : Sound s) (hw : s.wait = .none) : t.Inv := by
  obtain ⟨f, hf, hcases⟩ := executeOne_cases h
  have hfs : Sound f := hs.countFetch.onlyReads hf
  have hfw : f.wait = .none := hf.wait.trans ((countFetch_wait s).trans hw)
  obtain ⟨bs, rfl⟩ | ⟨i, n, u, -, hu, rfl⟩ := hcases
  · exact (hfs.free ..).inv_of_awake hfw
  · exact (hu.inv hfs hfw).addCycles n

theorem enter_inv {e : Event} {s t : State} (h : enter e s = .next t) (hs : Sound s) (hw : s.wait = .none) : t.Inv := by
  obtain ⟨n, u, rfl, hu | ⟨v, a, hv, -, rfl⟩⟩ := enter_cases h
  · exact ((hu.sound hs).inv_of_awake (hu.wait.trans hw)).addCycles n
  · refine State.Inv.addCycles ?_ n
    exact ((hv.sound hs).free ..).inv_of_awake (hv.wait.trans hw)

theorem dispatchIteration_inv {r : Bool} {l : Lines} {s t : State} (h : dispatchIteration r l s = .next t)
    (hs : Sound s) (hw : s.wait = .none) : t.Inv := by
  obtain ⟨e, -, he⟩ | ⟨-, -, rfl⟩ | ⟨-, -, hx⟩ := dispatchIteration_cases h
  · exact enter_inv he hs hw
  · exact (hs.free ..).inv_of_awake hw
  · exact executeOne_inv hx hs hw

/-- After the sample a wait goes on with the registers as they are, or has ended (R409, R410). -/
theorem afterSample_inv {r : Bool} {l : Lines} {s t : State} (h : afterSample r l s = .next t) (hs : Sound s)
    (he : s.wait = .cwai → ccGet s.regs.cc .e = true) : t.Inv := by
  obtain ⟨-, rfl⟩ | ⟨-, e, -, rfl⟩ | ⟨-, hd⟩ := afterSample_cases h
  · exact hs.inv he
  · exact (((evolves_vectorTo e s).sound hs).free ..).inv_of_awake rfl
  · exact dispatchIteration_inv hd (hs.free ..) rfl

theorem Sound.pollAll {s : State} (h : Sound s) (input : HostInput) : Sound (pollAll input s) := by
  obtain ⟨heq, -⟩ := pollAll_frame input s
  have htx : (Machine.pollAll input s).serial.txPending = !(Machine.pollAll input s).serial.tdre :=
    pollList_txPending input _ [] h.transmitter
  rw [heq]
  exact ⟨h.map, h.storage, h.cells, h.counts, h.armed, htx⟩

/-- The polls leave the wait and the registers alone (R404). -/
theorem pollAndSample_inv {input : HostInput} {s t : State} (h : pollAndSample input s = .next t) (hs : Sound s)
    (he : s.wait = .cwai → ccGet s.regs.cc .e = true) : t.Inv := by
  obtain ⟨heq, -⟩ := pollAll_frame input s
  refine afterSample_inv h ((hs.pollAll input).free ..) ?_
  rw [heq]
  exact he

/-- Settles O18: the map of a configuration that is run keeps the written bytes within their devices, and each stage of
the iteration keeps the rest. -/
theorem everyStepKeepsTheInvariant : Obligations.EveryStepKeepsTheInvariant := by
  intro s t hs h
  obtain ⟨-, hc, hcases⟩ := step_cases h
  have hsound : Sound s := hs.sound (mapAccepted_of_configAccepted hc)
  obtain ⟨-, rfl⟩ | ⟨-, -, rfl⟩ | ⟨-, -, hp⟩ := hcases
  · exact (hsound.free ..).inv hs.entire
  · exact (hsound.free ..).inv hs.entire
  · exact pollAndSample_inv hp (hsound.free ..) hs.entire

/-- Settles O19: storage and counts are empty, arming is required on the reference configuration, the transmitter is
idle and nothing waits (R54, R84). -/
theorem theInvariantHoldsAtReset : Obligations.TheInvariantHoldsAtReset where
  storage := State.reset_mem_wf
  cells := List.forall_mem_nil _
  counts := ⟨List.Pairwise.nil, List.forall_mem_nil _⟩
  armed hreq := nomatch hreq
  transmitter := rfl
  entire hw := nomatch hw

end Sys2Proof.Machine
end

section
/-! PROOF. What reset leaves (spec/10_state.md R54, 60_exceptions.md R454, 70_reset_and_hazards.md R470): the flags of
`RESET_VALUES`, the bytes of the reset vector as the bus gives them, and the frame of the entry. -/

namespace Sys2Proof.Machine

/-! ### The flags (R54) -/

/-- The flag k after reset: the masks set, the others from `RESET_VALUES`. -/
def ResetValues.flag (r : ResetValues) : Flag → Bool
  | .i | .f => true
  | .e => r.e
  | .h => r.h
  | .n => r.n
  | .z => r.z
  | .v => r.v
  | .c => r.c

theorem ResetValues.ccGet_cc (r : ResetValues) (k : Flag) : ccGet r.cc k = r.flag k := by
  -- `getLsbD_append` needs the width as the sum of the eight parts
  change BitVec.getLsbD (w := 1 + 1 + 1 + 1 + 1 + 1 + 1 + 1) r.cc (flagBit k) = r.flag k
  simp only [ResetValues.cc, BitVec.getLsbD_append]
  cases k <;> simp [flagBit, ResetValues.flag]

/-! ### The bytes of the reset vector (R470, R76, R78) -/

/-- Reads leave a serial device that is in its reset state there: RDRF is low already (R449, R454). -/
theorem OnlyReads.serial_reset {s t : State} (h : OnlyReads s t) (hs : s.serial = Serial.reset) :
    t.serial = Serial.reset := by
  have hserial := h.serial
  obtain ⟨-, hrdrf, -⟩ := h
  rw [hs] at hserial hrdrf
  have hlow : t.serial.rdrf = false := Bool.eq_false_iff.2 fun ht => nomatch hrdrf ht
  rw [hserial, hlow]
  rfl

/-- The registers of the serial device in its reset state: SR with TDRE alone, RDR, a higher offset (R447, R448,
R454). -/
theorem Serial.reset_read (subRead : Byte) (off : Word) :
    (Serial.reset.read subRead off).1 = if off = 0 then 0x02 else if off = 1 then 0x00 else subRead := by
  by_cases hsr : off = 0
  · rw [hsr]
    rfl
  by_cases hrdr : off = 1
  · rw [hrdr]
    rfl
  · rw [if_neg hsr, if_neg hrdr]
    exact congrArg Prod.fst ((if_neg hsr).trans (if_neg hrdr))

/-- A byte of the reset vector, as the bus gives it while the serial device is in its reset state. -/
theorem read8_of_serial_reset {s : State} (hs : s.serial = Serial.reset) (a : Word) :
    (s.read8 a).1 = Claims.resetVectorByte s.cfg s.mem a := by
  unfold State.read8 Claims.resetVectorByte
  cases place s.cfg a with
  | cell kind key => rfl
  | serial off =>
    rw [hs]
    exact Serial.reset_read s.cfg.serialSubRead off
  | unmapped => rfl

/-- A read is counted when it reaches no device (R78). -/
theorem read8_unmappedReads (s : State) (a : Word) :
    (s.read8 a).2.unmappedReads = s.unmappedReads + if place s.cfg a = .unmapped then 1 else 0 := by
  unfold State.read8
  cases place s.cfg a <;> rfl

theorem read16_of_serial_reset {s : State} (hs : s.serial = Serial.reset) (a : Word) :
    (s.read16 a).1 = Claims.resetVectorByte s.cfg s.mem a ++ Claims.resetVectorByte s.cfg s.mem (a + 1) := by
  have hr := read8_onlyReads s a
  have hlow := read8_of_serial_reset (hr.serial_reset hs) (a + 1)
  rw [hr.cfg, hr.mem] at hlow
  rw [← read8_of_serial_reset hs a, ← hlow]
  rfl

theorem read16_unmappedReads (s : State) (a : Word) :
    (s.read16 a).2.unmappedReads = s.unmappedReads +
      ((if place s.cfg a = .unmapped then 1 else 0) + if place s.cfg (a + 1) = .unmapped then 1 else 0) := by
  have hlow := read8_unmappedReads (s.read8 a).2 (a + 1)
  rw [(read8_onlyReads s a).cfg, read8_unmappedReads s a, Nat.add_assoc] at hlow
  exact hlow

/-! ### The entry (R470 step (4)) -/

theorem setEntry_of_some {s : State} {a : Word} (h : s.cfg.entryPc = some a) : setEntry s = s.setPc a := by
  unfold setEntry
  rw [h]

theorem setEntry_of_none {s : State} (h : s.cfg.entryPc = none) :
    setEntry s = (s.read16 0xFFFE).2.setPc (s.read16 0xFFFE).1 := by
  unfold setEntry
  rw [h]
  rfl

/-- The entry sets PC, and reads at most. -/
theorem setEntry_onlyReads (s : State) :
    OnlyReads { s with regs := { s.regs with pc := (setEntry s).regs.pc } } (setEntry s) := by
  cases h : s.cfg.entryPc with
  | some a =>
    rw [setEntry_of_some h]
    exact OnlyReads.refl _
  | none =>
    rw [setEntry_of_none h]
    have hr := read16_onlyReads s 0xFFFE
    have := hr.withRegs { s.regs with pc := (s.read16 0xFFFE).1 }
    rw [State.setPc, hr.regs]
    exact this

/-- With no image loaded, reset is the initial state and the entry. -/
theorem boot_nil (c : Config) (r : ResetValues) (m : Memory) (sources : List PureSource) (inputs : Inbox) :
    boot c r m sources inputs [] = some (setEntry (beforeLoad c r m sources inputs)) := rfl

/-- Settles O58: the entry changes PC and what reads may change, and the vector is read with the serial device in its
reset state. -/
theorem resetLeavesTheseValues : Obligations.ResetLeavesTheseValues := by
  intro c r m sources inputs
  have hr := setEntry_onlyReads (beforeLoad c r m sources inputs)
  have flag (k : Flag) : ccGet (setEntry (beforeLoad c r m sources inputs)).regs.cc k = r.flag k := by
    rw [hr.regs]
    exact r.ccGet_cc k
  refine ⟨_, boot_nil c r m sources inputs, congrArg Regs.dp hr.regs, flag .i, flag .f, hr.status, hr.wait, hr.nmiPrev,
    hr.nmiArmed, hr.unmappedWrites, hr.cycles, hr.execCount, hr.mem, congrArg Regs.a hr.regs, congrArg Regs.b hr.regs,
    congrArg Regs.x hr.regs, congrArg Regs.y hr.regs, congrArg Regs.u hr.regs, congrArg Regs.s hr.regs, flag .e,
    flag .h, flag .n, flag .z, flag .v, flag .c, hr.serial_reset rfl, hr.cfg, hr.sources, hr.inbox, fun a ha => ?_,
    fun hnone => ?_⟩
  · rw [setEntry_of_some ha]
    exact ⟨rfl, rfl⟩
  · rw [setEntry_of_none hnone]
    exact ⟨read16_of_serial_reset rfl 0xFFFE, (read16_unmappedReads _ 0xFFFE).trans (Nat.zero_add _)⟩

end Sys2Proof.Machine
end

section
/-! PROOF. Which instructions arm NMI (spec/10_state.md R48): `armsNmi` lists them, each operation of the model keeps
`nmiArmed` or arms as `State.armedBy` says, and `exec_nmiArmed` collects the instructions. -/

namespace Sys2Proof.Machine

/-! ### Arming -/

/-- The instructions of R48's list, which is read as complete (log entry 15). -/
def armsNmi : Instr → Bool
  | .lds _ | .leas _ => true
  | .tfr _ r2 => r2 == .s
  | .exg r1 r2 => r1 == .s || r2 == .s
  | .pulu pb => pb.getLsbD 6
  | _ => false

theorem armsNmi_iff (i : Instr) :
    armsNmi i = true ↔
      (∃ src, i = .lds src) ∨ (∃ x, i = .leas x) ∨ (∃ r, i = .tfr r .s) ∨ (∃ r, i = .exg r .s ∨ i = .exg .s r) ∨
        ∃ pb, i = .pulu pb ∧ pb.getLsbD 6 = true := by
  constructor
  · intro h
    unfold armsNmi at h
    split at h
    case h_1 src => exact .inl ⟨src, rfl⟩
    case h_2 x => exact .inr (.inl ⟨x, rfl⟩)
    case h_3 r1 r2 =>
      obtain rfl := eq_of_beq h
      exact .inr (.inr (.inl ⟨r1, rfl⟩))
    case h_4 r1 r2 =>
      obtain h1 | h2 := Bool.or_eq_true_iff.1 h
      · obtain rfl := eq_of_beq h1
        exact .inr (.inr (.inr (.inl ⟨r2, .inr rfl⟩)))
      · obtain rfl := eq_of_beq h2
        exact .inr (.inr (.inr (.inl ⟨r1, .inl rfl⟩)))
    case h_5 pb => exact .inr (.inr (.inr (.inr ⟨pb, rfl, h⟩)))
    case h_6 => cases h
  · rintro (⟨src, rfl⟩ | ⟨x, rfl⟩ | ⟨r, rfl⟩ | ⟨r, rfl | rfl⟩ | ⟨pb, rfl, hb⟩)
    · rfl
    · rfl
    · rfl
    · exact Bool.or_true _
    · rfl
    · exact hb

/-- Whether NMI is armed after an operation at s that arms it when b holds. -/
def State.armedBy (s : State) (b : Bool) : Bool := s.nmiArmed || (b && s.cfg.nmiArmRequired)

theorem State.armedBy_false (s : State) : s.armedBy false = s.nmiArmed := Bool.or_false _

theorem State.armedBy_iff (s : State) (b : Bool) :
    s.armedBy b = true ↔ s.nmiArmed = true ∨ (b = true ∧ s.cfg.nmiArmRequired = true) := by
  simp [State.armedBy]

/-- Arming when b holds and then when c does is arming when either holds. -/
theorem armedBy_armedBy {s t : State} {b c : Bool} (hcfg : t.cfg = s.cfg) (ht : t.nmiArmed = s.armedBy b) :
    t.armedBy c = s.armedBy (b || c) := by
  simp only [State.armedBy, ht, hcfg, Bool.and_or_distrib_right, Bool.or_assoc]

/-- Reads arm nothing, and leave the parameter that asks for arming. -/
theorem OnlyReads.armedBy {s t : State} (h : OnlyReads s t) (b : Bool) : t.armedBy b = s.armedBy b := by
  simp only [State.armedBy, h.nmiArmed, h.cfg]

/-! ### Register writes -/

theorem Stack.set_nmiArmed (k : Stack) (s : State) (v : Word) : (k.set s v).nmiArmed = s.nmiArmed := by
  cases k <;> rfl

theorem Acc.set_nmiArmed (k : Acc) (s : State) (v : Byte) : (k.set s v).nmiArmed = s.nmiArmed := by
  cases k <;> rfl

/-- A load arms when it goes to S. -/
theorem Reg16.load_nmiArmed (k : Reg16) (s : State) (v : Word) : (k.load s v).nmiArmed = s.armedBy (k == .s) := by
  cases k
  case s => rfl
  all_goals exact s.armedBy_false.symm

/-- A transfer arms when its destination is S. -/
theorem codeSet_nmiArmed (k : RegCode) (s : State) (v : Word) : (codeSet k s v).nmiArmed = s.armedBy (k == .s) := by
  cases k
  case s => rfl
  all_goals exact s.armedBy_false.symm

theorem State.maskIf_nmiArmed (s : State) (b : Bool) (k : Flag) : (s.maskIf b k).nmiArmed = s.nmiArmed := by
  cases b <;> rfl

/-! ### Operations that write nothing to the bus -/

theorem effectiveAddress_nmiArmed (m : Mem) (s : State) : (effectiveAddress m s).2.nmiArmed = s.nmiArmed :=
  (effectiveAddress_onlyReads m s).nmiArmed

theorem operand8_nmiArmed (src : Src8) (s : State) : (operand8 src s).2.nmiArmed = s.nmiArmed :=
  (operand8_onlyReads src s).nmiArmed

theorem operand16_nmiArmed (src : Src16) (s : State) : (operand16 src s).2.nmiArmed = s.nmiArmed :=
  (operand16_onlyReads src s).nmiArmed

theorem load8_nmiArmed (k : Acc) (src : Src8) (s : State) : (load8 k src s).nmiArmed = s.nmiArmed :=
  (k.set_nmiArmed _ _).trans (operand8_nmiArmed src s)

theorem load16_nmiArmed (k : Reg16) (src : Src16) (s : State) : (load16 k src s).nmiArmed = s.armedBy (k == .s) :=
  (k.load_nmiArmed _ _).trans ((operand16_onlyReads src s).armedBy _)

theorem loadAddress_nmiArmed (k : Reg16) (x : Indexed) (s : State) :
    (loadAddress k x s).nmiArmed = s.armedBy (k == .s) :=
  (k.load_nmiArmed _ _).trans ((indexedAddress_onlyReads x s).armedBy _)

theorem alu8_nmiArmed (k : Acc) (op : Byte → Byte → Byte → Byte × Byte) (src : Src8) (s : State) :
    (alu8 k op src s).nmiArmed = s.nmiArmed :=
  (k.set_nmiArmed _ _).trans (operand8_nmiArmed src s)

theorem test8_nmiArmed (k : Acc) (op : Byte → Byte → Byte → Byte × Byte) (src : Src8) (s : State) :
    (test8 k op src s).nmiArmed = s.nmiArmed :=
  operand8_nmiArmed src s

theorem aluD_nmiArmed (op : Word → Word → Byte → Word × Byte) (src : Src16) (s : State) :
    (aluD op src s).nmiArmed = s.nmiArmed :=
  operand16_nmiArmed src s

theorem compare16_nmiArmed (k : Reg16) (src : Src16) (s : State) : (compare16 k src s).nmiArmed = s.nmiArmed :=
  operand16_nmiArmed src s

theorem modifyAcc_nmiArmed (op : Byte → Byte → Byte × Byte) (k : Acc) (s : State) :
    (modifyAcc op k s).nmiArmed = s.nmiArmed :=
  k.set_nmiArmed _ _

theorem clearAcc_nmiArmed (k : Acc) (s : State) : (clearAcc k s).nmiArmed = s.nmiArmed := k.set_nmiArmed _ _

theorem testMem_nmiArmed (m : Mem) (s : State) : (testMem m s).nmiArmed = s.nmiArmed :=
  (read8_onlyReads _ _).nmiArmed.trans (effectiveAddress_nmiArmed m s)

theorem branch8_nmiArmed (k : Cond) (rr : Byte) (s : State) : (branch8 k rr s).nmiArmed = s.nmiArmed := by
  unfold branch8
  split <;> rfl

theorem branch16_nmiArmed (k : Cond) (rrrr : Word) (s : State) : (branch16 k rrrr s).nmiArmed = s.nmiArmed := by
  unfold branch16
  split <;> rfl

theorem returnFromSubroutine_nmiArmed (s : State) : (pullInto16 .s State.setPc s).nmiArmed = s.nmiArmed :=
  (read16_onlyReads s s.regs.s).nmiArmed

/-- A pull from S moves S and loads U at most. -/
theorem pullList_s_nmiArmed (pb : Byte) (s : State) : (pullList .s pb s).nmiArmed = s.nmiArmed := by
  rw [pullList_s]
  exact (readBytes_onlyReads (pulledAt pb 8) s s.regs.s).nmiArmed

/-- A pull from U loads S when bit 6 selects it. -/
theorem pullList_u_nmiArmed (pb : Byte) (s : State) : (pullList .u pb s).nmiArmed = s.armedBy (pb.getLsbD 6) := by
  rw [pullList_u]
  rfl

/-- RTI loads U, never S, with the frame (R383). -/
theorem returnFromException_nmiArmed (s : State) : (returnFromException s).nmiArmed = s.nmiArmed := by
  rw [returnFromException_eq]
  exact (readBytes_onlyReads (if ccGet (s.read8 s.regs.s).1 .e then 12 else 3) s s.regs.s).nmiArmed

theorem vectorTo_nmiArmed (e : Event) (s : State) : (vectorTo e s).nmiArmed = s.nmiArmed :=
  ((read16_onlyReads _ _).nmiArmed.trans (State.maskIf_nmiArmed _ _ _)).trans (s.maskIf_nmiArmed _ _)

/-! ### Operations that write to the bus -/

/-- The state a sequence of writes has reached, at its end or at its fault. -/
def Access.state : Access → State
  | .ok s => s
  | .romFault _ s => s

/-- The end of an instruction, the ROM-write fault included, arms nothing. -/
theorem finish_nmiArmed {s t : State} {x : Access} (h : finish s x = .next t) : t.nmiArmed = x.state.nmiArmed := by
  cases x with
  | ok u =>
    cases h
    rfl
  | romFault a u =>
    cases h
    rfl

theorem Access.andThen_nmiArmed {s : State} {x : Access} {f : State → Access} (hx : x.state.nmiArmed = s.nmiArmed)
    (hf : ∀ t, (f t).state.nmiArmed = t.nmiArmed) : (x.andThen f).state.nmiArmed = s.nmiArmed := by
  cases x with
  | ok t => exact (hf t).trans hx
  | romFault a t => exact hx

theorem write8_nmiArmed (s : State) (a : Word) (v : Byte) : (s.write8 a v).state.nmiArmed = s.nmiArmed := by
  unfold State.write8
  split
  · rfl
  · exact store8_nmiArmed s a v

theorem write16_nmiArmed (s : State) (a v : Word) : (s.write16 a v).state.nmiArmed = s.nmiArmed :=
  Access.andThen_nmiArmed (write8_nmiArmed s a _) fun t => write8_nmiArmed t _ _

theorem push8_nmiArmed (k : Stack) (v : Byte) (s : State) : (push8 k v s).state.nmiArmed = s.nmiArmed :=
  (write8_nmiArmed _ _ _).trans (k.set_nmiArmed s _)

theorem push16_nmiArmed (k : Stack) (v : Word) (s : State) : (push16 k v s).state.nmiArmed = s.nmiArmed :=
  (write16_nmiArmed _ _ _).trans (k.set_nmiArmed s _)

/-- One place of a register list, for an 8-bit register. -/
theorem pushIf_byte_nmiArmed (b : Bool) (k : Stack) (f : State → Byte) (s : State) :
    (pushIf b (fun u => push8 k (f u) u) s).state.nmiArmed = s.nmiArmed := by
  cases b with
  | false => rfl
  | true => exact push8_nmiArmed k (f s) s

/-- One place of a register list, for a 16-bit register. -/
theorem pushIf_word_nmiArmed (b : Bool) (k : Stack) (f : State → Word) (s : State) :
    (pushIf b (fun u => push16 k (f u) u) s).state.nmiArmed = s.nmiArmed := by
  cases b with
  | false => rfl
  | true => exact push16_nmiArmed k (f s) s

theorem pushList_nmiArmed (k : Stack) (pb : Byte) (s : State) : (pushList k pb s).state.nmiArmed = s.nmiArmed := by
  have h := pushIf_word_nmiArmed (pb.getLsbD 7) k (fun u => u.regs.pc) s
  have h := Access.andThen_nmiArmed h (pushIf_word_nmiArmed (pb.getLsbD 6) k fun u => k.other.get u.regs)
  have h := Access.andThen_nmiArmed h (pushIf_word_nmiArmed (pb.getLsbD 5) k fun u => u.regs.y)
  have h := Access.andThen_nmiArmed h (pushIf_word_nmiArmed (pb.getLsbD 4) k fun u => u.regs.x)
  have h := Access.andThen_nmiArmed h (pushIf_byte_nmiArmed (pb.getLsbD 3) k fun u => u.regs.dp)
  have h := Access.andThen_nmiArmed h (pushIf_byte_nmiArmed (pb.getLsbD 2) k fun u => u.regs.b)
  have h := Access.andThen_nmiArmed h (pushIf_byte_nmiArmed (pb.getLsbD 1) k fun u => u.regs.a)
  exact Access.andThen_nmiArmed h (pushIf_byte_nmiArmed (pb.getLsbD 0) k fun u => u.regs.cc)

theorem pushShort_nmiArmed (s : State) : (pushShort s).state.nmiArmed = s.nmiArmed :=
  Access.andThen_nmiArmed (push16_nmiArmed .s s.regs.pc s) fun t => push8_nmiArmed .s t.regs.cc t

theorem takeException_nmiArmed (e : Event) (s : State) : (takeException e s).state.nmiArmed = s.nmiArmed := by
  unfold takeException
  refine Access.andThen_nmiArmed ?_ (vectorTo_nmiArmed e)
  split
  · exact pushList_nmiArmed .s 0xFF (s.setFlag .e e.entire)
  · exact pushShort_nmiArmed (s.setFlag .e e.entire)

theorem clearAndWait_nmiArmed (ii : Byte) (s : State) : (clearAndWait ii s).state.nmiArmed = s.nmiArmed :=
  Access.andThen_nmiArmed (s := (s.setCc (s.regs.cc &&& ii)).setFlag .e true) (pushList_nmiArmed .s 0xFF _) fun _ => rfl

theorem store8At_nmiArmed (k : Acc) (m : Mem) (s : State) : (store8At k m s).state.nmiArmed = s.nmiArmed :=
  (write8_nmiArmed _ _ _).trans (effectiveAddress_nmiArmed m s)

theorem store16At_nmiArmed (k : Reg16) (m : Mem) (s : State) : (store16At k m s).state.nmiArmed = s.nmiArmed :=
  (write16_nmiArmed _ _ _).trans (effectiveAddress_nmiArmed m s)

theorem modifyMem_nmiArmed (op : Byte → Byte → Byte × Byte) (m : Mem) (s : State) :
    (modifyMem op m s).state.nmiArmed = s.nmiArmed :=
  (write8_nmiArmed _ _ _).trans ((read8_onlyReads _ _).nmiArmed.trans (effectiveAddress_nmiArmed m s))

theorem clearMem_nmiArmed (m : Mem) (s : State) : (clearMem m s).state.nmiArmed = s.nmiArmed :=
  (write8_nmiArmed _ _ _).trans (effectiveAddress_nmiArmed m s)

theorem callTo_nmiArmed (target : Word) (s : State) : (callTo target s).state.nmiArmed = s.nmiArmed :=
  Access.andThen_nmiArmed (push16_nmiArmed .s s.regs.pc s) fun _ => rfl

theorem callMem_nmiArmed (m : Mem) (s : State) : (callMem m s).state.nmiArmed = s.nmiArmed :=
  (callTo_nmiArmed _ _).trans (effectiveAddress_nmiArmed m s)

/-! ### Instructions -/

theorem runPure_armedBy {i : Instr} {s t : State} {f : State → State} {b : Bool} (h : runPure i s f = .next t)
    (hf : ∀ u, (f u).nmiArmed = u.armedBy b) : t.nmiArmed = s.armedBy b := by
  obtain rfl := Host.Outcome.next.inj h
  exact hf (s.advance i.size)

theorem runPure_keepsArming {i : Instr} {s t : State} {f : State → State} (h : runPure i s f = .next t)
    (hf : ∀ u, (f u).nmiArmed = u.nmiArmed) : t.nmiArmed = s.armedBy false :=
  runPure_armedBy h fun u => (hf u).trans u.armedBy_false.symm

theorem runInstr_keepsArming {i : Instr} {s t : State} {f : State → Access} (h : runInstr i s f = .next t)
    (hf : ∀ u, (f u).state.nmiArmed = u.nmiArmed) : t.nmiArmed = s.armedBy false :=
  ((finish_nmiArmed h).trans (hf (s.advance i.size))).trans s.armedBy_false.symm

theorem runPair_armedBy {i : Instr} {s t : State} {f : State → State} {b : Bool} (hi : i.wellFormed = true)
    (h : runPair i s f = .next t) (hf : ∀ u, (f u).nmiArmed = u.armedBy b) : t.nmiArmed = s.armedBy b := by
  rw [runPair, if_pos hi] at h
  exact runPure_armedBy h hf

theorem exchange_nmiArmed (r1 r2 : RegCode) (s : State) :
    (exchange r1 r2 s).nmiArmed = s.armedBy (r1 == .s || r2 == .s) :=
  (codeSet_nmiArmed r2 _ _).trans (armedBy_armedBy (evolves_codeSet r1 s _).cfg (codeSet_nmiArmed r1 s _))

/-- Every instruction arms NMI exactly as `armsNmi` says. -/
theorem exec_nmiArmed {i : Instr} {s t : State} (hi : i.wellFormed = true) (h : exec i s = .next t) :
    t.nmiArmed = s.armedBy (armsNmi i) := by
  cases i
  case lds src => exact runPure_armedBy h (load16_nmiArmed .s src)
  case leas x => exact runPure_armedBy h (loadAddress_nmiArmed .s x)
  case tfr r1 r2 => exact runPair_armedBy hi h fun u => codeSet_nmiArmed r2 u _
  case exg r1 r2 => exact runPair_armedBy hi h (exchange_nmiArmed r1 r2)
  case pulu pb => exact runPure_armedBy h (pullList_u_nmiArmed pb)
  case lda src | ldb src => exact runPure_keepsArming h (load8_nmiArmed _ src)
  case ldd src | ldx src | ldy src | ldu src => exact runPure_armedBy h (load16_nmiArmed _ src)
  case sta m | stb m => exact runInstr_keepsArming h (store8At_nmiArmed _ m)
  case std m | stx m | sty m | stu m | sts m => exact runInstr_keepsArming h (store16At_nmiArmed _ m)
  case leax x | leay x | leau x => exact runPure_armedBy h (loadAddress_nmiArmed _ x)
  case adda src | addb src | adca src | adcb src | suba src | subb src | sbca src | sbcb src | anda src | andb src
      | ora src | orb src | eora src | eorb src => exact runPure_keepsArming h (alu8_nmiArmed _ _ src)
  case cmpa src | cmpb src | bita src | bitb src => exact runPure_keepsArming h (test8_nmiArmed _ _ src)
  case addd src | subd src => exact runPure_keepsArming h (aluD_nmiArmed _ src)
  case cmpd src | cmpx src | cmpy src | cmpu src | cmps src => exact runPure_keepsArming h (compare16_nmiArmed _ src)
  case neg m | com m | lsr m | ror m | asr m | asl m | rol m | dec m | inc m =>
    exact runInstr_keepsArming h (modifyMem_nmiArmed _ m)
  case nega | negb | coma | comb | lsra | lsrb | rora | rorb | asra | asrb | asla | aslb | rola | rolb | deca | decb
      | inca | incb => exact runPure_keepsArming h (modifyAcc_nmiArmed _ _)
  case tst m => exact runPure_keepsArming h (testMem_nmiArmed m)
  case clr m => exact runInstr_keepsArming h (clearMem_nmiArmed m)
  case clra | clrb => exact runPure_keepsArming h (clearAcc_nmiArmed _)
  case bra rr | brn rr | bhi rr | bls rr | bhs rr | blo rr | bne rr | beq rr | bvc rr | bvs rr | bpl rr | bmi rr
      | bge rr | blt rr | bgt rr | ble rr => exact runPure_keepsArming h (branch8_nmiArmed _ rr)
  case lbra rr | lbrn rr | lbhi rr | lbls rr | lbhs rr | lblo rr | lbne rr | lbeq rr | lbvc rr | lbvs rr | lbpl rr
      | lbmi rr | lbge rr | lblt rr | lbgt rr | lble rr => exact runPure_keepsArming h (branch16_nmiArmed _ rr)
  case bsr rr | lbsr rr => exact runInstr_keepsArming h fun u => callTo_nmiArmed _ u
  case jsr m => exact runInstr_keepsArming h (callMem_nmiArmed m)
  case jmp m => exact runPure_keepsArming h (effectiveAddress_nmiArmed m)
  case rts => exact runPure_keepsArming h returnFromSubroutine_nmiArmed
  case pshs pb | pshu pb => exact runInstr_keepsArming h (pushList_nmiArmed _ pb)
  case puls pb => exact runPure_keepsArming h (pullList_s_nmiArmed pb)
  case swi | swi2 | swi3 => exact runInstr_keepsArming h (takeException_nmiArmed _)
  case rti => exact runPure_keepsArming h returnFromException_nmiArmed
  case cwai ii => exact runInstr_keepsArming h (clearAndWait_nmiArmed ii)
  case daa | mul | sex | abx | tsta | tstb | nop | sync => exact runPure_keepsArming h fun _ => rfl
  case andcc ii => exact runPure_keepsArming (f := fun u => u.setCc (u.regs.cc &&& ii)) h fun _ => rfl
  case orcc ii => exact runPure_keepsArming (f := fun u => u.setCc (u.regs.cc ||| ii)) h fun _ => rfl

/-- Settles O23, by `exec_nmiArmed` and the list of R48 as `armsNmi` reads it. -/
theorem theInstructionsThatArmNmi : Obligations.TheInstructionsThatArmNmi := by
  intro i s t hi h arms
  rw [exec_nmiArmed hi h, State.armedBy_iff, armsNmi_iff]

end Sys2Proof.Machine
end

section
/-! PROOF. No step changes ROM (spec/20_memory.md R82): the relation `KeepsRom` from a state to a later one, and each
stage of an iteration in it. -/

namespace Sys2Proof.Machine

/-- The configuration, which says where ROM is, and every byte of ROM are the same. -/
structure KeepsRom (s t : State) : Prop where
  cfg : t.cfg = s.cfg
  rom : ∀ a key, place s.cfg a = .cell .rom key → t.mem.read key = s.mem.read key

/-- `KeepsRom` looks at the configuration and the storage alone. -/
theorem KeepsRom.free (s : State) (regs : Regs) (status : Status) (wait : Wait) (nmiPrev nmiArmed : Bool)
    (unmappedReads cycles : Nat) (execCount : List (Nat × Nat)) (serial : Serial) (sources : List PureSource)
    (inbox : Inbox) :
    KeepsRom s { s with regs, status, wait, nmiPrev, nmiArmed, unmappedReads, cycles, execCount, serial, sources,
                        inbox } :=
  ⟨rfl, fun _ _ _ => rfl⟩

theorem KeepsRom.refl (s : State) : KeepsRom s s := .free s ..

theorem KeepsRom.trans {s t u : State} (h : KeepsRom s t) (k : KeepsRom t u) : KeepsRom s u where
  cfg := k.cfg.trans h.cfg
  rom a key hp := (k.rom a key (by rw [h.cfg]; exact hp)).trans (h.rom a key hp)

/-! ### Bus accesses and instructions -/

theorem OnlyReads.keepsRom {s t : State} (h : OnlyReads s t) : KeepsRom s t where
  cfg := h.cfg
  rom _ _ _ := by rw [h.mem]

/-- The one key a bus write can change is that of a RAM byte, and no ROM byte has it (R82, R83). -/
theorem store8_keepsRom (s : State) (a : Word) (v : Byte) : KeepsRom s (s.store8 a v) where
  cfg := store8_cfg s a v
  rom b key hb := by
    rw [store8_mem]
    split
    case h_1 ramKey ha =>
      have hne : key ≠ ramKey := by
        rintro rfl
        cases place_cell_kind ha hb
      exact Memory.read_write_ne s.mem v hne
    case h_2 => rfl

theorem Evolves.keepsRom {s t : State} (h : Evolves s t) : KeepsRom s t :=
  h.induct (KeepsRom s) (KeepsRom.refl s) (fun t a k => k.trans (read8_onlyReads t a).keepsRom)
    (fun t a v _ k => k.trans (store8_keepsRom t a v)) (fun _ _ k => k.trans (.free ..))
    fun _ k => k.trans (.free ..)

/-- An instruction that ends in the ROM-write fault has written only where writes do not fault (R82, R421). -/
theorem ExecCase.keepsRom {i : Instr} {s t : State} (h : ExecCase i s t) : KeepsRom s t := by
  cases h with
  | effect h => exact h.keepsRom
  | sync => exact .free ..
  | cwai _ _ h => exact h.keepsRom.trans (.free ..)
  | romWrite _ h => exact h.keepsRom.trans (.free ..)
  | invalid => exact .free ..

/-! ### The other stages of an iteration -/

theorem addCycles_keepsRom (n : Nat) (t : State) : KeepsRom t (addCycles n t) := by
  obtain ⟨c, heq, -⟩ := addCycles_eq n t
  rw [heq]
  exact .free ..

theorem countFetch_keepsRom (s : State) : KeepsRom s (countFetch s) := by
  rw [countFetch_eq]
  exact .free ..

theorem executeOne_keepsRom {s t : State} (h : executeOne s = .next t) : KeepsRom s t := by
  obtain ⟨f, hf, hcases⟩ := executeOne_cases h
  have hfetch : KeepsRom s f := (countFetch_keepsRom s).trans hf.keepsRom
  obtain ⟨bs, rfl⟩ | ⟨i, n, u, -, hu, rfl⟩ := hcases
  · exact hfetch.trans (.free ..)
  · exact (hfetch.trans hu.keepsRom).trans (addCycles_keepsRom n u)

theorem enter_keepsRom {e : Event} {s t : State} (h : enter e s = .next t) : KeepsRom s t := by
  obtain ⟨n, u, rfl, hu | ⟨v, a, hv, -, rfl⟩⟩ := enter_cases h
  · exact hu.keepsRom.trans (addCycles_keepsRom n u)
  · exact (hv.keepsRom.trans (.free ..)).trans (addCycles_keepsRom n _)

theorem dispatchIteration_keepsRom {r : Bool} {l : Lines} {s t : State} (h : dispatchIteration r l s = .next t) :
    KeepsRom s t := by
  obtain ⟨e, -, he⟩ | ⟨-, -, rfl⟩ | ⟨-, -, hx⟩ := dispatchIteration_cases h
  · exact enter_keepsRom he
  · exact .free ..
  · exact executeOne_keepsRom hx

theorem afterSample_keepsRom {r : Bool} {l : Lines} {s t : State} (h : afterSample r l s = .next t) : KeepsRom s t := by
  obtain ⟨-, rfl⟩ | ⟨-, e, -, rfl⟩ | ⟨-, hd⟩ := afterSample_cases h
  · exact KeepsRom.refl t
  · exact (evolves_vectorTo e s).keepsRom.trans (.free ..)
  · exact (KeepsRom.free s ..).trans (dispatchIteration_keepsRom hd)

theorem pollAll_keepsRom (h : HostInput) (s : State) : KeepsRom s (pollAll h s) := by
  obtain ⟨heq, -⟩ := pollAll_frame h s
  rw [heq]
  exact .free ..

theorem pollAndSample_keepsRom {h : HostInput} {s t : State} (hp : pollAndSample h s = .next t) : KeepsRom s t :=
  ((pollAll_keepsRom h s).trans (.free ..)).trans (afterSample_keepsRom hp)

theorem step_keepsRom {s t : State} (h : step s = .next t) : KeepsRom s t := by
  obtain ⟨-, -, ⟨-, rfl⟩ | ⟨-, -, rfl⟩ | ⟨-, -, hp⟩⟩ := step_cases h
  · exact .free ..
  · exact .free ..
  · exact (KeepsRom.free s ..).trans (pollAndSample_keepsRom hp)

/-- Settles O20: every stage of an iteration is in `KeepsRom`, so a step is. -/
theorem noStepChangesRom : Obligations.NoStepChangesRom := by
  intro s t a key h hp
  have hrom := step_keepsRom h
  exact ⟨by rw [hrom.cfg]; exact hp, hrom.rom a key hp⟩

/-! ### The policy ignore (R82) -/

/-- Under the policy ignore a well-formed instruction's next state has the old status: the two ends that change it are
the ROM-write fault, which the policy rules out, and the invalid instruction. -/
theorem ExecCase.status_of_ignore {i : Instr} {s t : State} (h : ExecCase i s t) (hi : i.wellFormed = true)
    (hp : s.cfg.romWritePolicy = .ignore) : t.status = s.status := by
  have status {u : State} (hu : Evolves s u) : u.status = s.status := by
    obtain ⟨-, hstatus, -⟩ := hu.frame
    exact hstatus
  cases h with
  | effect h => exact status h
  | sync => rfl
  | cwai _ _ h => exact (status h :)
  | @romWrite u a h hfault =>
    have hno : u.romFaults a = false := romFaults_of_ignore (by rw [h.cfg]; exact hp) a
    rw [hno] at hfault
    cases hfault
  | invalid hw =>
    rw [hi] at hw
    cases hw

/-- Settles O26: every instruction answers a next state (`exec_cases`), and that state's status is the old one. -/
theorem underPolicyIgnoreNoInstructionEndsTheRun : Obligations.UnderPolicyIgnoreNoInstructionEndsTheRun := by
  intro i s hi hp
  obtain ⟨t, hexec, hcase⟩ := exec_cases i s
  exact ⟨t, hexec, hcase.status_of_ignore hi hp⟩

end Sys2Proof.Machine
end

section
/-! PROOF. The address decoder and the bus (spec/20_memory.md R72 to R85, R88): which entry answers an address, what one
access does by where the address leads, and which maps are refused. -/

namespace Sys2Proof.Machine

/-! ### The address decoder (R72 to R74) -/

/-- R72: an entry matches when address and base agree in the bits of the mask. -/
theorem entryHits_iff {e : MapEntry} {a : Word} : entryHits e a = true ↔ a &&& e.mask = e.base &&& e.mask := beq_iff_eq

/-- An entry that matches answers, whatever follows it. -/
theorem placeIn_cons_of_hit {e : MapEntry} {a : Word} (h : a &&& e.mask = e.base &&& e.mask)
    (devices : List MemoryDevice) (es : List MapEntry) : placeIn devices (e :: es) a = entryPlace e devices a :=
  if_pos (entryHits_iff.2 h)

/-- Entries that do not match are passed over. -/
theorem placeIn_append_of_misses {before : List MapEntry} {a : Word}
    (h : ∀ x ∈ before, a &&& x.mask ≠ x.base &&& x.mask) (devices : List MemoryDevice) (es : List MapEntry) :
    placeIn devices (before ++ es) a = placeIn devices es a := by
  induction before with
  | nil => rfl
  | cons e before ih =>
    obtain ⟨hmiss, hrest⟩ := List.forall_mem_cons.1 h
    exact (if_neg fun hit => hmiss (entryHits_iff.1 hit)).trans (ih hrest)

theorem entryPlace_memory {e : MapEntry} {k : Nat} {devices : List MemoryDevice} {d : MemoryDevice}
    (hk : e.device = .memory k) (hd : devices[k]? = some d) (a : Word) :
    entryPlace e devices a = .cell d.kind (cellKey k (a &&& ~~~e.mask)) := by
  simp only [entryPlace, hk, hd]

theorem entryPlace_serial {e : MapEntry} (h : e.device = .serial) (devices : List MemoryDevice) (a : Word) :
    entryPlace e devices a = .serial (a &&& ~~~e.mask) := by
  simp only [entryPlace, h]

/-- Settles O27, by passing over the entries before the first match. -/
theorem theFirstMatchingEntryAnswers : Obligations.TheFirstMatchingEntryAnswers := by
  refine fun devices a => ⟨fun before after e k d hmiss hit => ?_, fun entries hmiss => ?_⟩
  · have hfirst : placeIn devices (before ++ e :: after) a = entryPlace e devices a :=
      (placeIn_append_of_misses hmiss devices _).trans (placeIn_cons_of_hit hit devices after)
    rw [hfirst]
    exact ⟨fun hk hd => entryPlace_memory hk hd a, fun hs => entryPlace_serial hs devices a⟩
  · have hpass := placeIn_append_of_misses hmiss devices []
    rwa [List.append_nil] at hpass

/-! ### One-byte accesses by where the address leads (R76 to R83) -/

section Accesses

variable {s : State} {a : Word}

theorem read8_of_cell {kind : MemoryKind} {key : Nat} (h : place s.cfg a = .cell kind key) :
    s.read8 a = (s.mem.read key, s) := by
  simp only [State.read8, h]

theorem read8_of_serial {off : Word} (h : place s.cfg a = .serial off) :
    s.read8 a = ((s.serial.read s.cfg.serialSubRead off).1,
      { s with serial := (s.serial.read s.cfg.serialSubRead off).2 }) := by
  simp only [State.read8, h]

theorem read8_of_unmapped (h : place s.cfg a = .unmapped) :
    s.read8 a = (s.cfg.unmappedRead, { s with unmappedReads := s.unmappedReads + 1 }) := by
  simp only [State.read8, h]

/-- A write can fault in ROM alone (R82). -/
theorem write8_of_not_rom (h : ∀ key, place s.cfg a ≠ .cell .rom key) (v : Byte) :
    s.write8 a v = .ok (s.store8 a v) := by
  refine write8_of_not_romFaults ?_ v
  unfold State.romFaults
  split
  case h_1 key hp => exact absurd hp (h key)
  case h_2 => rfl

theorem write8_of_ram {key : Nat} (h : place s.cfg a = .cell .ram key) (v : Byte) :
    s.write8 a v = .ok { s with mem := s.mem.write key v } := by
  simp only [write8_of_not_rom (s := s) (a := a) (by simp [h]), State.store8, h]

theorem write8_of_serial {off : Word} (h : place s.cfg a = .serial off) (v : Byte) :
    s.write8 a v = .ok { s with serial := s.serial.write off v } := by
  simp only [write8_of_not_rom (s := s) (a := a) (by simp [h]), State.store8, h]

theorem write8_of_unmapped (h : place s.cfg a = .unmapped) (v : Byte) :
    s.write8 a v = .ok { s with unmappedWrites := s.unmappedWrites + 1 } := by
  simp only [write8_of_not_rom (s := s) (a := a) (by simp [h]), State.store8, h]

/-- R82: the policy alone decides what a write to ROM comes to. -/
theorem write8_of_rom {key : Nat} (h : place s.cfg a = .cell .rom key) (v : Byte) :
    s.write8 a v = if s.cfg.romWritePolicy = .fault then .romFault a s else .ok s := by
  simp only [State.write8, State.romFaults, State.store8, h, beq_iff_eq]

/-- R13: the low byte is written where the high byte's write left the state. -/
theorem write16_of_write8 {t : State} {w : Word} (h : s.write8 a (hiByte w) = .ok t) :
    s.write16 a w = t.write8 (a + 1) (loByte w) := by
  rw [State.write16, h, Access.ok_andThen]

end Accesses

/-- Settles O28, by the access rules for each kind of place. -/
theorem busAccesses : Obligations.BusAccesses := fun _ _ v _ =>
  ⟨fun _ _ => read8_of_cell, fun _ => read8_of_serial, fun h => ⟨read8_of_unmapped h, write8_of_unmapped h v⟩,
    fun _ h => write8_of_ram h v, fun _ h => write8_of_rom h v, fun _ h => write8_of_serial h v, rfl,
    fun _ => write16_of_write8⟩

/-! ### Storage reads back (R83, R88) -/

/-- A write that does not fault has its effect. -/
theorem write8_ok {s t : State} {a : Word} {v : Byte} (h : s.write8 a v = .ok t) : t = s.store8 a v := by
  unfold State.write8 at h
  split at h
  case isTrue => cases h
  case isFalse => exact (Access.ok.inj h).symm

theorem peek_of_cell {s : State} {a : Word} {kind : MemoryKind} {key : Nat} (h : place s.cfg a = .cell kind key) :
    s.peek a = some (s.mem.read key) := by
  simp only [State.peek, h]

/-- Settles O29, by the laws of storage for `store8`. -/
theorem storageReadsBack : Obligations.StorageReadsBack := by
  intro s t a b v hwf h
  obtain rfl := write8_ok h
  refine ⟨fun key hp => read8_of_peek (peek_store8_same hwf hp v), peek_store8_of_separate s v, fun kind key hp => ?_,
    store8_wf hwf a v⟩
  rw [read8_of_cell hp]
  exact ⟨rfl, peek_of_cell hp⟩

/-! ### Refused configurations (R73, R85) -/

/-- An accepted entry has no base bit outside its mask (R73). -/
theorem base_of_entryAccepted {devices : List MemoryDevice} {e : MapEntry} (h : entryAccepted devices e = true) :
    e.base &&& ~~~e.mask = 0 := by
  simp only [entryAccepted, Bool.and_eq_true, beq_iff_eq] at h
  exact h.1

/-- A configuration that is not accepted is refused, and nothing is run. -/
theorem step_of_not_configAccepted {s : State} (hs : s.status = .running) (hc : s.configAccepted ≠ true) :
    step s = .refused .configurationRefused := by
  simp only [step, iterate, hs, if_neg hc]

/-- Settles O10: either condition makes its entry one that an accepted map does not hold. -/
theorem refusedConfigurationsAreNotRun : Obligations.RefusedConfigurationsAreNotRun := by
  intro s e hs he hbad
  refine step_of_not_configAccepted hs fun hc => ?_
  have hentry : entryAccepted s.cfg.memoryDevices e = true := mapAccepted_of_configAccepted hc e he
  obtain hbase | ⟨k, d, hk, hd, hsize⟩ := hbad
  · exact hbase (base_of_entryAccepted hentry)
  · exact absurd (window_lt_size hentry hk hd) (Nat.not_lt.2 hsize)

end Sys2Proof.Machine
end

section
/-! PROOF. The encoder against the decoder (spec/30_encoding.md R110 to R125), and the fetch of an instruction in
storage (spec/20_memory.md R91, R93; 60_exceptions.md R412): the decoder reads every encoding back (`decode_encode`) and
asks for more bytes before its end (`decode_take_encode`). -/

namespace Sys2Proof

/-! ### What the decoder says of some bytes it says of more (R125) -/

/-- The answer with further bytes left over. -/
def Read.leaving {α : Type} (other : List Byte) : Read α → Read α
  | .ok a rest => .ok a (rest ++ other)
  | .error e => .error e

theorem Read.map_leaving {α β : Type} (f : α → β) (other : List Byte) (r : Read α) :
    (r.leaving other).map f = (r.map f).leaving other := by
  cases r <;> rfl

theorem Read.map_ne_truncated {α β : Type} {f : α → β} {r : Read α} (h : r.map f ≠ .error .truncated) :
    r ≠ .error .truncated := by
  rintro rfl
  exact h rfl

/-- Further bytes behind those read are left over, unless the answer asks for more. -/
abbrev Settled {α : Type} (read : List Byte → Read α) : Prop :=
  ∀ bs other, read bs ≠ .error .truncated → read (bs ++ other) = (read bs).leaving other

theorem readOffset8_settled (f : Byte → Indexed) : Settled (readOffset8 f)
  | [], _, h => absurd rfl h
  | _ :: _, _, _ => rfl

theorem readOffset16_settled (f : Word → Indexed) : Settled (readOffset16 f)
  | [], _, h => absurd rfl h
  | [_], _, h => absurd rfl h
  | _ :: _ :: _, _, _ => rfl

theorem readIndexedForm_settled (pb : Byte) (r : IndexReg) (ind : Bool) : Settled (readIndexedForm pb r ind) := by
  intro bs other
  unfold readIndexedForm
  split
  case h_8 | h_11 => exact readOffset8_settled _ bs other
  case h_9 | h_12 => exact readOffset16_settled _ bs other
  case h_1 | h_3 => cases ind <;> exact fun _ => rfl
  case h_13 =>
    split
    · exact readOffset16_settled _ bs other
    · exact fun _ => rfl
  all_goals exact fun _ => rfl

theorem readIndexed_settled : Settled readIndexed := by
  intro bs other
  cases bs with
  | nil => exact fun h => absurd rfl h
  | cons pb bs =>
    simp only [List.cons_append, readIndexed]
    split
    · exact readIndexedForm_settled _ _ _ bs other
    · exact fun _ => rfl

theorem readPair_settled (f : RegCode → RegCode → Instr) : Settled (readPair f) := by
  intro bs other
  cases bs with
  | nil => exact fun h => absurd rfl h
  | cons pb bs =>
    simp only [List.cons_append, readPair]
    split
    · split <;> exact fun _ => rfl
    · exact fun _ => rfl

theorem Form.read_settled (f : Form) : Settled f.read := by
  intro bs other h
  cases f with
  | inherent => rfl
  | byte =>
    match bs, h with
    | [], h => exact absurd rfl h
    | _ :: _, _ => rfl
  | word =>
    match bs, h with
    | [], h | [_], h => exact absurd rfl h
    | _ :: _ :: _, _ => rfl
  | indexed f =>
    rw [Form.read, readIndexed_settled bs other (Read.map_ne_truncated h), Read.map_leaving]
    rfl
  | pair f => exact readPair_settled f bs other h

theorem decodeOn_settled (page : Nat) (table : Byte → Option Form) : Settled (decodeOn page table) := by
  intro bs other
  cases bs with
  | nil => exact fun h => absurd rfl h
  | cons op bs =>
    simp only [List.cons_append, decodeOn]
    split
    · exact Form.read_settled _ bs other
    · exact fun _ => rfl

theorem decode_settled : Settled decode := by
  intro bs other
  cases bs with
  | nil => exact fun h => absurd rfl h
  | cons b bs =>
    simp only [List.cons_append, decode]
    split
    · exact decodeOn_settled _ _ bs other
    · split
      · exact decodeOn_settled _ _ bs other
      · exact decodeOn_settled _ _ (b :: bs) other

/-- No front part of an instruction's bytes is an instruction or an invalid one: the decoder asks for more. -/
theorem decode_take_of_ok {bs : List Byte} {i : Instr} (h : decode bs = .ok i []) {k : Nat} (hk : k < bs.length) :
    decode (bs.take k) = .error .truncated := by
  by_contra hne
  have hall := decode_settled (bs.take k) (bs.drop k) hne
  rw [List.take_append_drop, h] at hall
  cases hd : decode (bs.take k) with
  | ok j rest =>
    rw [hd] at hall
    obtain ⟨-, hempty⟩ := Read.ok.inj hall
    obtain ⟨-, hdrop⟩ := List.append_eq_nil_iff.1 hempty.symm
    exact absurd (List.drop_eq_nil_iff.1 hdrop) (Nat.not_le.2 hk)
  | error e =>
    rw [hd] at hall
    cases hall

/-! ### The formats read back (R111, R118) -/

/-- The opcode byte op behind the page bytes `page` (none, $10 or $11) selects the format f (R112, R121 to R123). -/
abbrev Selects (page : List Byte) (op : Byte) (f : Form) : Prop := ∀ bs, decode (page ++ op :: bs) = f.read bs

theorem read_word (f : Word → Instr) (w : Word) (rest : List Byte) :
    (Form.word f).read (hiByte w :: loByte w :: rest) = .ok (f w) rest := by
  rw [Form.read, wordOf_hiByte_loByte]

theorem read_indexed (f : Indexed → Instr) (x : Indexed) (rest : List Byte) :
    (Form.indexed f).read (encodeIndexed x ++ rest) = .ok (f x) rest := by
  rw [Form.read, readIndexed_encodeIndexed, Read.map]

theorem decode_encodeMem (page : List Byte) {dir idx ext : Byte} {f : Mem → Instr} (hd : Selects page dir (dirForm f))
    (hx : Selects page idx (idxForm f)) (he : Selects page ext (extForm f)) (m : Mem) (rest : List Byte) :
    decode (page ++ (encodeMem dir idx ext m ++ rest)) = .ok (f m) rest := by
  cases m with
  | dir dd => exact hd (dd :: rest)
  | idx x => exact (hx (encodeIndexed x ++ rest)).trans (read_indexed _ x rest)
  | ext a => exact (he (hiByte a :: loByte a :: rest)).trans (read_word _ a rest)

theorem decode_encodeSrc8 (page : List Byte) {imm dir idx ext : Byte} {f : Src8 → Instr}
    (hi : Selects page imm (.byte fun ii => f (.imm ii))) (hd : Selects page dir (dirForm fun m => f (.mem m)))
    (hx : Selects page idx (idxForm fun m => f (.mem m))) (he : Selects page ext (extForm fun m => f (.mem m)))
    (src : Src8) (rest : List Byte) :
    decode (page ++ (encodeSrc8 imm dir idx ext src ++ rest)) = .ok (f src) rest := by
  cases src with
  | imm ii => exact hi (ii :: rest)
  | mem m => exact decode_encodeMem page hd hx he m rest

theorem decode_encodeSrc16 (page : List Byte) {imm dir idx ext : Byte} {f : Src16 → Instr}
    (hi : Selects page imm (.word fun iiii => f (.imm iiii))) (hd : Selects page dir (dirForm fun m => f (.mem m)))
    (hx : Selects page idx (idxForm fun m => f (.mem m))) (he : Selects page ext (extForm fun m => f (.mem m)))
    (src : Src16) (rest : List Byte) :
    decode (page ++ (encodeSrc16 imm dir idx ext src ++ rest)) = .ok (f src) rest := by
  cases src with
  | imm iiii => exact (hi (hiByte iiii :: loByte iiii :: rest)).trans (read_word _ iiii rest)
  | mem m => exact decode_encodeMem page hd hx he m rest

/-! ### Every instruction reads back (R121 to R125) -/

/-- The decoder reads a well-formed instruction's bytes back and leaves the bytes after them. The cases go by operand
format; where there is no operand, or one byte as it stands, the decoder computes the answer. -/
theorem decode_encode {i : Instr} (h : i.wellFormed = true) (rest : List Byte) :
    decode (encode i ++ rest) = .ok i rest := by
  cases i
  case lda src | ldb src | adda src | addb src | adca src | adcb src | suba src | subb src | sbca src | sbcb src
      | cmpa src | cmpb src | anda src | andb src | bita src | bitb src | ora src | orb src | eora src | eorb src =>
    exact decode_encodeSrc8 [] (fun _ => rfl) (fun _ => rfl) (fun _ => rfl) (fun _ => rfl) src rest
  case ldd src | ldx src | ldu src | addd src | subd src | cmpx src =>
    exact decode_encodeSrc16 [] (fun _ => rfl) (fun _ => rfl) (fun _ => rfl) (fun _ => rfl) src rest
  case ldy src | lds src | cmpd src | cmpy src =>
    exact decode_encodeSrc16 [0x10#8] (fun _ => rfl) (fun _ => rfl) (fun _ => rfl) (fun _ => rfl) src rest
  case cmpu src | cmps src =>
    exact decode_encodeSrc16 [0x11#8] (fun _ => rfl) (fun _ => rfl) (fun _ => rfl) (fun _ => rfl) src rest
  case sta m | stb m | std m | stx m | stu m | neg m | com m | lsr m | ror m | asr m | asl m | rol m | dec m | inc m
      | tst m | clr m | jmp m | jsr m =>
    exact decode_encodeMem [] (fun _ => rfl) (fun _ => rfl) (fun _ => rfl) m rest
  case sty m | sts m => exact decode_encodeMem [0x10#8] (fun _ => rfl) (fun _ => rfl) (fun _ => rfl) m rest
  case leax x | leay x | leau x | leas x => exact read_indexed _ x rest
  case lbra rr | lbrn rr | lbhi rr | lbls rr | lbhs rr | lblo rr | lbne rr | lbeq rr | lbvc rr | lbvs rr | lbpl rr
      | lbmi rr | lbge rr | lblt rr | lbgt rr | lble rr | lbsr rr => exact read_word _ rr rest
  case tfr r1 r2 | exg r1 r2 => exact readPair_encode _ (beq_iff_eq.1 h) rest
  all_goals rfl

/-- Before the end of an instruction's bytes the decoder asks for more. -/
theorem decode_take_encode {i : Instr} (h : i.wellFormed = true) {k : Nat} (hk : k < i.size) :
    decode ((encode i).take k) = .error .truncated := by
  have hd := decode_encode h []
  rw [List.append_nil] at hd
  exact decode_take_of_ok hd hk

end Sys2Proof

namespace Sys2Proof.Machine

/-- Settles O6, from what the decoder makes of an encoding and of its front parts. -/
theorem fetchReadsTheInstructionInStorage : Obligations.FetchReadsTheInstructionInStorage := by
  intro s i hi hbytes
  have hd : decode (encode i) = .ok i [] := by simpa using decode_encode hi []
  rw [← hd]
  exact fetch_of_peek (by simp [hd]) (fun _ => decode_take_encode hi) hbytes

end Sys2Proof.Machine
end

section
/-! PROOF. What the decoder accepts and refuses (spec/30_encoding.md R110 to R130): an accepted front part has the length
of its instruction and decides the answer alone (`decode_accepts`), and the refused opcodes, postbytes and register
pairs are those of R126 to R130. -/

namespace Sys2Proof

/-- Settles O1. -/
theorem decodeOfEncodeIsTheInstruction : Obligations.DecodeOfEncodeIsTheInstruction :=
  fun _ rest h => decode_encode h rest

/-- Settles O3: the decoder computes each answer. -/
theorem sampleWordsDecode : Obligations.SampleWordsDecode :=
  ⟨rfl, rfl, rfl, rfl, rfl, rfl, rfl, rfl, rfl⟩

/-! ### Readers that decide by the bytes they take (R125) -/

/-- What `read` accepts is taken from a front part of the bytes, the value and the part's length satisfy `good`, and the
same front part before any other bytes gives the same value. -/
abbrev Accepts {α : Type} (good : α → Nat → Prop) (read : List Byte → Read α) : Prop :=
  ∀ bs a rest, read bs = .ok a rest →
    ∃ used, bs = used ++ rest ∧ good a used.length ∧ ∀ other, read (used ++ other) = .ok a other

theorem accepts_here {α : Type} {good : α → Nat → Prop} {a : α} (h : good a 0) : Accepts good (Read.ok a) := by
  rintro bs _ rest ⟨⟩
  exact ⟨[], rfl, h, fun _ => rfl⟩

theorem accepts_nothing {α : Type} {good : α → Nat → Prop} (e : DecodeError) : Accepts good fun _ => Read.error e := by
  rintro bs a rest ⟨⟩

theorem Accepts.mono {α : Type} {good good' : α → Nat → Prop} {read : List Byte → Read α}
    (h : Accepts good read) (hgood : ∀ a n, good a n → good' a n) : Accepts good' read := by
  intro bs a rest hr
  obtain ⟨used, hbs, hg, hother⟩ := h bs a rest hr
  exact ⟨used, hbs, hgood a _ hg, hother⟩

/-- One more byte in front. -/
theorem accepts_cons {α : Type} {good : α → Nat → Prop} {read : List Byte → Read α}
    (hnil : ∀ a rest, read [] ≠ .ok a rest) (hcons : ∀ b, Accepts (fun a n => good a (n + 1)) fun bs => read (b :: bs)) :
    Accepts good read := by
  rintro (_ | ⟨b, bs⟩) a rest h
  · exact absurd h (hnil a rest)
  · obtain ⟨used, rfl, hgood, hother⟩ := hcons b bs a rest h
    exact ⟨b :: used, rfl, hgood, hother⟩

theorem accepts_byte {α : Type} {good : α → Nat → Prop} {read : List Byte → Read α} {f : Byte → α}
    (hnil : ∀ a rest, read [] ≠ .ok a rest) (hread : ∀ b bs, read (b :: bs) = .ok (f b) bs) (h : ∀ b, good (f b) 1) :
    Accepts good read :=
  accepts_cons hnil fun b => by
    simp only [hread]
    exact accepts_here (h b)

theorem accepts_word {α : Type} {good : α → Nat → Prop} {read : List Byte → Read α} {f : Word → α}
    (hnil : ∀ a rest, read [] ≠ .ok a rest) (hone : ∀ b a rest, read [b] ≠ .ok a rest)
    (hread : ∀ h l bs, read (h :: l :: bs) = .ok (f (wordOf h l)) bs) (hgood : ∀ w, good (f w) 2) :
    Accepts good read :=
  accepts_cons hnil fun b => accepts_byte (hone b) (hread b) fun l => hgood (wordOf b l)

theorem Accepts.map {α β : Type} {good : β → Nat → Prop} {f : α → β} {read : List Byte → Read α}
    (h : Accepts (fun a n => good (f a) n) read) : Accepts good fun bs => (read bs).map f := by
  intro bs b rest hb
  dsimp only at hb ⊢
  cases hr : read bs with
  | error e =>
    rw [hr] at hb
    cases hb
  | ok a rest' =>
    rw [hr] at hb
    obtain ⟨rfl, rfl⟩ := Read.ok.inj hb
    obtain ⟨used, hbs, hgood, hother⟩ := h bs a rest' hr
    exact ⟨used, hbs, hgood, fun other => by rw [hother]; rfl⟩

/-! ### Operands (R118, R119) -/

theorem readOffset8_accepts {good : Indexed → Nat → Prop} {f : Byte → Indexed} (h : ∀ n, good (f n) 1) :
    Accepts good (readOffset8 f) :=
  accepts_byte (fun _ _ => nofun) (fun _ _ => rfl) h

theorem readOffset16_accepts {good : Indexed → Nat → Prop} {f : Word → Indexed} (h : ∀ n, good (f n) 2) :
    Accepts good (readOffset16 f) :=
  accepts_word (fun _ _ => nofun) (fun _ _ _ => nofun) (fun _ _ _ => rfl) h

/-- Behind the postbyte an indexed form takes the bytes its encoding has there. -/
theorem readIndexedForm_accepts (pb : Byte) (r : IndexReg) (ind : Bool) :
    Accepts (fun x n => (encodeIndexed x).length = n + 1) (readIndexedForm pb r ind) := by
  unfold readIndexedForm
  split
  case h_1 | h_3 =>
    split
    · exact accepts_nothing _
    · exact accepts_here rfl
  case h_8 | h_11 => exact readOffset8_accepts fun _ => rfl
  case h_9 | h_12 => exact readOffset16_accepts fun _ => rfl
  case h_13 =>
    split
    · exact readOffset16_accepts fun _ => rfl
    · exact accepts_nothing _
  case h_14 => exact accepts_nothing _
  all_goals exact accepts_here rfl

theorem readIndexed_accepts : Accepts (fun x n => (encodeIndexed x).length = n) readIndexed := by
  refine accepts_cons (fun _ _ => nofun) fun pb => ?_
  simp only [readIndexed]
  split
  · exact readIndexedForm_accepts pb _ _
  · exact accepts_here rfl

theorem readPair_accepts {good : Instr → Nat → Prop} {f : RegCode → RegCode → Instr}
    (h : ∀ r1 r2 : RegCode, r1.wide = r2.wide → good (f r1 r2) 1) : Accepts good (readPair f) := by
  refine accepts_cons (fun _ _ => nofun) fun pb => ?_
  simp only [readPair]
  split
  · split
    next hw => exact accepts_here (h _ _ (beq_iff_eq.1 hw))
    next => exact accepts_nothing _
  · exact accepts_nothing _

/-! ### Formats (R111) -/

/-- A well-formed instruction of n opcode bytes and k operand bytes. -/
abbrev Instr.HasBytes (n : Nat) (i : Instr) (k : Nat) : Prop := i.wellFormed = true ∧ i.size = k + n

/-- Behind n opcode bytes the format gives well-formed instructions of the length of what it reads. -/
def Form.Fits (n : Nat) : Form → Prop
  | .inherent i => i.HasBytes n 0
  | .byte f => ∀ b, (f b).HasBytes n 1
  | .word f => ∀ w, (f w).HasBytes n 2
  | .indexed f => ∀ x, (f x).HasBytes n (encodeIndexed x).length
  | .pair f => ∀ r1 r2, r1.wide = r2.wide → (f r1 r2).HasBytes n 1

/-- A format takes at most three operand bytes. -/
theorem Form.read_accepts {n : Nat} {f : Form} (h : f.Fits n) :
    Accepts (fun i k => i.HasBytes n k ∧ k ≤ 3) f.read := by
  cases f with
  | inherent i => exact accepts_here ⟨h, by decide⟩
  | byte f => exact accepts_byte (fun _ _ => nofun) (fun _ _ => rfl) fun b => ⟨h b, by decide⟩
  | word f => exact accepts_word (fun _ _ => nofun) (fun _ _ _ => nofun) (fun _ _ _ => rfl) fun w => ⟨h w, by decide⟩
  | indexed f =>
    refine Accepts.map fun bs x rest hx => ?_
    obtain ⟨used, hbs, hlen, hother⟩ := readIndexed_accepts bs x rest hx
    obtain ⟨-, hle⟩ := encodeIndexed_length x
    rw [hlen] at hle
    exact ⟨used, hbs, ⟨hlen ▸ h x, hle⟩, hother⟩
  | pair f => exact readPair_accepts fun r1 r2 hw => ⟨h r1 r2 hw, by decide⟩

/-- The same of the direct, indexed and extended rows of a memory instruction. -/
structure MemFits (n : Nat) (f : Mem → Instr) : Prop where
  dir : (dirForm f).Fits n
  idx : (idxForm f).Fits n
  ext : (extForm f).Fits n

/-- The same of a column, with its immediate row where there is one. -/
structure Column.Fits (n : Nat) (k : Column) : Prop where
  imm : ∀ f, k.imm = some f → f.Fits n
  mem : MemFits n k.onMem

/-! ### The opcode maps (R121 to R123) -/

theorem unaryMemory_fits {lo : Nat} {f : Mem → Instr} (h : unaryMemory lo = some f) : MemFits 1 f := by
  unfold unaryMemory at h
  split at h <;> cases h <;> exact ⟨fun _ => ⟨rfl, rfl⟩, fun _ => ⟨rfl, rfl⟩, fun _ => ⟨rfl, rfl⟩⟩

theorem unaryA_fits {lo : Nat} {i : Instr} (h : unaryA lo = some i) : (Form.inherent i).Fits 1 := by
  unfold unaryA at h
  split at h <;> cases h <;> exact ⟨rfl, rfl⟩

theorem unaryB_fits {lo : Nat} {i : Instr} (h : unaryB lo = some i) : (Form.inherent i).Fits 1 := by
  unfold unaryB at h
  split at h <;> cases h <;> exact ⟨rfl, rfl⟩

theorem row1_fits {lo : Nat} {f : Form} (h : row1 lo = some f) : f.Fits 1 := by
  unfold row1 at h
  split at h <;> cases h
  case h_1 | h_2 | h_5 | h_8 => exact ⟨rfl, rfl⟩
  case h_9 | h_10 => exact fun r1 r2 hw => ⟨beq_iff_eq.2 hw, rfl⟩
  all_goals exact fun _ => ⟨rfl, rfl⟩

theorem row2_fits {lo : Nat} {f : Form} (h : row2 lo = some f) : f.Fits 1 := by
  unfold row2 at h
  split at h <;> cases h <;> exact fun _ => ⟨rfl, rfl⟩

theorem row3_fits {lo : Nat} {f : Form} (h : row3 lo = some f) : f.Fits 1 := by
  unfold row3 at h
  split at h <;> cases h
  case h_9 | h_10 | h_11 | h_13 | h_14 => exact ⟨rfl, rfl⟩
  all_goals exact fun _ => ⟨rfl, rfl⟩

theorem longBranch_fits {lo : Nat} {f : Form} (h : longBranch lo = some f) : f.Fits 2 := by
  unfold longBranch at h
  split at h <;> cases h <;> exact fun _ => ⟨rfl, rfl⟩

theorem sideA_fits {lo : Nat} {k : Column} (h : sideA lo = some k) : k.Fits 1 := by
  unfold sideA at h
  split at h <;> cases h <;>
  exact ⟨by rintro _ ⟨⟩ <;> exact fun _ => ⟨rfl, rfl⟩, fun _ => ⟨rfl, rfl⟩, fun _ => ⟨rfl, rfl⟩, fun _ => ⟨rfl, rfl⟩⟩

theorem sideB_fits {lo : Nat} {k : Column} (h : sideB lo = some k) : k.Fits 1 := by
  unfold sideB at h
  split at h <;> cases h <;>
  exact ⟨by rintro _ ⟨⟩ <;> exact fun _ => ⟨rfl, rfl⟩, fun _ => ⟨rfl, rfl⟩, fun _ => ⟨rfl, rfl⟩, fun _ => ⟨rfl, rfl⟩⟩

theorem side2A_fits {lo : Nat} {k : Column} (h : side2A lo = some k) : k.Fits 2 := by
  unfold side2A at h
  split at h <;> cases h <;>
  exact ⟨by rintro _ ⟨⟩ <;> exact fun _ => ⟨rfl, rfl⟩, fun _ => ⟨rfl, rfl⟩, fun _ => ⟨rfl, rfl⟩, fun _ => ⟨rfl, rfl⟩⟩

theorem side2B_fits {lo : Nat} {k : Column} (h : side2B lo = some k) : k.Fits 2 := by
  unfold side2B at h
  split at h <;> cases h <;>
  exact ⟨by rintro _ ⟨⟩ <;> exact fun _ => ⟨rfl, rfl⟩, fun _ => ⟨rfl, rfl⟩, fun _ => ⟨rfl, rfl⟩, fun _ => ⟨rfl, rfl⟩⟩

theorem side3A_fits {lo : Nat} {k : Column} (h : side3A lo = some k) : k.Fits 2 := by
  unfold side3A at h
  split at h <;> cases h <;>
  exact ⟨by rintro _ ⟨⟩; exact fun _ => ⟨rfl, rfl⟩, fun _ => ⟨rfl, rfl⟩, fun _ => ⟨rfl, rfl⟩, fun _ => ⟨rfl, rfl⟩⟩

theorem immRow_fits {n : Nat} {t : Option Column} {f : Form} (ht : ∀ {k}, t = some k → k.Fits n)
    (h : t.bind Column.imm = some f) : f.Fits n := by
  obtain ⟨k, hk, hf⟩ := Option.bind_eq_some_iff.1 h
  exact (ht hk).imm f hf

/-- A row of formats made from the entries of a table, each of which fits. -/
theorem mapRow_fits {α : Type} {n : Nat} {t : Option α} {g : α → Form} {f : Form} (ht : ∀ {k}, t = some k → (g k).Fits n)
    (h : t.map g = some f) : f.Fits n := by
  obtain ⟨k, hk, rfl⟩ := Option.map_eq_some_iff.1 h
  exact ht hk

theorem row8_fits {lo : Nat} {f : Form} (h : row8 lo = some f) : f.Fits 1 := by
  unfold row8 at h
  split at h
  · cases h
    exact fun _ => ⟨rfl, rfl⟩
  · exact immRow_fits sideA_fits h

theorem page0_fits {op : Byte} {f : Form} (h : page0 op = some f) : f.Fits 1 := by
  unfold page0 at h
  dsimp only at h
  split at h
  · exact mapRow_fits (fun hf => (unaryMemory_fits hf).dir) h
  · exact row1_fits h
  · exact row2_fits h
  · exact row3_fits h
  · exact mapRow_fits unaryA_fits h
  · exact mapRow_fits unaryB_fits h
  · exact mapRow_fits (fun hf => (unaryMemory_fits hf).idx) h
  · exact mapRow_fits (fun hf => (unaryMemory_fits hf).ext) h
  · exact row8_fits h
  · exact mapRow_fits (fun hk => (sideA_fits hk).mem.dir) h
  · exact mapRow_fits (fun hk => (sideA_fits hk).mem.idx) h
  · exact mapRow_fits (fun hk => (sideA_fits hk).mem.ext) h
  · exact immRow_fits sideB_fits h
  · exact mapRow_fits (fun hk => (sideB_fits hk).mem.dir) h
  · exact mapRow_fits (fun hk => (sideB_fits hk).mem.idx) h
  · exact mapRow_fits (fun hk => (sideB_fits hk).mem.ext) h
  · cases h

theorem page2_fits {op : Byte} {f : Form} (h : page2 op = some f) : f.Fits 2 := by
  unfold page2 at h
  dsimp only at h
  split at h
  · exact longBranch_fits h
  · split at h <;> cases h
    exact ⟨rfl, rfl⟩
  · exact immRow_fits side2A_fits h
  · exact mapRow_fits (fun hk => (side2A_fits hk).mem.dir) h
  · exact mapRow_fits (fun hk => (side2A_fits hk).mem.idx) h
  · exact mapRow_fits (fun hk => (side2A_fits hk).mem.ext) h
  · exact immRow_fits side2B_fits h
  · exact mapRow_fits (fun hk => (side2B_fits hk).mem.dir) h
  · exact mapRow_fits (fun hk => (side2B_fits hk).mem.idx) h
  · exact mapRow_fits (fun hk => (side2B_fits hk).mem.ext) h
  · cases h

theorem page3_fits {op : Byte} {f : Form} (h : page3 op = some f) : f.Fits 2 := by
  unfold page3 at h
  dsimp only at h
  split at h
  · split at h <;> cases h
    exact ⟨rfl, rfl⟩
  · exact immRow_fits side3A_fits h
  · exact mapRow_fits (fun hk => (side3A_fits hk).mem.dir) h
  · exact mapRow_fits (fun hk => (side3A_fits hk).mem.idx) h
  · exact mapRow_fits (fun hk => (side3A_fits hk).mem.ext) h
  · cases h

/-! ### Decoding (R110, R112, R125) -/

/-- Behind an opcode byte whose page's formats fit: at most three bytes. -/
theorem decodeOn_cons_accepts {page n : Nat} {table : Byte → Option Form} {op : Byte}
    (ht : ∀ {f}, table op = some f → f.Fits n) :
    Accepts (fun i k => i.HasBytes n k ∧ k ≤ 3) fun bs => decodeOn page table (op :: bs) := by
  simp only [decodeOn]
  split
  next f hf => exact Form.read_accepts (ht hf)
  next => exact accepts_nothing _

/-- The bytes behind a page byte. -/
theorem decodeOn_accepts {page : Nat} {table : Byte → Option Form} (ht : ∀ {op f}, table op = some f → f.Fits 2) :
    Accepts (fun i k => i.HasBytes 1 k ∧ k ≤ 4) (decodeOn page table) :=
  accepts_cons (fun _ _ => nofun) fun _ => (decodeOn_cons_accepts ht).mono fun _ _ ⟨⟨hwf, hsize⟩, hle⟩ =>
    ⟨⟨hwf, hsize.trans (by omega)⟩, by omega⟩

/-- An accepted instruction has its own length, at most five bytes: a page byte, an opcode byte and three more. -/
theorem decode_accepts : Accepts (fun i k => i.HasBytes 0 k ∧ 1 ≤ k ∧ k ≤ 5) decode := by
  have opcodeByte {read : List Byte → Read Instr} (h : Accepts (fun i k => i.HasBytes 1 k ∧ k ≤ 4) read) :
      Accepts (fun i k => i.HasBytes 0 (k + 1) ∧ 1 ≤ k + 1 ∧ k + 1 ≤ 5) read :=
    h.mono fun _ _ ⟨hbytes, hle⟩ => ⟨hbytes, by omega, by omega⟩
  refine accepts_cons (fun _ _ => nofun) fun b => ?_
  simp only [decode]
  split
  · exact opcodeByte (decodeOn_accepts page2_fits)
  · split
    · exact opcodeByte (decodeOn_accepts page3_fits)
    · exact opcodeByte ((decodeOn_cons_accepts page0_fits).mono fun _ _ ⟨hbytes, hle⟩ => ⟨hbytes, by omega⟩)

/-- Settles O2, from the front part that the decoder takes. -/
theorem decodedInstructionsHaveTheirLength : Obligations.DecodedInstructionsHaveTheirLength := by
  intro bs i rest h
  obtain ⟨used, hbs, ⟨⟨hwf, hsize⟩, hpos, hle⟩, hother⟩ := decode_accepts bs i rest h
  rw [Nat.add_zero] at hsize
  exact ⟨hwf, hsize ▸ hpos, hsize ▸ hle, used, hbs, hsize.symm, hother⟩

/-! ### Refused operands (R129, R130) -/

open Claims

theorem error_eq_error_iff {α : Type} {d e : DecodeError} : (Read.error d : Read α) = .error e ↔ e = d :=
  ⟨fun h => (Read.error.inj h).symm, fun h => congrArg Read.error h.symm⟩

theorem readOffset8_ne_error (f : Byte → Indexed) (bs : List Byte) {e : DecodeError} (he : e ≠ .truncated) :
    readOffset8 f bs ≠ .error e := by
  cases bs with
  | nil => exact fun h => he (Read.error.inj h).symm
  | cons => nofun

theorem readOffset16_ne_error (f : Word → Indexed) (bs : List Byte) {e : DecodeError} (he : e ≠ .truncated) :
    readOffset16 f bs ≠ .error e := by
  match bs with
  | [] | [_] => exact fun h => he (Read.error.inj h).symm
  | _ :: _ :: _ => nofun

/-- R129 by the fields of a postbyte with bit 7 set: modes 7, A and E, an indirect single step, and mode F but for
extended indirect. -/
def RefusedForm (pb : Byte) : Prop :=
  let m := (pb.extractLsb' 0 4).toNat
  m = 0x7 ∨ m = 0xA ∨ m = 0xE ∨ ((m = 0x0 ∨ m = 0x2) ∧ pb.getLsbD 4 = true) ∨ (m = 0xF ∧ pb ≠ 0x9F#8)

theorem readIndexedForm_error_iff (pb : Byte) (r : IndexReg) (bs : List Byte) {e : DecodeError} (he : e ≠ .truncated) :
    readIndexedForm pb r (pb.getLsbD 4) bs = .error e ↔ e = .badIndexedPostbyte pb ∧ RefusedForm pb := by
  have refused (h : RefusedForm pb) :
      Read.error (α := Indexed) (.badIndexedPostbyte pb) = .error e ↔ e = .badIndexedPostbyte pb ∧ RefusedForm pb :=
    error_eq_error_iff.trans (and_iff_left h).symm
  have read {x : Read Indexed} (hx : x ≠ .error e) (h : ¬ RefusedForm pb) :
      x = .error e ↔ e = .badIndexedPostbyte pb ∧ RefusedForm pb :=
    iff_of_false hx fun hr => h hr.2
  have hm : (pb.extractLsb' 0 4).toNat < 16 := (pb.extractLsb' 0 4).isLt
  unfold readIndexedForm
  split
  case h_1 h | h_3 h =>
    split
    next hb => exact refused (by simp [RefusedForm, h, hb])
    next hb => exact read nofun (by simpa [RefusedForm, h] using hb)
  case h_8 h | h_11 h => exact read (readOffset8_ne_error _ _ he) (by simp [RefusedForm, h])
  case h_9 h | h_12 h => exact read (readOffset16_ne_error _ _ he) (by simp [RefusedForm, h])
  case h_13 h =>
    split
    next hpb => exact read (readOffset16_ne_error _ _ he) (by simp [RefusedForm, hpb])
    next hpb => exact refused (by simp [RefusedForm, h, hpb])
  case h_14 => exact refused (by grind [RefusedForm])
  all_goals next h => exact read nofun (by simp [RefusedForm, h])

theorem readIndexed_error_iff (pb : Byte) (bs : List Byte) {e : DecodeError} (he : e ≠ .truncated) :
    readIndexed (pb :: bs) = .error e ↔ e = .badIndexedPostbyte pb ∧ pb.getLsbD 7 = true ∧ RefusedForm pb := by
  simp only [readIndexed]
  split
  next h7 => simp only [readIndexedForm_error_iff pb _ bs he, h7, true_and]
  next h7 => exact iff_of_false nofun fun h => h7 h.2.1

theorem readIndexed_map_error_iff (f : Indexed → Instr) (bs : List Byte) (e : DecodeError) :
    (Form.indexed f).read bs = .error e ↔ readIndexed bs = .error e := by
  rw [Form.read]
  cases readIndexed bs <;> simp [Read.map]

/-- The two nibbles name registers of one width (R119, R130). -/
def sameWidth (hi lo : BitVec 4) : Bool :=
  match RegCode.ofNibble hi, RegCode.ofNibble lo with
  | some r1, some r2 => r1.wide == r2.wide
  | _, _ => false

theorem readPair_error_iff (f : RegCode → RegCode → Instr) (pb : Byte) (bs : List Byte) (e : DecodeError) :
    readPair f (pb :: bs) = .error e ↔
      e = .badRegisterPair pb ∧ sameWidth (pb.extractLsb' 4 4) (pb.extractLsb' 0 4) = false := by
  have refused {b : Bool} (hb : b = false) :
      Read.error (α := Instr) (.badRegisterPair pb) = .error e ↔ e = .badRegisterPair pb ∧ b = false :=
    error_eq_error_iff.trans (and_iff_left hb).symm
  rw [readPair, sameWidth]
  cases RegCode.ofNibble (pb.extractLsb' 4 4) with
  | none => exact refused rfl
  | some r1 =>
    cases RegCode.ofNibble (pb.extractLsb' 0 4) with
    | none => exact refused rfl
    | some r2 =>
      dsimp only
      split
      next hw => exact iff_of_false nofun fun h => Bool.eq_false_iff.1 h.2 hw
      next hw => exact refused (Bool.eq_false_iff.2 hw)

/-! ### The finite tables, by row and column (R126, R129, R130) -/

/-- A byte is its two nibbles, the row and the column of the opcode maps. -/
theorem forall_nibbles {p : Byte → Prop} (h : ∀ hi lo : BitVec 4, p (hi ++ lo)) (b : Byte) : p b := by
  rw [← BitVec.extractLsb'_append_extractLsb' (x := b) (len := 4)]
  exact h _ _

theorem page0_eq_none_iff : ∀ op : Byte, op ≠ 0x10#8 → op ≠ 0x11#8 → (page0 op = none ↔ op ∈ noPage0) :=
  forall_nibbles (by decide)

theorem page2_eq_none_iff : ∀ op : Byte, page2 op = none ↔ op ∉ page2Opcodes :=
  forall_nibbles (by decide)

theorem page3_eq_none_iff : ∀ op : Byte, page3 op = none ↔ op ∉ page3Opcodes :=
  forall_nibbles (by decide)

theorem badPostbyte_iff : ∀ pb : Byte, badPostbyte pb ↔ pb.getLsbD 7 = true ∧ RefusedForm pb :=
  forall_nibbles (by unfold badPostbyte RefusedForm; decide)

theorem badPair_iff : ∀ pb : Byte, badPair pb ↔ sameWidth (pb.extractLsb' 4 4) (pb.extractLsb' 0 4) = false :=
  forall_nibbles (by unfold badPair; decide)

/-! ### Undefined opcodes (R126, R127) -/

/-- An operand that cannot be read is not taken for an undefined opcode. -/
theorem Form.read_ne_noSuchOpcode (f : Form) (bs : List Byte) (page : Nat) (op : Byte) :
    f.read bs ≠ .error (.noSuchOpcode page op) := by
  cases f with
  | inherent => nofun
  | byte =>
    match bs with
    | [] | _ :: _ => nofun
  | word =>
    match bs with
    | [] | [_] | _ :: _ :: _ => nofun
  | indexed f =>
    rw [ne_eq, readIndexed_map_error_iff]
    cases bs with
    | nil => nofun
    | cons pb bs => simp [readIndexed_error_iff]
  | pair f =>
    cases bs with
    | nil => nofun
    | cons pb bs => simp [Form.read, readPair_error_iff]

theorem decodeOn_noSuchOpcode_iff (page : Nat) (table : Byte → Option Form) (op : Byte) (bs : List Byte) :
    decodeOn page table (op :: bs) = .error (.noSuchOpcode page op) ↔ table op = none := by
  rw [decodeOn]
  cases table op with
  | none => simp
  | some f => simpa using f.read_ne_noSuchOpcode bs page op

theorem decode_page0 {op : Byte} (h2 : op ≠ 0x10#8) (h3 : op ≠ 0x11#8) (bs : List Byte) :
    decode (op :: bs) = decodeOn 0 page0 (op :: bs) := by
  rw [decode, if_neg h2, if_neg h3]

/-- Settles O4: each refusal comes down to a table of the decoder, which is the spec's table. -/
theorem invalidEncodingsAreRefused : Obligations.InvalidEncodingsAreRefused := by
  refine ⟨fun op rest h2 h3 => ?_, fun op rest => ?_, fun op rest => ?_, fun f pb rest => ?_, fun f pb rest => ?_⟩
  · rw [decode_page0 h2 h3, decodeOn_noSuchOpcode_iff, page0_eq_none_iff op h2 h3]
  · exact (decodeOn_noSuchOpcode_iff 2 page2 op rest).trans (page2_eq_none_iff op)
  · exact (decodeOn_noSuchOpcode_iff 3 page3 op rest).trans (page3_eq_none_iff op)
  · rw [readIndexed_map_error_iff, readIndexed_error_iff pb rest (by simp), badPostbyte_iff]
    exact and_iff_right rfl
  · rw [Form.read, readPair_error_iff, badPair_iff]
    exact and_iff_right rfl

end Sys2Proof
end

section
/-! PROOF. TFR and EXG, and the register-list instructions (spec/46_register_stack.md R360 to R365): what a write of one
register leaves of the others, then each instruction from the law of its shared operation. -/

namespace Sys2Proof.Machine

/-! ### Writing one register of TFR and EXG (R119, R32) -/

/-- The registers with the one that k names written; an 8-bit one takes the low byte (R119). -/
def codePut (k : RegCode) (g : Regs) (v : Word) : Regs :=
  match k with
  | .d => { g with a := hiByte v, b := loByte v }
  | .x => { g with x := v }
  | .y => { g with y := v }
  | .u => { g with u := v }
  | .s => { g with s := v }
  | .pc => { g with pc := v }
  | .a => { g with a := loByte v }
  | .b => { g with b := loByte v }
  | .cc => { g with cc := loByte v }
  | .dp => { g with dp := loByte v }

/-- A transfer writes its destination and arms NMI when that is S (R48), and does nothing else. -/
theorem codeSet_eq (k : RegCode) (s : State) (v : Word) :
    codeSet k s v = { s with regs := codePut k s.regs v, nmiArmed := s.armedBy (k == .s) } := by
  rw [← codeSet_nmiArmed k s v]
  cases k <;> rfl

theorem codeGet_put_of_wide {k : RegCode} (hk : k.wide = true) (g : Regs) (v : Word) :
    codeGet k (codePut k g v) = v := by
  cases k
  case d => exact wordOf_hiByte_loByte v
  case a | b | cc | dp => cases hk
  all_goals rfl

theorem codeGet_put_of_narrow {k : RegCode} (hk : k.wide = false) (g : Regs) (v : Word) :
    codeGet k (codePut k g v) = zext8 (loByte v) := by
  cases k
  case a | b | cc | dp => rfl
  all_goals cases hk

theorem loByte_zext8 (b : Byte) : loByte (zext8 b) = b :=
  BitVec.eq_of_toNat_eq (by simp [loByte, zext8]; omega)

/-- An 8-bit register has nothing above its low byte. -/
theorem zext8_loByte_codeGet {k : RegCode} (hk : k.wide = false) (g : Regs) :
    zext8 (loByte (codeGet k g)) = codeGet k g := by
  cases k
  case a | b | cc | dp => exact congrArg zext8 (loByte_zext8 _)
  all_goals cases hk

/-- Between registers of one width a value arrives whole (R360). -/
theorem codeGet_put_codeGet {r k : RegCode} (hw : r.wide = k.wide) (g h : Regs) :
    codeGet k (codePut k h (codeGet r g)) = codeGet r g := by
  cases hk : k.wide with
  | true => exact codeGet_put_of_wide hk h _
  | false => rw [codeGet_put_of_narrow hk, zext8_loByte_codeGet (hw.trans hk)]

/-- The registers r and k share no bits: they are two, and neither is D with the other a half of it (R32). -/
abbrev Apart (r k : RegCode) : Prop :=
  k ≠ r ∧ ¬ (r = .d ∧ (k = .a ∨ k = .b)) ∧ ¬ (k = .d ∧ (r = .a ∨ r = .b))

theorem codeGet_put_of_apart {r k : RegCode} (h : Apart r k) (g : Regs) (v : Word) :
    codeGet k (codePut r g v) = codeGet k g := by
  obtain ⟨hne, hhalf, hwhole⟩ := h
  cases r <;> cases k
  case d.d | x.x | y.y | u.u | s.s | pc.pc | a.a | b.b | cc.cc | dp.dp => exact absurd rfl hne
  case d.a => exact absurd ⟨rfl, .inl rfl⟩ hhalf
  case d.b => exact absurd ⟨rfl, .inr rfl⟩ hhalf
  case a.d => exact absurd ⟨rfl, .inl rfl⟩ hwhole
  case b.d => exact absurd ⟨rfl, .inr rfl⟩ hwhole
  all_goals rfl

/-- D and its halves differ in width, so two registers of one width share no bits. -/
theorem apart_of_ne {r k : RegCode} (hne : k ≠ r) (hw : r.wide = k.wide) : Apart r k := by
  refine ⟨hne, ?_, ?_⟩
  · rintro ⟨rfl, rfl | rfl⟩ <;> cases hw
  · rintro ⟨rfl, rfl | rfl⟩ <;> cases hw

/-! ### TFR and EXG (R360, R361) -/

theorem runPair_of_wellFormed {i : Instr} (hi : i.wellFormed = true) (s : State) (f : State → State) :
    runPair i s f = .next (f (s.advance i.size)) :=
  if_pos hi

theorem runPair_of_not_wellFormed {i : Instr} (hi : i.wellFormed = false) (s : State) (f : State → State) :
    runPair i s f = .next (raiseInvalid (encode i) s) :=
  if_neg (Bool.eq_false_iff.1 hi)

theorem exchange_eq (r1 r2 : RegCode) (s : State) :
    exchange r1 r2 s = { s with
      regs := codePut r2 (codePut r1 s.regs (codeGet r2 s.regs)) (codeGet r1 s.regs)
      nmiArmed := s.armedBy (r1 == .s || r2 == .s) } := by
  rw [← exchange_nmiArmed, exchange, codeSet_eq r2, codeSet_eq r1]

/-- After the exchange r1 holds the old r2: the second write leaves it alone, or is to r1 itself. -/
theorem codeGet_exchanged {r1 r2 : RegCode} (hw : r1.wide = r2.wide) (g : Regs) :
    codeGet r1 (codePut r2 (codePut r1 g (codeGet r2 g)) (codeGet r1 g)) = codeGet r2 g := by
  by_cases hne : r1 = r2
  · subst hne
    exact codeGet_put_codeGet rfl g _
  · rw [codeGet_put_of_apart (apart_of_ne hne hw.symm), codeGet_put_codeGet hw.symm]

/-- Settles O49: the destination's write, or the two writes of an exchange, on the registers with PC past the
instruction. -/
theorem transferAndExchange : Obligations.TransferAndExchange := by
  refine ⟨fun g => ⟨rfl, rfl, rfl, rfl, rfl, rfl, rfl, rfl, rfl, rfl⟩, ?_, ?_⟩
  · intro r1 r2 s hw g apart
    have hwf : (r1.wide == r2.wide) = true := beq_iff_eq.2 hw
    refine ⟨⟨codePut r2 g (codeGet r1 g), ?_, codeGet_put_codeGet hw g g, fun k hk => ?_⟩,
      ⟨codePut r2 (codePut r1 g (codeGet r2 g)) (codeGet r1 g), ?_, codeGet_put_codeGet hw g _,
        codeGet_exchanged hw g, fun k hk1 hk2 => ?_⟩⟩
    · exact (runPair_of_wellFormed (i := .tfr r1 r2) hwf s _).trans
        (congrArg Host.Outcome.next (codeSet_eq r2 (s.advance 2) _))
    · exact codeGet_put_of_apart hk g _
    · exact (runPair_of_wellFormed (i := .exg r1 r2) hwf s _).trans
        (congrArg Host.Outcome.next (exchange_eq r1 r2 (s.advance 2)))
    · rw [codeGet_put_of_apart hk2, codeGet_put_of_apart hk1]
  · intro r1 r2 s hw
    have hwf : (r1.wide == r2.wide) = false := beq_eq_false_iff_ne.2 hw
    exact ⟨runPair_of_not_wellFormed (i := .tfr r1 r2) hwf s _, runPair_of_not_wellFormed (i := .exg r1 r2) hwf s _⟩

/-! ### PSHS and PSHU (R362, R364) -/

/-- The writes of a push do not look at the registers; after them only the stack pointer has moved. -/
theorem pushed_withRegs (k : Stack) (s : State) (g : Regs) (is : List StackItem) :
    pushed k { s with regs := g } is =
      { s.storeAll (pushWrites (k.get g) is) with
        regs := withSp k g (k.get g - BitVec.ofNat 16 (itemBytes is)) } := by
  cases k <;> exact storeAll_withRegs s _ _

/-- A register list pushed from the registers g, where the pushed bytes take writes. -/
theorem pushList_withRegs {k : Stack} {pb : Byte} {s : State} {g : Regs}
    (hw : s.Writable (pushWrites (k.get g) (listItems pb (k.other.get g) g))) :
    pushList k pb { s with regs := g } = .ok { s.storeAll (pushWrites (k.get g) (listItems pb (k.other.get g) g)) with
      regs := withSp k g (k.get g - BitVec.ofNat 16 (itemBytes (listItems pb (k.other.get g) g))) } := by
  have hw' : State.Writable { s with regs := g } (pushWrites (k.get g) (listItems pb (k.other.get g) g)) := hw
  exact (pushList_eq hw').trans (congrArg Access.ok (pushed_withRegs k s g _))

/-- Settles O50, from the pushes as one sequence of writes. -/
theorem pushes : Obligations.Pushes := fun pb s =>
  ⟨fun hw => ⟨congrArg (finish s) (pushList_withRegs (k := .s) (pb := pb) hw), keepsStorage_storeAll s _⟩,
    fun hw => ⟨congrArg (finish s) (pushList_withRegs (k := .u) (pb := pb) hw), keepsStorage_storeAll s _⟩⟩

/-! ### PULS and PULU (R363, R365) -/

theorem readBytes_advance (n : Nat) (s : State) (a : Word) (l : Nat) :
    (s.advance l).readBytes a n = ((s.readBytes a n).1, { (s.readBytes a n).2 with regs := (s.advance l).regs }) :=
  readBytes_withRegs n s a _

/-- Settles O51, from the pulls as one sequence of reads. -/
theorem pulls : Obligations.Pulls := by
  intro pb s n rs ru regs
  have hs : OnlyReads s rs.2 := readBytes_onlyReads n s s.regs.s
  have hu : OnlyReads s ru.2 := readBytes_onlyReads n s s.regs.u
  refine ⟨?_, ?_, hs, hu, hs.peek, hu.peek⟩
  · refine (runPure_eq (.puls pb) s _).trans (congrArg Host.Outcome.next ?_)
    rw [pullList_s]
    dsimp only
    rw [readBytes_advance]
    rfl
  · refine (runPure_eq (.pulu pb) s _).trans (congrArg Host.Outcome.next ?_)
    rw [pullList_u]
    dsimp only
    rw [readBytes_advance]
    rfl

end Sys2Proof.Machine
end

section
/-! PROOF. Effective addresses and operands (spec/40_addressing.md R142 to R159): each index register is the row of the
statement's table that it names, and each form's address is then its defining equation on that row. -/

namespace Sys2Proof.Machine

open Sys2Proof.Claims

/-- The row reads and writes the index register r, and a write of it changes nothing but the registers (R147). -/
structure IndexRow (r : IndexReg) (row : Reg16Row) : Prop where
  get_eq : ∀ g, indexGet r g = row.get g
  set_eq : ∀ s v, indexSet r s v = { s with regs := row.put s.regs v }

/-- The rows of X, Y, U and S are those of the four index registers. -/
theorem indexRow_of_mem {r : IndexReg} {row : Reg16Row}
    (h : (r, row) ∈ [(IndexReg.x, rowX), (.y, rowY), (.u, rowU), (.s, rowS)]) : IndexRow r row := by
  simp only [List.mem_cons, Prod.mk.injEq, List.not_mem_nil, or_false] at h
  obtain ⟨rfl, rfl⟩ | ⟨rfl, rfl⟩ | ⟨rfl, rfl⟩ | ⟨rfl, rfl⟩ := h
  all_goals exact ⟨fun _ => rfl, fun _ _ => rfl⟩

section Forms

variable {r : IndexReg} {row : Reg16Row}

/-! ### The forms that leave their register (R148 to R152) -/

/-- The forms with a constant offset: five bits, none, a byte or a word (R148, R149, R151, R152). -/
theorem indexedAddress_offset (h : IndexRow r row) (s : State) (n5 : BitVec 5) (n8 : Byte) (n16 : Word) :
    indexedAddress (.off5 r n5) s = (row.get s.regs + n5.signExtend 16, s) ∧
    indexedAddress (.mode (.zero r) false) s = (row.get s.regs, s) ∧
    indexedAddress (.mode (.off8 r n8) false) s = (row.get s.regs + n8.signExtend 16, s) ∧
    indexedAddress (.mode (.off16 r n16) false) s = (row.get s.regs + n16, s) := by
  rw [← h.get_eq]
  exact ⟨rfl, rfl, rfl, rfl⟩

/-- The forms that add an accumulator (R150). -/
theorem indexedAddress_accumulator (h : IndexRow r row) (s : State) :
    indexedAddress (.mode (.accA r) false) s = (row.get s.regs + s.regs.a.signExtend 16, s) ∧
    indexedAddress (.mode (.accB r) false) s = (row.get s.regs + s.regs.b.signExtend 16, s) ∧
    indexedAddress (.mode (.accD r) false) s = (row.get s.regs + (s.regs.a ++ s.regs.b), s) := by
  rw [← h.get_eq]
  exact ⟨rfl, rfl, rfl⟩

/-! ### The forms that move their register (R153, R154) -/

/-- An auto-increment form answers the register as it was before the update. -/
theorem indexedAddress_increment (h : IndexRow r row) (s : State) :
    indexedAddress (.inc1 r) s = (row.get s.regs, { s with regs := row.put s.regs (row.get s.regs + 1) }) ∧
    indexedAddress (.mode (.inc2 r) false) s =
      (row.get s.regs, { s with regs := row.put s.regs (row.get s.regs + 2) }) := by
  rw [← h.set_eq, ← h.set_eq, ← h.get_eq]
  exact ⟨rfl, rfl⟩

/-- An auto-decrement form answers the register as it is after the update. -/
theorem indexedAddress_decrement (h : IndexRow r row) (s : State) :
    indexedAddress (.dec1 r) s = (row.get s.regs - 1, { s with regs := row.put s.regs (row.get s.regs - 1) }) ∧
    indexedAddress (.mode (.dec2 r) false) s =
      (row.get s.regs - 2, { s with regs := row.put s.regs (row.get s.regs - 2) }) := by
  rw [← h.set_eq, ← h.set_eq, ← h.get_eq]
  exact ⟨rfl, rfl⟩

end Forms

/-- Settles O30: the indexed forms on the row of their register, every other form by its definition, and what may change
by the laws of operand reads. -/
theorem effectiveAddressesAndOperands : Obligations.EffectiveAddressesAndOperands := by
  intro s dd n8 n16 n5 mode m
  refine ⟨rfl, rfl, fun r row hmem => ?_, rfl, rfl, rfl, rfl, rfl, rfl, rfl, rfl,
    effectiveAddress_onlyReads m s, operand8_onlyReads (.mem m) s, operand16_onlyReads (.mem m) s⟩
  have hrow : IndexRow r row := indexRow_of_mem hmem
  obtain ⟨hoff5, hzero, hoff8, hoff16⟩ := indexedAddress_offset hrow s n5 n8 n16
  obtain ⟨haccA, haccB, haccD⟩ := indexedAddress_accumulator hrow s
  obtain ⟨hinc1, hinc2⟩ := indexedAddress_increment hrow s
  obtain ⟨hdec1, hdec2⟩ := indexedAddress_decrement hrow s
  exact ⟨hoff5, hinc1, hdec1, hinc2, hdec2, hzero, haccA, haccB, haccD, hoff8, hoff16⟩

end Sys2Proof.Machine
end

section
/-! PROOF. Loads, stores and LEA (spec/41_load_store.md R170 to R187): a register operand as a row of the statements'
tables, what reading an operand leaves of the registers, then each group of instructions from the equation of its shared
operation. -/

namespace Sys2Proof.Machine

open Sys2Proof.Claims

/-! ### Register operands as rows (R30, R32, R48) -/

/-- The row of an accumulator. -/
def Acc.row : Acc → Reg8Row
  | .a => rowA
  | .b => rowB

/-- The row of a 16-bit register. -/
def Reg16.row : Reg16 → Reg16Row
  | .d => rowD
  | .x => rowX
  | .y => rowY
  | .u => rowU
  | .s => rowS

theorem Acc.get_eq_row (k : Acc) (g : Regs) : k.get g = k.row.get g := by
  cases k <;> rfl

theorem Acc.set_eq_row (k : Acc) (s : State) (v : Byte) : k.set s v = { s with regs := k.row.put s.regs v } := by
  cases k <;> rfl

theorem Reg16.get_eq_row (k : Reg16) (g : Regs) : k.get g = k.row.get g := by
  cases k <;> rfl

/-- A load writes its register, and arms NMI when that is S. -/
theorem Reg16.load_eq_row (k : Reg16) (s : State) (v : Word) :
    k.load s v = { s with regs := k.row.put s.regs v, nmiArmed := s.armedBy (k == .s) } := by
  rw [← k.load_nmiArmed s v]
  cases k <;> rfl

/-- A loaded register reads back. -/
theorem Reg16.get_load (k : Reg16) (s : State) (v : Word) : k.get (k.load s v).regs = v := by
  cases k
  case d => exact Regs.d_setD s v
  all_goals rfl

theorem Reg16.load_cc (k : Reg16) (s : State) (v : Word) : (k.load s v).regs.cc = s.regs.cc := by
  cases k <;> rfl

/-! ### What reading an operand leaves (R153, R154, R156) -/

/-- An operand's register update is one of X, Y, U and S. -/
theorem Regs.bumped_eq (g : Regs) (b : Option (IndexReg × Word)) :
    g.bumped b =
      { g with x := (g.bumped b).x, y := (g.bumped b).y, u := (g.bumped b).u, s := (g.bumped b).s } := by
  match b with
  | none | some (.x, _) | some (.y, _) | some (.u, _) | some (.s, _) => rfl

section Read

variable {n : Nat} {b : Option (IndexReg × Word)} {s p : State}

/-- Reading an operand leaves A, B, DP and CC as they were. -/
theorem AfterOperand.regs (h : AfterOperand n b s p) :
    p.regs = { s.regs with
      pc := s.regs.pc + BitVec.ofNat 16 n, x := p.regs.x, y := p.regs.y, u := p.regs.u, s := p.regs.s } := by
  rw [show p.regs = s.regs.atOperation n b from OnlyReads.regs h]
  exact Regs.bumped_eq _ b

theorem AfterOperand.cc (h : AfterOperand n b s p) : p.regs.cc = s.regs.cc := by rw [h.regs]

theorem AfterOperand.acc (h : AfterOperand n b s p) (k : Acc) : k.row.get p.regs = k.row.get s.regs := by
  rw [h.regs]
  cases k <;> rfl

theorem AfterOperand.armedBy (h : AfterOperand n b s p) (c : Bool) : p.armedBy c = s.armedBy c :=
  OnlyReads.armedBy h c

theorem AfterOperand.writable (h : AfterOperand n b s p) {ws : List (Word × Byte)} (hw : s.Writable ws) :
    p.Writable ws :=
  fun w hmem => (romFaults_congr h.cfg w.1).trans (hw w hmem)

/-- Writes that follow an operand's reading keep the storage they do not go to. -/
theorem AfterOperand.keepsStorage (h : AfterOperand n b s p) (ws : List (Word × Byte)) :
    KeepsStorage s (p.storeAll ws) ws := by
  intro a ha
  rw [← h.cfg] at ha
  exact (keepsStorage_storeAll p ws a ha).trans (h.peek a)

end Read

/-! ### N and Z of a result, V cleared (R15) -/

/-- The top bit is the sign. -/
theorem getLsbD_top_eq_neg {w : Nat} (r : BitVec (w + 1)) : r.getLsbD w = decide (r.toInt < 0) := by
  rw [← BitVec.msb_eq_toInt, BitVec.msb_eq_getLsbD_last, Nat.add_sub_cancel]

theorem logicFlags8_spec (r cc : Byte) : LogicFlags8 r cc (logicFlags8 r cc) := by
  refine ⟨?_, ?_, ?_, fun j hj => ?_⟩
  · exact (ccGet_logicFlags8 r cc .n).trans (getLsbD_top_eq_neg r)
  · exact ccGet_logicFlags8 r cc .z
  · exact ccGet_logicFlags8 r cc .v
  · simp only [List.mem_cons, List.not_mem_nil, or_false, not_or] at hj
    obtain ⟨hn, hz, hv⟩ := hj
    rw [ccGet_logicFlags8, if_neg hv, if_neg hz, if_neg hn]

theorem logicFlags16_spec (r : Word) (cc : Byte) : LogicFlags16 r cc (logicFlags16 r cc) := by
  refine ⟨?_, ?_, ?_, fun j hj => ?_⟩
  · exact (ccGet_logicFlags16 r cc .n).trans (getLsbD_top_eq_neg r)
  · exact ccGet_logicFlags16 r cc .z
  · exact ccGet_logicFlags16 r cc .v
  · simp only [List.mem_cons, List.not_mem_nil, or_false, not_or] at hj
    obtain ⟨hn, hz, hv⟩ := hj
    rw [ccGet_logicFlags16, if_neg hv, if_neg hz, if_neg hn]

/-! ### Loads (R170 to R176) -/

/-- The register written, then the flags of the operand. -/
theorem load8_eq (k : Acc) (src : Src8) (s : State) :
    load8 k src s =
      let p := operand8 src s
      { p.2 with regs := { k.row.put p.2.regs p.1 with cc := logicFlags8 p.1 p.2.regs.cc } } := by
  rw [load8, k.set_eq_row]
  rfl

theorem load16_eq (k : Reg16) (src : Src16) (s : State) :
    load16 k src s =
      let p := operand16 src s
      { p.2 with
        regs := { k.row.put p.2.regs p.1 with cc := logicFlags16 p.1 p.2.regs.cc }
        nmiArmed := p.2.armedBy (k == .s) } := by
  rw [load16, k.load_eq_row]
  rfl

/-- LDA and LDB are the 8-bit load, each into its row's accumulator. -/
theorem exec_load8 {op : Src8 → Instr} {row : Reg8Row} (h : (op, row) ∈ [(Instr.lda, rowA), (Instr.ldb, rowB)]) :
    ∃ k : Acc, row = k.row ∧ ∀ src s, exec (op src) s = .next (load8 k src (s.advance (op src).size)) := by
  simp only [List.mem_cons, Prod.mk.injEq, List.not_mem_nil, or_false] at h
  obtain ⟨rfl, rfl⟩ | ⟨rfl, rfl⟩ := h
  · exact ⟨.a, rfl, fun _ _ => rfl⟩
  · exact ⟨.b, rfl, fun _ _ => rfl⟩

/-- LDD, LDX, LDY, LDU and LDS are the 16-bit load, each into its row's register; S is the one that arms. -/
theorem exec_load16 {op : Src16 → Instr} {row : Reg16Row} {arms : Bool}
    (h : (op, row, arms) ∈ [(Instr.ldd, rowD, false), (Instr.ldx, rowX, false), (Instr.ldy, rowY, false),
      (Instr.ldu, rowU, false), (Instr.lds, rowS, true)]) :
    ∃ k : Reg16, row = k.row ∧ arms = (k == .s) ∧
      ∀ src s, exec (op src) s = .next (load16 k src (s.advance (op src).size)) := by
  simp only [List.mem_cons, Prod.mk.injEq, List.not_mem_nil, or_false] at h
  obtain ⟨rfl, rfl, rfl⟩ | ⟨rfl, rfl, rfl⟩ | ⟨rfl, rfl, rfl⟩ | ⟨rfl, rfl, rfl⟩ |
    ⟨rfl, rfl, rfl⟩ := h
  · exact ⟨.d, rfl, rfl, fun _ _ => rfl⟩
  · exact ⟨.x, rfl, rfl, fun _ _ => rfl⟩
  · exact ⟨.y, rfl, rfl, fun _ _ => rfl⟩
  · exact ⟨.u, rfl, rfl, fun _ _ => rfl⟩
  · exact ⟨.s, rfl, rfl, fun _ _ => rfl⟩

/-- Settles O31: reading the operand leaves CC, so the flags are computed on the old one. -/
theorem loadsOfAnAccumulator : Obligations.LoadsOfAnAccumulator := by
  intro op row hmem src s p
  obtain ⟨k, rfl, hexec⟩ := exec_load8 hmem
  have hp : AfterOperand (op src).size (src8Bump src) s p.2 := afterOperand_src8 src _ s
  refine ⟨logicFlags8 p.1 s.regs.cc, ?_, logicFlags8_spec _ _, hp, hp.peek⟩
  rw [hexec, load8_eq, ← hp.cc]

/-- Settles O32: as for O31, with the arming of the register loaded. -/
theorem loadsOfAWord : Obligations.LoadsOfAWord := by
  intro op row arms hmem src s p
  obtain ⟨k, rfl, rfl, hexec⟩ := exec_load16 hmem
  have hp : AfterOperand (op src).size (src16Bump src) s p.2 := afterOperand_src16 src _ s
  refine ⟨logicFlags16 p.1 s.regs.cc, ?_, logicFlags16_spec _ _, hp, hp.peek⟩
  have harmed : p.2.armedBy (k == .s) = (s.nmiArmed || ((k == .s) && s.cfg.nmiArmRequired)) := hp.armedBy _
  rw [hexec, load16_eq, ← hp.cc, ← harmed]

/-! ### Stores (R177 to R183) -/

/-- A byte stored where it takes a write: the flags, then the write. -/
theorem store8At_eq (k : Acc) (m : Mem) {s : State}
    (h : (effectiveAddress m s).2.romFaults (effectiveAddress m s).1 = false) :
    store8At k m s =
      let p := effectiveAddress m s
      let v := k.row.get p.2.regs
      .ok (State.store8 { p.2 with regs := { p.2.regs with cc := logicFlags8 v p.2.regs.cc } } p.1 v) := by
  rw [store8At, k.get_eq_row]
  refine write8_of_not_romFaults ?_ _
  exact h

/-- A word stored where both bytes take writes. -/
theorem store16At_eq (k : Reg16) (m : Mem) {s : State}
    (h : (effectiveAddress m s).2.romFaults (effectiveAddress m s).1 = false)
    (h' : (effectiveAddress m s).2.romFaults ((effectiveAddress m s).1 + 1) = false) :
    store16At k m s =
      let p := effectiveAddress m s
      let v := k.row.get p.2.regs
      .ok (State.storeAll { p.2 with regs := { p.2.regs with cc := logicFlags16 v p.2.regs.cc } }
        [(p.1, hiByte v), (p.1 + 1, loByte v)]) := by
  rw [store16At, k.get_eq_row]
  refine write16_of_writable ?_ ?_ _
  · exact h
  · exact h'

/-- STA and STB are the 8-bit store, each of its row's accumulator. -/
theorem exec_store8 {op : Mem → Instr} {row : Reg8Row} (h : (op, row) ∈ [(Instr.sta, rowA), (Instr.stb, rowB)]) :
    ∃ k : Acc, row = k.row ∧ ∀ m s, exec (op m) s = finish s (store8At k m (s.advance (op m).size)) := by
  simp only [List.mem_cons, Prod.mk.injEq, List.not_mem_nil, or_false] at h
  obtain ⟨rfl, rfl⟩ | ⟨rfl, rfl⟩ := h
  · exact ⟨.a, rfl, fun _ _ => rfl⟩
  · exact ⟨.b, rfl, fun _ _ => rfl⟩

/-- STD, STX, STY, STU and STS are the 16-bit store, each of its row's register. -/
theorem exec_store16 {op : Mem → Instr} {row : Reg16Row}
    (h : (op, row) ∈ [(Instr.std, rowD), (Instr.stx, rowX), (Instr.sty, rowY), (Instr.stu, rowU),
      (Instr.sts, rowS)]) :
    ∃ k : Reg16, row = k.row ∧ ∀ m s, exec (op m) s = finish s (store16At k m (s.advance (op m).size)) := by
  simp only [List.mem_cons, Prod.mk.injEq, List.not_mem_nil, or_false] at h
  obtain ⟨rfl, rfl⟩ | ⟨rfl, rfl⟩ | ⟨rfl, rfl⟩ | ⟨rfl, rfl⟩ | ⟨rfl, rfl⟩ := h
  · exact ⟨.d, rfl, fun _ _ => rfl⟩
  · exact ⟨.x, rfl, fun _ _ => rfl⟩
  · exact ⟨.y, rfl, fun _ _ => rfl⟩
  · exact ⟨.u, rfl, fun _ _ => rfl⟩
  · exact ⟨.s, rfl, fun _ _ => rfl⟩

/-- Settles O33: the address computation leaves the accumulator and CC, so the byte stored and its flags are those of
the instruction's start. -/
theorem storesOfAnAccumulator : Obligations.StoresOfAnAccumulator := by
  intro op row hmem m s p v hw
  obtain ⟨k, rfl, hexec⟩ := exec_store8 hmem
  have hp : AfterOperand (op m).size (memBump m) s p.2 := afterOperand_mem m _ s
  have hv : k.row.get p.2.regs = v := hp.acc k
  have hwritable : p.2.romFaults p.1 = false := hp.writable hw _ List.mem_cons_self
  refine ⟨logicFlags8 v s.regs.cc, ?_, logicFlags8_spec _ _, hp, hp.keepsStorage [(p.1, v)]⟩
  rw [hexec, store8At_eq k m hwritable, finish_ok, ← hp.cc, ← hv]

/-- Settles O34: both bytes are those of the register after the address computation (R158). -/
theorem storesOfAWord : Obligations.StoresOfAWord := by
  intro op row hmem m s p v ws hw
  obtain ⟨k, rfl, hexec⟩ := exec_store16 hmem
  have hp : AfterOperand (op m).size (memBump m) s p.2 := afterOperand_mem m _ s
  have hhigh : p.2.romFaults p.1 = false := hp.writable hw _ List.mem_cons_self
  have hlow : p.2.romFaults (p.1 + 1) = false := hp.writable hw _ (List.mem_cons_of_mem _ List.mem_cons_self)
  refine ⟨logicFlags16 v s.regs.cc, ?_, logicFlags16_spec _ _, hp, hp.keepsStorage ws⟩
  rw [hexec, store16At_eq k m hhigh hlow, finish_ok, ← hp.cc]
  rfl

/-! ### LEA (R184 to R187) -/

/-- CC after LEA: Z of the address for LEAX and LEAY, unchanged for LEAU and LEAS. -/
def leaFlags (setsZ : Bool) (ea : Word) (cc : Byte) : Byte := if setsZ then ccSet cc .z (ea == 0) else cc

theorem leaFlags_true (ea : Word) (cc : Byte) :
    ccGet (leaFlags true ea cc) .z = decide (ea = 0) ∧ OnlyFlags [.z] cc (leaFlags true ea cc) := by
  refine ⟨ccGet_ccSet cc .z .z _, fun j hj => ?_⟩
  exact (ccGet_ccSet cc .z j _).trans (if_neg (List.mem_singleton.not.1 hj))

theorem loadAddress_eq (k : Reg16) (x : Indexed) (s : State) :
    loadAddress k x s =
      let p := indexedAddress x s
      { p.2 with
        regs := { k.row.put p.2.regs p.1 with cc := leaFlags false p.1 p.2.regs.cc }
        nmiArmed := p.2.armedBy (k == .s) } := by
  rw [loadAddress, k.load_eq_row]
  cases k <;> rfl

theorem loadAddressZ_eq (k : Reg16) (x : Indexed) (s : State) :
    loadAddressZ k x s =
      let p := indexedAddress x s
      { p.2 with
        regs := { k.row.put p.2.regs p.1 with cc := leaFlags true p.1 p.2.regs.cc }
        nmiArmed := p.2.armedBy (k == .s) } := by
  rw [loadAddressZ, loadAddress, k.get_load, State.setFlag, k.load_cc, k.load_eq_row]
  rfl

/-- LEAX, LEAY, LEAU and LEAS load their row's register with the address and set the flags of `leaFlags`; S is the one
that arms. -/
theorem exec_lea {op : Indexed → Instr} {row : Reg16Row} {setsZ arms : Bool}
    (h : (op, row, setsZ, arms) ∈ [(Instr.leax, rowX, true, false), (Instr.leay, rowY, true, false),
      (Instr.leau, rowU, false, false), (Instr.leas, rowS, false, true)]) (x : Indexed) (s : State) :
    exec (op x) s =
      let p := indexedAddress x (s.advance (op x).size)
      .next { p.2 with
        regs := { row.put p.2.regs p.1 with cc := leaFlags setsZ p.1 p.2.regs.cc }
        nmiArmed := p.2.armedBy arms } := by
  simp only [List.mem_cons, Prod.mk.injEq, List.not_mem_nil, or_false] at h
  obtain ⟨rfl, rfl, rfl, rfl⟩ | ⟨rfl, rfl, rfl, rfl⟩ | ⟨rfl, rfl, rfl, rfl⟩ | ⟨rfl, rfl, rfl, rfl⟩ := h
  · exact congrArg Host.Outcome.next (loadAddressZ_eq .x x _)
  · exact congrArg Host.Outcome.next (loadAddressZ_eq .y x _)
  · exact congrArg Host.Outcome.next (loadAddress_eq .u x _)
  · exact congrArg Host.Outcome.next (loadAddress_eq .s x _)

/-- Settles O35: the address computation leaves CC and the arming, and nothing is read after it. -/
theorem loadsOfAnEffectiveAddress : Obligations.LoadsOfAnEffectiveAddress := by
  intro op row setsZ arms hmem x s p
  have hp : AfterOperand (op x).size (indexedBump x) s p.2 := afterOperand_indexed x _ s
  have harmed : p.2.armedBy arms = (s.nmiArmed || (arms && s.cfg.nmiArmRequired)) := hp.armedBy _
  refine ⟨leaFlags setsZ p.1 s.regs.cc, ?_, ?_, ?_, hp, hp.peek⟩
  · rw [exec_lea hmem, ← hp.cc, ← harmed]
  · rintro rfl
    exact leaFlags_true _ _
  · rintro rfl
    rfl

end Sys2Proof.Machine
end

section
/-! PROOF. 8-bit arithmetic and logic, DAA, MUL, SEX and ABX (spec/42_alu8.md R200 to R223, 43_alu16.md R249): the flags
of a sum and of a difference as facts on numbers, then each group of instructions from the equation of its shared
operation. -/

namespace Sys2Proof.Machine

open Sys2Proof.Claims

/-! ### Carries and signed overflow, at any width (R37 to R40) -/

/-- A number in the range of two words is congruent to one in the range of one word, so the sign of its low word says
whether it left that range. -/
theorem toInt_ofInt_neg_iff {w : Nat} {t : Int} (hlo : -2 ^ (w + 1) ≤ t) (hhi : t < 2 ^ (w + 1)) :
    (BitVec.ofInt (w + 1) t).toInt < 0 ↔ (-2 ^ w ≤ t ∧ t < 0) ∨ 2 ^ w ≤ t := by
  have hcast : ((2 ^ (w + 1) : Nat) : Int) = 2 ^ (w + 1) := Nat.cast_pow 2 (w + 1)
  have hself {u : Int} (h : -2 ^ w ≤ u) (h' : u < 2 ^ w) : u.bmod (2 ^ (w + 1)) = u :=
    Int.bmod_eq_of_le_mul_two (by rw [hcast]; omega) (by rw [hcast]; omega)
  rw [BitVec.toInt_ofInt]
  obtain hbelow | hin | habove : t < -2 ^ w ∨ (-2 ^ w ≤ t ∧ t < 2 ^ w) ∨ 2 ^ w ≤ t := by omega
  · rw [← Int.add_bmod_right, hcast, hself (by omega) (by omega)]
    omega
  · rw [hself hin.1 hin.2]
    omega
  · rw [← Int.sub_bmod_right, hcast, hself (by omega) (by omega)]
    omega

section Word

variable {w : Nat} (x y : BitVec (w + 1)) (c : Bool)

/-- The sum of the numbers and the sum of the signed values have the same low word. -/
theorem ofNat_sum_eq_ofInt :
    BitVec.ofNat (w + 1) (x.toNat + y.toNat + c.toNat) = BitVec.ofInt (w + 1) (x.toInt + y.toInt + c.toNat) := by
  simp only [BitVec.ofNat_add, BitVec.ofNat_toNat, BitVec.setWidth_eq, BitVec.ofInt_add, BitVec.ofInt_toInt,
    BitVec.ofInt_natCast]

/-- The same of the difference with a borrow. -/
theorem ofInt_difference_eq :
    BitVec.ofInt (w + 1) ((x.toNat : Int) - y.toNat - c.toNat) =
      BitVec.ofInt (w + 1) (x.toInt - y.toInt - c.toNat) := by
  simp only [Int.sub_eq_add_neg, BitVec.ofInt_add, BitVec.ofInt_neg, BitVec.ofInt_toInt, BitVec.ofInt_natCast,
    BitVec.ofNat_toNat, BitVec.setWidth_eq]

/-- V of a sum: operands of one sign and a result of the other. -/
theorem overflow_sum {r : BitVec (w + 1)} (hr : r = BitVec.ofNat (w + 1) (x.toNat + y.toNat + c.toNat)) :
    ((x ^^^ r) &&& (y ^^^ r)).getLsbD w =
      decide (x.toInt + y.toInt + c.toNat < -2 ^ w ∨ 2 ^ w ≤ x.toInt + y.toInt + c.toNat) := by
  have hx := And.intro (BitVec.le_toInt x) (BitVec.toInt_lt (x := x))
  have hy := And.intro (BitVec.le_toInt y) (BitVec.toInt_lt (x := y))
  have hc := Bool.toNat_le c
  rw [Nat.add_sub_cancel] at hx hy
  have hsign := toInt_ofInt_neg_iff (w := w) (t := x.toInt + y.toInt + c.toNat) (by omega) (by omega)
  rw [← ofNat_sum_eq_ofInt, ← hr] at hsign
  rw [BitVec.getLsbD_and, BitVec.getLsbD_xor, BitVec.getLsbD_xor, Bool.eq_iff_iff]
  simp only [getLsbD_top_eq_neg, Bool.and_eq_true, bne_iff_ne, ne_eq, decide_eq_decide, decide_eq_true_eq, hsign]
  omega

/-- V of a difference: operands of different signs and a result of the subtrahend's. -/
theorem overflow_difference {r : BitVec (w + 1)}
    (hr : r = BitVec.ofInt (w + 1) ((x.toNat : Int) - y.toNat - c.toNat)) :
    ((x ^^^ y) &&& (x ^^^ r)).getLsbD w =
      decide (x.toInt - y.toInt - c.toNat < -2 ^ w ∨ 2 ^ w ≤ x.toInt - y.toInt - c.toNat) := by
  have hx := And.intro (BitVec.le_toInt x) (BitVec.toInt_lt (x := x))
  have hy := And.intro (BitVec.le_toInt y) (BitVec.toInt_lt (x := y))
  have hc := Bool.toNat_le c
  rw [Nat.add_sub_cancel] at hx hy
  have hsign := toInt_ofInt_neg_iff (w := w) (t := x.toInt - y.toInt - c.toNat) (by omega) (by omega)
  rw [← ofInt_difference_eq, ← hr] at hsign
  rw [BitVec.getLsbD_and, BitVec.getLsbD_xor, BitVec.getLsbD_xor, Bool.eq_iff_iff]
  simp only [getLsbD_top_eq_neg, Bool.and_eq_true, bne_iff_ne, ne_eq, decide_eq_decide, decide_eq_true_eq, hsign]
  omega

/-- A bit of a sum differs from the operands' bits by the carry into it. -/
theorem carry_sum {r : BitVec (w + 1)} (hr : r = BitVec.ofNat (w + 1) (x.toNat + y.toNat + c.toNat)) {i : Nat}
    (hi : i < w + 1) : (x ^^^ y ^^^ r).getLsbD i = decide (2 ^ i ≤ x.toNat % 2 ^ i + y.toNat % 2 ^ i + c.toNat) := by
  have hsum : r = x + y + BitVec.setWidth (w + 1) (BitVec.ofBool c) := by
    rw [hr, BitVec.ofNat_add, BitVec.ofNat_add]
    cases c <;> simp
  rw [hsum, BitVec.getLsbD_xor, BitVec.getLsbD_xor, BitVec.getLsbD_add_add_bool hi, BitVec.carry]
  cases x.getLsbD i <;> cases y.getLsbD i <;> simp

end Word

/-! ### The flags of 8-bit sums and differences (R200, R201) -/

theorem ccGet_add8 (x y : Byte) (c : Bool) (cc : Byte) (j : Flag) :
    ccGet (add8 x y c cc).2 j =
      let r := (add8 x y c cc).1
      if j = .c then decide (256 ≤ x.toNat + y.toNat + c.toNat)
      else if j = .v then ((x ^^^ r) &&& (y ^^^ r)).getLsbD 7
      else if j = .z then r == 0
      else if j = .n then r.getLsbD 7
      else if j = .h then (x ^^^ y ^^^ r).getLsbD 4
      else ccGet cc j := by
  simp only [add8, ccGet_ccSet, ccGet_setNZ8]

theorem ccGet_sub8 (opcode : BitVec 16) (x y : Byte) (b : Bool) (cc : Byte) (j : Flag) :
    ccGet (sub8 opcode x y b cc).2 j =
      let r := (sub8 opcode x y b cc).1
      if j = .h then Config.undefFlag opcode [x, y, flagByte b] .h
      else if j = .c then decide (x.toNat < y.toNat + b.toNat)
      else if j = .v then ((x ^^^ y) &&& (x ^^^ r)).getLsbD 7
      else if j = .z then r == 0
      else if j = .n then r.getLsbD 7
      else ccGet cc j := by
  simp only [sub8, ccGet_setUndef, ccGet_ccSet, ccGet_setNZ8]

theorem toNat_add8 (x y : Byte) (c : Bool) (cc : Byte) :
    (add8 x y c cc).1.toNat = (x.toNat + y.toNat + c.toNat) % 256 :=
  BitVec.toNat_ofNat _ 8

theorem toNat_sub8 (opcode : BitVec 16) (x y : Byte) (b : Bool) (cc : Byte) :
    ((sub8 opcode x y b cc).1.toNat : Int) = ((x.toNat : Int) - y.toNat - b.toNat) % 256 := by
  rw [sub8, BitVec.toNat_ofInt]
  exact Int.toNat_of_nonneg (Int.emod_nonneg _ (by decide))

theorem add8_flags (x y : Byte) (c : Bool) (cc : Byte) : AddFlags8 x y c (add8 x y c cc).1 cc (add8 x y c cc).2 := by
  refine ⟨ccGet_add8 x y c cc .c, ?_, ?_, ?_, ccGet_add8 x y c cc .z, fun j hj => ?_⟩
  · exact (ccGet_add8 x y c cc .v).trans (overflow_sum x y c rfl)
  · exact (ccGet_add8 x y c cc .h).trans (carry_sum x y c rfl (by decide))
  · exact (ccGet_add8 x y c cc .n).trans (getLsbD_top_eq_neg _)
  · simp only [List.mem_cons, List.not_mem_nil, or_false, not_or] at hj
    obtain ⟨hc, hv, hh, hn, hz⟩ := hj
    rw [ccGet_add8, if_neg hc, if_neg hv, if_neg hz, if_neg hn, if_neg hh]

theorem sub8_flags (opcode : BitVec 16) (x y : Byte) (b : Bool) (cc : Byte) :
    SubFlags8 x y b (sub8 opcode x y b cc).1 cc (sub8 opcode x y b cc).2 := by
  refine ⟨ccGet_sub8 opcode x y b cc .c, ?_, ?_, ccGet_sub8 opcode x y b cc .z, fun j hj => ?_⟩
  · exact (ccGet_sub8 opcode x y b cc .v).trans (overflow_difference x y b rfl)
  · exact (ccGet_sub8 opcode x y b cc .n).trans (getLsbD_top_eq_neg _)
  · simp only [List.mem_cons, List.not_mem_nil, or_false, not_or] at hj
    obtain ⟨hc, hv, hh, hn, hz⟩ := hj
    rw [ccGet_sub8, if_neg hh, if_neg hc, if_neg hv, if_neg hz, if_neg hn]

/-! ### An accumulator and an operand (R203 to R220) -/

/-- An operation on an accumulator, its operand and CC, whose result is kept or, in a compare or bit test, not. -/
def accumulate (keeps : Bool) (k : Acc) (op : Byte → Byte → Byte → Byte × Byte) (src : Src8) (s : State) : State :=
  if keeps then test8 k op src s else alu8 k op src s

theorem accumulate_eq (keeps : Bool) (k : Acc) (op : Byte → Byte → Byte → Byte × Byte) (src : Src8) (s : State) :
    accumulate keeps k op src s =
      let p := operand8 src s
      let r := op (k.row.get p.2.regs) p.1 p.2.regs.cc
      { p.2 with regs := { (if keeps then p.2.regs else k.row.put p.2.regs r.1) with cc := r.2 } } := by
  cases keeps
  · rw [accumulate, if_neg Bool.false_ne_true, alu8, k.get_eq_row, k.set_eq_row]
    rfl
  · rw [accumulate, if_pos rfl, test8, k.get_eq_row]
    rfl

/-- Reading the operand leaves the accumulator and CC, so the operation works on those of the instruction's start. -/
theorem accumulate_advance (keeps : Bool) (k : Acc) (op : Byte → Byte → Byte → Byte × Byte) (src : Src8) (n : Nat)
    (s : State) :
    accumulate keeps k op src (s.advance n) =
      let p := operand8 src (s.advance n)
      let r := op (k.row.get s.regs) p.1 s.regs.cc
      { p.2 with regs := { (if keeps then p.2.regs else k.row.put p.2.regs r.1) with cc := r.2 } } := by
  have hp : AfterOperand n (src8Bump src) s (operand8 src (s.advance n)).2 := afterOperand_src8 src n s
  simp only [accumulate_eq, hp.cc, hp.acc]

/-- ADDA, ADDB, ADCA and ADCB are `add8` with no carry or the old C, each on its row's accumulator. -/
theorem exec_addition {op : Src8 → Instr} {row : Reg8Row} {withC : Bool}
    (h : (op, row, withC) ∈ [(Instr.adda, rowA, false), (Instr.addb, rowB, false), (Instr.adca, rowA, true),
      (Instr.adcb, rowB, true)]) :
    ∃ k : Acc, row = k.row ∧ ∀ src s, exec (op src) s =
      .next (accumulate false k (fun x y cc => add8 x y (withC && ccGet cc .c) cc) src (s.advance (op src).size)) := by
  simp only [List.mem_cons, Prod.mk.injEq, List.not_mem_nil, or_false] at h
  obtain ⟨rfl, rfl, rfl⟩ | ⟨rfl, rfl, rfl⟩ | ⟨rfl, rfl, rfl⟩ | ⟨rfl, rfl, rfl⟩ := h
  · exact ⟨.a, rfl, fun _ _ => rfl⟩
  · exact ⟨.b, rfl, fun _ _ => rfl⟩
  · exact ⟨.a, rfl, fun _ _ => rfl⟩
  · exact ⟨.b, rfl, fun _ _ => rfl⟩

/-- SUB, SBC and CMP are `sub8` with no borrow or the old C, each on its row's accumulator. -/
theorem exec_subtraction {op : Src8 → Instr} {row : Reg8Row} {withC keeps : Bool}
    (h : (op, row, withC, keeps) ∈ [(Instr.suba, rowA, false, false), (Instr.subb, rowB, false, false),
      (Instr.sbca, rowA, true, false), (Instr.sbcb, rowB, true, false), (Instr.cmpa, rowA, false, true),
      (Instr.cmpb, rowB, false, true)]) :
    ∃ k : Acc, row = k.row ∧ ∀ src s, exec (op src) s =
      .next (accumulate keeps k (fun x y cc => sub8 (op src).opcode x y (withC && ccGet cc .c) cc) src
        (s.advance (op src).size)) := by
  simp only [List.mem_cons, Prod.mk.injEq, List.not_mem_nil, or_false] at h
  obtain ⟨rfl, rfl, rfl, rfl⟩ | ⟨rfl, rfl, rfl, rfl⟩ | ⟨rfl, rfl, rfl, rfl⟩ | ⟨rfl, rfl, rfl, rfl⟩ |
    ⟨rfl, rfl, rfl, rfl⟩ | ⟨rfl, rfl, rfl, rfl⟩ := h
  · exact ⟨.a, rfl, fun _ _ => rfl⟩
  · exact ⟨.b, rfl, fun _ _ => rfl⟩
  · exact ⟨.a, rfl, fun _ _ => rfl⟩
  · exact ⟨.b, rfl, fun _ _ => rfl⟩
  · exact ⟨.a, rfl, fun _ _ => rfl⟩
  · exact ⟨.b, rfl, fun _ _ => rfl⟩

/-- g is f on each pair of bits. -/
def Bitwise (f : Bool → Bool → Bool) (g : Byte → Byte → Byte) : Prop :=
  ∀ x y i, (g x y).getLsbD i = f (x.getLsbD i) (y.getLsbD i)

theorem bitwise_and : Bitwise Bool.and (· &&& ·) := fun _ _ _ => BitVec.getLsbD_and
theorem bitwise_or : Bitwise Bool.or (· ||| ·) := fun _ _ _ => BitVec.getLsbD_or
theorem bitwise_xor : Bitwise Bool.xor (· ^^^ ·) := fun _ _ _ => BitVec.getLsbD_xor

/-- AND, BIT, OR and EOR are bitwise operations with the flags of `logicFlags8`, each on its row's accumulator. -/
theorem exec_logic {op : Src8 → Instr} {row : Reg8Row} {f : Bool → Bool → Bool} {keeps : Bool}
    (h : (op, row, f, keeps) ∈ [(Instr.anda, rowA, Bool.and, false), (Instr.andb, rowB, Bool.and, false),
      (Instr.bita, rowA, Bool.and, true), (Instr.bitb, rowB, Bool.and, true), (Instr.ora, rowA, Bool.or, false),
      (Instr.orb, rowB, Bool.or, false), (Instr.eora, rowA, Bool.xor, false), (Instr.eorb, rowB, Bool.xor, false)]) :
    ∃ (k : Acc) (g : Byte → Byte → Byte), row = k.row ∧ Bitwise f g ∧ ∀ src s, exec (op src) s =
      .next (accumulate keeps k (fun x y cc => (g x y, logicFlags8 (g x y) cc)) src (s.advance (op src).size)) := by
  simp only [List.mem_cons, Prod.mk.injEq, List.not_mem_nil, or_false] at h
  obtain ⟨rfl, rfl, rfl, rfl⟩ | ⟨rfl, rfl, rfl, rfl⟩ | ⟨rfl, rfl, rfl, rfl⟩ | ⟨rfl, rfl, rfl, rfl⟩ |
    ⟨rfl, rfl, rfl, rfl⟩ | ⟨rfl, rfl, rfl, rfl⟩ | ⟨rfl, rfl, rfl, rfl⟩ | ⟨rfl, rfl, rfl, rfl⟩ := h
  · exact ⟨.a, _, rfl, bitwise_and, fun _ _ => rfl⟩
  · exact ⟨.b, _, rfl, bitwise_and, fun _ _ => rfl⟩
  · exact ⟨.a, _, rfl, bitwise_and, fun _ _ => rfl⟩
  · exact ⟨.b, _, rfl, bitwise_and, fun _ _ => rfl⟩
  · exact ⟨.a, _, rfl, bitwise_or, fun _ _ => rfl⟩
  · exact ⟨.b, _, rfl, bitwise_or, fun _ _ => rfl⟩
  · exact ⟨.a, _, rfl, bitwise_xor, fun _ _ => rfl⟩
  · exact ⟨.b, _, rfl, bitwise_xor, fun _ _ => rfl⟩

/-- Settles O36: the sum and its flags are those of `add8` on the accumulator and C of the instruction's start. -/
theorem eightBitAdditions : Obligations.EightBitAdditions := by
  intro op row withC hmem src s p x c
  obtain ⟨k, rfl, hexec⟩ := exec_addition hmem
  have hp : AfterOperand (op src).size (src8Bump src) s p.2 := afterOperand_src8 src _ s
  refine ⟨(add8 x p.1 c s.regs.cc).1, (add8 x p.1 c s.regs.cc).2, ?_, toNat_add8 .., add8_flags .., hp, hp.peek⟩
  rw [hexec, accumulate_advance]
  rfl

/-- Settles O37: the same with `sub8`; a compare discards its result. -/
theorem eightBitSubtractions : Obligations.EightBitSubtractions := by
  intro op row withC keeps hmem src s p x c
  obtain ⟨k, rfl, hexec⟩ := exec_subtraction hmem
  have hp : AfterOperand (op src).size (src8Bump src) s p.2 := afterOperand_src8 src _ s
  refine ⟨(sub8 (op src).opcode x p.1 c s.regs.cc).1, (sub8 (op src).opcode x p.1 c s.regs.cc).2, ?_, toNat_sub8 ..,
    sub8_flags .., hp, hp.peek⟩
  rw [hexec, accumulate_advance]

/-- Settles O38: the same with a bitwise operation. -/
theorem logicInstructions : Obligations.LogicInstructions := by
  intro op row f keeps hmem src s p
  obtain ⟨k, g, rfl, hbits, hexec⟩ := exec_logic hmem
  have hp : AfterOperand (op src).size (src8Bump src) s p.2 := afterOperand_src8 src _ s
  refine ⟨g (k.row.get s.regs) p.1, logicFlags8 (g (k.row.get s.regs) p.1) s.regs.cc, ?_,
    fun i _ => hbits _ _ i, logicFlags8_spec _ _, hp, hp.peek⟩
  rw [hexec, accumulate_advance]

/-! ### DAA (R221) -/

namespace Daa

/-- The correction from the two digits of A as numbers. -/
theorem daaCorrection_eq (a cc : Byte) :
    daaCorrection a cc =
      (if ccGet cc .h = true ∨ 9 < a.toNat % 16 then 0x06 else 0) +
      (if ccGet cc .c = true ∨ 9 < a.toNat / 16 ∨ (8 < a.toNat / 16 ∧ 9 < a.toNat % 16) then 0x60 else 0) := by
  have hlow : (a.extractLsb' 0 4).toNat = a.toNat % 16 := BitVec.extractLsb'_toNat 0 4 a
  have hhigh : (a.extractLsb' 4 4).toNat = a.toNat / 16 := by
    rw [BitVec.extractLsb'_toNat, Nat.shiftRight_eq_div_pow]
    have := a.isLt
    omega
  simp only [daaCorrection, hlow, hhigh, Bool.or_eq_true, Bool.and_eq_true, decide_eq_true_eq, gt_iff_lt, or_assoc]

theorem ccGet_daa8 (opcode : BitVec 16) (a cc : Byte) (j : Flag) :
    ccGet (daa8 opcode a cc).2 j =
      if j = .v then Config.undefFlag opcode [a, flagByte (ccGet cc .h), flagByte (ccGet cc .c)] .v
      else if j = .c then ccGet cc .c || decide (256 ≤ a.toNat + daaCorrection a cc)
      else if j = .z then (daa8 opcode a cc).1 == 0
      else if j = .n then (daa8 opcode a cc).1.getLsbD 7
      else ccGet cc j := by
  simp only [daa8, ccGet_setUndef, ccGet_ccSet, ccGet_setNZ8]

theorem exec_daa (s : State) :
    exec .daa s = .next { s with regs := { s.regs with
      a := (daa8 Instr.daa.opcode s.regs.a s.regs.cc).1
      cc := (daa8 Instr.daa.opcode s.regs.a s.regs.cc).2
      pc := s.regs.pc + 1 } } := rfl

/-- Settles O39: each combination of the two corrections, then the flags of `daa8`. -/
theorem decimalAdjust : Obligations.DecimalAdjust := by
  intro s lsn msn low high
  have hcorrection : daaCorrection s.regs.a s.regs.cc = (if low then 0x06 else 0) + (if high then 0x60 else 0) :=
    daaCorrection_eq _ _
  refine ⟨_, _, s.regs.a.toNat + daaCorrection s.regs.a s.regs.cc, ⟨fun hl hh => ?_, fun hl hh => ?_,
    fun hl hh => ?_, fun hl hh => ?_⟩, exec_daa s, BitVec.toNat_ofNat _ 8, ?_, ccGet_daa8 _ _ _ .z, ccGet_daa8 _ _ _ .c,
    fun j hj => ?_⟩
  · rw [hcorrection, if_pos hl, if_pos hh]
  · rw [hcorrection, if_pos hl, if_neg hh]
  · rw [hcorrection, if_neg hl, if_pos hh]
  · rw [hcorrection, if_neg hl, if_neg hh, Nat.add_zero]
  · exact (ccGet_daa8 _ _ _ .n).trans (getLsbD_top_eq_neg _)
  · simp only [List.mem_cons, List.not_mem_nil, or_false, not_or] at hj
    obtain ⟨hn, hz, hc, hv⟩ := hj
    rw [ccGet_daa8, if_neg hv, if_neg hc, if_neg hz, if_neg hn]

end Daa

/-! ### MUL, SEX and ABX (R222, R223, R249) -/

theorem toNat_mul8 (a b cc : Byte) : (mul8 a b cc).1.toNat = a.toNat * b.toNat := by
  have hfits : a.toNat * b.toNat < 2 ^ 8 * 2 ^ 8 := Nat.mul_lt_mul'' a.isLt b.isLt
  exact (BitVec.toNat_ofNat _ 16).trans (Nat.mod_eq_of_lt hfits)

theorem ccGet_mul8 (a b cc : Byte) (j : Flag) :
    ccGet (mul8 a b cc).2 j =
      if j = .c then (mul8 a b cc).1.getLsbD 7 else if j = .z then (mul8 a b cc).1 == 0 else ccGet cc j := by
  simp only [mul8, ccGet_ccSet]

theorem exec_mul (s : State) :
    exec .mul s = .next { s with regs := { rowD.put s.regs (mul8 s.regs.a s.regs.b s.regs.cc).1 with
      cc := (mul8 s.regs.a s.regs.b s.regs.cc).2, pc := s.regs.pc + 1 } } := rfl

theorem toInt_sext8 (b : Byte) : (sext8 b).toInt = b.toInt := BitVec.toInt_signExtend_of_le (by decide)

theorem sext8_eq_zero_iff (b : Byte) : sext8 b = 0 ↔ b = 0 := by
  rw [← BitVec.toInt_inj, toInt_sext8, ← BitVec.toInt_inj]
  rfl

/-- Copies of B's sign bit in front of B make the signed word of B. -/
theorem wordOf_sign (b : Byte) : wordOf (if b.getLsbD 7 then 0xFF#8 else 0x00#8) b = sext8 b :=
  (BitVec.signExtend_eq_append_of_le (x := b) (v := 16) (by decide)).symm

/-- Writing the signed word of B to D changes A alone. -/
theorem rowD_put_sext8 (g : Regs) :
    rowD.put g (sext8 g.b) = { g with a := if g.b.getLsbD 7 then 0xFF#8 else 0x00#8 } := by
  rw [← wordOf_sign]
  simp only [rowD, wordOf, BitVec.extractLsb'_append_eq_left, BitVec.extractLsb'_append_eq_right]

theorem exec_sex (s : State) :
    exec .sex s = .next { s with regs := { rowD.put s.regs (sext8 s.regs.b) with
      cc := setNZ16 (sext8 s.regs.b) s.regs.cc, pc := s.regs.pc + 1 } } := by
  rw [rowD_put_sext8, ← wordOf_sign]
  rfl

theorem toNat_zext8 (b : Byte) : (zext8 b).toNat = b.toNat := BitVec.toNat_setWidth_of_le (by decide)

/-- Settles O40: the product fits in 16 bits, the sign extension keeps the signed value, and ABX adds modulo 2^16. -/
theorem multiplySignExtendAndAddB : Obligations.MultiplySignExtendAndAddB := by
  intro s
  refine ⟨⟨_, _, exec_mul s, toNat_mul8 .., ccGet_mul8 _ _ _ .z, ?_, fun j hj => ?_⟩,
    ⟨_, _, exec_sex s, toInt_sext8 _, ?_, ?_, fun j hj => ?_⟩, ⟨s.regs.x + zext8 s.regs.b, rfl, ?_⟩⟩
  · rw [ccGet_mul8, if_pos rfl, BitVec.getLsbD, Nat.testBit_eq_decide_div_mod_eq, toNat_mul8]
  · simp only [List.mem_cons, List.not_mem_nil, or_false, not_or] at hj
    obtain ⟨hz, hc⟩ := hj
    rw [ccGet_mul8, if_neg hc, if_neg hz]
  · rw [← toInt_sext8]
    exact (ccGet_setNZ16 _ _ .n).trans (getLsbD_top_eq_neg _)
  · exact (ccGet_setNZ16 _ _ .z).trans (decide_eq_decide.2 (sext8_eq_zero_iff _))
  · simp only [List.mem_cons, List.not_mem_nil, or_false, not_or] at hj
    obtain ⟨hn, hz⟩ := hj
    rw [ccGet_setNZ16, if_neg hz, if_neg hn]
  · rw [BitVec.toNat_add, toNat_zext8]

end Sys2Proof.Machine
end

section
/-! PROOF. 16-bit arithmetic (spec/43_alu16.md R240 to R248): the flags of a 16-bit sum and difference as facts on
numbers, then ADDD, SUBD and the compares as one operation on the row of their register. -/

namespace Sys2Proof.Machine

open Sys2Proof.Claims

/-! ### The flags of 16-bit sums and differences (R240, R241) -/

theorem ccGet_add16 (x y : Word) (cc : Byte) (j : Flag) :
    ccGet (add16 x y cc).2 j =
      let r := (add16 x y cc).1
      if j = .c then decide (65536 ≤ x.toNat + y.toNat)
      else if j = .v then ((x ^^^ r) &&& (y ^^^ r)).getLsbD 15
      else if j = .z then r == 0
      else if j = .n then r.getLsbD 15
      else ccGet cc j := by
  simp only [add16, ccGet_ccSet, ccGet_setNZ16]

theorem ccGet_sub16 (x y : Word) (cc : Byte) (j : Flag) :
    ccGet (sub16 x y cc).2 j =
      let r := (sub16 x y cc).1
      if j = .c then decide (x.toNat < y.toNat)
      else if j = .v then ((x ^^^ y) &&& (x ^^^ r)).getLsbD 15
      else if j = .z then r == 0
      else if j = .n then r.getLsbD 15
      else ccGet cc j := by
  simp only [sub16, ccGet_ccSet, ccGet_setNZ16]

theorem toNat_add16 (x y : Word) (cc : Byte) : (add16 x y cc).1.toNat = (x.toNat + y.toNat) % 65536 :=
  BitVec.toNat_ofNat _ 16

theorem toNat_sub16 (x y : Word) (cc : Byte) :
    ((sub16 x y cc).1.toNat : Int) = ((x.toNat : Int) - y.toNat) % 65536 := by
  rw [sub16, BitVec.toNat_ofInt]
  exact Int.toNat_of_nonneg (Int.emod_nonneg _ (by decide))

/-- V of a sum with no carry in. -/
theorem add16_overflow (x y : Word) (cc : Byte) :
    ccGet (add16 x y cc).2 .v = decide (x.toInt + y.toInt < -32768 ∨ 32767 < x.toInt + y.toInt) := by
  have hv := overflow_sum x y false (r := (add16 x y cc).1) rfl
  rw [Bool.toNat_false, Nat.cast_zero, add_zero] at hv
  exact (ccGet_add16 x y cc .v).trans hv

/-- V of a difference with no borrow in. -/
theorem sub16_overflow (x y : Word) (cc : Byte) :
    ccGet (sub16 x y cc).2 .v = decide (x.toInt - y.toInt < -32768 ∨ 32767 < x.toInt - y.toInt) := by
  have hr : (sub16 x y cc).1 = BitVec.ofInt 16 ((x.toNat : Int) - y.toNat - false.toNat) := by
    rw [Bool.toNat_false, Nat.cast_zero, sub_zero, sub16]
  have hv := overflow_difference x y false hr
  rw [Bool.toNat_false, Nat.cast_zero, sub_zero] at hv
  exact (ccGet_sub16 x y cc .v).trans hv

theorem add16_flags (x y : Word) (cc : Byte) : AddFlags16 x y (add16 x y cc).1 cc (add16 x y cc).2 := by
  refine ⟨ccGet_add16 x y cc .c, add16_overflow x y cc, ?_, ccGet_add16 x y cc .z, fun j hj => ?_⟩
  · exact (ccGet_add16 x y cc .n).trans (getLsbD_top_eq_neg _)
  · simp only [List.mem_cons, List.not_mem_nil, or_false, not_or] at hj
    obtain ⟨hc, hv, hn, hz⟩ := hj
    rw [ccGet_add16, if_neg hc, if_neg hv, if_neg hz, if_neg hn]

theorem sub16_flags (x y : Word) (cc : Byte) : SubFlags16 x y (sub16 x y cc).1 cc (sub16 x y cc).2 := by
  refine ⟨ccGet_sub16 x y cc .c, sub16_overflow x y cc, ?_, ccGet_sub16 x y cc .z, fun j hj => ?_⟩
  · exact (ccGet_sub16 x y cc .n).trans (getLsbD_top_eq_neg _)
  · simp only [List.mem_cons, List.not_mem_nil, or_false, not_or] at hj
    obtain ⟨hc, hv, hn, hz⟩ := hj
    rw [ccGet_sub16, if_neg hc, if_neg hv, if_neg hz, if_neg hn]

/-! ### A 16-bit register and an operand (R242 to R248) -/

/-- The sum or the difference of two words, with the new CC. -/
def addOrSub16 (adds : Bool) : Word → Word → Byte → Word × Byte := if adds then add16 else sub16

/-- The sum or difference of a register and its operand, the register read after the operand; the result is kept or,
in a compare, not. -/
def accumulate16 (adds keeps : Bool) (row : Reg16Row) (src : Src16) (s : State) : State :=
  let p := operand16 src s
  let r := addOrSub16 adds (row.get p.2.regs) p.1 p.2.regs.cc
  { p.2 with regs := { (if keeps then p.2.regs else row.put p.2.regs r.1) with cc := r.2 } }

theorem aluD_eq (adds : Bool) (src : Src16) (s : State) :
    aluD (addOrSub16 adds) src s = accumulate16 adds false rowD src s := rfl

theorem compare16_eq (k : Reg16) (src : Src16) (s : State) :
    compare16 k src s = accumulate16 false true k.row src s := by
  rw [compare16, k.get_eq_row]
  rfl

/-- Reading the operand leaves CC, so the flags are computed on that of the instruction's start. -/
theorem accumulate16_advance (adds keeps : Bool) (row : Reg16Row) (src : Src16) (n : Nat) (s : State) :
    accumulate16 adds keeps row src (s.advance n) =
      let p := operand16 src (s.advance n)
      let r := addOrSub16 adds (row.get p.2.regs) p.1 s.regs.cc
      { p.2 with regs := { (if keeps then p.2.regs else row.put p.2.regs r.1) with cc := r.2 } } := by
  have hp : AfterOperand n (src16Bump src) s (operand16 src (s.advance n)).2 := afterOperand_src16 src n s
  simp only [accumulate16, hp.cc]

/-- ADDD and SUBD keep their result in D; the compares are the difference with its row's register, discarded. -/
theorem exec_arithmetic16 {op : Src16 → Instr} {row : Reg16Row} {adds keeps : Bool}
    (h : (op, row, adds, keeps) ∈ [(Instr.addd, rowD, true, false), (Instr.subd, rowD, false, false),
      (Instr.cmpd, rowD, false, true), (Instr.cmpx, rowX, false, true), (Instr.cmpy, rowY, false, true),
      (Instr.cmpu, rowU, false, true), (Instr.cmps, rowS, false, true)]) (src : Src16) (s : State) :
    exec (op src) s = .next (accumulate16 adds keeps row src (s.advance (op src).size)) := by
  simp only [List.mem_cons, Prod.mk.injEq, List.not_mem_nil, or_false] at h
  obtain ⟨rfl, rfl, rfl, rfl⟩ | ⟨rfl, rfl, rfl, rfl⟩ | ⟨rfl, rfl, rfl, rfl⟩ | ⟨rfl, rfl, rfl, rfl⟩ |
    ⟨rfl, rfl, rfl, rfl⟩ | ⟨rfl, rfl, rfl, rfl⟩ | ⟨rfl, rfl, rfl, rfl⟩ := h
  · exact congrArg Host.Outcome.next (aluD_eq true src _)
  · exact congrArg Host.Outcome.next (aluD_eq false src _)
  · exact congrArg Host.Outcome.next (compare16_eq .d src _)
  · exact congrArg Host.Outcome.next (compare16_eq .x src _)
  · exact congrArg Host.Outcome.next (compare16_eq .y src _)
  · exact congrArg Host.Outcome.next (compare16_eq .u src _)
  · exact congrArg Host.Outcome.next (compare16_eq .s src _)

/-- Settles O41: the register is read after the operand (an operand may have moved it), CC is the old one. -/
theorem sixteenBitArithmetic : Obligations.SixteenBitArithmetic := by
  intro op row adds keeps hmem src s p x
  have hp : AfterOperand (op src).size (src16Bump src) s p.2 := afterOperand_src16 src _ s
  refine ⟨(addOrSub16 adds x p.1 s.regs.cc).1, (addOrSub16 adds x p.1 s.regs.cc).2, ?_, ?_, ?_, hp, hp.peek⟩
  · rw [exec_arithmetic16 hmem, accumulate16_advance]
  · rintro rfl
    exact ⟨toNat_add16 .., add16_flags ..⟩
  · rintro rfl
    exact ⟨toNat_sub16 .., sub16_flags ..⟩

end Sys2Proof.Machine
end

section
/-! PROOF. Unary operations, TST and CLR (spec/44_unary.md R260 to R293): each of the nine operations as arithmetic on
its operand with the flags it writes, the rows of `unaryRows` as these operations on memory and on the accumulators,
then the three statements from the equations of the shared operations. -/

namespace Sys2Proof.Machine

open Sys2Proof.Claims

/-! ### Bits of a byte as facts on its number -/

theorem getLsbD_zero_eq (m : Byte) : m.getLsbD 0 = decide (m.toNat % 2 = 1) := Nat.testBit_zero _

theorem getLsbD_six (m : Byte) : m.getLsbD 6 = decide (m.toNat / 64 % 2 = 1) := Nat.testBit_eq_decide_div_mod_eq

theorem beq_eq_decide_toNat (m k : Byte) : (m == k) = decide (m.toNat = k.toNat) :=
  decide_eq_decide.2 BitVec.toNat_inj.symm

theorem bne_eq_decide_toNat (m k : Byte) : (m != k) = decide (m.toNat ≠ k.toNat) := by
  rw [bne, beq_eq_decide_toNat, decide_not]

/-- The two top bits differ when a left shift changes the sign. -/
theorem topBits_differ (m : Byte) : (m.getLsbD 7 != m.getLsbD 6) = leftShiftV m := by
  have := m.isLt
  rw [getLsbD_seven, getLsbD_six, leftShiftV, Bool.eq_iff_iff]
  simp only [bne_iff_ne, ne_eq, decide_eq_decide, decide_eq_true_eq]
  omega

theorem toNat_shiftRight_one (m : Byte) : (m >>> 1).toNat = m.toNat / 2 := by
  rw [BitVec.toNat_ushiftRight, Nat.shiftRight_eq_div_pow, pow_one]

theorem toNat_shiftLeft_one (m : Byte) : (m <<< 1).toNat = 2 * m.toNat % 256 := by
  rw [BitVec.toNat_shiftLeft, Nat.shiftLeft_eq, pow_one, Nat.mul_comm]

/-- A bit put on top of a byte shifted right. -/
theorem toNat_topBit_or (b : Bool) (m : Byte) :
    ((if b then 0x80#8 else 0x00#8) ||| m >>> 1).toNat = m.toNat / 2 + 128 * b.toNat := by
  have hlow : m.toNat / 2 < 2 ^ 7 := by have := m.isLt; omega
  have htop : (if b then 0x80#8 else 0x00#8).toNat = 2 ^ 7 * b.toNat := by cases b <;> rfl
  rw [BitVec.toNat_or, toNat_shiftRight_one, htop, ← Nat.two_pow_add_eq_or_of_lt hlow, Nat.add_comm]

/-- A bit put below a byte shifted left. -/
theorem toNat_or_flagByte (m : Byte) (b : Bool) :
    (m <<< 1 ||| flagByte b).toNat = (2 * m.toNat + b.toNat) % 256 := by
  have hshifted : (m <<< 1).toNat = 2 ^ 1 * (m.toNat % 128) := by rw [toNat_shiftLeft_one]; omega
  have hbit : (flagByte b).toNat = b.toNat := by cases b <;> rfl
  have hlt := Bool.toNat_lt b
  rw [BitVec.toNat_or, hshifted, hbit, ← Nat.two_pow_add_eq_or_of_lt (i := 1) hlt]
  omega

/-- The sign bit alone. -/
theorem and_topBit (m : Byte) : m &&& 0x80#8 = if m.getLsbD 7 then 0x80#8 else 0x00#8 :=
  BitVec.and_twoPow m 7

/-! ### The results (R261 to R285) -/

theorem toNat_neg8 (opcode : BitVec 16) (m cc : Byte) : (neg8 opcode m cc).1.toNat = (256 - m.toNat) % 256 :=
  BitVec.toNat_sub 0#8 m

theorem toNat_com8 (m cc : Byte) : (com8 m cc).1.toNat = 255 - m.toNat := by
  have hnot : (com8 m cc).1 = ~~~m := BitVec.xor_allOnes
  rw [hnot, BitVec.toNat_not]

theorem toNat_lsr8 (m cc : Byte) : (lsr8 m cc).1.toNat = m.toNat / 2 := toNat_shiftRight_one m

theorem toNat_ror8 (m cc : Byte) : (ror8 m cc).1.toNat = m.toNat / 2 + 128 * (ccGet cc .c).toNat :=
  toNat_topBit_or _ m

theorem toNat_asr8 (opcode : BitVec 16) (m cc : Byte) :
    (asr8 opcode m cc).1.toNat = m.toNat / 2 + if 128 ≤ m.toNat then 128 else 0 := by
  rw [asr8, and_topBit, toNat_topBit_or, getLsbD_seven]
  by_cases h : 128 ≤ m.toNat <;> simp [h]

theorem toNat_asl8 (opcode : BitVec 16) (m cc : Byte) : (asl8 opcode m cc).1.toNat = 2 * m.toNat % 256 :=
  toNat_shiftLeft_one m

theorem toNat_rol8 (m cc : Byte) : (rol8 m cc).1.toNat = (2 * m.toNat + (ccGet cc .c).toNat) % 256 :=
  toNat_or_flagByte m _

theorem toNat_dec8 (m cc : Byte) : (dec8 m cc).1.toNat = (m.toNat + 255) % 256 := by
  rw [Nat.add_comm]
  exact BitVec.toNat_sub m 1#8

theorem toNat_inc8 (m cc : Byte) : (inc8 m cc).1.toNat = (m.toNat + 1) % 256 := BitVec.toNat_add m 1#8

/-! ### The flags (R261 to R285, R291) -/

/-- A flag after a unary operation with result r: N and Z of the result, V, C and H as given or else kept, the others
kept. -/
def unaryFlag (v c h : Option Bool) (r cc : Byte) : Flag → Bool
  | .n => r.getLsbD 7
  | .z => r == 0
  | .v => v.getD (ccGet cc .v)
  | .c => c.getD (ccGet cc .c)
  | .h => h.getD (ccGet cc .h)
  | j => ccGet cc j

/-- Flags computed by `unaryFlag` are those a row of the table asks for. -/
theorem flags_of_unaryFlag {row : UnaryRow} {m r cc cc' : Byte} {h : Option Bool} (hh : row.undefH = false → h = none)
    (hcc : ∀ j, ccGet cc' j = unaryFlag (row.v.map (· m)) (row.c.map (· m)) h r cc j) : row.Flags m r cc cc' := by
  refine ⟨(hcc .n).trans (getLsbD_top_eq_neg r), hcc .z, (hcc .v).trans ?_, (hcc .c).trans ?_, fun hu => ?_,
    fun j hj => (hcc j).trans ?_⟩
  · cases row.v <;> rfl
  · cases row.c <;> rfl
  · rw [hcc, hh hu]
    rfl
  · cases j
    case i | f | e => rfl
    all_goals exact absurd hj (by decide)

theorem ccGet_neg8 (opcode : BitVec 16) (m cc : Byte) (j : Flag) :
    ccGet (neg8 opcode m cc).2 j =
      unaryFlag (some (decide (m.toNat = 128))) (some (decide (m.toNat ≠ 0)))
        (some (Config.undefFlag opcode [m] .h)) (neg8 opcode m cc).1 cc j := by
  simp only [neg8, ccGet_setUndef, ccGet_ccSet, ccGet_setNZ8, beq_eq_decide_toNat m, bne_eq_decide_toNat]
  cases j <;> rfl

theorem ccGet_com8 (m cc : Byte) (j : Flag) :
    ccGet (com8 m cc).2 j = unaryFlag (some false) (some true) none (com8 m cc).1 cc j := by
  simp only [com8, ccGet_ccSet, ccGet_setNZ8]
  cases j <;> rfl

/-- LSR clears N, which is the top bit of its result. -/
theorem ccGet_lsr8 (m cc : Byte) (j : Flag) :
    ccGet (lsr8 m cc).2 j = unaryFlag none (some (decide (m.toNat % 2 = 1))) none (lsr8 m cc).1 cc j := by
  have htop : (m >>> 1).getLsbD 7 = false := BitVec.getLsbD_of_ge m 8 le_rfl
  simp only [lsr8, ccGet_ccSet, getLsbD_zero_eq]
  cases j
  case n => exact htop.symm
  all_goals rfl

theorem ccGet_ror8 (m cc : Byte) (j : Flag) :
    ccGet (ror8 m cc).2 j = unaryFlag none (some (decide (m.toNat % 2 = 1))) none (ror8 m cc).1 cc j := by
  simp only [ror8, ccGet_setNZ8, ccGet_ccSet, getLsbD_zero_eq]
  cases j <;> rfl

theorem ccGet_asr8 (opcode : BitVec 16) (m cc : Byte) (j : Flag) :
    ccGet (asr8 opcode m cc).2 j =
      unaryFlag none (some (decide (m.toNat % 2 = 1))) (some (Config.undefFlag opcode [m] .h)) (asr8 opcode m cc).1
        cc j := by
  simp only [asr8, ccGet_setUndef, ccGet_setNZ8, ccGet_ccSet, getLsbD_zero_eq]
  cases j <;> rfl

theorem ccGet_asl8 (opcode : BitVec 16) (m cc : Byte) (j : Flag) :
    ccGet (asl8 opcode m cc).2 j =
      unaryFlag (some (leftShiftV m)) (some (decide (128 ≤ m.toNat))) (some (Config.undefFlag opcode [m] .h))
        (asl8 opcode m cc).1 cc j := by
  simp only [asl8, ccGet_setUndef, ccGet_setNZ8, ccGet_ccSet, ↓topBits_differ, getLsbD_seven m]
  cases j <;> rfl

theorem ccGet_rol8 (m cc : Byte) (j : Flag) :
    ccGet (rol8 m cc).2 j =
      unaryFlag (some (leftShiftV m)) (some (decide (128 ≤ m.toNat))) none (rol8 m cc).1 cc j := by
  simp only [rol8, ccGet_setNZ8, ccGet_ccSet, ↓topBits_differ, getLsbD_seven m]
  cases j <;> rfl

theorem ccGet_dec8 (m cc : Byte) (j : Flag) :
    ccGet (dec8 m cc).2 j = unaryFlag (some (decide (m.toNat = 128))) none none (dec8 m cc).1 cc j := by
  simp only [dec8, ccGet_ccSet, ccGet_setNZ8, beq_eq_decide_toNat m]
  cases j <;> rfl

theorem ccGet_inc8 (m cc : Byte) (j : Flag) :
    ccGet (inc8 m cc).2 j = unaryFlag (some (decide (m.toNat = 127))) none none (inc8 m cc).1 cc j := by
  simp only [inc8, ccGet_ccSet, ccGet_setNZ8, beq_eq_decide_toNat m]
  cases j <;> rfl

theorem ccGet_clrFlags (cc : Byte) (j : Flag) :
    ccGet (clrFlags cc) j =
      if j = .c then false else if j = .v then false else if j = .z then true else if j = .n then false
      else ccGet cc j := by
  simp only [clrFlags, ccGet_ccSet]

theorem clrFlags_onlyFlags (cc : Byte) : OnlyFlags [.n, .z, .v, .c] cc (clrFlags cc) := by
  intro j hj
  simp only [List.mem_cons, List.not_mem_nil, or_false, not_or] at hj
  obtain ⟨hn, hz, hv, hc⟩ := hj
  rw [ccGet_clrFlags, if_neg hc, if_neg hv, if_neg hz, if_neg hn]

/-! ### The rows as operations (R260) -/

/-- The three instructions of a row are the operation op, given their opcode, on a memory byte, on A and on B; op has the
result and the flags of the row. -/
structure RowIsOp (row : UnaryRow) (op : BitVec 16 → Byte → Byte → Byte × Byte) : Prop where
  result : ∀ o m cc, (op o m cc).1.toNat = row.result m (ccGet cc .c)
  flags : ∀ o m cc, row.Flags m (op o m cc).1 cc (op o m cc).2
  onMem : ∀ m s, exec (row.mem m) s =
    finish s (modifyMem (op (row.mem m).opcode) m (s.advance (row.mem m).size))
  onA : ∀ s, exec row.onA s = .next (modifyAcc (op row.onA.opcode) .a (s.advance 1))
  onB : ∀ s, exec row.onB s = .next (modifyAcc (op row.onB.opcode) .b (s.advance 1))

/-- Every row is an operation of the model; NEG, ASR and ASL, which leave H undefined, are the ones that depend on the
opcode. -/
theorem exists_rowIsOp {row : UnaryRow} (h : row ∈ unaryRows) : ∃ op, RowIsOp row op := by
  simp only [unaryRows, List.mem_cons, List.not_mem_nil, or_false] at h
  obtain rfl | rfl | rfl | rfl | rfl | rfl | rfl | rfl | rfl := h
  · exact ⟨neg8, toNat_neg8, fun o m cc => flags_of_unaryFlag (by simp) (ccGet_neg8 o m cc),
      fun _ _ => rfl, fun _ => rfl, fun _ => rfl⟩
  · exact ⟨fun _ => com8, fun _ => toNat_com8, fun _ m cc => flags_of_unaryFlag (fun _ => rfl) (ccGet_com8 m cc),
      fun _ _ => rfl, fun _ => rfl, fun _ => rfl⟩
  · exact ⟨fun _ => lsr8, fun _ => toNat_lsr8, fun _ m cc => flags_of_unaryFlag (fun _ => rfl) (ccGet_lsr8 m cc),
      fun _ _ => rfl, fun _ => rfl, fun _ => rfl⟩
  · exact ⟨fun _ => ror8, fun _ => toNat_ror8, fun _ m cc => flags_of_unaryFlag (fun _ => rfl) (ccGet_ror8 m cc),
      fun _ _ => rfl, fun _ => rfl, fun _ => rfl⟩
  · exact ⟨asr8, toNat_asr8, fun o m cc => flags_of_unaryFlag (by simp) (ccGet_asr8 o m cc),
      fun _ _ => rfl, fun _ => rfl, fun _ => rfl⟩
  · exact ⟨asl8, toNat_asl8, fun o m cc => flags_of_unaryFlag (by simp) (ccGet_asl8 o m cc),
      fun _ _ => rfl, fun _ => rfl, fun _ => rfl⟩
  · exact ⟨fun _ => rol8, fun _ => toNat_rol8, fun _ m cc => flags_of_unaryFlag (fun _ => rfl) (ccGet_rol8 m cc),
      fun _ _ => rfl, fun _ => rfl, fun _ => rfl⟩
  · exact ⟨fun _ => dec8, fun _ => toNat_dec8, fun _ m cc => flags_of_unaryFlag (fun _ => rfl) (ccGet_dec8 m cc),
      fun _ _ => rfl, fun _ => rfl, fun _ => rfl⟩
  · exact ⟨fun _ => inc8, fun _ => toNat_inc8, fun _ m cc => flags_of_unaryFlag (fun _ => rfl) (ccGet_inc8 m cc),
      fun _ _ => rfl, fun _ => rfl, fun _ => rfl⟩

/-! ### On memory (R260, R288, R291) -/

/-- The address computation and the read of the byte leave the configuration, so they leave where writes fault. -/
theorem AfterOperand.romFaults {n : Nat} {b : Option (IndexReg × Word)} {s p : State} (h : AfterOperand n b s p)
    (a : Word) : p.romFaults a = s.romFaults a :=
  romFaults_congr h.cfg a

/-- Read, modify, write, where the byte takes a write: the operation works on the CC of the instruction's start. -/
theorem modifyMem_advance (op : Byte → Byte → Byte × Byte) (m : Mem) (n : Nat) {s : State}
    (h : s.romFaults (effectiveAddress m (s.advance n)).1 = false) :
    modifyMem op m (s.advance n) =
      let ea := effectiveAddress m (s.advance n)
      let p := ea.2.read8 ea.1
      let r := op p.1 s.regs.cc
      .ok (State.store8 { p.2 with regs := { p.2.regs with cc := r.2 } } ea.1 r.1) := by
  have hp : AfterOperand n (memBump m) s (operand8 (.mem m) (s.advance n)).2 := afterOperand_src8 (.mem m) n s
  rw [← hp.cc]
  refine write8_of_not_romFaults ?_ _
  exact (hp.romFaults _).trans h

/-- CLR where the byte takes a write: no read but those of the address computation. -/
theorem clearMem_advance (m : Mem) (n : Nat) {s : State}
    (h : s.romFaults (effectiveAddress m (s.advance n)).1 = false) :
    clearMem m (s.advance n) =
      let p := effectiveAddress m (s.advance n)
      .ok (State.store8 { p.2 with regs := { p.2.regs with cc := clrFlags s.regs.cc } } p.1 0) := by
  have hp : AfterOperand n (memBump m) s (effectiveAddress m (s.advance n)).2 := afterOperand_mem m n s
  rw [← hp.cc]
  refine write8_of_not_romFaults ?_ _
  exact (hp.romFaults _).trans h

/-- Settles O42: each row is one operation on the byte read, with the CC of the instruction's start. -/
theorem unaryOperationsOnMemory : Obligations.UnaryOperationsOnMemory := by
  intro row hrow m s ea p hw
  obtain ⟨op, hop⟩ := exists_rowIsOp hrow
  have hp : AfterOperand (row.mem m).size (memBump m) s p.2 := afterOperand_src8 (.mem m) _ s
  refine ⟨_, _, ?_, hop.result (row.mem m).opcode _ _, hop.flags (row.mem m).opcode _ _, hp, hp.keepsStorage [_]⟩
  rw [hop.onMem, modifyMem_advance _ m _ hw, finish_ok]

/-! ### On an accumulator (R260, R289, R290, R292, R293) -/

theorem modifyAcc_advance (op : Byte → Byte → Byte × Byte) (k : Acc) (n : Nat) (s : State) :
    modifyAcc op k (s.advance n) =
      let r := op (k.row.get s.regs) s.regs.cc
      { s with regs := { k.row.put s.regs r.1 with cc := r.2, pc := s.regs.pc + BitVec.ofNat 16 n } } := by
  cases k <;> rfl

theorem clearAcc_advance (k : Acc) (n : Nat) (s : State) :
    clearAcc k (s.advance n) =
      { s with regs := { k.row.put s.regs 0 with
        cc := clrFlags s.regs.cc, pc := s.regs.pc + BitVec.ofNat 16 n } } := by
  cases k <;> rfl

theorem testAcc_advance (k : Acc) (n : Nat) (s : State) :
    testAcc k (s.advance n) =
      { s with regs := { s.regs with
        cc := logicFlags8 (k.row.get s.regs) s.regs.cc, pc := s.regs.pc + BitVec.ofNat 16 n } } := by
  cases k <;> rfl

/-- The accumulator forms of a row are its operation on A and on B. -/
theorem RowIsOp.onAcc {row : UnaryRow} {op : BitVec 16 → Byte → Byte → Byte × Byte} (hop : RowIsOp row op)
    {i : Instr} {acc : Reg8Row} (h : (i, acc) ∈ [(row.onA, rowA), (row.onB, rowB)]) :
    ∃ k : Acc, acc = k.row ∧ ∀ s, exec i s = .next (modifyAcc (op i.opcode) k (s.advance 1)) := by
  simp only [List.mem_cons, Prod.mk.injEq, List.not_mem_nil, or_false] at h
  obtain ⟨rfl, rfl⟩ | ⟨rfl, rfl⟩ := h
  · exact ⟨.a, rfl, hop.onA⟩
  · exact ⟨.b, rfl, hop.onB⟩

/-- CLRA and CLRB clear their row's accumulator. -/
theorem exec_clearAcc {i : Instr} {acc : Reg8Row} (h : (i, acc) ∈ [(Instr.clra, rowA), (Instr.clrb, rowB)]) :
    ∃ k : Acc, acc = k.row ∧ ∀ s, exec i s = .next (clearAcc k (s.advance 1)) := by
  simp only [List.mem_cons, Prod.mk.injEq, List.not_mem_nil, or_false] at h
  obtain ⟨rfl, rfl⟩ | ⟨rfl, rfl⟩ := h
  · exact ⟨.a, rfl, fun _ => rfl⟩
  · exact ⟨.b, rfl, fun _ => rfl⟩

/-- TSTA and TSTB test their row's accumulator. -/
theorem exec_testAcc {i : Instr} {acc : Reg8Row} (h : (i, acc) ∈ [(Instr.tsta, rowA), (Instr.tstb, rowB)]) :
    ∃ k : Acc, acc = k.row ∧ ∀ s, exec i s = .next (testAcc k (s.advance 1)) := by
  simp only [List.mem_cons, Prod.mk.injEq, List.not_mem_nil, or_false] at h
  obtain ⟨rfl, rfl⟩ | ⟨rfl, rfl⟩ := h
  · exact ⟨.a, rfl, fun _ => rfl⟩
  · exact ⟨.b, rfl, fun _ => rfl⟩

/-- Settles O43: each row is one operation on the accumulator and CC of the instruction's start. -/
theorem unaryOperationsOnAccumulators : Obligations.UnaryOperationsOnAccumulators := by
  refine ⟨fun row hrow i acc hi s => ?_, fun i acc hi s => ?_⟩
  · obtain ⟨op, hop⟩ := exists_rowIsOp hrow
    obtain ⟨k, rfl, hexec⟩ := hop.onAcc hi
    refine ⟨_, _, ?_, hop.result i.opcode _ _, hop.flags i.opcode _ _⟩
    rw [hexec, modifyAcc_advance]
    rfl
  · obtain ⟨k, rfl, hexec⟩ := exec_clearAcc hi
    refine ⟨clrFlags s.regs.cc, ?_, ccGet_clrFlags _ .n, ccGet_clrFlags _ .z, ccGet_clrFlags _ .v,
      ccGet_clrFlags _ .c, clrFlags_onlyFlags _⟩
    rw [hexec, clearAcc_advance]
    rfl

/-! ### TST and CLR (R288 to R291) -/

theorem exec_tst (m : Mem) (s : State) :
    exec (.tst m) s =
      let p := operand8 (.mem m) (s.advance (Instr.tst m).size)
      .next { p.2 with regs := { p.2.regs with cc := logicFlags8 p.1 p.2.regs.cc } } := rfl

theorem exec_clr (m : Mem) (s : State) :
    exec (.clr m) s = finish s (clearMem m (s.advance (Instr.clr m).size)) := rfl

/-- Settles O44: TST is the read of its operand and the flags of the byte; CLR is the address computation, the flags and
the write. -/
theorem testAndClear : Obligations.TestAndClear := by
  refine ⟨?_, ?_, ?_⟩
  · intro m s p
    have hp : AfterOperand (Instr.tst m).size (memBump m) s p.2 := afterOperand_src8 (.mem m) _ s
    refine ⟨logicFlags8 p.1 s.regs.cc, ?_, logicFlags8_spec _ _, hp, hp.peek⟩
    rw [exec_tst, ← hp.cc]
  · intro i acc hi s
    obtain ⟨k, rfl, hexec⟩ := exec_testAcc hi
    refine ⟨logicFlags8 (k.row.get s.regs) s.regs.cc, ?_, logicFlags8_spec _ _⟩
    rw [hexec, testAcc_advance]
    rfl
  · intro m s p hw
    have hp : AfterOperand (Instr.clr m).size (memBump m) s p.2 := afterOperand_mem m _ s
    refine ⟨clrFlags s.regs.cc, ?_, ccGet_clrFlags _ .n, ccGet_clrFlags _ .z, ccGet_clrFlags _ .v,
      ccGet_clrFlags _ .c, clrFlags_onlyFlags _, hp, hp.keepsStorage [(p.1, 0)]⟩
    rw [exec_clr, clearMem_advance m _ hw, finish_ok]

end Sys2Proof.Machine
end

section
/-! PROOF. Branches, jumps and subroutines (spec/45_control.md R310 to R347): each row of `branchRows` as a condition of
the model, a call as the push of its return address, RTS as the pull of two bytes, and the round trip from the laws of
storage. -/

namespace Sys2Proof.Machine

open Sys2Proof.Claims

/-! ### Branches (R145, R146, R310 to R342) -/

/-- The two branches of a row are those of the condition k, which holds when the row says "taken". -/
structure RowIsCond (row : BranchRow) (k : Cond) : Prop where
  taken : ∀ cc, condHolds k cc = true ↔ row.takenAt cc
  short : ∀ rr s, exec (row.short rr) s = .next (branch8 k rr (s.advance 2))
  long : ∀ rrrr s, exec (row.long rrrr) s = .next (branch16 k rrrr (s.advance (row.long rrrr).size))

/-- Every row of the table is one of the model's conditions. -/
theorem exists_rowIsCond {row : BranchRow} (h : row ∈ branchRows) : ∃ k, RowIsCond row k := by
  simp only [branchRows, List.mem_cons, List.not_mem_nil, or_false] at h
  obtain rfl | rfl | rfl | rfl | rfl | rfl | rfl | rfl | rfl | rfl | rfl | rfl | rfl | rfl | rfl | rfl := h
  · exact ⟨.ra, fun _ => by simp [condHolds, BranchRow.takenAt], fun _ _ => rfl, fun _ _ => rfl⟩
  · exact ⟨.rn, fun _ => by simp [condHolds, BranchRow.takenAt], fun _ _ => rfl, fun _ _ => rfl⟩
  · exact ⟨.hi, fun _ => by simp [condHolds, BranchRow.takenAt], fun _ _ => rfl, fun _ _ => rfl⟩
  · exact ⟨.ls, fun _ => by simp [condHolds, BranchRow.takenAt], fun _ _ => rfl, fun _ _ => rfl⟩
  · exact ⟨.hs, fun _ => by simp [condHolds, BranchRow.takenAt], fun _ _ => rfl, fun _ _ => rfl⟩
  · exact ⟨.lo, fun _ => by simp [condHolds, BranchRow.takenAt], fun _ _ => rfl, fun _ _ => rfl⟩
  · exact ⟨.ne, fun _ => by simp [condHolds, BranchRow.takenAt], fun _ _ => rfl, fun _ _ => rfl⟩
  · exact ⟨.eq, fun _ => by simp [condHolds, BranchRow.takenAt], fun _ _ => rfl, fun _ _ => rfl⟩
  · exact ⟨.vc, fun _ => by simp [condHolds, BranchRow.takenAt], fun _ _ => rfl, fun _ _ => rfl⟩
  · exact ⟨.vs, fun _ => by simp [condHolds, BranchRow.takenAt], fun _ _ => rfl, fun _ _ => rfl⟩
  · exact ⟨.pl, fun _ => by simp [condHolds, BranchRow.takenAt], fun _ _ => rfl, fun _ _ => rfl⟩
  · exact ⟨.mi, fun _ => by simp [condHolds, BranchRow.takenAt], fun _ _ => rfl, fun _ _ => rfl⟩
  · exact ⟨.ge, fun _ => by simp [condHolds, BranchRow.takenAt], fun _ _ => rfl, fun _ _ => rfl⟩
  · exact ⟨.lt, fun _ => by simp [condHolds, BranchRow.takenAt], fun _ _ => rfl, fun _ _ => rfl⟩
  · exact ⟨.gt, fun _ => by simp [condHolds, BranchRow.takenAt], fun _ _ => rfl, fun _ _ => rfl⟩
  · exact ⟨.le, fun _ => by simp [condHolds, BranchRow.takenAt], fun _ _ => rfl, fun _ _ => rfl⟩

/-- Settles O45: a row's two branches are those of its condition, and a branch tests its condition on the CC of the
instruction's start. -/
theorem branches : Obligations.Branches := by
  intro row hrow rr rrrr s next8 next16
  obtain ⟨k, hk⟩ := exists_rowIsCond hrow
  rw [hk.short, hk.long]
  constructor
  · intro htaken
    have hc : condHolds k s.regs.cc = true := (hk.taken _).2 htaken
    exact ⟨congrArg Host.Outcome.next (if_pos hc), congrArg Host.Outcome.next (if_pos hc)⟩
  · intro hnot
    have hc : ¬ condHolds k s.regs.cc = true := mt (hk.taken _).1 hnot
    exact ⟨congrArg Host.Outcome.next (if_neg hc), congrArg Host.Outcome.next (if_neg hc)⟩

/-! ### Calls (R343, R344, R346) -/

/-- A call from the registers g where the two pushed bytes take writes: the return address pushed, then PC and S. -/
theorem callTo_withRegs (target : Word) {s : State} {g : Regs} (hw : s.Writable (StackItem.writes g.s (.word g.pc))) :
    callTo target { s with regs := g } =
      .ok { s.storeAll (StackItem.writes g.s (.word g.pc)) with regs := { g with s := g.s - 2, pc := target } } := by
  have hpush : push16 .s g.pc (pushed .s { s with regs := g } []) = .ok (pushed .s { s with regs := g } [.word g.pc]) :=
    push16_pushed (k := .s) (s := { s with regs := g }) (is := []) hw
  rw [pushed_nil, pushed_withRegs] at hpush
  rw [callTo, hpush]
  rfl

/-- Settles O46: BSR and LBSR push from the registers with PC past the instruction, JSR from those after its operand. -/
theorem subroutineCalls : Obligations.SubroutineCalls := by
  constructor
  · intro i n s hi next ws hw
    refine ⟨?_, keepsStorage_storeAll s ws⟩
    have hcall : callTo (next + n) (s.advance i.size) = _ :=
      callTo_withRegs (next + n) (g := { s.regs with pc := next }) hw
    obtain ⟨rr, rfl, rfl⟩ | rfl := hi
    · exact congrArg (finish s) hcall
    · exact congrArg (finish s) hcall
  · intro m s p next ws hw
    have hp : AfterOperand (Instr.jsr m).size (memBump m) s p.2 := afterOperand_mem m _ s
    have hcall : callTo p.1 p.2 = _ := callTo_withRegs p.1 (s := p.2) (g := p.2.regs) (hp.writable hw)
    exact ⟨congrArg (finish s) hcall, hp, hp.keepsStorage ws⟩

/-! ### JMP and RTS (R345, R347) -/

/-- RTS reads the two bytes at S and changes no register but S and PC. -/
theorem exec_rts (s : State) :
    exec .rts s =
      let r := s.readBytes s.regs.s 2
      .next { r.2 with regs := { s.regs with s := s.regs.s + 2, pc := pulledWord r.1 0 } } := by
  have hpull : pull16 .s (s.advance Instr.rts.size) = _ :=
    pull16_pulling (k := .s) (s := s) (g := (s.advance Instr.rts.size).regs) (arm := s.nmiArmed) (n := 0)
      (BitVec.add_zero _).symm
  refine (runPure_eq .rts s _).trans (congrArg Host.Outcome.next ?_)
  rw [pullInto16, hpull]
  exact pulling_eq s s.regs.s 2 _

/-- Settles O47: the address computation, and the pull as two reads. -/
theorem jumpAndReturn : Obligations.JumpAndReturn := by
  intro m s p r
  have hp : AfterOperand (Instr.jmp m).size (memBump m) s p.2 := afterOperand_mem m _ s
  have hr : OnlyReads s r.2 := readBytes_onlyReads 2 s s.regs.s
  exact ⟨runPure_eq (.jmp m) s _, hp, hp.peek, exec_rts s, hr, hr.peek⟩

/-! ### RTS after a call (R348) -/

/-- The two bytes below sp take writes when they are RAM. -/
theorem writable_of_ramBelow {s : State} {sp : Word} (h : RamBelow s.cfg sp 2) (w : Word) :
    s.Writable (StackItem.writes sp (.word w)) := by
  obtain ⟨hram, -⟩ := h
  have hfree : ∀ k, 1 ≤ k → k ≤ 2 → s.romFaults (sp - BitVec.ofNat 16 k) = false := fun k h1 h2 => by
    obtain ⟨key, hplace⟩ := hram k h1 h2
    simp only [State.romFaults, hplace]
  simp only [StackItem.writes, List.forall_mem_cons]
  exact ⟨hfree 2 (by omega) le_rfl, hfree 1 le_rfl (by omega), by simp⟩

/-- A word pushed to two different bytes of RAM reads back, high byte first. -/
theorem readBytes_storeAll_word {s t : State} {sp : Word} (hm : s.mem.wf) (h : RamBelow s.cfg sp 2) (w : Word)
    (hcfg : t.cfg = s.cfg) (hmem : t.mem = (s.storeAll (StackItem.writes sp (.word w))).mem) :
    t.readBytes (sp - 2) 2 = ([hiByte w, loByte w], t) := by
  obtain ⟨hram, hsep⟩ := h
  obtain ⟨high, hhigh⟩ := hram 2 (by omega) le_rfl
  obtain ⟨low, hlow⟩ := hram 1 le_rfl (by omega)
  have hpeek : ∀ a, t.peek a = ((s.store8 (sp - 2) (hiByte w)).store8 (sp - 1) (loByte w)).peek a :=
    peek_congr (by simp [hcfg]) hmem
  have hp2 : t.peek (sp - 2) = some (hiByte w) := by
    rw [hpeek, peek_store8_of_separate _ _ (by rw [store8_cfg]; exact hsep 1 2 le_rfl (by omega) le_rfl)]
    exact peek_store8_same hm hhigh _
  have hp1 : t.peek (sp - 2 + 1) = some (loByte w) := by
    rw [hpeek, show sp - 2 + 1 = sp - 1 by bv_omega]
    exact peek_store8_same (store8_wf hm _ _) (by rw [store8_cfg]; exact hlow) _
  simp only [State.readBytes, read8_of_peek hp2, read8_of_peek hp1]

/-- Reading an operand leaves the storage bytes as they were. -/
theorem AfterOperand.mem {n : Nat} {b : Option (IndexReg × Word)} {s p : State} (h : AfterOperand n b s p) :
    p.mem = s.mem := by
  rw [h.1]

/-- Every call is `callTo` from a state p with PC at the next instruction and the configuration and storage of s. -/
theorem exec_call {i : Instr} {s : State} {sp : Word}
    (hi : (∃ rr, i = .bsr rr) ∧ sp = s.regs.s ∨ (∃ rrrr, i = .lbsr rrrr) ∧ sp = s.regs.s ∨
      ∃ m, i = .jsr m ∧ sp = (effectiveAddress m (s.advance i.size)).2.regs.s) :
    ∃ target p, exec i s = finish s (callTo target p) ∧ p.cfg = s.cfg ∧ p.mem = s.mem ∧ p.regs.s = sp ∧
      p.regs.pc = s.regs.pc + BitVec.ofNat 16 i.size := by
  obtain ⟨⟨rr, rfl⟩, rfl⟩ | ⟨⟨rrrr, rfl⟩, rfl⟩ | ⟨m, rfl, rfl⟩ := hi
  · exact ⟨_, s.advance (Instr.bsr rr).size, rfl, rfl, rfl, rfl, rfl⟩
  · exact ⟨_, s.advance (Instr.lbsr rrrr).size, rfl, rfl, rfl, rfl, rfl⟩
  · have hp := afterOperand_mem m (Instr.jsr m).size s
    exact ⟨_, _, rfl, hp.cfg, hp.mem, rfl, by rw [hp.regs]⟩

/-- Settles O48: the two bytes RTS reads are those the call pushed. -/
theorem returnGoesBackToTheCaller : Obligations.ReturnGoesBackToTheCaller := by
  intro i s t h sp hwf _ hi hram hexec hcfg hmem hs
  obtain ⟨target, p, hcall, hpcfg, hpmem, hpsp, hppc⟩ := exec_call hi
  subst hpsp
  rw [← hpcfg] at hram
  rw [hcall, callTo_withRegs target (s := p) (g := p.regs) (writable_of_ramBelow hram _), finish_ok] at hexec
  obtain rfl := Host.Outcome.next.inj hexec
  have hread : h.readBytes h.regs.s 2 = ([hiByte p.regs.pc, loByte p.regs.pc], h) := by
    rw [hs]
    exact readBytes_storeAll_word (hpmem ▸ hwf) hram p.regs.pc (hcfg.trans (storeAll_cfg _ _)) hmem
  have hpc : pulledWord [hiByte p.regs.pc, loByte p.regs.pc] 0 = s.regs.pc + BitVec.ofNat 16 i.size :=
    (wordOf_hiByte_loByte _).trans hppc
  have hsp : h.regs.s + 2 = p.regs.s := by
    rw [hs]
    exact BitVec.sub_add_cancel _ _
  simp only [exec_rts, hread, hsp, hpc]

end Sys2Proof.Machine
end

section
/-! PROOF. The operations on CC as a whole, NOP and SYNC (spec/46_register_stack.md R366 to R368, spec/47_system.md R385):
each as its effect on the state with PC past the instruction. -/

namespace Sys2Proof.Machine

open Sys2Proof.Claims

/-! ### The bits of CC under a mask (R12) -/

theorem ccGet_and (cc m : Byte) (k : Flag) : ccGet (cc &&& m) k = (ccGet cc k && ccGet m k) :=
  bitwise_and cc m (flagBit k)

theorem ccGet_or (cc m : Byte) (k : Flag) : ccGet (cc ||| m) k = (ccGet cc k || ccGet m k) :=
  bitwise_or cc m (flagBit k)

/-! ### The next states (R366, R367, R368, R385) -/

theorem exec_andcc (ii : Byte) (s : State) :
    exec (.andcc ii) s =
      .next { s with regs := { s.regs with cc := s.regs.cc &&& ii, pc := s.regs.pc + 2 } } :=
  runPure_eq (.andcc ii) s fun t => t.setCc (t.regs.cc &&& ii)

theorem exec_orcc (ii : Byte) (s : State) :
    exec (.orcc ii) s =
      .next { s with regs := { s.regs with cc := s.regs.cc ||| ii, pc := s.regs.pc + 2 } } :=
  runPure_eq (.orcc ii) s fun t => t.setCc (t.regs.cc ||| ii)

theorem exec_nop (s : State) : exec .nop s = .next { s with regs := { s.regs with pc := s.regs.pc + 1 } } :=
  runPure_eq .nop s id

theorem exec_sync (s : State) :
    exec .sync s = .next { s with regs := { s.regs with pc := s.regs.pc + 1 }, wait := .sync } :=
  runPure_eq .sync s waitForLine

/-- Settles O52: a mask acts on each bit of the CC of the instruction's start, NOP and SYNC leave CC. -/
theorem conditionCodeMasksNopAndSync : Obligations.ConditionCodeMasksNopAndSync := by
  intro ii s
  exact ⟨⟨s.regs.cc &&& ii, exec_andcc ii s, ccGet_and _ ii⟩, ⟨s.regs.cc ||| ii, exec_orcc ii s, ccGet_or _ ii⟩,
    exec_nop s, exec_sync s⟩

end Sys2Proof.Machine
end

section
/-! PROOF. One iteration (spec/60_exceptions.md R400 to R420): what a step does in each case that `Iterates`, `Awake`
and `accepted` tell apart, the NMI sample and the polls. -/

namespace Sys2Proof.Machine

open Sys2Proof.Claims

/-! ### The host's requests (R401 to R403, R10) -/

/-- A running state of an accepted configuration takes its input. -/
theorem step_of_running {s : State} (hs : s.status = .running) (hc : s.configAccepted = true) :
    step s = iterateWith (nextInput s) (dropInput s) := by
  simp only [step, iterate, hs, if_pos hc]

/-- Settles O8: the stop request is the first test of an iteration, the abort request the second. -/
theorem stopAbortAndTerminalStates : Obligations.StopAbortAndTerminalStates := by
  refine fun s => ⟨fun h hs => nextInput_given, nextInput_drawn, fun hs hc hstop => ?_,
    fun hs hc hstop habort => ?_, fun r hr => ?_, fun f hf => ?_⟩
  · rw [step_of_running hs hc, iterateWith, if_pos hstop]
  · rw [step_of_running hs hc, iterateWith, if_neg (by simp [hstop]), if_pos habort]
  · simp only [step, iterate, hr]
  · simp only [step, iterate, hf]

/-! ### Acceptance (R406, R407) -/

theorem accept_nmi (l : Lines) (s : State) : accept true l s = some .nmi := rfl

theorem accept_firq {l : Lines} {s : State} (hl : l.firq = true) (hf : ccGet s.regs.cc .f = false) :
    accept false l s = some .firq := by
  simp [accept, hl, hf]

theorem accept_irq {l : Lines} {s : State} (hfirq : l.firq = false ∨ ccGet s.regs.cc .f = true) (hl : l.irq = true)
    (hi : ccGet s.regs.cc .i = false) : accept false l s = some .irq := by
  obtain h | h := hfirq <;> simp [accept, h, hl, hi]

theorem accept_none {l : Lines} {s : State} (hfirq : l.firq = false ∨ ccGet s.regs.cc .f = true)
    (hirq : l.irq = false ∨ ccGet s.regs.cc .i = true) : accept false l s = none := by
  obtain h | h := hfirq <;> obtain h' | h' := hirq <;> simp [accept, h, h']

/-- Settles O11. -/
theorem acceptanceRule : Obligations.AcceptanceRule := by
  refine fun req l s => ⟨?_, ?_, ?_, ?_⟩
  · rintro rfl
    exact accept_nmi l s
  · rintro rfl
    exact accept_firq
  · rintro rfl
    exact accept_irq
  · rintro rfl
    exact accept_none

/-- NMI is accepted when requested and in no other way. -/
theorem accept_eq_nmi_iff {req : Bool} {l : Lines} {s : State} : accept req l s = some .nmi ↔ req = true := by
  cases req with
  | true => simp [accept_nmi]
  | false =>
    simp only [accept, Bool.false_eq_true, if_false]
    split
    · simp
    · split <;> simp

/-! ### The state after the sample (R404, R406) -/

/-- Input, polls and sample change the inputs, the devices and the NMI sample alone. -/
theorem awakened_eq (s : State) :
    awakened s = { s with
      wait := .none, nmiPrev := (awakened s).nmiPrev, serial := (awakened s).serial, sources := (awakened s).sources
      inbox := (awakened s).inbox } := by
  obtain ⟨hpoll, -⟩ := pollAll_frame (nextInput s) (dropInput s)
  simp only [awakened, sampled, polled]
  generalize pollAll (nextInput s) (dropInput s) = p at hpoll ⊢
  rw [hpoll]
  rfl

theorem awakened_cfg (s : State) : (awakened s).cfg = s.cfg := by rw [awakened_eq]
theorem awakened_regs (s : State) : (awakened s).regs = s.regs := by rw [awakened_eq]
theorem awakened_status (s : State) : (awakened s).status = s.status := by rw [awakened_eq]
theorem awakened_mem (s : State) : (awakened s).mem = s.mem := by rw [awakened_eq]

theorem sampled_status (s : State) : (sampled s).status = s.status := awakened_status s

theorem polled_frame (s : State) :
    polled s = { s with serial := (polled s).serial, sources := (polled s).sources, inbox := (polled s).inbox } := by
  obtain ⟨hpoll, -⟩ := pollAll_frame (nextInput s) (dropInput s)
  simp only [polled]
  generalize pollAll (nextInput s) (dropInput s) = p at hpoll ⊢
  rw [hpoll]
  rfl

theorem sampled_wait (s : State) : (sampled s).wait = s.wait := by
  rw [sampled, polled_frame]

/-- The request is a rising line while NMI is armed, as the last iteration left the sample and the arming (R406). -/
theorem nmiRequested_polled (s : State) (l : Lines) :
    nmiRequested l (polled s) = (l.nmi && !s.nmiPrev && s.nmiArmed) := by
  rw [polled_frame, nmiRequested]

/-! ### The cases of an iteration (R400, R409 to R411) -/

section Iteration

variable {s : State}

theorem running_of_iterates (h : Iterates s) : s.status = .running := by
  obtain ⟨hs, -⟩ := h
  exact hs

/-- An iteration that reaches its polls goes on after the sample. -/
theorem step_of_iterates (h : Iterates s) :
    step s = afterSample (nmiRequested (sampleLines (polled s)) (polled s)) (sampleLines (polled s)) (sampled s) := by
  obtain ⟨hs, hc, hstop, habort⟩ := h
  rw [step_of_running hs hc, iterateWith, if_neg (by simp [hstop]), if_neg (by simp [habort])]
  rfl

/-- An awake iteration goes on to the last stages. -/
theorem step_of_awake (h : Iterates s) (ha : Awake s) :
    step s =
      dispatchIteration (nmiRequested (sampleLines (polled s)) (polled s)) (sampleLines (polled s)) (awakened s) := by
  rw [step_of_iterates h]
  obtain hw | ⟨hw, hline⟩ := ha
  · have hnone : sampled s = awakened s := by rw [awakened, ← hw, ← sampled_wait]
    simp only [afterSample, (sampled_wait s).trans hw]
    rw [hnone]
  · simp only [afterSample, (sampled_wait s).trans hw]
    rw [if_pos (by simpa [or_assoc] using hline)]
    rfl

theorem step_of_accepted (h : Iterates s) (ha : Awake s) {e : Event} (he : accepted s = some e) :
    step s = enter e (awakened s) := by
  have hacc : accept _ _ (awakened s) = some e := he
  rw [step_of_awake h ha, dispatchIteration, hacc]

/-- At the trap address nothing is fetched (R411). -/
theorem step_of_trap (h : Iterates s) (ha : Awake s) (hn : accepted s = none) (ht : s.cfg.trapAddr = some s.regs.pc) :
    step s = .next { awakened s with status := .halted .trap } := by
  have hacc : accept _ _ (awakened s) = none := hn
  have htrap : atTrap (awakened s) = true := by simp [atTrap, awakened_cfg, awakened_regs, ht]
  rw [step_of_awake h ha, dispatchIteration, hacc]
  exact if_pos htrap

theorem step_of_fetch (h : Iterates s) (ha : Awake s) (hn : accepted s = none)
    (ht : s.cfg.trapAddr ≠ some s.regs.pc) : step s = executeOne (awakened s) := by
  have hacc : accept _ _ (awakened s) = none := hn
  have htrap : ¬ atTrap (awakened s) = true := by simpa [atTrap, awakened_cfg, awakened_regs] using ht
  rw [step_of_awake h ha, dispatchIteration, hacc]
  exact if_neg htrap

/-- A SYNC wait that no line ends goes on (R409). -/
theorem step_of_sync (h : Iterates s) (hw : s.wait = .sync) (ha : ¬ Awake s) : step s = .next (sampled s) := by
  simp only [step_of_iterates h, afterSample, (sampled_wait s).trans hw]
  exact if_neg fun hany => ha (.inr ⟨hw, by simpa [or_assoc] using hany⟩)

/-- A CWAI wait goes on until an interrupt is accepted (R410). -/
theorem step_of_cwai_waiting (h : Iterates s) (hw : s.wait = .cwai) (hn : accepted s = none) :
    step s = .next (sampled s) := by
  have hacc : accept _ _ (sampled s) = none := hn
  simp only [step_of_iterates h, afterSample, (sampled_wait s).trans hw, hacc]

/-- An accepted interrupt ends a CWAI wait by the short entry (R410, R434). -/
theorem step_of_cwai_accepted (h : Iterates s) (hw : s.wait = .cwai) {e : Event} (he : accepted s = some e) :
    step s = .next (enterFromCwai e (sampled s)) := by
  have hacc : accept _ _ (sampled s) = some e := he
  simp only [step_of_iterates h, afterSample, (sampled_wait s).trans hw, hacc]

end Iteration

/-- Settles O14. -/
theorem waitingIterations : Obligations.WaitingIterations := fun _ h =>
  ⟨step_of_sync h, step_of_cwai_waiting h, fun _ hw he => step_of_cwai_accepted h hw he,
    fun _ ha he => step_of_accepted h ha he⟩

/-! ### The trap address (R411) -/

theorem addCycles_status (n : Nat) (t : State) : (addCycles n t).status = t.status := by
  obtain ⟨c, heq, -⟩ := addCycles_eq n t
  rw [heq]

theorem Evolves.status {s t : State} (h : Evolves s t) : t.status = s.status := by
  obtain ⟨-, hstatus, -⟩ := h.frame
  exact hstatus

/-- An entry leaves the run going, or ends it with the ROM-write fault (R421). -/
theorem enter_status {e : Event} {s t : State} (h : enter e s = .next t) :
    t.status = s.status ∨ ∃ a, t.status = .faulted (.romWrite a) := by
  obtain ⟨n, u, rfl, hu | ⟨v, a, -, -, rfl⟩⟩ := enter_cases h
  · exact .inl ((addCycles_status n u).trans hu.status)
  · exact .inr ⟨a, addCycles_status n _⟩

/-- A wait that goes on, and the entry from CWAI, leave the run going. -/
theorem status_of_not_awake {s t : State} (h : Iterates s) (ha : ¬ Awake s) (hstep : step s = .next t) :
    t.status = s.status := by
  cases hw : s.wait with
  | none => exact absurd (.inl hw) ha
  | sync =>
    obtain rfl := Host.Outcome.next.inj ((step_of_sync h hw ha).symm.trans hstep)
    exact sampled_status s
  | cwai =>
    cases he : accepted s with
    | none =>
      obtain rfl := Host.Outcome.next.inj ((step_of_cwai_waiting h hw he).symm.trans hstep)
      exact sampled_status s
    | some e =>
      obtain rfl := Host.Outcome.next.inj ((step_of_cwai_accepted h hw he).symm.trans hstep)
      exact (evolves_vectorTo e (sampled s)).status.trans (sampled_status s)

/-- Settles O9: the trap is the stage after the entry, and a wait ends the iteration before both. -/
theorem trapAddressHaltsBeforeTheFetch : Obligations.TrapAddressHaltsBeforeTheFetch := by
  refine fun s h ht => ⟨fun ha hn => step_of_trap h ha hn ht, fun e ha he t hstep htrap => ?_, fun ha t hstep => ?_⟩
  · rw [step_of_accepted h ha he] at hstep
    obtain hst | ⟨a, hst⟩ := enter_status hstep
    · rw [htrap, awakened_status, running_of_iterates h] at hst
      cases hst
    · rw [htrap] at hst
      cases hst
  · exact (status_of_not_awake h ha hstep).trans (running_of_iterates h)

/-! ### One instruction, or none (R412, R414, R420) -/

/-- Cycles are added to a run that goes on, and to no other (R414). -/
theorem addCycles_eq_ite (n : Nat) (t : State) :
    addCycles n t = if t.status = .running then { t with cycles := t.cycles + n } else t := by
  unfold addCycles
  split
  case h_1 h => rw [if_pos h]
  case h_2 h => rw [if_neg h]

/-- Settles O5. -/
theorem stepRunsTheDecodedInstruction : Obligations.StepRunsTheDecodedInstruction := by
  intro s i rest h ha hn ht hf
  obtain ⟨t, hexec, -⟩ := exec_cases i (fetch (countFetch (awakened s))).state
  refine ⟨t, hexec, ?_⟩
  rw [step_of_fetch h ha hn ht, ← addCycles_eq_ite]
  simp only [executeOne, hf, hexec, chargeCycles]

theorem executeOne_of_error {s : State} {e : DecodeError} (h : (fetch (countFetch s)).answer = .error e) :
    executeOne s = .next (raiseInvalid (fetch (countFetch s)).bytes (fetch (countFetch s)).state) := by
  simp only [executeOne, h]

theorem countFetch_awakened_regs (s : State) : (countFetch (awakened s)).regs = s.regs := by
  rw [countFetch_eq]
  exact awakened_regs s

theorem countFetch_awakened_status (s : State) : (countFetch (awakened s)).status = s.status := by
  rw [countFetch_eq]
  exact awakened_status s

theorem countFetch_awakened_mem (s : State) : (countFetch (awakened s)).mem = s.mem := by
  rw [countFetch_eq]
  exact awakened_mem s

theorem countFetch_awakened_peek (s : State) (a : Word) : (countFetch (awakened s)).peek a = s.peek a := by
  refine peek_congr ?_ (countFetch_awakened_mem s) a
  rw [countFetch_eq]
  exact awakened_cfg s

/-- Settles O7: the fetch reads up to the byte that makes the encoding invalid, and its reads are all that happens. -/
theorem invalidInstructionEndsTheRun : Obligations.InvalidInstructionEndsTheRun := by
  intro s h ha hn ht p f
  have hregs : p.regs = s.regs := countFetch_awakened_regs s
  have hrun : p.status = .running := (countFetch_awakened_status s).trans (running_of_iterates h)
  have hstep : ∀ e, f.answer = .error e → step s = .next (raiseInvalid f.bytes f.state) := fun e he =>
    (step_of_fetch h ha hn ht).trans (executeOne_of_error he)
  refine ⟨fun e he => ?_, fun bs e hbs hpeek => ?_⟩
  · obtain ⟨hread, hdecode, hsettled, hfront⟩ := fetch_spec p
    have hf : OnlyReads p f.state := fetch_onlyReads p
    have hans : decode f.bytes = .error e := hdecode.symm.trans he
    refine ⟨⟨fun htrunc => hsettled (he.trans (congrArg _ htrunc)), hans, hfront⟩, hregs ▸ hread,
      raiseInvalid f.bytes f.state, hstep e he, ?_, hf.regs.trans hregs, hf.mem.trans (countFetch_awakened_mem s), ?_,
      hf⟩
    · simp only [raiseInvalid, hf.regs, hregs]
    · rw [← hrun, ← hf.status]
      rfl
  · obtain ⟨htrunc, hdecode, hfront⟩ := hbs
    have hfetch : f = { bytes := bs, answer := decode bs, state := p } :=
      fetch_of_peek (by simp [hdecode, htrunc]) hfront fun k hk => by
        rw [countFetch_awakened_peek, hregs]
        exact hpeek k hk
    have hstop := hstep e (by rw [hfetch, hdecode])
    rw [hfetch] at hstop
    rw [hstop, raiseInvalid, hregs]

/-! ### The NMI line (R405, R406, R456) -/

theorem lineLevel_reads (p : State) (b : Option DeviceId) : LineReads p b (lineLevel p b) := by
  refine ⟨?_, ?_, fun k now later hb hk => ?_, fun k sigma hb hk => ?_⟩
  · rintro rfl
    rfl
  · rintro rfl
    rfl
  · simp only [hb, lineLevel, hk, PureSource.asserted]
  · simp only [hb, lineLevel, hk, PureSource.asserted]

theorem addCycles_nmiPrev (n : Nat) (t : State) : (addCycles n t).nmiPrev = t.nmiPrev := by
  obtain ⟨c, heq, -⟩ := addCycles_eq n t
  rw [heq]

theorem Evolves.nmiPrev {s t : State} (h : Evolves s t) : t.nmiPrev = s.nmiPrev := by
  obtain ⟨-, -, -, hprev, -⟩ := h.frame
  exact hprev

theorem ExecCase.nmiPrev {i : Instr} {s t : State} (h : ExecCase i s t) : t.nmiPrev = s.nmiPrev := by
  cases h with
  | effect h => exact h.nmiPrev
  | sync => rfl
  | cwai _ _ h => exact (h.nmiPrev :)
  | romWrite _ h => exact (h.nmiPrev :)
  | invalid => rfl

theorem enter_nmiPrev {e : Event} {s t : State} (h : enter e s = .next t) : t.nmiPrev = s.nmiPrev := by
  obtain ⟨n, u, rfl, hu | ⟨v, a, hv, -, rfl⟩⟩ := enter_cases h
  · exact (addCycles_nmiPrev n u).trans hu.nmiPrev
  · exact (addCycles_nmiPrev n _).trans hv.nmiPrev

theorem executeOne_nmiPrev {s t : State} (h : executeOne s = .next t) : t.nmiPrev = s.nmiPrev := by
  obtain ⟨f, hf, hcases⟩ := executeOne_cases h
  have hfetch : f.nmiPrev = s.nmiPrev := by rw [hf.nmiPrev, countFetch_eq]
  obtain ⟨bs, rfl⟩ | ⟨i, n, u, -, hu, rfl⟩ := hcases
  · exact hfetch
  · exact ((addCycles_nmiPrev n u).trans hu.nmiPrev).trans hfetch

/-- No stage after the sample changes what it recorded. -/
theorem afterSample_nmiPrev {r : Bool} {l : Lines} {s t : State} (h : afterSample r l s = .next t) :
    t.nmiPrev = s.nmiPrev := by
  obtain ⟨-, rfl⟩ | ⟨-, e, -, rfl⟩ | ⟨-, hd⟩ := afterSample_cases h
  · rfl
  · exact (evolves_vectorTo e s).nmiPrev
  · obtain ⟨e, -, he⟩ | ⟨-, -, rfl⟩ | ⟨-, -, hx⟩ := dispatchIteration_cases hd
    · exact (enter_nmiPrev he :)
    · rfl
    · exact (executeOne_nmiPrev hx :)

/-- Settles O12. -/
theorem everyIterationRecordsTheNmiLine : Obligations.EveryIterationRecordsTheNmiLine := by
  refine ⟨fun p => ⟨lineLevel_reads p _, lineLevel_reads p _, lineLevel_reads p _⟩, fun s t h hstep => ?_⟩
  constructor
  · rw [step_of_iterates h] at hstep
    exact afterSample_nmiPrev hstep
  · rw [accepted, accept_eq_nmi_iff, nmiRequested_polled]
    simp [and_assoc]

/-! ### Polls (R404) -/

/-- A poll round over a list polls a device once, when it is in the list and was not polled before: said of what the
device's poll changes, which the polls of the others leave alone. -/
theorem pollList_once {α : Type} {h : HostInput} {d : DeviceId} {view : State → α} {poll : α → α}
    (hown : ∀ s, view (pollOne h d s) = poll (view s)) (hother : ∀ e s, e ≠ d → view (pollOne h e s) = view s)
    (ds seen : List DeviceId) (s : State) :
    view (pollList h seen ds s) = if d ∈ ds ∧ d ∉ seen then poll (view s) else view s := by
  induction ds generalizing seen s with
  | nil => simp [pollList]
  | cons e ds ih =>
    unfold pollList
    by_cases he : e = d
    · subst he
      split
      case isTrue hseen => simp [ih, hseen]
      case isFalse hseen => simp [ih, hseen, hown]
    · split
      case isTrue hseen => simp [ih, Ne.symm he]
      case isFalse hseen => simp [ih, Ne.symm he, hother e s he]

theorem pollList_serial (h : HostInput) (ds : List DeviceId) (s : State) :
    (pollList h [] ds s).serial = if DeviceId.serial ∈ ds then s.serial.poll h else s.serial := by
  have hother : ∀ e s, e ≠ DeviceId.serial → (pollOne h e s).serial = s.serial := by
    intro e s he
    cases e with
    | serial => exact absurd rfl he
    | memory k => rfl
    | source k => rfl
  simpa using pollList_once (view := State.serial) (poll := (Serial.poll · h)) (fun _ => rfl) hother ds [] s

theorem pollList_source (h : HostInput) (k : Nat) (ds : List DeviceId) (s : State) :
    (pollList h [] ds s).sources[k]? =
      if DeviceId.source k ∈ ds then (s.sources[k]?).map (PureSource.poll k h) else s.sources[k]? := by
  have hown : ∀ s, (pollOne h (.source k) s).sources[k]? = (s.sources[k]?).map (PureSource.poll k h) := by
    intro s
    simp [pollOne]
  have hother : ∀ e s, e ≠ DeviceId.source k → (pollOne h e s).sources[k]? = s.sources[k]? := by
    intro e s he
    cases e with
    | serial => rfl
    | memory j => rfl
    | source j =>
      have hj : j ≠ k := fun hjk => he (congrArg _ hjk)
      simp [pollOne, hj]
  simpa using pollList_once (view := fun s => s.sources[k]?) hown hother ds [] s

/-- Settles O13: a device is polled at its first place in the lists. -/
theorem eachDeviceIsPolledOnce : Obligations.EachDeviceIsPolledOnce := by
  intro h s ds
  obtain ⟨hframe, -⟩ := pollAll_frame h s
  exact ⟨pollList_serial h ds s, fun k => pollList_source h k ds s, hframe⟩

end Sys2Proof.Machine
end

section
/-! PROOF. Entering an interrupt or software interrupt and returning (spec/47_system.md R380 to R384,
spec/60_exceptions.md R423, R430 to R436): the masks and the vector, the frame pushed from any registers, and a frame in
RAM read back. -/

namespace Sys2Proof.Machine

open Sys2Proof.Claims

/-! ### The masks and the vector (R423, R434) -/

/-- CC after the masks of an event. -/
def Event.masked (e : Event) (cc : Byte) : Byte :=
  let cc := if e.masksI then ccSet cc .i true else cc
  if e.masksF then ccSet cc .f true else cc

theorem Event.ccGet_masked (e : Event) (cc : Byte) (j : Flag) :
    ccGet (e.masked cc) j = (ccGet cc j || (decide (j = .i) && e.masksI) || (decide (j = .f) && e.masksF)) := by
  cases hi : e.masksI <;> cases hf : e.masksF <;> cases j <;> simp [Event.masked, hi, hf]

theorem Event.masked_onlyFlags (e : Event) (cc : Byte) : OnlyFlags [.i, .f] cc (e.masked cc) := by
  intro j hj
  simp only [List.mem_cons, List.not_mem_nil, or_false, not_or] at hj
  obtain ⟨hi, hf⟩ := hj
  simp [Event.ccGet_masked, hi, hf]

theorem maskIf_maskIf (e : Event) (s : State) :
    (s.maskIf e.masksI .i).maskIf e.masksF .f = { s with regs := { s.regs with cc := e.masked s.regs.cc } } := by
  cases hi : e.masksI <;> cases hf : e.masksF <;> simp [State.maskIf, Event.masked, hi, hf] <;> rfl

/-- The vector is read through the bus, and nothing but CC and PC is written. -/
theorem vectorTo_eq (e : Event) (s : State) :
    vectorTo e s =
      let v := s.read16 e.vector
      { v.2 with regs := { s.regs with cc := e.masked s.regs.cc, pc := v.1 } } := by
  simp only [vectorTo, maskIf_maskIf, read16_withRegs]
  rfl

/-- NMI, FIRQ and IRQ mask I, and the first two F. -/
theorem event_of_cwaiEntry {e : Event} {vector : Word} {setF : Bool}
    (h : (e, vector, setF) ∈ [(Event.nmi, 0xFFFC#16, true), (.firq, 0xFFF6#16, true), (.irq, 0xFFF8#16, false)]) :
    e.vector = vector ∧ e.masksI = true ∧ e.masksF = setF := by
  simp only [List.mem_cons, Prod.mk.injEq, List.not_mem_nil, or_false] at h
  obtain ⟨rfl, rfl, rfl⟩ | ⟨rfl, rfl, rfl⟩ | ⟨rfl, rfl, rfl⟩ := h
  · exact ⟨rfl, rfl, rfl⟩
  · exact ⟨rfl, rfl, rfl⟩
  · exact ⟨rfl, rfl, rfl⟩

/-- Settles O16. -/
theorem entryFromCwai : Obligations.EntryFromCwai := by
  intro s e vector setF hmem
  obtain ⟨rfl, hi, rfl⟩ := event_of_cwaiEntry hmem
  refine ⟨e.masked s.regs.cc, ?_, ?_, ?_, e.masked_onlyFlags _⟩
  · rw [enterFromCwai, vectorTo_eq]
  · simp [Event.ccGet_masked, hi]
  · simp [Event.ccGet_masked, Bool.or_comm]

/-! ### The frame (R430 to R435, R380 to R382) -/

theorem ccGet_withE (b : Bool) (cc : Byte) (j : Flag) : ccGet (withE b cc) j = if j = .e then b else ccGet cc j := by
  rw [← ccSet_e, ccGet_ccSet]

/-- The items an event stacks from the registers g, in push order. -/
def Event.frame (e : Event) (g : Regs) : List StackItem :=
  (if e.entire then entireFrame else shortFrame) { g with cc := withE e.entire g.cc }

/-- Taking an event from the registers g where its frame `is` takes writes: the frame written, S below it, CC with E and
the masks, and PC the word v at the vector, read after the frame is written. -/
theorem takeException_withRegs {e : Event} {s : State} {g : Regs} {is : List StackItem} (his : e.frame g = is)
    (hw : s.Writable (pushWrites g.s is)) {v : Word × State}
    (hv : (s.storeAll (pushWrites g.s is)).read16 e.vector = v) :
    takeException e { s with regs := g } = .ok { v.2 with regs := { g with
      s := g.s - BitVec.ofNat 16 (itemBytes is), cc := e.masked (withE e.entire g.cc), pc := v.1 } } := by
  subst his hv
  have htake : takeException e { s with regs := g } = _ := takeException_eq hw
  refine htake.trans (congrArg Access.ok ?_)
  refine (congrArg (vectorTo e) (pushed_withRegs .s s { g with cc := withE e.entire g.cc } _)).trans ?_
  rw [vectorTo_eq, read16_withRegs]
  rfl

/-- Reading the vector after the frame is written keeps the storage that the frame does not go to. -/
theorem keepsStorage_read16_storeAll (s : State) (ws : List (Word × Byte)) (a : Word) :
    KeepsStorage s ((s.storeAll ws).read16 a).2 ws :=
  fun b hb => ((read16_onlyReads _ a).peek b).trans (keepsStorage_storeAll s ws b hb)

theorem masked_withE_onlyFlags (e : Event) (b : Bool) (cc : Byte) :
    OnlyFlags [.e, .i, .f] cc (e.masked (withE b cc)) := by
  intro j hj
  simp only [List.mem_cons, List.not_mem_nil, or_false, not_or] at hj
  obtain ⟨he, hi, hf⟩ := hj
  simp [Event.ccGet_masked, ccGet_withE, he, hi, hf]

/-! ### Software interrupts and CWAI (R380 to R382, R384) -/

/-- SWI, SWI2 and SWI3 are the event of their vector, taken with PC at the next instruction. -/
theorem exec_softwareInterrupt {i : Instr} {vector : Word} {masks : Bool}
    (h : (i, vector, masks) ∈ [(Instr.swi, 0xFFFA#16, true), (Instr.swi2, 0xFFF4#16, false),
      (Instr.swi3, 0xFFF2#16, false)]) :
    ∃ e : Event, e.vector = vector ∧ e.entire = true ∧ e.masksI = masks ∧ e.masksF = masks ∧
      ∀ s, exec i s = finish s (takeException e (s.advance i.size)) := by
  simp only [List.mem_cons, Prod.mk.injEq, List.not_mem_nil, or_false] at h
  obtain ⟨rfl, rfl, rfl⟩ | ⟨rfl, rfl, rfl⟩ | ⟨rfl, rfl, rfl⟩ := h
  · exact ⟨.swi, rfl, rfl, rfl, rfl, fun _ => rfl⟩
  · exact ⟨.swi2, rfl, rfl, rfl, rfl, fun _ => rfl⟩
  · exact ⟨.swi3, rfl, rfl, rfl, rfl, fun _ => rfl⟩

theorem Event.frame_of_entire {e : Event} (h : e.entire = true) (g : Regs) :
    e.frame g = entireFrame { g with cc := withE true g.cc } := by
  rw [Event.frame, h, if_pos rfl]

theorem itemBytes_entireFrame (g : Regs) : itemBytes (entireFrame g) = 12 := rfl

theorem itemBytes_shortFrame (g : Regs) : itemBytes (shortFrame g) = 3 := rfl

/-- Settles O53. -/
theorem softwareInterrupts : Obligations.SoftwareInterrupts := by
  intro i vector masks hmem s g ws v hw
  obtain ⟨e, rfl, hentire, hi, hf, hexec⟩ := exec_softwareInterrupt hmem
  have htake : takeException e (s.advance i.size) = _ :=
    takeException_withRegs (g := { s.regs with pc := s.regs.pc + BitVec.ofNat 16 i.size })
      (e.frame_of_entire hentire _) hw (v := v) rfl
  refine ⟨e.masked (withE true s.regs.cc), ?_, ?_, ?_, ?_, masked_withE_onlyFlags e true _,
    keepsStorage_read16_storeAll s ws _⟩
  · clear_value v
    rw [hexec, htake, hentire, itemBytes_entireFrame]
    rfl
  · simp [Event.ccGet_masked, ccGet_withE]
  · simp [Event.ccGet_masked, ccGet_withE, hi, Bool.or_comm]
  · simp [Event.ccGet_masked, ccGet_withE, hf, Bool.or_comm]

/-- The entire frame pushed from the registers g, where it takes writes. -/
theorem pushEntire_withRegs {s : State} {g : Regs} (hw : s.Writable (pushWrites g.s (entireFrame g))) :
    pushEntire { s with regs := g } =
      .ok { s.storeAll (pushWrites g.s (entireFrame g)) with regs := { g with s := g.s - 12 } } := by
  have hpush : pushEntire { s with regs := g } = _ := pushEntire_eq hw
  exact hpush.trans (congrArg Access.ok (pushed_withRegs .s s g _))

/-! ### Interrupt entries (R431 to R433) -/

/-- NMI, FIRQ and IRQ are the events of R431 to R433, row by row. -/
theorem event_of_interrupt {e : Event} {vector : Word} {frame : Regs → List StackItem} {setE setF : Bool} {cycles : Nat}
    (h : (e, vector, frame, setE, setF, cycles) ∈
      [(Event.nmi, 0xFFFC#16, entireFrame, true, true, 19), (.firq, 0xFFF6#16, shortFrame, false, true, 10),
       (.irq, 0xFFF8#16, entireFrame, true, false, 19)]) :
    e.vector = vector ∧ (∀ g, e.frame g = frame { g with cc := withE setE g.cc }) ∧ e.entire = setE ∧
      e.masksI = true ∧ e.masksF = setF ∧ entryCycles e = cycles := by
  simp only [List.mem_cons, Prod.mk.injEq, List.not_mem_nil, or_false] at h
  obtain ⟨rfl, rfl, rfl, rfl, rfl, rfl⟩ | ⟨rfl, rfl, rfl, rfl, rfl, rfl⟩ | ⟨rfl, rfl, rfl, rfl, rfl, rfl⟩ := h
  · exact ⟨rfl, fun _ => rfl, rfl, rfl, rfl, rfl⟩
  · exact ⟨rfl, fun _ => rfl, rfl, rfl, rfl, rfl⟩
  · exact ⟨rfl, fun _ => rfl, rfl, rfl, rfl, rfl⟩

/-- Settles O15: the frame and the vector as for a software interrupt, then the entry's cycles on a run that goes on. -/
theorem interruptEntries : Obligations.InterruptEntries := by
  intro s e vector frame setE setF cycles hmem hrun g ws v hw
  obtain ⟨rfl, hframe, rfl, hi, rfl, rfl⟩ := event_of_interrupt hmem
  have htake : takeException e s = _ := takeException_withRegs (g := s.regs) (hframe _) hw (v := v) rfl
  have hv : OnlyReads (s.storeAll ws) v.2 := read16_onlyReads _ _
  have hstatus : v.2.status = .running := by rw [hv.status, storeAll_spec, hrun]
  have hcycles : v.2.cycles = s.cycles := by rw [hv.cycles, storeAll_spec]
  refine ⟨e.masked (withE e.entire s.regs.cc), ?_, ?_, ?_, fun hf => ?_, ?_, fun hf => ?_,
    keepsStorage_read16_storeAll s ws _⟩
  · rw [enter, htake, finish_ok, chargeCycles, addCycles_of_running, ← hcycles]
    exact hstatus
  · simp [Event.ccGet_masked, hi]
  · simp [Event.ccGet_masked, ccGet_withE]
  · simp [Event.ccGet_masked, hf]
  · intro j hj
    exact masked_withE_onlyFlags e _ _ j (by simpa [and_left_comm] using hj)
  · simp [Event.ccGet_masked, ccGet_withE, hf]

/-! ### RTI (R383) -/

theorem exec_rti (s : State) :
    exec .rti s =
      let e := ccGet (s.read8 s.regs.s).1 .e
      let n := if e then 12 else 3
      let r := s.readBytes s.regs.s n
      .next { r.2 with regs :=
        if e then
          { cc := r.1.getD 0 0, a := r.1.getD 1 0, b := r.1.getD 2 0, dp := r.1.getD 3 0, x := pulledWord r.1 4,
            y := pulledWord r.1 6, u := pulledWord r.1 8, pc := pulledWord r.1 10, s := s.regs.s + 12 }
        else { s.regs with cc := r.1.getD 0 0, pc := pulledWord r.1 1, s := s.regs.s + 3 } } := by
  have hread : (s.advance Instr.rti.size).read8 s.regs.s = _ := read8_withRegs s _ s.regs.s
  refine (runPure_eq .rti s _).trans (congrArg Host.Outcome.next ?_)
  rw [returnFromException_eq]
  simp only [State.advance_regs, hread, readBytes_advance]

/-- Settles O54. -/
theorem returnFromInterrupt : Obligations.ReturnFromInterrupt := by
  intro s e rl rs
  have hl : OnlyReads s rl.2 := readBytes_onlyReads 12 s s.regs.s
  have hs : OnlyReads s rs.2 := readBytes_onlyReads 3 s s.regs.s
  refine ⟨fun he => ?_, fun he => ?_, hl, hs, hl.peek, hs.peek⟩
  · have he' : ccGet (s.read8 s.regs.s).1 .e = true := he
    simp only [exec_rti, he', if_true]
    rfl
  · have he' : ccGet (s.read8 s.regs.s).1 .e = false := he
    simp only [exec_rti, he', Bool.false_eq_true, if_false]
    rfl

/-! ### A frame in RAM reads back (R436) -/

/-- The bytes of an item in the order of their addresses. -/
def StackItem.bytes : StackItem → List Byte
  | .byte v => [v]
  | .word w => [hiByte w, loByte w]

/-- The bytes of pushed items in the order of their addresses, the last item pushed at the lowest. -/
def frameBytes : List StackItem → List Byte
  | [] => []
  | i :: is => frameBytes is ++ i.bytes

theorem itemBytes_cons (i : StackItem) (is : List StackItem) : itemBytes (i :: is) = i.size + itemBytes is := by
  simp [itemBytes]

theorem length_frameBytes (is : List StackItem) : (frameBytes is).length = itemBytes is := by
  induction is with
  | nil => rfl
  | cons i is ih =>
    rw [frameBytes, List.length_append, ih, itemBytes_cons, Nat.add_comm]
    cases i <;> rfl

/-- An item's bytes are written from the address it moves the stack pointer to. -/
theorem mem_item_writes (i : StackItem) (sp : Word) {k : Nat} (hk : k < i.bytes.length) :
    (sp - BitVec.ofNat 16 i.size + BitVec.ofNat 16 k, i.bytes[k]) ∈ i.writes sp := by
  cases i with
  | byte v =>
    obtain rfl : k = 0 := by simpa [StackItem.bytes] using hk
    simp [StackItem.bytes, StackItem.writes, StackItem.size]
  | word w =>
    have hlow : sp - 2#16 + 1#16 = sp - 1 := by bv_omega
    obtain rfl | rfl : k = 0 ∨ k = 1 := by simp [StackItem.bytes] at hk; omega
    · simp [StackItem.bytes, StackItem.writes, StackItem.size, hiByte]
    · simp [StackItem.bytes, StackItem.writes, StackItem.size, loByte, hlow]

/-- Pushed items put their bytes at the addresses from the final stack pointer up. -/
theorem mem_pushWrites (is : List StackItem) (sp : Word) {k : Nat} (hk : k < (frameBytes is).length) :
    (sp - BitVec.ofNat 16 (itemBytes is) + BitVec.ofNat 16 k, (frameBytes is)[k]) ∈ pushWrites sp is := by
  induction is generalizing sp k with
  | nil => exact absurd hk (Nat.not_lt_zero k)
  | cons i is ih =>
    rw [itemBytes_cons, ← ofNat16_sub_sub, pushWrites, List.mem_append]
    simp only [frameBytes, List.getElem_append]
    split
    case isTrue hlt => exact .inr (ih _ hlt)
    case isFalse hge =>
      simp only [frameBytes, List.length_append] at hk
      have haddr : sp - BitVec.ofNat 16 i.size - BitVec.ofNat 16 (itemBytes is) + BitVec.ofNat 16 k =
          sp - BitVec.ofNat 16 i.size + BitVec.ofNat 16 (k - (frameBytes is).length) := by
        rw [length_frameBytes] at hge ⊢
        obtain ⟨j, rfl⟩ := Nat.exists_eq_add_of_le (Nat.not_lt.1 hge)
        rw [Nat.add_sub_cancel_left, BitVec.ofNat_add, ← BitVec.add_assoc, BitVec.sub_add_cancel]
      rw [haddr]
      exact .inl (mem_item_writes i sp (by omega))

/-- Pushed items are written below the stack pointer, within their bytes. -/
theorem address_of_mem_pushWrites {is : List StackItem} {sp : Word} {w : Word × Byte} (hw : w ∈ pushWrites sp is) :
    ∃ k, 1 ≤ k ∧ k ≤ itemBytes is ∧ w.1 = sp - BitVec.ofNat 16 k := by
  induction is generalizing sp with
  | nil => cases hw
  | cons i is ih =>
    rw [itemBytes_cons]
    obtain hi | his := List.mem_append.1 hw
    · cases i with
      | byte v =>
        obtain rfl := List.mem_singleton.1 hi
        exact ⟨1, le_rfl, Nat.le_add_right _ _, rfl⟩
      | word v =>
        simp only [StackItem.writes, List.mem_cons, List.not_mem_nil, or_false] at hi
        obtain rfl | rfl := hi
        · exact ⟨2, by omega, Nat.le_add_right _ _, rfl⟩
        · exact ⟨1, le_rfl, (Nat.le_succ 1).trans (Nat.le_add_right _ _), rfl⟩
    · obtain ⟨k, h1, hk, haddr⟩ := ih his
      exact ⟨i.size + k, by omega, by omega, by rw [haddr, ofNat16_sub_sub]⟩

section Ram

variable {c : Config} {sp : Word}

/-- Fewer bytes, from the top on. -/
theorem ramBelow_left {m n : Nat} (h : RamBelow c sp (m + n)) : RamBelow c sp m := by
  obtain ⟨hram, hsep⟩ := h
  exact ⟨fun k h1 hk => hram k h1 (by omega), fun j k h1 hjk hk => hsep j k h1 hjk (by omega)⟩

/-- Fewer bytes, from the bottom on. -/
theorem ramBelow_right {m n : Nat} (h : RamBelow c sp (m + n)) : RamBelow c (sp - BitVec.ofNat 16 m) n := by
  obtain ⟨hram, hsep⟩ := h
  refine ⟨fun k h1 hk => ?_, fun j k h1 hjk hk => ?_⟩
  · rw [ofNat16_sub_sub]
    exact hram (m + k) (by omega) (by omega)
  · rw [ofNat16_sub_sub, ofNat16_sub_sub]
    exact hsep (m + j) (m + k) (by omega) (by omega) (by omega)

theorem ram_of_mem_pushWrites {is : List StackItem} (h : RamBelow c sp (itemBytes is)) {w : Word × Byte}
    (hw : w ∈ pushWrites sp is) : ∃ key, place c w.1 = .cell .ram key := by
  obtain ⟨hram, -⟩ := h
  obtain ⟨k, h1, hk, haddr⟩ := address_of_mem_pushWrites hw
  rw [haddr]
  exact hram k h1 hk

/-- Items pushed into RAM, no two of whose bytes are the same byte, are written to bytes that do not meet. -/
theorem pushWrites_pairwise_separate {is : List StackItem} (h : RamBelow c sp (itemBytes is)) :
    (pushWrites sp is).Pairwise fun w v => Separate c w.1 v.1 := by
  induction is generalizing sp with
  | nil => exact .nil
  | cons i is ih =>
    rw [itemBytes_cons] at h
    refine List.pairwise_append.2 ⟨?_, ih (ramBelow_right h), fun w hw v hv => ?_⟩
    · obtain ⟨-, hsep⟩ := ramBelow_left h
      cases i with
      | byte v => exact List.pairwise_singleton _ _
      | word v => simpa [StackItem.writes] using (hsep 1 2 le_rfl (by omega) le_rfl).symm
    · obtain ⟨-, hsep⟩ := h
      obtain ⟨j, h1, hj, hwaddr⟩ := address_of_mem_pushWrites (is := [i]) (List.mem_append_left _ hw)
      obtain ⟨k, h1', hk, hvaddr⟩ := address_of_mem_pushWrites hv
      rw [itemBytes_cons, show itemBytes [] = 0 from rfl] at hj
      rw [hwaddr, hvaddr, ofNat16_sub_sub]
      exact hsep j (i.size + k) h1 (by omega) (by omega)

end Ram

/-- Bytes written to RAM places that do not meet read back (R83). -/
theorem peek_storeAll_of_mem {s : State} {ws : List (Word × Byte)} (hm : s.mem.wf)
    (hsep : ws.Pairwise fun w v => Separate s.cfg w.1 v.1) (hram : ∀ w ∈ ws, ∃ key, place s.cfg w.1 = .cell .ram key)
    {w : Word × Byte} (hw : w ∈ ws) : (s.storeAll ws).peek w.1 = some w.2 := by
  induction ws generalizing s with
  | nil => cases hw
  | cons x xs ih =>
    obtain ⟨hx, hxs⟩ := List.pairwise_cons.1 hsep
    obtain ⟨⟨key, hkey⟩, hrest⟩ := List.forall_mem_cons.1 hram
    rw [storeAll_cons]
    obtain rfl | hw := List.mem_cons.1 hw
    · rw [keepsStorage_storeAll _ xs w.1 fun v hv => by rw [store8_cfg]; exact (hx v hv).symm]
      exact peek_store8_same hm hkey w.2
    · exact ih (store8_wf hm _ _) (by rwa [store8_cfg]) (by rwa [store8_cfg]) hw

/-- Items pushed into RAM are read back from the final stack pointer on. -/
theorem readBytes_of_pushed {s t : State} {sp : Word} {is : List StackItem} (hm : s.mem.wf)
    (h : RamBelow s.cfg sp (itemBytes is)) (hcfg : t.cfg = s.cfg) (hmem : t.mem = (s.storeAll (pushWrites sp is)).mem) :
    t.readBytes (sp - BitVec.ofNat 16 (itemBytes is)) (itemBytes is) = (frameBytes is, t) := by
  rw [← length_frameBytes]
  refine readBytes_of_peek _ t _ fun k hk => ?_
  rw [peek_congr (hcfg.trans (storeAll_cfg s _).symm) hmem, length_frameBytes]
  exact peek_storeAll_of_mem hm (pushWrites_pairwise_separate h) (fun w => ram_of_mem_pushWrites h)
    (mem_pushWrites is sp hk)

/-! ### RTI after an entry (R436) -/

/-- The CC byte that RTI pulls is the byte at S. -/
theorem getD_readBytes_zero {n : Nat} (hn : 0 < n) (s : State) (a : Word) :
    (s.readBytes a n).1.getD 0 0 = (s.read8 a).1 := by
  rw [readBytes_getD hn]
  simp [State.readBytes]

/-- RTI from a frame whose CC has E = 1. -/
theorem exec_rti_entire {s t : State} {bs : List Byte} (hr : s.readBytes s.regs.s 12 = (bs, t))
    (he : ccGet (bs.getD 0 0) .e = true) :
    exec .rti s = .next { t with regs :=
      { cc := bs.getD 0 0, a := bs.getD 1 0, b := bs.getD 2 0, dp := bs.getD 3 0, x := pulledWord bs 4,
        y := pulledWord bs 6, u := pulledWord bs 8, pc := pulledWord bs 10, s := s.regs.s + 12 } } := by
  have hcc := getD_readBytes_zero (n := 12) (by omega) s s.regs.s
  rw [hr] at hcc
  rw [hcc] at he
  simp only [exec_rti, he, if_true, hr]

/-- RTI from a frame whose CC has E = 0. -/
theorem exec_rti_short {s t : State} {bs : List Byte} (hr : s.readBytes s.regs.s 3 = (bs, t))
    (he : ccGet (bs.getD 0 0) .e = false) :
    exec .rti s = .next { t with regs :=
      { s.regs with cc := bs.getD 0 0, pc := pulledWord bs 1, s := s.regs.s + 3 } } := by
  have hcc := getD_readBytes_zero (n := 3) (by omega) s s.regs.s
  rw [hr] at hcc
  rw [hcc] at he
  simp only [exec_rti, he, Bool.false_eq_true, if_false, hr]

/-- The configuration, the storage and S after an entry whose frame is in RAM. -/
theorem enter_pushed {s t : State} {e : Event} (h : RamBelow s.cfg s.regs.s (itemBytes (e.frame s.regs)))
    (he : enter e s = .next t) :
    t.cfg = s.cfg ∧ t.mem = (s.storeAll (pushWrites s.regs.s (e.frame s.regs))).mem ∧
      t.regs.s = s.regs.s - BitVec.ofNat 16 (itemBytes (e.frame s.regs)) := by
  have hw : s.Writable (pushWrites s.regs.s (e.frame s.regs)) := fun w hw => by
    obtain ⟨key, hkey⟩ := ram_of_mem_pushWrites h hw
    simp only [State.romFaults, hkey]
  have htake : takeException e s = _ := takeException_withRegs (g := s.regs) rfl hw rfl
  generalize hv : (s.storeAll (pushWrites s.regs.s (e.frame s.regs))).read16 e.vector = v at htake
  have hreads : OnlyReads (s.storeAll (pushWrites s.regs.s (e.frame s.regs))) v.2 := by
    rw [← hv]
    exact read16_onlyReads _ _
  rw [enter, htake, finish_ok, chargeCycles] at he
  obtain rfl := Host.Outcome.next.inj he
  obtain ⟨n, heq, -⟩ := addCycles_eq (entryCycles e) { v.2 with regs := { s.regs with
    s := s.regs.s - BitVec.ofNat 16 (itemBytes (e.frame s.regs))
    cc := e.masked (withE e.entire s.regs.cc), pc := v.1 } }
  rw [heq]
  exact ⟨hreads.cfg.trans (storeAll_cfg _ _), hreads.mem, rfl⟩

/-- Where the frame of an entry is in RAM, a state with the configuration, the storage and S of the entry reads it
back. -/
theorem readBytes_after_enter {s t h : State} {e : Event} (hm : s.mem.wf)
    (hram : RamBelow s.cfg s.regs.s (itemBytes (e.frame s.regs))) (he : enter e s = .next t) (hcfg : h.cfg = t.cfg)
    (hmem : h.mem = t.mem) (hs : h.regs.s = t.regs.s) :
    h.regs.s = s.regs.s - BitVec.ofNat 16 (itemBytes (e.frame s.regs)) ∧
      h.readBytes h.regs.s (itemBytes (e.frame s.regs)) = (frameBytes (e.frame s.regs), h) := by
  obtain ⟨htcfg, htmem, hts⟩ := enter_pushed hram he
  have hsp := hs.trans hts
  refine ⟨hsp, ?_⟩
  rw [hsp]
  exact readBytes_of_pushed hm hram (hcfg.trans htcfg) (hmem.trans htmem)

/-- A word pushed is the word pulled. -/
theorem append_hiByte_loByte (w : Word) : hiByte w ++ loByte w = w := wordOf_hiByte_loByte w

/-- Settles O17: RTI reads back the frame of the entry, whose E says which of its two forms it is. -/
theorem returnResumesTheInterruptedProgram : Obligations.ReturnResumesTheInterruptedProgram := by
  intro s t h e hm _ henter hcfg hmem hs
  refine ⟨fun he hram => ?_, fun he hram => ?_⟩
  · have hentire : e.entire = true := by obtain rfl | rfl := he <;> rfl
    have hframe := e.frame_of_entire hentire s.regs
    obtain ⟨hsp, hread⟩ := readBytes_after_enter hm (by rw [hframe]; exact hram) henter hcfg hmem hs
    rw [hframe, itemBytes_entireFrame] at hsp hread
    have hE : ccGet (withE true s.regs.cc) .e = true := ccGet_withE true _ .e
    refine ⟨_, exec_rti_entire hread hE, ?_⟩
    simp [frameBytes, entireFrame, StackItem.bytes, pulledWord, append_hiByte_loByte, hsp]
  · subst he
    have hframe : Event.firq.frame s.regs = shortFrame { s.regs with cc := withE false s.regs.cc } := rfl
    obtain ⟨hsp, hread⟩ := readBytes_after_enter hm (by rw [hframe]; exact hram) henter hcfg hmem hs
    rw [hframe, itemBytes_shortFrame] at hsp hread
    have hE : ccGet (withE false s.regs.cc) .e = false := ccGet_withE false _ .e
    refine ⟨_, exec_rti_short hread hE, ?_⟩
    simp [frameBytes, shortFrame, StackItem.bytes, pulledWord, append_hiByte_loByte, hsp]

end Sys2Proof.Machine

namespace Sys2Proof

open Sys2Proof.Machine

/-- Settles O55: the push is made from the registers with the new CC and PC past the instruction. -/
theorem clearAndWait : Obligations.ClearAndWait := by
  intro ii s g ws hw
  refine ⟨?_, keepsStorage_storeAll s ws⟩
  have hcc : ccSet (s.regs.cc &&& ii) .e true = withE true (s.regs.cc &&& ii) := ccSet_e _ true
  have hexec : exec (.cwai ii) s = finish s ((pushEntire { s with regs := g }).andThen
      fun t => .ok { t with wait := .cwai }) := by
    simp only [g, ← hcc]
    rfl
  have hpush : pushEntire { s with regs := g } = .ok { s.storeAll ws with regs := { g with s := g.s - 12 } } :=
    pushEntire_withRegs hw
  rw [hexec, hpush]
  generalize s.storeAll ws = u
  rfl

end Sys2Proof
end

section
/-! PROOF. What an instruction leaves alone and how the ROM-write fault ends one (spec/60_exceptions.md R412, R413,
R421, spec/20_memory.md R82): the cases of `exec_cases` read off for each field, and `FaultsAt`, the outcome of a write
that faults, for every operation that writes. -/

namespace Sys2Proof.Machine

open Sys2Proof.Claims

/-! ### Confinement (R413, R46, R10) -/

/-- The fields that the stages around an instruction own and no instruction changes are the same in both states. -/
def KeepsOuterFields (s t : State) : Prop :=
  t.cfg = s.cfg ∧ t.nmiPrev = s.nmiPrev ∧ t.sources = s.sources ∧ t.inbox = s.inbox ∧ t.cycles = s.cycles ∧
    t.execCount = s.execCount

theorem Evolves.keepsOuterFields {s t : State} (h : Evolves s t) : KeepsOuterFields s t := by
  obtain ⟨hcfg, -, -, hprev, hcycles, hcounts, hsources, hinbox⟩ := h.frame
  exact ⟨hcfg, hprev, hsources, hinbox, hcycles, hcounts⟩

theorem ExecCase.keepsOuterFields {i : Instr} {s t : State} (h : ExecCase i s t) : KeepsOuterFields s t := by
  cases h with
  | effect h => exact h.keepsOuterFields
  | sync => exact ⟨rfl, rfl, rfl, rfl, rfl, rfl⟩
  | cwai _ _ h => exact h.keepsOuterFields
  | romWrite _ h => exact h.keepsOuterFields
  | invalid => exact ⟨rfl, rfl, rfl, rfl, rfl, rfl⟩

/-- Only SYNC and CWAI begin a wait (R46). -/
theorem ExecCase.wait {i : Instr} {s t : State} (h : ExecCase i s t) :
    t.wait = s.wait ∨ (i = .sync ∧ t.wait = .sync) ∨ ∃ ii, i = .cwai ii ∧ t.wait = .cwai := by
  cases h with
  | effect h => exact .inl h.wait
  | sync hi => exact .inr (.inl ⟨hi, rfl⟩)
  | cwai ii hi => exact .inr (.inr ⟨ii, hi, rfl⟩)
  | romWrite _ h => exact .inl h.wait
  | invalid => exact .inl rfl

/-- Settles O22. -/
theorem instructionsAreConfinedToTheirOwnEffects : Obligations.InstructionsAreConfinedToTheirOwnEffects := by
  intro i s
  obtain ⟨t, hexec, hcase⟩ := exec_cases i s
  obtain ⟨hcfg, hprev, hsources, hinbox, hcycles, hcounts⟩ := hcase.keepsOuterFields
  exact ⟨t, hexec, hcfg, hprev, hsources, hinbox, hcycles, hcounts, hcase.wait⟩

/-! ### The fault names a ROM address (R421, R82) -/

/-- A write faults in ROM, under policy fault, and nowhere else. -/
theorem romFaults_iff {s : State} {a : Word} :
    s.romFaults a = true ↔ s.cfg.romWritePolicy = .fault ∧ ∃ key, place s.cfg a = .cell .rom key := by
  unfold State.romFaults
  split
  case h_1 key hp => simp [hp]
  case h_2 hp => simpa using fun _ => hp

/-- Settles O24: of the answers of `exec_cases` one alone ends a run in the ROM-write fault. -/
theorem romWriteFaultsArePrecise : Obligations.RomWriteFaultsArePrecise := by
  intro i s t a hrun hexec hst
  have ends : t.status ≠ s.status := by
    rw [hst, hrun]
    exact nofun
  cases exec_next hexec with
  | effect h => exact absurd h.status ends
  | sync => exact absurd rfl ends
  | cwai _ _ h => exact absurd h.status ends
  | @romWrite u b h hb =>
    obtain ⟨⟨⟩⟩ := hst
    obtain ⟨hpolicy, hrom⟩ := romFaults_iff.1 hb
    rw [h.cfg] at hpolicy hrom
    exact ⟨rfl, hpolicy, hrom⟩
  | invalid => cases hst

/-! ### Writes that fault (R82, R421) -/

/-- x is the ROM-write fault at a, in the state t but for the registers, which the end of the instruction restores. -/
def FaultsAt (x : Access) (a : Word) (t : State) : Prop := ∃ r, x = .romFault a { t with regs := r }

section Faults

variable {x : Access} {a : Word} {t : State}

/-- Nothing follows a fault. -/
theorem FaultsAt.andThen (h : FaultsAt x a t) (f : State → Access) : FaultsAt (x.andThen f) a t := by
  obtain ⟨r, rfl⟩ := h
  exact ⟨r, rfl⟩

/-- A fault ends the instruction or the entry with the registers of its start. -/
theorem FaultsAt.finish (h : FaultsAt x a t) (s : State) :
    finish s x = .next { t with regs := s.regs, status := .faulted (.romWrite a) } := by
  obtain ⟨r, rfl⟩ := h
  rfl

end Faults

theorem faultsAt_write8 {s : State} {a : Word} (h : s.romFaults a = true) (r : Regs) (v : Byte) :
    FaultsAt (State.write8 { s with regs := r } a v) a s :=
  ⟨r, write8_of_romFaults (s := { s with regs := r }) h v⟩

theorem faultsAt_write16_high {s : State} {a : Word} (h : s.romFaults a = true) (r : Regs) (w : Word) :
    FaultsAt (State.write16 { s with regs := r } a w) a s :=
  (faultsAt_write8 h r _).andThen _

/-- The high byte is written before the low byte faults (R13). -/
theorem faultsAt_write16_low {s : State} {a : Word} (h : s.romFaults a = false) (h' : s.romFaults (a + 1) = true)
    (r : Regs) (w : Word) :
    FaultsAt (State.write16 { s with regs := r } a w) (a + 1) (s.store8 a (hiByte w)) := by
  have hhigh : State.write8 { s with regs := r } a (hiByte w) = .ok (State.store8 { s with regs := r } a (hiByte w)) :=
    write8_of_not_romFaults (s := { s with regs := r }) h _
  rw [write16_of_write8 hhigh, store8_withRegs]
  exact faultsAt_write8 (by rwa [romFaults_congr (store8_cfg _ _ _)]) r _

/-- The items before the byte that faults stay written. -/
theorem PushesTo.faultsAt {k : Stack} {s : State} {g : Regs} {is : List StackItem} {x : Access}
    (h : PushesTo k { s with regs := g } is x) {before after : List (Word × Byte)} {a : Word} {v : Byte}
    (hs : pushWrites (k.get g) is = before ++ (a, v) :: after) (hw : s.Writable before) (ha : s.romFaults a = true) :
    FaultsAt x a (s.storeAll before) := by
  obtain ⟨-, hfault⟩ := h
  obtain ⟨r, rfl⟩ := hfault before a v after hs hw ha
  exact ⟨r, by rw [storeAll_withRegs]⟩

/-! ### Stores and unary operations (R177 to R183, R260 to R287, R291) -/

/-- STA, STB and CLR write their byte from the state their address computation leaves. -/
theorem exec_storeByte {op : Mem → Instr} (h : op ∈ [Instr.sta, .stb, .clr]) (m : Mem) (s : State) :
    ∃ r v, exec (op m) s = finish s (State.write8
      { (effectiveAddress m (s.advance (op m).size)).2 with regs := r }
      (effectiveAddress m (s.advance (op m).size)).1 v) := by
  simp only [List.mem_cons, List.not_mem_nil, or_false] at h
  obtain rfl | rfl | rfl := h
  · exact ⟨_, _, rfl⟩
  · exact ⟨_, _, rfl⟩
  · exact ⟨_, _, rfl⟩

theorem storeByte_romFault {op : Mem → Instr} (hop : op ∈ [Instr.sta, .stb, .clr]) (m : Mem) {s : State}
    (h : s.romFaults (effectiveAddress m (s.advance (op m).size)).1 = true) :
    exec (op m) s = .next { (effectiveAddress m (s.advance (op m).size)).2 with
      regs := s.regs, status := .faulted (.romWrite (effectiveAddress m (s.advance (op m).size)).1) } := by
  obtain ⟨r, v, hexec⟩ := exec_storeByte hop m s
  rw [hexec]
  exact (faultsAt_write8 (((afterOperand_mem m _ s).romFaults _).trans h) r v).finish s

/-- The byte was read before the write back faults. -/
theorem unary_romFault {row : UnaryRow} (hrow : row ∈ unaryRows) (m : Mem) {s : State}
    (h : s.romFaults (effectiveAddress m (s.advance (row.mem m).size)).1 = true) :
    let ea := effectiveAddress m (s.advance (row.mem m).size)
    exec (row.mem m) s = .next { (ea.2.read8 ea.1).2 with regs := s.regs, status := .faulted (.romWrite ea.1) } := by
  obtain ⟨op, hop⟩ := exists_rowIsOp hrow
  rw [hop.onMem]
  exact (faultsAt_write8 (((afterOperand_src8 (.mem m) _ s).romFaults _).trans h) _ _).finish s

theorem storeWord_romFault {op : Mem → Instr} {row : Reg16Row}
    (hmem : (op, row) ∈ [(Instr.std, rowD), (Instr.stx, rowX), (Instr.sty, rowY), (Instr.stu, rowU), (Instr.sts, rowS)])
    (m : Mem) (s : State) :
    let p := effectiveAddress m (s.advance (op m).size)
    (s.romFaults p.1 = true →
      exec (op m) s = .next { p.2 with regs := s.regs, status := .faulted (.romWrite p.1) }) ∧
    (s.romFaults p.1 = false → s.romFaults (p.1 + 1) = true →
      exec (op m) s = .next { p.2.store8 p.1 ((row.get p.2.regs).extractLsb' 8 8) with
        regs := s.regs, status := .faulted (.romWrite (p.1 + 1)) }) := by
  obtain ⟨k, rfl, hexec⟩ := exec_store16 hmem
  have hp := afterOperand_mem m (op m).size s
  refine ⟨fun h => ?_, fun h h' => ?_⟩
  · rw [hexec]
    exact (faultsAt_write16_high ((hp.romFaults _).trans h) _ _).finish s
  · rw [hexec, ← k.get_eq_row]
    exact (faultsAt_write16_low ((hp.romFaults _).trans h) ((hp.romFaults _).trans h') _ _).finish s

/-! ### Pushes (R343, R344, R346, R362, R364, R380 to R384, R431 to R433) -/

/-- A call pushes the PC of the registers g it is made from. -/
theorem callTo_faultsAt {target : Word} {s : State} {g : Regs} {before after : List (Word × Byte)} {a : Word} {v : Byte}
    (hs : pushWrites g.s [.word g.pc] = before ++ (a, v) :: after) (hw : s.Writable before)
    (ha : s.romFaults a = true) :
    FaultsAt (callTo target { s with regs := g }) a (s.storeAll before) :=
  ((push16_pushesTo .s g.pc { s with regs := g }).faultsAt hs hw ha).andThen _

/-- An event pushes its frame of the registers g it is taken from. -/
theorem takeException_faultsAt {e : Event} {s : State} {g : Regs} {before after : List (Word × Byte)} {a : Word}
    {v : Byte} (hs : pushWrites g.s (e.frame g) = before ++ (a, v) :: after) (hw : s.Writable before)
    (ha : s.romFaults a = true) : FaultsAt (takeException e { s with regs := g }) a (s.storeAll before) := by
  obtain ⟨r, hr⟩ := takeException_romFault (s := { s with regs := g }) hs hw ha
  exact ⟨r, by rw [hr, storeAll_withRegs]⟩

theorem clearAndWait_faultsAt {ii : Byte} {s : State} {g : Regs} {before after : List (Word × Byte)} {a : Word}
    {v : Byte}
    (hs : pushWrites g.s (entireFrame { g with cc := withE true (g.cc &&& ii) }) = before ++ (a, v) :: after)
    (hw : s.Writable before) (ha : s.romFaults a = true) :
    FaultsAt (clearAndWait ii { s with regs := g }) a (s.storeAll before) := by
  rw [← ccSet_e] at hs
  have hpush := pushEntire_pushesTo { s with regs := { g with cc := ccSet (g.cc &&& ii) .e true } }
  exact (hpush.faultsAt hs hw ha).andThen _

/-- Every push of an instruction ends it at the first byte that faults, whichever instruction it is. -/
theorem stacksBytes_romFault {i : Instr} {s p : State} {ws : List (Word × Byte)} (h : StacksBytes i s p ws)
    {before after : List (Word × Byte)} {a : Word} {v : Byte} (hs : ws = before ++ (a, v) :: after)
    (hw : s.Writable before) (ha : s.romFaults a = true) :
    exec i s = .next { p.storeAll before with regs := s.regs, status := .faulted (.romWrite a) } := by
  obtain ⟨⟨rr, rfl⟩ | ⟨rrrr, rfl⟩, rfl, rfl⟩ | ⟨m, rfl, rfl, rfl⟩ | ⟨pb, rfl, rfl, rfl⟩ | ⟨pb, rfl, rfl, rfl⟩ |
    ⟨rfl | rfl | rfl, rfl, rfl⟩ | ⟨ii, rfl, rfl, rfl⟩ := h
  · exact (callTo_faultsAt hs hw ha).finish p
  · exact (callTo_faultsAt hs hw ha).finish p
  · have hp := afterOperand_mem m (Instr.jsr m).size s
    have hcall := callTo_faultsAt (target := (effectiveAddress m (s.advance (Instr.jsr m).size)).1) hs
      (fun w hmem => (hp.romFaults w.1).trans (hw w hmem)) ((hp.romFaults a).trans ha)
    exact hcall.finish s
  · exact ((pushList_pushesTo .s pb (p.advance _)).faultsAt hs hw ha).finish p
  · exact ((pushList_pushesTo .u pb (p.advance _)).faultsAt hs hw ha).finish p
  · exact (takeException_faultsAt (e := .swi) hs hw ha).finish p
  · exact (takeException_faultsAt (e := .swi2) hs hw ha).finish p
  · exact (takeException_faultsAt (e := .swi3) hs hw ha).finish p
  · exact (clearAndWait_faultsAt hs hw ha).finish p

/-- An entry that faults adds no cycles (log entry 12). -/
theorem enter_romFault {e : Event} {s : State} {before after : List (Word × Byte)} {a : Word} {v : Byte}
    (hs : pushWrites s.regs.s (e.frame s.regs) = before ++ (a, v) :: after) (hw : s.Writable before)
    (ha : s.romFaults a = true) :
    enter e s = .next { s.storeAll before with regs := s.regs, status := .faulted (.romWrite a) } := by
  rw [enter, (takeException_faultsAt (g := s.regs) hs hw ha).finish s]
  rfl

/-- Settles O25: each clause from the one write of its instructions that faults. -/
theorem writesIntoRomEndTheRun : Obligations.WritesIntoRomEndTheRun := by
  refine ⟨fun _ hop m _ => storeByte_romFault hop m, fun _ hrow m _ => unary_romFault hrow m,
    fun _ _ hmem => storeWord_romFault hmem, fun _ _ _ _ h _ _ _ _ => stacksBytes_romFault h, ?_⟩
  intro e setE frame s hmem before a v after hs hw ha
  simp only [List.mem_cons, Prod.mk.injEq, List.not_mem_nil, or_false] at hmem
  obtain ⟨rfl, rfl, rfl⟩ | ⟨rfl, rfl, rfl⟩ | ⟨rfl, rfl, rfl⟩ := hmem
  · exact enter_romFault (e := .nmi) hs hw ha
  · exact enter_romFault (e := .firq) hs hw ha
  · exact enter_romFault (e := .irq) hs hw ha

end Sys2Proof.Machine
end

section
/-! PROOF. The serial peripheral (spec/60_exceptions.md R446 to R452): the fields of CR as facts on its number, the bits
of the status register, the register accesses, and the two halves of a poll as one update each. -/

namespace Sys2Proof.Machine

/-! ### The fields of CR (R450, R452) -/

/-- A two-bit field of a byte as a fact on its number. -/
theorem extractLsb'_two_beq_iff (b : Byte) (i : Nat) (v : BitVec 2) :
    (b.extractLsb' i 2 == v) = true ↔ b.toNat / 2 ^ i % 4 = v.toNat := by
  rw [beq_iff_eq, ← BitVec.toNat_inj, BitVec.extractLsb'_toNat, Nat.shiftRight_eq_div_pow]

theorem Serial.held_iff (d : Serial) : d.held = true ↔ d.cr.toNat % 4 = 3 := by
  simpa [Serial.held] using extractLsb'_two_beq_iff d.cr 0 0b11#2

theorem Serial.tie_iff (d : Serial) : d.tie = true ↔ d.cr.toNat / 32 % 4 = 1 :=
  extractLsb'_two_beq_iff d.cr 5 0b01#2

theorem Serial.rie_iff (d : Serial) : d.rie = true ↔ 128 ≤ d.cr.toNat := by
  rw [Serial.rie, getLsbD_seven, decide_eq_true_iff]

/-! ### The registers (R447 to R450) -/

/-- The bits of the status register. -/
theorem Serial.getLsbD_status (d : Serial) (k : Nat) :
    d.status.getLsbD k =
      if k = 0 then d.rdrf else if k = 1 then d.tdre else if k = 7 then d.irqOut else false := by
  have happend : d.status.getLsbD k = BitVec.getLsbD (w := 1 + 5 + 1 + 1)
      (BitVec.ofBool d.irqOut ++ 0b00000#5 ++ BitVec.ofBool d.tdre ++ BitVec.ofBool d.rdrf) k := rfl
  simp only [happend, BitVec.getLsbD_append, BitVec.getLsbD_ofBool]
  match k with
  | 0 | 1 | 2 | 3 | 4 | 5 | 6 | 7 => simp
  | k + 8 => simp

/-- An offset of 2 or more names no register. -/
theorem ne_of_two_le {off : Word} (h : 2 ≤ off.toNat) : off ≠ 0x0000#16 ∧ off ≠ 0x0001#16 := by
  constructor <;> rintro rfl <;> exact absurd h (by decide)

/-- Settles O56. -/
theorem serialRegisters : Obligations.SerialRegisters := by
  intro d sub v off
  refine ⟨⟨d.status, rfl, d.getLsbD_status 0, d.getLsbD_status 1, d.getLsbD_status 7, fun k h2 h6 => ?_⟩, rfl,
    fun h => ?_, fun h => ?_, fun h => ?_, rfl⟩
  · rw [Serial.getLsbD_status, if_neg (by omega), if_neg (by omega), if_neg (by omega)]
  · obtain ⟨h0, h1⟩ := ne_of_two_le h
    exact ⟨(if_neg h0).trans (if_neg h1), (if_neg h0).trans (if_neg h1)⟩
  · exact if_pos ((Serial.held_iff { d with cr := v }).2 h)
  · exact if_neg (mt (Serial.held_iff { d with cr := v }).1 h)

/-! ### The poll and the interrupt predicate (R446, R451, R452) -/

theorem Serial.pollTx_eq (d : Serial) :
    d.pollTx = { d with
      output := if d.txPending then d.output ++ [d.tdr] else d.output
      tdre := d.tdre || d.txPending
      txPending := false } := by
  obtain ⟨cr, rdr, tdr, rdrf, tdre, txPending, output⟩ := d
  cases txPending with
  | false => simp [Serial.pollTx]
  | true => simp [Serial.pollTx]

theorem Serial.pollRx_eq (d : Serial) (rx : Option Byte) :
    d.pollRx rx = { d with
      rdr := if d.rdrf then d.rdr else rx.getD d.rdr
      rdrf := d.rdrf || rx.isSome } := by
  obtain ⟨cr, rdr, tdr, rdrf, tdre, txPending, output⟩ := d
  cases rx with
  | none => simp [Serial.pollRx]
  | some b => cases rdrf <;> simp [Serial.pollRx]

/-- Settles O57. -/
theorem serialPollAndInterrupt : Obligations.SerialPollAndInterrupt := by
  refine fun d h => ⟨fun hheld => ?_, fun hfree => ?_, ?_⟩
  · exact if_pos (d.held_iff.2 hheld)
  · rw [Serial.poll, if_neg (mt d.held_iff.1 hfree), Serial.pollRx_eq, Serial.pollTx_eq]
  · rw [← Serial.rie_iff, ← Serial.tie_iff, ne_eq, ← Serial.held_iff]
    simp [Serial.irqOut]

end Sys2Proof.Machine
end

section
/-! PROOF. Loading images (spec/70_reset_and_hazards.md R472) and the cycle costs that depend on operands or on the
state (R482, R483, spec/60_exceptions.md R414). -/

namespace Sys2Proof.Machine

open Sys2Proof.Claims

/-! ### Loading (R472) -/

section Load

variable {base : Word} {s t : State}

/-- An image loads byte after byte. -/
theorem loadImage_cons {w : Word × Byte} {image : List (Word × Byte)} (h : loadImage base (w :: image) s = some t) :
    ∃ u, loadByte s (base + w.1) w.2 = some u ∧ loadImage base image u = some t := by
  simp only [loadImage] at h
  split at h
  case h_1 u hu => exact ⟨u, hu, h⟩
  case h_2 => cases h

theorem loadImage_append {before after : List (Word × Byte)} (h : loadImage base (before ++ after) s = some t) :
    ∃ u, loadImage base before s = some u ∧ loadImage base after u = some t := by
  induction before generalizing s with
  | nil => exact ⟨s, rfl, h⟩
  | cons w before ih =>
    obtain ⟨v, hv, hrest⟩ := loadImage_cons h
    obtain ⟨u, hu, hafter⟩ := ih hrest
    exact ⟨u, by simp only [loadImage, hv, hu], hafter⟩

/-- Loading changes storage alone. -/
theorem loadImage_frame {image : List (Word × Byte)} (h : loadImage base image s = some t) :
    t = { s with mem := t.mem } := by
  induction image generalizing s with
  | nil => rw [← Option.some.inj h]
  | cons w image ih =>
    obtain ⟨u, hu, hrest⟩ := loadImage_cons h
    obtain ⟨kind, key, -, rfl⟩ := loadByte_spec hu
    exact (ih hrest :)

theorem loadImage_cfg {image : List (Word × Byte)} (h : loadImage base image s = some t) : t.cfg = s.cfg := by
  rw [loadImage_frame h]

theorem loadImage_wf {image : List (Word × Byte)} (hm : s.mem.wf) (h : loadImage base image s = some t) : t.mem.wf := by
  induction image generalizing s with
  | nil => exact Option.some.inj h ▸ hm
  | cons w image ih =>
    obtain ⟨u, hu, hrest⟩ := loadImage_cons h
    exact ih (loadByte_wf hm hu) hrest

/-- A byte of storage that no byte of the image goes to keeps its value. -/
theorem loadImage_peek_other {image : List (Word × Byte)} {b : Word} (h : loadImage base image s = some t)
    (hsep : ∀ w ∈ image, Separate s.cfg (base + w.1) b) : t.peek b = s.peek b := by
  induction image generalizing s with
  | nil => rw [← Option.some.inj h]
  | cons w image ih =>
    obtain ⟨u, hu, hrest⟩ := loadImage_cons h
    obtain ⟨hw, hothers⟩ := List.forall_mem_cons.1 hsep
    rw [← loadByte_cfg hu] at hothers
    exact (ih hrest hothers).trans (loadByte_peek_other hu hw)

end Load

/-- Settles O59: the last byte given for an address is loaded, and the bytes after it go elsewhere. -/
theorem loadedImagesReadBack : Obligations.LoadedImagesReadBack := by
  intro base image s t hm h
  refine ⟨fun before after a v himage hsep => ?_, fun b => loadImage_peek_other h, loadImage_frame h⟩
  subst himage
  obtain ⟨u, hbefore, hrest⟩ := loadImage_append h
  obtain ⟨w, hbyte, hafter⟩ := loadImage_cons hrest
  have hcfg : w.cfg = s.cfg := (loadByte_cfg hbyte).trans (loadImage_cfg hbefore)
  rw [loadImage_peek_other hafter (by rwa [hcfg])]
  exact loadByte_peek_same (loadImage_wf hm hbefore) hbyte

/-! ### Cycles (R414, R482, R483) -/

/-- The bytes a register list moves, counted by register or added up from the lowest bit. -/
theorem listBytes_eq_pulledAt (pb : Byte) : listBytes pb = pulledAt pb 8 := by
  have one (b : Bool) : (if b then 1 else 0) = b.toNat := by cases b <;> rfl
  have two (b : Bool) : (if b then 2 else 0) = 2 * b.toNat := by cases b <;> rfl
  simp only [pulledAt, listBytes, one, two, Nat.reduceLT, if_true, if_false]
  omega

/-- The branches of a row but BRA and BRN: the short one costs 3, the long one by its condition. -/
theorem exists_branchCost {row : BranchRow} (h : row ∈ branchRows.drop 2) :
    ∃ k, (∀ rr s, cost (row.short rr) s = 3) ∧ (∀ rrrr s, cost (row.long rrrr) s = longBranchCycles k s) ∧
      ∀ cc, condHolds k cc = true ↔ row.takenAt cc := by
  simp only [branchRows, List.drop, List.mem_cons, List.not_mem_nil, or_false] at h
  obtain rfl | rfl | rfl | rfl | rfl | rfl | rfl | rfl | rfl | rfl | rfl | rfl | rfl | rfl := h
  all_goals exact ⟨_, fun _ _ => rfl, fun _ _ => rfl, fun _ => by simp [condHolds, BranchRow.takenAt]⟩

/-- Settles O60. -/
theorem cycleCosts : Obligations.CycleCosts := by
  refine ⟨fun r n5 n8 n16 ind => ?_, fun row hrow rr rrrr s => ?_, fun pb s => ?_, fun s => rfl⟩
  · exact ⟨rfl, rfl, rfl, rfl, rfl, rfl, rfl, rfl, rfl, rfl, rfl, rfl, rfl, rfl⟩
  · obtain ⟨k, hshort, hlong, htaken⟩ := exists_branchCost hrow
    simp only [hshort, hlong, longBranchCycles, ← htaken]
    exact ⟨trivial, fun hc => if_pos hc, fun hc => if_neg hc⟩
  · rw [← listBytes_eq_pulledAt]
    exact ⟨rfl, rfl, rfl, rfl⟩

end Sys2Proof.Machine
end
